-- ==== Sys2Proof/Word.lean ====
section
/-!
DEFINITION. The words of the CG20: bytes, and the 32-bit microtick stamps of R22.
-/

namespace Sys2Proof

/-- One byte of a frame, a record or an image (R185). -/
abbrev Byte := BitVec 8

/-- A value of the microtick count: 32 bits, wrapping (R22).  Round numbers are compared the same way (R45). -/
abbrev Stamp := BitVec 32

end Sys2Proof
end

