-- ==== Sys2Proof/Syntax.lean ====
section
/-!
DEFINITION. The commands of the block: one constructor of `Instr` for each row of the spec's table of
operations and events.  Rows by which the outside world (the pack controller, the modules, the shunt converter,
the contactors, the pins) hands the part data carry that data as operands.  Rows by which the part itself acts
(a decoder taking the oldest command of its list, a timer running out, a claim being granted) carry only what
tells two instances of the row apart (which coil, which contactor): everything else stands in the state.
-/

namespace Sys2Proof

/-- The four contactors, in the order of the code table (R185). -/
inductive Contactor where
  | mneg | mpos | pre | chg
  deriving DecidableEq, Repr

/-- The two link-rate straps (R1); `true` is high. -/
structure Straps where
  lr1 : Bool
  lr0 : Bool
  deriving DecidableEq, Repr

/-- What the chain port reads from a chain frame it receives (R14, end): its kind, and from a RESULT frame its
position, voltages, temperatures and flags, from the count frame its count, from a module's reply its payload.
`other` is any kind that answers no request. -/
inductive ChainContent where
  | result (position : Nat) (voltages temperatures : List (BitVec 16)) (flags : Byte)
  | count (found : Nat)
  | moduleReply (payload : List Byte)
  | other
  deriving DecidableEq, Repr

/-- A frame received on the chain link.  `bytes` are all bytes that follow its start delimiter, the two CRC bytes
last (R186); `truncated` says that it broke off before its end (R15).  The layout of chain frames is not given
in the manual (R14), so what the chain port reads from the bytes stands beside them in `content`. -/
structure ChainRx where
  bytes : List Byte
  content : ChainContent
  truncated : Bool
  deriving DecidableEq, Repr

/-- The commands: one constructor per row of the table of operations and events. -/
inductive Instr where
  | powerOnReset (straps : Straps)
  | powerLoss
  | rstNLow
  | rstNHigh (straps : Straps)
  | startUpLoading
  | startUpLoadingEnd
  | chainWakeWaitExpiry
  | startDelimiter
  | receiveIdleTimeout
  | northFrameComplete (bytes : List Byte)
  | northFrameSent
  | holdingPlaceReplyEnqueue
  | chainPortReplyEnqueue
  | getStatus
  | getStatusClear
  | readTable
  | setTrim
  | restart
  | restartBegin
  | readRound
  | releaseRound
  | readLimits
  | clearLimit
  | clearLimitAll
  | close
  | openCmd
  | fastOpen
  | clearTrip
  | readEvents
  | switchProfile
  | enterProfile
  | returnProfile
  | sleep
  | updErase
  | updWrite
  | updVerify
  | updActivate
  | windowClose
  | acquireWindowClose
  | triggerInstant
  | triggerSend
  | forwardHeadStart
  | chainFrameSent
  | chainFrameReceived (frame : ChainRx)
  | chainReplyTimeout
  | currentRecordArrival (record : List Byte)
  | currentRecordIdleTimeout
  | streamTimerExpiry
  | alignWaitExpiry
  | limitFastOpenRequest
  | limitEnterRequest
  | pullInTimerExpiry (coil : Contactor)
  | coilSenseChange (coil : Contactor) (current : Bool)
  | openCoilIntervalExpiry (coil : Contactor)
  | feedbackInputChange (contactor : Contactor) (closed : Bool)
  | feedbackDebounceExpiry (contactor : Contactor)
  | stepTimerExpiry
  | deferTimerExpiry
  | entryStart
  | entryCompletion
  | watchTimerExpiry
  | chainWakeTimerExpiry
  | wakeInChange (high : Bool)
  | wakeInHoldExpiry
  | wakingEnd
  | blockEraseComplete
  | rowProgramComplete
  | verificationEnd
  | slotPointerWriteComplete
  | counterWriteComplete
  | reload
  | tamperInputChange (active : Bool)
  | tamperDebounceExpiry
  | chainReplyStart
  | unknownCommandCode
  deriving DecidableEq, Repr

end Sys2Proof
end

