-- ==== Sys2Proof/Config.lean ====
section
/-!
DEFINITION. What one part fixes and the manual does not give, and the values the manual leaves open.  None of
these has a body: nothing can be proved of a value of theirs, so a claim holds for every part.
-/

namespace Sys2Proof

/-- The tag engine of R169: the 16-byte tag it computes from the update secret and the bytes of an image before
its tag.  The manual gives its inputs and its length and not its algorithm. -/
opaque Config.computedTag (secret image : List Byte) : Vector Byte 16

/-- The update secret a part leaves the factory with (R168).  No command reads or writes it. -/
opaque Config.updateSecret : List Byte

/-- A free value for each byte a power loss leaves undefined (R167), drawn by the counter `freeIndex` of State. -/
opaque Config.freeByte : Nat → Byte

/-- A free choice for each pointer or counter write that a power loss stops (R167: the old value whole or the
new value whole), drawn by the counter `freeIndex` of State. -/
opaque Config.freeChoice : Nat → Bool

end Sys2Proof
end

