-- ==== Sys2Proof/Machine/State.lean ====
section
/-!
DEFINITION. The state of the CG20, block by block as section 3 of the introduction lists them: plain data.
A name defined by a formula over other state (the lock's window, the held conditions, the ALERT line, the
active profile, the busy flags and back-links, NOT_PRESENT positions) is no field: `Flags.lean`,
`Operands.lean` and the block files give it as a function.
-/

namespace Sys2Proof.Machine

/-! ### The three outcomes -/

/-- No rule of the manual stops the part, and every access the part makes lies inside its array: there is no
fault.  (Safe: nothing can be proved from a fault that cannot happen.) -/
inductive Fault where
  deriving DecidableEq, Repr

/-- The reasons a step is refused.  Every row of the table has its meaning, so nothing raises one. -/
inductive Refusal where
  /-- Raised by an arm of `exec` for a row without a meaning.  Safe: the model stops.  No arm raises it. -/
  | notModelled (mnemonic : String)
  deriving DecidableEq, Repr

/-! ### Shared pieces -/

/-- One value for each of the four contactors. -/
structure PerContactor (α : Type) where
  mneg : α
  mpos : α
  pre : α
  chg : α
  deriving DecidableEq, Repr

/-- An input with a debounce (R102, R180): the raw reading, the debounced state, and what is left of a running
debounce interval in microticks.  `true` is CLOSED for a feedback input and active for TAMPER. -/
structure DebouncedInput where
  raw : Bool
  debounced : Bool
  interval : Option Nat
  deriving DecidableEq, Repr

/-- What the cause byte of section 11.1 stands for: causes of events, of trips and of chain elements. -/
inductive Cause where
  | command | profile | feedback | unlock | timeout | interlock | noReference | weld | start | sleep
  | limit (entry : Nat)
  deriving DecidableEq, Repr

/-! ### Power (R21, R167) -/

/-- Whether the part has power, and whether RST_N holds it in reset. -/
structure Power where
  powered : Bool
  rstNLow : Bool
  deriving DecidableEq, Repr

/-! ### North link port and management decoder (chapter 1) -/

/-- The four north link rates (R1). -/
inductive LinkRate where
  | mbit1 | mbit2 | mbit4 | mbit8
  deriving DecidableEq, Repr

/-- The receiver (R2, R25): idle, or assembling a frame whose start delimiter ended at `delimiter`; `discard` is
set for a frame whose start was seen in deep sleep. -/
inductive Receiver where
  | idle
  | assembling (delimiter : Stamp) (discard : Bool)
  deriving DecidableEq, Repr

/-- One accepted CMD frame in the command list (R6). -/
structure Command where
  tag : BitVec 4
  payload : List Byte
  deriving DecidableEq, Repr

/-- The five frame kinds of the north link, in the order of the code table. -/
inductive FrameKind where
  | sync | cmd | reply | fwd | fwdReply
  deriving DecidableEq, Repr

/-- A north link frame without its delimiter and CRC. -/
structure NorthFrame where
  dest : BitVec 5
  kind : FrameKind
  tag : BitVec 4
  payload : List Byte
  deriving DecidableEq, Repr

/-- The seven sticky flags (R9). -/
structure StickyFlags where
  linkError : Bool
  straySync : Bool
  overrun : Bool
  curOrder : Bool
  curFault : Bool
  chainMismatch : Bool
  entryFailed : Bool
  deriving DecidableEq, Repr

/-- The three producers of the transmit queue (R5). -/
inductive Producer where
  | decoder | filter | chainPort
  deriving DecidableEq, Repr

/-- The north link port, the management decoder and the forward filter's holding place.  `claims` lists the producers
that waited on the full transmit queue when a place came free and have not taken their place yet (R5). -/
structure NorthPort where
  rate : LinkRate
  receiver : Receiver
  commands : List Command
  tx : List NorthFrame
  sticky : StickyFlags
  holding : Option NorthFrame
  restartTaken : Bool
  claims : List Producer
  deriving DecidableEq, Repr

/-! ### Chain port and chain arbiter (chapter 1) -/

/-- The four forward classes (R18). -/
inductive FwdClass where
  | read | balance | config | diag
  deriving DecidableEq, Repr

/-- One entry of the forward queue (R18). -/
structure FwdEntry where
  dest : BitVec 5
  tag : BitVec 4
  cls : FwdClass
  frame : List Byte
  deriving DecidableEq, Repr

/-- The measurement kinds (R40). -/
inductive MeasKind where
  | cells | temps | both
  deriving DecidableEq, Repr

/-- The frames the chain port sends (R14). -/
inductive ChainFrame where
  | chainWake (forEnumeration : Bool)
  | chainSleep
  | enumerate
  | trigger (kind : MeasKind) (positions : List Nat)
  | readResult (position : Nat)
  | forwarded (entry : FwdEntry)
  deriving DecidableEq, Repr

/-- How far a transaction is (R14, R15): its frame is being sent; its reply is awaited, with what is left of the
reply timeout; its reply has begun. -/
inductive TxnPhase where
  | sending
  | awaiting (timeout : Nat)
  | receiving
  deriving DecidableEq, Repr

/-- The transaction in flight. -/
structure Transaction where
  frame : ChainFrame
  phase : TxnPhase
  deriving DecidableEq, Repr

/-- The frames the sleep controller claims the link for (R20). -/
inductive SleepFrame where
  | wake | sleep
  deriving DecidableEq, Repr

/-- The enumeration of the current start-up or activation (R16): not begun; running, with what is left of the
5 ms wait while that runs; ended. -/
inductive Enumeration where
  | notBegun
  | running (wait : Option Nat)
  | ended
  deriving DecidableEq, Repr

/-- The chain port and the chain arbiter.  `unasked`: a frame is in reception that no transaction takes: it began while
none waited for a reply (R15), or it is the reply of a transaction that a reset has abandoned (R21). -/
structure ChainPort where
  forwardQueue : List FwdEntry
  transaction : Option Transaction
  sleepClaim : Option SleepFrame
  keptReplies : List NorthFrame
  enumeration : Enumeration
  foundCount : Nat
  trims : List (Option Int)
  unasked : Bool
  deriving DecidableEq, Repr

/-! ### Timebase and sync lock (chapter 2) -/

/-- The oscillator the microtick count runs from (R24). -/
inductive ClockSource where
  | main | lowPower
  deriving DecidableEq, Repr

/-- The microtick count and its clock. -/
structure Timebase where
  microtick : Stamp
  clock : ClockSource
  deriving DecidableEq, Repr

inductive LockState where
  | unlocked | acquiring | locked | holdover
  deriving DecidableEq, Repr

/-- The lock record (R27). -/
structure SyncLock where
  state : LockState
  tLast : Option Stamp
  lEst : Nat
  acquireCount : Nat
  missCount : Nat
  deriving DecidableEq, Repr

/-! ### The working tables (R39, R40, R80, R103, R104, R135) -/

inductive WakeInMode where
  | high | low | rising | falling
  deriving DecidableEq, Repr

/-- One module entry; `population` lists the populated inputs, 1 to 12, in ascending order. -/
structure ModuleEntry where
  population : List Nat
  temperatureCount : Nat
  resistance : Nat
  fineAdjust : Int
  deriving DecidableEq, Repr

/-- The module table (R39); the module count is the length of `modules`. -/
structure ModuleTable where
  syncDelay : Nat
  hopDelay : Nat
  replyTimeout : Nat
  forwardWindow : Nat
  converterLatency : Nat
  streamTimeout : Nat
  gapLimit : Nat
  alignWaitLimit : Nat
  wakeInMode : WakeInMode
  holdTime : Nat
  modules : List ModuleEntry
  deriving DecidableEq, Repr

/-- One schedule entry (R40); `moduleSet` lists positions in ascending order. -/
structure ScheduleEntry where
  phase : Nat
  kind : MeasKind
  moduleSet : List Nat
  decimation : Nat
  deriving DecidableEq, Repr

inductive SignalClass where
  | cellRaw | cellComp | temp | current | moduleFlag | moduleMissing
  deriving DecidableEq, Repr

/-- One limit entry (R80).  The fields a class does not use are kept as loaded, for READ_TABLE (R11);
`enterTarget` is the byte of the image, used when `enter` is set. -/
structure LimitEntry where
  cls : SignalClass
  firstPosition : Nat
  lastPosition : Nat
  firstChannel : Nat
  lastChannel : Nat
  flagMask : Byte
  threshold : Int
  hysteresis : Nat
  below : Bool
  latch : Bool
  persistence : Nat
  alert : Bool
  fastOpen : Bool
  blockClose : Bool
  wake : Bool
  enter : Bool
  enterTarget : Nat
  deriving DecidableEq, Repr

inductive SeqClass where
  | closeDrive | closeCharge | openSeq
  deriving DecidableEq, Repr

/-- The steps of a sequence (R104); times are in milliseconds. -/
inductive SeqStep where
  | drive (coil : Contactor)
  | release (coil : Contactor)
  | wait (ms : Nat)
  | awaitFb (coil : Contactor) (closed : Bool) (timeout : Nat)
  | awaitPrecharge (ratio timeout : Nat)
  | endStep
  deriving DecidableEq, Repr

structure Sequence where
  cls : SeqClass
  steps : List SeqStep
  deriving DecidableEq, Repr

/-- The sequence table and its header (R103, R104); sequence ids are places in `sequences`. -/
structure SequenceTable where
  pullInTime : PerContactor Nat
  holdLevel : PerContactor Nat
  debounceTime : Nat
  breakLimit : Nat
  deferTimeout : Nat
  sequences : List Sequence
  deriving DecidableEq, Repr

/-- One profile record (R135).  The sets are the bit masks of the layout (bit i for member i). -/
structure ProfileRecord where
  id : Nat
  watch : Bool
  base : Bool
  sleepOk : Bool
  activateOk : Bool
  openOnEntry : Bool
  keepNewest : Bool
  scheduleId : Nat
  limitSetId : Nat
  lnom : Nat
  tol : Nat
  holdoverLimit : Nat
  allowedClose : Byte
  forwardSet : BitVec 4
  watchProfile : Option Nat
  watchInterval : Nat
  chainWakeTime : Nat
  reportEvery : Nat
  deriving DecidableEq, Repr

/-- The working tables taken from one image, and its version. -/
structure WorkingTables where
  version : BitVec 32
  modules : ModuleTable
  schedules : List (List ScheduleEntry)
  limitSets : List (List LimitEntry)
  sequence : SequenceTable
  profiles : List ProfileRecord
  deriving DecidableEq, Repr

/-! ### Schedule engine and round store (chapter 3) -/

/-- A due entry with its trigger instant (R44). -/
structure DueEntry where
  index : Nat
  phase : Nat
  instant : Stamp
  deriving DecidableEq, Repr

/-- A taken trigger that waits to be sent (R45, R47). -/
structure TakenTrigger where
  index : Nat
  instant : Stamp
  round : Stamp
  deriving DecidableEq, Repr

/-- The status of a module entry (R51, R52, R56): waiting for its read, or one of the four final statuses. -/
inductive EntryStatus where
  | waiting | ok | missing | crcError | notPresent
  deriving DecidableEq, Repr

inductive AlignFlag where
  | ok | gap | held | stale | noCurrent
  deriving DecidableEq, Repr

/-- The aligned current of a settled module entry, its flag and its saturation mark (R73). -/
structure Aligned where
  current : Int
  flag : AlignFlag
  saturated : Bool
  deriving DecidableEq, Repr

/-- One module entry of a round (R51, R56). -/
structure RoundEntry where
  position : Nat
  status : EntryStatus
  sampleInstant : Stamp
  raw : Option (List Nat)
  temperatures : Option (List Int)
  flags : Option Byte
  aligned : Option Aligned
  compensated : Option (List Nat)
  deriving DecidableEq, Repr

inductive RoundPhase where
  | collecting | aligning | evaluating
  deriving DecidableEq, Repr

/-- The pack sum and its COMPLETE flag (R75). -/
structure PackSum where
  sum : Nat
  complete : Bool
  deriving DecidableEq, Repr

/-- The round in assembly (R51). -/
structure Round where
  number : Stamp
  profileId : Nat
  scheduleId : Nat
  entryIndex : Nat
  kind : MeasKind
  triggerInstant : Stamp
  tSend : Stamp
  lateness : Stamp
  commitMark : Bool
  phase : RoundPhase
  entries : List RoundEntry
  packSum : Option PackSum
  deriving DecidableEq, Repr

/-- A round record of the store (R56). -/
structure RoundRecord where
  number : Stamp
  profileId : Nat
  scheduleId : Nat
  entryIndex : Nat
  kind : MeasKind
  tSend : Stamp
  lateness : Stamp
  unevaluated : Bool
  isPartial : Bool
  packSum : Option PackSum
  entries : List RoundEntry
  deriving DecidableEq, Repr

/-- The schedule engine.  In a watch pass the due entries that wait for the round before them stand in `held`
(R158), as the members of an equal-phase group do (R46). -/
structure ScheduleEngine where
  counters : List Nat
  due : List DueEntry
  held : List DueEntry
  waiting : Option TakenTrigger
  assembly : Option Round
  deriving DecidableEq, Repr

/-- The round store (R57 to R62) with the round counter (R45). -/
structure RoundStore where
  records : List RoundRecord
  openMark : Bool
  dropped : Nat
  roundCounter : Stamp
  deriving DecidableEq, Repr

/-! ### Current port and alignment unit (chapter 4) -/

/-- One record of the current ring (R66). -/
structure RingRecord where
  stamp : Stamp
  current : Int
  link : Nat
  saturated : Bool
  deriving DecidableEq, Repr

inductive StreamState where
  | present | absent
  deriving DecidableEq, Repr

/-- The pack reference when it is not empty (R76).  `elapsed` counts the microticks since it was set, up to the
65,535 ms at which the age stops; the age is its whole milliseconds. -/
structure PackReference where
  sum : Nat
  tSend : Stamp
  elapsed : Nat
  deriving DecidableEq, Repr

structure CurrentPort where
  ring : List RingRecord
  stream : StreamState
  streamTimer : Option Nat
  portOn : Bool
  reference : Option PackReference
  alignWait : Option Nat
  deriving DecidableEq, Repr

/-! ### Limit monitor (chapter 5) -/

inductive RunLevel where
  | clear | pending | tripped
  deriving DecidableEq, Repr

/-- A last offending record (R83). -/
structure Offence where
  position : Nat
  channel : Nat
  value : Int
  deriving DecidableEq, Repr

/-- The run state of a limit entry. -/
structure RunState where
  level : RunLevel
  count : Nat
  last : Option Offence
  deriving DecidableEq, Repr

/-- A limit ENTER request not yet taken (R90, R144). -/
structure EnterRequest where
  profile : Nat
  entry : Nat
  deriving DecidableEq, Repr

/-- The run states of the working limit set, and the requests handed to the sequencer and to the profile
controller and not yet taken (R88), oldest first. -/
structure LimitMonitor where
  runStates : List RunState
  fastOpenRequests : List Nat
  enterRequests : List EnterRequest
  deriving DecidableEq, Repr

/-! ### Contactor sequencer (chapter 6) -/

inductive CoilState where
  | off | pullIn | hold
  deriving DecidableEq, Repr

/-- A coil driver with its open-coil monitor (R100, R101).  `sense` is the coil's current sense; `noCurrent` is
what is left of the 5 ms interval; `reported` that a COIL_FAULT was recorded in this driving. -/
structure CoilDriver where
  state : CoilState
  pullInTimer : Option Nat
  sense : Bool
  noCurrent : Option Nat
  reported : Bool
  deriving DecidableEq, Repr

inductive SeqState where
  | opened | closing | closed | deferred | opening | tripped
  deriving DecidableEq, Repr

/-- The sequencer: its record (R106), the coil drivers and the feedback inputs.  Timers hold microticks. -/
structure Sequencer where
  state : SeqState
  running : Option Nat
  step : Option Nat
  stepTimer : Option Nat
  openCause : Option Cause
  deferTimer : Option Nat
  weldSuspects : PerContactor Bool
  tripCause : Option Cause
  coils : PerContactor CoilDriver
  feedback : PerContactor DebouncedInput
  deriving DecidableEq, Repr

/-! ### Contactor event queue (chapter 7) -/

inductive EventKind where
  | closeCmd | closeDone | closeFailed | openCmd | openDeferred | highCurrentBreak | openDone | fastOpen
  | weldSuspect | feedbackLost | coilFault
  deriving DecidableEq, Repr

/-- The pack current of R78: the newest ring record's current and saturation mark. -/
structure PackCurrent where
  current : Int
  saturated : Bool
  deriving DecidableEq, Repr

/-- An event record (R126); `contactor = none` is ALL. -/
structure EventRecord where
  stamp : Stamp
  newestRound : Stamp
  contactor : Option Contactor
  kind : EventKind
  cause : Cause
  current : Option PackCurrent
  sequence : Option Nat
  step : Option Nat
  deriving DecidableEq, Repr

structure EventQueue where
  records : List EventRecord
  overflow : Bool
  deriving DecidableEq, Repr

/-! ### Profile controller (chapter 8) -/

/-- A saved context (R142). -/
structure SavedContext where
  runStates : List RunState
  counters : List Nat
  deriving DecidableEq, Repr

/-- One profile of the profile chain with its entry cause and saved context (R137). -/
structure ChainElement where
  profile : Nat
  cause : Cause
  saved : Option SavedContext
  deriving DecidableEq, Repr

/-- The profile chain, newest first (R138).  A profile is busy exactly when it is in the list, its back-link is
the next element, and the active profile is the head. -/
structure ProfileController where
  chain : List ChainElement
  deriving DecidableEq, Repr

/-! ### Sleep controller (chapter 9) -/

inductive PowerState where
  | active | sleepPending | asleep | watchRound | waking
  deriving DecidableEq, Repr

inductive ChainSleep where
  | awake | asleep
  deriving DecidableEq, Repr

inductive WakeCause where
  | limit | wakeIn | link | tamper | report
  deriving DecidableEq, Repr

/-- The wake cause set (R161). -/
structure WakeCauses where
  limit : Bool
  wakeIn : Bool
  link : Bool
  tamper : Bool
  report : Bool
  deriving DecidableEq, Repr

/-- The sleep controller's record (R152), with two pieces the manual implies: whether entry start has been taken
since the last SLEEP (R155), and whether the watch pass of the present watch cycle has been made (R163).
`wakeInHigh` is the level of the WAKE_IN input.  Timers hold microticks. -/
structure SleepController where
  power : PowerState
  chainSleep : ChainSleep
  entryStarted : Bool
  watchTimer : Option Nat
  chainWakeTimer : Option Nat
  watchPassCount : Nat
  passMade : Bool
  wakePending : Bool
  wakeCauses : WakeCauses
  firstCause : Option WakeCause
  wakeInHigh : Bool
  detectorArmed : Bool
  holdInterval : Option Nat
  wakeOut : Bool
  deriving DecidableEq, Repr

/-! ### Table store and update engine (chapter 10) -/

inductive Slot where
  | zero | one
  deriving DecidableEq, Repr

/-- The array operation in flight (R167).  Blocks and addresses are those of the whole array; `tamper` marks a
block erase of the tamper erase, and `loading` the counter write of start-up loading (R182), not of an activation. -/
inductive ArrayOp where
  | erase (block : Nat) (tamper : Bool)
  | program (address : Nat) (bytes : List Byte)
  | pointerWrite (slot : Slot)
  | counterWrite (value : BitVec 32) (loading : Bool)
  deriving DecidableEq, Repr

structure ArrayOperation where
  op : ArrayOp
  remaining : Nat
  deriving DecidableEq, Repr

inductive LockCause where
  | tamper | fails
  deriving DecidableEq, Repr

inductive EngineState where
  | idle | erasing | programming | verifying | verified | activating
  | locked (cause : LockCause)
  deriving DecidableEq, Repr

/-- The verification reasons (R170), one for each check of R174 in order. -/
inductive VerifyReason where
  | format | directory | fields | version | tag
  deriving DecidableEq, Repr

inductive LastVerification where
  | none | passed | abandoned
  | failed (reason : VerifyReason)
  deriving DecidableEq, Repr

inductive LoadResult where
  | loaded
  | noTables (reason : VerifyReason)
  deriving DecidableEq, Repr

/-- Start-up loading (R182): waiting for an array operation in flight; checking the image; ended. -/
inductive StartUp where
  | waiting | checking | ended
  deriving DecidableEq, Repr

/-- The nonvolatile array, the protected area's items and the update engine's record (R167 to R171, R180).
`array` lists the bytes of the two slots that are not blank, by array address, strictly rising. -/
structure TableStore where
  array : List Host.Cell
  slotPointer : Slot
  counter : BitVec 32
  secret : List Byte
  operation : Option ArrayOperation
  engine : EngineState
  failureCount : Nat
  lastVerification : LastVerification
  loadResult : LoadResult
  marks : List Bool
  tamperLatch : Bool
  tamperErase : Option Nat
  tamper : DebouncedInput
  startUp : StartUp
  working : Option WorkingTables
  deriving DecidableEq, Repr

/-! ### The whole part -/

/-- The state of the CG20, the index from which the next free value is drawn, and the commands that wait, oldest
first. -/
structure State where
  power : Power
  north : NorthPort
  chain : ChainPort
  timebase : Timebase
  lock : SyncLock
  sched : ScheduleEngine
  store : RoundStore
  current : CurrentPort
  limits : LimitMonitor
  seq : Sequencer
  events : EventQueue
  profiles : ProfileController
  sleep : SleepController
  tables : TableStore
  freeIndex : Nat
  pending : List Instr
  deriving DecidableEq, Repr

/-! ### Power-on values, block by block -/

/-- All seven sticky flags clear (R21). -/
def StickyFlags.clear : StickyFlags := ⟨false, false, false, false, false, false, false⟩

/-- R21, column power-on; the rate is that of the straps. -/
def NorthPort.powerOn (rate : LinkRate) : NorthPort where
  rate := rate
  receiver := .idle
  commands := []
  tx := []
  sticky := .clear
  holding := none
  restartTaken := false
  claims := []

/-- R21, column power-on: nothing queued, nothing in flight, found count 0, the trim list empty.  That no frame is in
reception holds of the first power-on: DESIGN CHOICE (log 3); a reset keeps what the link carries
(ChainPort.abandoned). -/
def ChainPort.powerOn : ChainPort where
  forwardQueue := []
  transaction := none
  sleepClaim := none
  keptReplies := []
  enumeration := .notBegun
  foundCount := 0
  trims := List.replicate 20 none
  unasked := false

/-- R22, R38: the count is 0 and runs from the main oscillator. -/
def Timebase.powerOn : Timebase := ⟨0, .main⟩

/-- R38: UNLOCKED, L_est 1,000 until tables load. -/
def SyncLock.powerOn : SyncLock := ⟨.unlocked, none, 1000, 0, 0⟩

/-- R62: nothing due, waiting, held or in assembly. -/
def ScheduleEngine.powerOn : ScheduleEngine := ⟨[], [], [], none, none⟩

/-- R62: the store is empty and the round counter 0. -/
def RoundStore.powerOn : RoundStore := ⟨[], false, 0, 0⟩

/-- R68: ring empty, stream ABSENT, timer stopped, reference empty; the port has power. -/
def CurrentPort.powerOn : CurrentPort := ⟨[], .absent, none, true, none, none⟩

/-- R98: no working limit set, no request. -/
def LimitMonitor.powerOn : LimitMonitor := ⟨[], [], []⟩

/-- A driver that is OFF, with the present reading of its sense. -/
def CoilDriver.released (sense : Bool) : CoilDriver := ⟨.off, none, sense, none, false⟩

/-- R151: the chain is empty until tables load. -/
def ProfileController.powerOn : ProfileController := ⟨[]⟩

/-- No wake cause. -/
def WakeCauses.empty : WakeCauses := ⟨false, false, false, false, false⟩

/-- R166; `wakeInHigh` is the level of the input. -/
def SleepController.powerOn (wakeInHigh : Bool) (chainSleep : ChainSleep) : SleepController where
  power := .active
  chainSleep := chainSleep
  entryStarted := false
  watchTimer := none
  chainWakeTimer := none
  watchPassCount := 0
  passMade := false
  wakePending := false
  wakeCauses := .empty
  firstCause := none
  wakeInHigh := wakeInHigh
  detectorArmed := false
  holdInterval := none
  wakeOut := false

/-- All 896 staging marks set (R171). -/
def allMarks : List Bool := List.replicate 896 true

/-- The part right after its first power-on reset, as it left the factory (R168): slot pointer 0, counter 0, both
slots blank, start-up about to load, and no command waiting.  The input levels (straps low, feedback OPEN, no coil
current, WAKE_IN low, TAMPER inactive, no frame on the chain link) and the load result before the first loading are
DESIGN CHOICE (log 3). -/
def State.reset : State where
  power := ⟨true, false⟩
  north := .powerOn .mbit1
  chain := .powerOn
  timebase := .powerOn
  lock := .powerOn
  sched := .powerOn
  store := .powerOn
  current := .powerOn
  limits := .powerOn
  seq :=
    { state := .opened, running := none, step := none, stepTimer := none, openCause := none
      deferTimer := none, weldSuspects := ⟨false, false, false, false⟩, tripCause := none
      coils := ⟨.released false, .released false, .released false, .released false⟩
      feedback := ⟨⟨false, false, none⟩, ⟨false, false, none⟩, ⟨false, false, none⟩, ⟨false, false, none⟩⟩ }
  events := ⟨[], false⟩
  profiles := .powerOn
  sleep := .powerOn false .asleep
  tables :=
    { array := [], slotPointer := .zero, counter := 0, secret := Config.updateSecret, operation := none
      engine := .idle, failureCount := 0, lastVerification := .none, loadResult := .noTables .format
      marks := allMarks, tamperLatch := false, tamperErase := none, tamper := ⟨false, false, none⟩
      startUp := .waiting, working := none }
  freeIndex := 0
  pending := []

end Sys2Proof.Machine
end

