-- ==== Sys2Proof/Machine/Ops.lean ====
section
/-!
DEFINITION. The named operations over the state: one update per block, stamp arithmetic (R23), roundings (section 5
of the introduction), the nonvolatile array, the transmit queue and the event queue.
-/

namespace Sys2Proof.Machine

/-! ### One update per block -/

def State.withPower (s : State) (x : Power) : State := { s with power := x }
def State.withNorth (s : State) (x : NorthPort) : State := { s with north := x }
def State.withChain (s : State) (x : ChainPort) : State := { s with chain := x }
def State.withTimebase (s : State) (x : Timebase) : State := { s with timebase := x }
def State.withLock (s : State) (x : SyncLock) : State := { s with lock := x }
def State.withSched (s : State) (x : ScheduleEngine) : State := { s with sched := x }
def State.withStore (s : State) (x : RoundStore) : State := { s with store := x }
def State.withCurrent (s : State) (x : CurrentPort) : State := { s with current := x }
def State.withLimits (s : State) (x : LimitMonitor) : State := { s with limits := x }
def State.withSeq (s : State) (x : Sequencer) : State := { s with seq := x }
def State.withEvents (s : State) (x : EventQueue) : State := { s with events := x }
def State.withProfiles (s : State) (x : ProfileController) : State := { s with profiles := x }
def State.withSleep (s : State) (x : SleepController) : State := { s with sleep := x }
def State.withTables (s : State) (x : TableStore) : State := { s with tables := x }
def State.withFreeIndex (s : State) (x : Nat) : State := { s with freeIndex := x }
def State.withPending (s : State) (x : List Instr) : State := { s with pending := x }

/-! ### Four contactors -/

def PerContactor.get {α : Type} (p : PerContactor α) : Contactor → α
  | .mneg => p.mneg
  | .mpos => p.mpos
  | .pre => p.pre
  | .chg => p.chg

def PerContactor.set {α : Type} (p : PerContactor α) (c : Contactor) (x : α) : PerContactor α :=
  match c with
  | .mneg => { p with mneg := x }
  | .mpos => { p with mpos := x }
  | .pre => { p with pre := x }
  | .chg => { p with chg := x }

def PerContactor.map {α β : Type} (f : α → β) (p : PerContactor α) : PerContactor β :=
  ⟨f p.mneg, f p.mpos, f p.pre, f p.chg⟩

/-! ### Stamps (R23) -/

/-- A − B modulo 2^32, read as a signed 32-bit number. -/
def stampDiff (a b : Stamp) : Int := (a - b).toInt

/-- A is later than B. -/
def later (a b : Stamp) : Bool := decide (0 < stampDiff a b)

/-- A is not later than B. -/
def notLater (a b : Stamp) : Bool := decide (stampDiff a b ≤ 0)

/-- A stamp and a duration in microticks, modulo 2^32. -/
def stampAdd (a : Stamp) (d : Nat) : Stamp := a + BitVec.ofNat 32 d

/-- A stamp and a signed duration, modulo 2^32. -/
def stampAddInt (a : Stamp) (d : Int) : Stamp := a + BitVec.ofInt 32 d

/-- The present microtick count. -/
def State.now (s : State) : Stamp := s.timebase.microtick

/-! ### Arithmetic words (section 5 of the introduction) -/

/-- "clamp" to a range. -/
def clampInt (x lo hi : Int) : Int := if x < lo then lo else if hi < x then hi else x

/-- "round" of n / d: to the nearest integer, halves away from zero.  The magnitude is the whole part of |n| / d,
raised by 1 when twice the remainder is at least d, with the sign of n (R70). -/
def roundDiv (n : Int) (d : Nat) : Int :=
  let q := n.natAbs / d
  let m : Nat := if d ≤ 2 * (n.natAbs % d) then q + 1 else q
  if n < 0 then -(m : Int) else (m : Int)

/-! ### Timers -/

/-- A running timer with nothing left to run: its expiry is due. -/
def expired (t : Option Nat) : Bool := t == some 0

/-- A duration of so many milliseconds, in microticks (R106). -/
def ms (n : Nat) : Nat := 1000 * n

/-- The part has power and is not held in reset. -/
def State.operating (s : State) : Bool := s.power.powered && !s.power.rstNLow

/-! ### The nonvolatile array (R167) -/

/-- The blank value, which every byte of an erased block has, and which an unlisted address reads as. -/
def blankByte : Byte := 0xFF

/-- The bytes of the two slots: the addresses below the protected area. -/
def arraySize : Nat := 114688

/-- The size of a slot: 28 blocks of 2,048 bytes. -/
def slotSize : Nat := 57344

def Memory.read : List Host.Cell → Nat → Byte
  | [], _ => blankByte
  | (k, v) :: rest, a => if a = k then v else Memory.read rest a

/-- Stores one byte, keeping the canonical form: storing the blank value removes the entry. -/
def Memory.write : List Host.Cell → Nat → Byte → List Host.Cell
  | [], a, v => if v = blankByte then [] else [(a, v)]
  | (k, w) :: rest, a, v =>
    if a < k then (if v = blankByte then (k, w) :: rest else (a, v) :: (k, w) :: rest)
    else if a = k then (if v = blankByte then rest else (a, v) :: rest)
    else (k, w) :: Memory.write rest a v

/-- Stores bytes from an address upward. -/
def Memory.writeBytes (mem : List Host.Cell) (a : Nat) : List Byte → List Host.Cell
  | [] => mem
  | v :: rest => Memory.writeBytes (Memory.write mem a v) (a + 1) rest

/-- Gives the blank value to `n` bytes from an address upward. -/
def Memory.erase (mem : List Host.Cell) (a n : Nat) : List Host.Cell :=
  mem.filter fun c => !(decide (a ≤ c.1) && decide (c.1 < a + n))

/-- `n` bytes from an address upward. -/
def Memory.slice (mem : List Host.Cell) (a : Nat) : Nat → List Byte
  | 0 => []
  | n + 1 => Memory.read mem a :: Memory.slice mem (a + 1) n

/-- The canonical form: addresses above `lo` strictly rising and inside the slots, no entry blank. -/
def Memory.wfFrom (lo : Nat) : List Host.Cell → Bool
  | [] => true
  | (k, v) :: rest => decide (lo ≤ k) && decide (k < arraySize) && !(v == blankByte) && Memory.wfFrom (k + 1) rest

def Memory.wf (mem : List Host.Cell) : Bool := Memory.wfFrom 0 mem

/-- The array address at which a slot begins (R167: slot 1 begins at block 28). -/
def Slot.base : Slot → Nat
  | .zero => 0
  | .one => slotSize

def Slot.other : Slot → Slot
  | .zero => .one
  | .one => .zero

/-- The first array block of a slot. -/
def Slot.firstBlock : Slot → Nat
  | .zero => 0
  | .one => 28

/-- The active slot is the one the slot pointer names; the other is the staging slot (R168). -/
def State.stagingSlot (s : State) : Slot := s.tables.slotPointer.other

/-! ### Tables and the active profile -/

/-- Tables are loaded. -/
def State.tablesLoaded (s : State) : Bool := s.tables.working.isSome

/-- The active profile id: the head of the profile chain (R137, R138). -/
def State.activeId (s : State) : Option Nat := s.profiles.chain.head?.map (·.profile)

/-- The record of a profile id in the working profile table, if it is defined (R135). -/
def State.profileRecord (s : State) (id : Nat) : Option ProfileRecord :=
  match s.tables.working with
  | none => none
  | some t => t.profiles.find? fun r => r.id == id

/-- The active profile's record. -/
def State.activeProfile (s : State) : Option ProfileRecord :=
  match s.activeId with
  | none => none
  | some id => s.profileRecord id

/-- A profile is busy exactly when it is in the chain (R138). -/
def State.busy (s : State) (id : Nat) : Bool := s.profiles.chain.any fun e => e.profile == id

/-- The back-link of a chain: the profile directly below (R137). -/
def backLinkIn (id : Nat) : List ChainElement → Option Nat
  | [] => none
  | e :: rest => if e.profile = id then rest.head?.map (·.profile) else backLinkIn id rest

def State.backLink (s : State) (id : Nat) : Option Nat := backLinkIn id s.profiles.chain

/-- The depth of the chain (R138). -/
def State.depth (s : State) : Nat := s.profiles.chain.length

/-- The working module table. -/
def State.moduleTable (s : State) : Option ModuleTable := s.tables.working.map (·.modules)

/-- The schedule the active profile names (section 3.2). -/
def State.activeSchedule (s : State) : List ScheduleEntry :=
  match s.tables.working, s.activeProfile with
  | some t, some p => t.schedules.getD p.scheduleId []
  | _, _ => []

/-- The entries of the working limit set: those of the limit set the active profile names (R79). -/
def State.limitSet (s : State) : List LimitEntry :=
  match s.tables.working, s.activeProfile with
  | some t, some p => t.limitSets.getD p.limitSetId []
  | _, _ => []

/-- A sequence of the sequence table (R104). -/
def State.sequence (s : State) (id : Nat) : Option Sequence :=
  match s.tables.working with
  | none => none
  | some t => t.sequence.sequences[id]?

/-! ### Links -/

/-- The transmit queue holds 8 frames (R5). -/
def State.txFull (s : State) : Bool := decide (8 ≤ s.north.tx.length)

/-- A command waits that the decoder would take if the transmit queue had a place for its reply (R6, R13, R182). -/
def State.decoderWaits (s : State) : Bool :=
  s.operating && s.tables.startUp == .ended && !s.north.restartTaken && !s.north.commands.isEmpty

/-- A producer waits with a frame for the transmit queue (R5, R6, R18, R19). -/
def State.waits (s : State) : Producer → Bool
  | .decoder => s.decoderWaits
  | .filter => s.north.holding.isSome
  | .chainPort => !s.chain.keptReplies.isEmpty

/-- The producers to whom the free places belong: those that waited when a place came free, and still wait (R5). -/
def State.claimants (s : State) : List Producer := s.north.claims.filter s.waits

/-- A producer may add a frame (R5): a place is free, and it is not another's. -/
def State.mayAdd (s : State) (p : Producer) : Bool :=
  !s.txFull && (s.claimants.isEmpty || s.claimants.contains p)

/-- A producer's frame joins the transmit queue, and its claim is met (R5). -/
def State.enqueueTx (s : State) (p : Producer) (f : NorthFrame) : State :=
  s.withNorth { s.north with tx := s.north.tx ++ [f], claims := s.north.claims.filter fun q => !(q == p) }

/-- The producers that will have the next places when the frame at the head of the queue has been sent: those that
already have a claim, or, when the queue was full, those that wait on it (R5). -/
def State.nextClaims (s : State) : List Producer :=
  if s.txFull && s.claimants.isEmpty then [Producer.decoder, .filter, .chainPort].filter s.waits else s.north.claims

/-- The frame at the head of the transmit queue has been sent (R5). -/
def State.frameLeaves (s : State) : State :=
  s.withNorth { s.north with tx := s.north.tx.tail, claims := s.nextClaims }

/-- The chain port adds a FWD_REPLY, or keeps it, behind those it already keeps, until a place is free (R19,
R155). -/
def State.chainReply (s : State) (f : NorthFrame) : State :=
  if !s.mayAdd .chainPort || !s.chain.keptReplies.isEmpty then
    s.withChain { s.chain with keptReplies := s.chain.keptReplies ++ [f] }
  else s.enqueueTx .chainPort f

/-- Enumeration is running and holds the link (R20). -/
def State.enumerating (s : State) : Bool :=
  match s.chain.enumeration with
  | .running _ => true
  | .notBegun | .ended => false

/-- The enumeration of the current start-up or activation has ended (R41). -/
def State.enumerated (s : State) : Bool := s.chain.enumeration == .ended

/-- No transaction is in flight and enumeration does not hold the link. -/
def State.linkFree (s : State) : Bool := s.chain.transaction.isNone && !s.enumerating

/-- The chain port begins to send a frame. -/
def State.startTransaction (s : State) (f : ChainFrame) : State :=
  s.withChain { s.chain with transaction := some ⟨f, .sending⟩ }

/-- The sleep controller's claim is granted when the link is free (R20). -/
def State.arbitrate (s : State) : State :=
  match s.chain.sleepClaim with
  | none => s
  | some f =>
    if s.linkFree then
      (s.withChain { s.chain with sleepClaim := none }).startTransaction
        (match f with
         | .wake => .chainWake false
         | .sleep => .chainSleep)
    else s

/-- The sleep controller claims the link. -/
def State.claimLink (s : State) (f : SleepFrame) : State :=
  (s.withChain { s.chain with sleepClaim := some f }).arbitrate

/-- The transaction in flight ends. -/
def State.endTransaction (s : State) : State :=
  s.withChain { s.chain with transaction := none }

/-! ### Power state -/

/-- Deep sleep: ASLEEP, WATCH_ROUND and WAKING (R152). -/
def State.deepSleep (s : State) : Bool :=
  match s.sleep.power with
  | .asleep | .watchRound | .waking => true
  | .active | .sleepPending => false

/-! ### Event queue (R126 to R129) -/

/-- The first record that is not a FAST_OPEN record, taken out; `none` when all are. -/
def removeOldestOther : List EventRecord → Option (List EventRecord)
  | [] => none
  | r :: rest =>
    if r.kind = .fastOpen then (removeOldestOther rest).map (r :: ·) else some rest

/-- One record is handed to the queue (R127, R128). -/
def EventQueue.hand (q : EventQueue) (r : EventRecord) : EventQueue :=
  if q.records.length < 32 then { q with records := q.records ++ [r] }
  else
    match removeOldestOther q.records with
    | some rest => ⟨rest ++ [r], true⟩
    | none => ⟨q.records, true⟩

/-- The newest ring record. -/
def State.newestRecord (s : State) : Option RingRecord := s.current.ring.getLast?

/-- The pack current of R78: absent while the stream is ABSENT. -/
def State.packCurrent (s : State) : Option PackCurrent :=
  match s.current.stream, s.newestRecord with
  | .present, some r => some ⟨r.current, r.saturated⟩
  | _, _ => none

/-- The record the sequencer makes at this event (R120). -/
def State.eventRecord (s : State) (kind : EventKind) (contactor : Option Contactor) (cause : Cause)
    (sequence step : Option Nat) : EventRecord where
  stamp := s.now
  newestRound := s.store.roundCounter
  contactor := contactor
  kind := kind
  cause := cause
  current := s.packCurrent
  sequence := sequence
  step := step

/-- The sequencer records one event (R120, R127). -/
def State.record (s : State) (kind : EventKind) (contactor : Option Contactor) (cause : Cause)
    (sequence step : Option Nat) : State :=
  s.withEvents (s.events.hand (s.eventRecord kind contactor cause sequence step))

end Sys2Proof.Machine
end

