-- ==== Sys2Proof/Machine/Flags.lean ====
section
/-!
DEFINITION. Flags and conditions: the sticky flags (R9, R10), the limit monitor's three held conditions (R92),
the ALERT line (R132, R133), and what a coil driver supplies (R100).
-/

namespace Sys2Proof.Machine

def State.setSticky (s : State) (f : StickyFlags) : State := s.withNorth { s.north with sticky := f }

def State.setLinkError (s : State) : State := s.setSticky { s.north.sticky with linkError := true }
def State.setStraySync (s : State) : State := s.setSticky { s.north.sticky with straySync := true }
def State.setOverrun (s : State) : State := s.setSticky { s.north.sticky with overrun := true }
def State.setCurOrder (s : State) : State := s.setSticky { s.north.sticky with curOrder := true }
def State.setCurFault (s : State) : State := s.setSticky { s.north.sticky with curFault := true }
def State.setChainMismatch (s : State) : State := s.setSticky { s.north.sticky with chainMismatch := true }
def State.setEntryFailed (s : State) : State := s.setSticky { s.north.sticky with entryFailed := true }

/-- Some entry of the working limit set is TRIPPED and holds the action `has` (R92). -/
def heldCondition (has : LimitEntry → Bool) : List LimitEntry → List RunState → Bool
  | e :: es, r :: rs => (has e && r.level == .tripped) || heldCondition has es rs
  | _, _ => false

/-- ALERT held (R92). -/
def State.alertHeld (s : State) : Bool := heldCondition (·.alert) s.limitSet s.limits.runStates

/-- Close blocked (R92). -/
def State.closeBlocked (s : State) : Bool := heldCondition (·.blockClose) s.limitSet s.limits.runStates

/-- Trip held (R92). -/
def State.tripHeld (s : State) : Bool := heldCondition (·.fastOpen) s.limitSet s.limits.runStates

/-- The ALERT line (R132): asserted while the queue holds a record, the overflow flag is set or ALERT is held;
deasserted without power and while RST_N holds the part in reset (R133). -/
def State.alertLine (s : State) : Bool :=
  s.operating && (!s.events.records.isEmpty || s.events.overflow || s.alertHeld)

/-- A coil is driven while its driver is in PULL_IN or HOLD (R100). -/
def CoilDriver.driven (d : CoilDriver) : Bool := !(d.state == .off)

/-- The percentage of the pull-in current a driver supplies at a hold level (R100). -/
def CoilDriver.supply (d : CoilDriver) (holdLevel : Nat) : Nat :=
  match d.state with
  | .off => 0
  | .pullIn => 100
  | .hold =>
    match holdLevel with
    | 1 => 25
    | 2 => 40
    | 3 => 60
    | _ => 100

/-- The percentage of its pull-in current each coil is supplied with. -/
def State.coilSupply (s : State) (c : Contactor) : Nat :=
  match s.tables.working with
  | some t => (s.seq.coils.get c).supply (t.sequence.holdLevel.get c)
  | none => (s.seq.coils.get c).supply 4

end Sys2Proof.Machine
end

