-- ==== Sys2Proof/Machine/Formats.lean ====
section
/-!
DEFINITION. Formats (chapter 11): byte order, cyclic codes, code tables, north link frames, reply frames, and the
layouts of the status block, the limits block, the round pieces and the event records.
-/

namespace Sys2Proof.Machine

/-! ### Byte order (R185) -/

/-- The low `n` bytes of a number, least significant first. -/
def le : Nat → Nat → List Byte
  | 0, _ => []
  | n + 1, v => BitVec.ofNat 8 v :: le n (v / 256)

/-- A signed number in two's complement, `n` bytes, least significant first. -/
def leInt (n : Nat) (v : Int) : List Byte := le n (v % (256 ^ n : Nat)).toNat

/-- The number whose bytes, least significant first, are these. -/
def fromLe : List Byte → Nat
  | [] => 0
  | b :: bs => b.toNat + 256 * fromLe bs

/-- The signed number whose two's complement bytes are these. -/
def signedFromLe (bs : List Byte) : Int :=
  let v := fromLe bs
  if 256 ^ bs.length ≤ 2 * v then (v : Int) - (256 ^ bs.length : Nat) else (v : Int)

/-- A byte from a number. -/
def byte (n : Nat) : Byte := BitVec.ofNat 8 n

/-- The code of an absent optional one-byte field (R185). -/
def absent : Byte := 0xFF

/-- An optional one-byte field. -/
def optByte : Option Nat → Byte
  | none => absent
  | some n => byte n

/-- One bit of a flag byte. -/
def bitIf (b : Bool) (i : Nat) : Byte := if b then (1#8) <<< i else 0#8

/-- Fine adjust in sign-magnitude form (R185); 0 is sent as 0x00. -/
def fineAdjustByte (v : Int) : Byte := if v < 0 then byte (0x80 + v.natAbs) else byte v.natAbs

/-- Fine adjust as received: bit 7 the sign, bits 3:0 the magnitude, 0 to 7; a negative zero is 0. -/
def fineAdjustOf (b : Byte) : Option Int :=
  let m := b.toNat % 16
  if 7 < m then none else if b.getLsbD 7 then some (-(m : Int)) else some (m : Int)

/-! ### Cyclic codes (R186) -/

/-- `n` shifts of the 16-bit code, generator x^16 + x^12 + x^5 + 1. -/
def crc16Shift : Nat → BitVec 16 → BitVec 16
  | 0, c => c
  | n + 1, c => crc16Shift n (if c.getLsbD 15 then (c <<< 1) ^^^ 0x1021#16 else c <<< 1)

/-- One byte, most significant bit first. -/
def crc16Byte (c : BitVec 16) (b : Byte) : BitVec 16 := crc16Shift 8 (c ^^^ (b.setWidth 16 <<< 8))

/-- The code over bytes in transmission order, initial value 0xFFFF. -/
def crc16 (bytes : List Byte) : BitVec 16 := bytes.foldl crc16Byte 0xFFFF#16

/-- The two CRC bytes, low byte first. -/
def crc16Bytes (bytes : List Byte) : List Byte := le 2 (crc16 bytes).toNat

/-- `n` shifts of the 8-bit code, generator x^8 + x^2 + x + 1. -/
def crc8Shift : Nat → BitVec 8 → BitVec 8
  | 0, c => c
  | n + 1, c => crc8Shift n (if c.getLsbD 7 then (c <<< 1) ^^^ 0x07#8 else c <<< 1)

/-- The check of a current sample record over its bytes 0 to 6, initial value 0. -/
def crc8 (bytes : List Byte) : Byte := bytes.foldl (fun c b => crc8Shift 8 (c ^^^ b)) 0#8

/-- The last two of these bytes are the CRC of the others. -/
def crcRight (bytes : List Byte) : Bool :=
  decide (2 ≤ bytes.length) &&
    bytes.drop (bytes.length - 2) == crc16Bytes (bytes.take (bytes.length - 2))

/-! ### Code tables (R185) -/

def FrameKind.code : FrameKind → BitVec 4
  | .sync => 0
  | .cmd => 1
  | .reply => 2
  | .fwd => 3
  | .fwdReply => 4

def frameKindOf (c : BitVec 4) : Option FrameKind :=
  match c.toNat with
  | 0 => some .sync
  | 1 => some .cmd
  | 2 => some .reply
  | 3 => some .fwd
  | 4 => some .fwdReply
  | _ => none

/-- The reason codes (section 5 of the introduction). -/
inductive Reason where
  | noTables | notLocked | blocked | state | range | depth | profileBusy | notAllowed | locked | notErased
  deriving DecidableEq, Repr

/-- The reply statuses (R8). -/
inductive ReplyStatus where
  | ok | accepted | isPartial | empty | busy | refused (reason : Reason) | badArg
  deriving DecidableEq, Repr

def ReplyStatus.code : ReplyStatus → Byte
  | .ok => 0
  | .accepted => 1
  | .isPartial => 2
  | .empty => 3
  | .busy => 4
  | .refused _ => 5
  | .badArg => 6

/-- The reason byte: 0 unless the status is REFUSED. -/
def ReplyStatus.reasonCode : ReplyStatus → Byte
  | .refused .noTables => 1
  | .refused .notLocked => 2
  | .refused .blocked => 3
  | .refused .state => 4
  | .refused .range => 5
  | .refused .depth => 6
  | .refused .profileBusy => 7
  | .refused .notAllowed => 8
  | .refused .locked => 9
  | .refused .notErased => 10
  | .ok | .accepted | .isPartial | .empty | .busy | .badArg => 0

/-- The FWD_REPLY statuses. -/
inductive FwdStatus where
  | ok | blocked | queueFull | busy | notAllowed | timeout | crcError
  deriving DecidableEq, Repr

def FwdStatus.code : FwdStatus → Byte
  | .ok => 0
  | .blocked => 1
  | .queueFull => 2
  | .busy => 3
  | .notAllowed => 4
  | .timeout => 5
  | .crcError => 6

def PowerState.code : PowerState → Byte
  | .active => 0
  | .sleepPending => 1
  | .asleep => 2
  | .watchRound => 3
  | .waking => 4

def LockState.code : LockState → Byte
  | .unlocked => 0
  | .acquiring => 1
  | .locked => 2
  | .holdover => 3

def SeqState.code : SeqState → Byte
  | .opened => 0
  | .closing => 1
  | .closed => 2
  | .deferred => 3
  | .opening => 4
  | .tripped => 5

def EngineState.code : EngineState → Byte
  | .idle => 0
  | .erasing => 1
  | .programming => 2
  | .verifying => 3
  | .verified => 4
  | .activating => 5
  | .locked _ => 6

/-- Lock cause: present in LOCKED. -/
def EngineState.lockCauseByte : EngineState → Byte
  | .locked .tamper => 0
  | .locked .fails => 1
  | .idle | .erasing | .programming | .verifying | .verified | .activating => absent

def MeasKind.code : MeasKind → Byte
  | .cells => 0
  | .temps => 1
  | .both => 2

/-- Module status.  A record holds no waiting entry; a waiting entry has no code and is sent as absent. -/
def EntryStatus.code : EntryStatus → Byte
  | .ok => 0
  | .missing => 1
  | .crcError => 2
  | .notPresent => 3
  | .waiting => absent

def AlignFlag.code : AlignFlag → Nat
  | .ok => 0
  | .gap => 1
  | .held => 2
  | .stale => 3
  | .noCurrent => 4

def contactorCode : Contactor → Nat
  | .mneg => 0
  | .mpos => 1
  | .pre => 2
  | .chg => 3

/-- The contactor byte of an event record; ALL is 4. -/
def contactorByte : Option Contactor → Byte
  | some c => byte (contactorCode c)
  | none => 4

def EventKind.code : EventKind → Byte
  | .closeCmd => 0
  | .closeDone => 1
  | .closeFailed => 2
  | .openCmd => 3
  | .openDeferred => 4
  | .highCurrentBreak => 5
  | .openDone => 6
  | .fastOpen => 7
  | .weldSuspect => 8
  | .feedbackLost => 9
  | .coilFault => 10

def RunLevel.code : RunLevel → Byte
  | .clear => 0
  | .pending => 1
  | .tripped => 2

/-- The cause byte (section 11.1). -/
def Cause.code : Cause → Byte
  | .command => 0
  | .profile => 1
  | .feedback => 2
  | .unlock => 3
  | .timeout => 4
  | .interlock => 5
  | .noReference => 6
  | .weld => 7
  | .start => 8
  | .sleep => 9
  | .limit e => byte (0x80 + e)

def optCause : Option Cause → Byte
  | none => absent
  | some c => c.code

def VerifyReason.code : VerifyReason → Nat
  | .format => 0
  | .directory => 1
  | .fields => 2
  | .version => 3
  | .tag => 4

def LastVerification.code : LastVerification → Byte
  | .none => 0
  | .passed => 1
  | .abandoned => 2
  | .failed r => byte (0x10 + r.code)

def LoadResult.code : LoadResult → Byte
  | .loaded => 0
  | .noTables r => byte (1 + r.code)

def WakeCause.code : WakeCause → Nat
  | .limit => 0
  | .wakeIn => 1
  | .link => 2
  | .tamper => 3
  | .report => 4

/-- The wake cause set as a mask. -/
def WakeCauses.mask (w : WakeCauses) : Byte :=
  bitIf w.limit 0 ||| bitIf w.wakeIn 1 ||| bitIf w.link 2 ||| bitIf w.tamper 3 ||| bitIf w.report 4

/-- The sticky flags as a mask. -/
def StickyFlags.mask (f : StickyFlags) : Byte :=
  bitIf f.linkError 0 ||| bitIf f.straySync 1 ||| bitIf f.overrun 2 ||| bitIf f.curOrder 3 |||
    bitIf f.curFault 4 ||| bitIf f.chainMismatch 5 ||| bitIf f.entryFailed 6

/-! ### North link frames (section 11.2, R2, R3) -/

/-- The four header bytes. -/
def NorthFrame.header (f : NorthFrame) : List Byte :=
  [f.dest.setWidth 8, f.tag ++ f.kind.code, byte f.payload.length, 0]

/-- The bytes of a frame behind its start delimiter. -/
def NorthFrame.bytes (f : NorthFrame) : List Byte :=
  f.header ++ f.payload ++ crc16Bytes (f.header ++ f.payload)

/-- What R3 asks of a frame whose CRC is right and whose kind is one of the five. -/
def NorthFrame.permitted (f : NorthFrame) : Bool :=
  match f.kind with
  | .sync => f.payload.isEmpty
  | .cmd => f.dest == 0 && !f.payload.isEmpty
  | .fwd => !(f.dest == 0) && !f.payload.isEmpty && !(decide (21 ≤ f.dest.toNat) && decide (f.dest.toNat ≤ 30))
  | .reply | .fwdReply => false

/-- The frame these bytes carry if R3 accepts it; `none` if R3 discards it.  Bytes that are not a header, the
announced payload and two CRC bytes are those of a truncated frame. -/
def acceptNorthFrame (bytes : List Byte) : Option NorthFrame :=
  match bytes with
  | b0 :: b1 :: b2 :: b3 :: rest =>
    if rest.length = b2.toNat + 2 then
      if crcRight bytes then
        match frameKindOf (b1.extractLsb' 0 4) with
        | none => none
        | some kind =>
          let f : NorthFrame := ⟨b0.extractLsb' 0 5, kind, b1.extractLsb' 4 4, rest.take b2.toNat⟩
          let _ := b3
          if f.permitted then some f else none
      else none
    else none
  | _ => none

/-! ### Replies (section 11.3) -/

/-- What a block answers to a command. -/
structure Reply where
  status : ReplyStatus
  data : List Byte
  deriving DecidableEq, Repr

/-- A reply without data. -/
def Reply.plain (st : ReplyStatus) : Reply := ⟨st, []⟩

/-- The REPLY frame: destination 0, the command's tag, the command code echoed, status, reason, data. -/
def Reply.frame (r : Reply) (tag : BitVec 4) (code : Byte) : NorthFrame where
  dest := 0
  kind := .reply
  tag := tag
  payload := code :: r.status.code :: r.status.reasonCode :: r.data

/-- A FWD_REPLY frame with the FWD frame's tag and destination (R18, R19). -/
def fwdReply (dest : BitVec 5) (tag : BitVec 4) (st : FwdStatus) (payload : List Byte) : NorthFrame where
  dest := dest
  kind := .fwdReply
  tag := tag
  payload := st.code :: payload

/-! ### Status block (R9, section 11.3) -/

/-- The depth and four chain elements, newest first; unused elements are 0xFF, 0xFF. -/
def chainElementBytes : Nat → List ChainElement → List Byte
  | 0, _ => []
  | n + 1, [] => absent :: absent :: chainElementBytes n []
  | n + 1, e :: rest => byte e.profile :: e.cause.code :: chainElementBytes n rest

def State.chainBytes (s : State) : List Byte :=
  byte s.depth :: chainElementBytes 4 s.profiles.chain

/-- The active image version, 0 with no tables. -/
def State.activeVersion (s : State) : Nat :=
  match s.tables.working with
  | some t => t.version.toNat
  | none => 0

/-- The trip cause byte: present in TRIPPED. -/
def State.tripCauseByte (s : State) : Byte :=
  if s.seq.state = .tripped then optCause s.seq.tripCause else absent

/-- The status block of 37 bytes. -/
def State.statusBlock (s : State) : List Byte :=
  [s.sleep.power.code, s.lock.state.code] ++ le 4 s.lock.lEst ++
  [s.seq.state.code, optByte s.seq.running, optByte s.seq.step, s.tripCauseByte] ++
  s.chainBytes ++
  [s.tables.engine.code, s.tables.engine.lockCauseByte, s.tables.lastVerification.code,
    byte s.tables.failureCount, s.tables.loadResult.code] ++
  [byte s.store.records.length] ++ le 2 s.store.dropped ++
  [byte s.events.records.length, s.sleep.wakeCauses.mask,
    optByte (s.sleep.firstCause.map WakeCause.code), byte s.chain.foundCount, s.north.sticky.mask,
    bitIf s.tablesLoaded 0 ||| bitIf s.tables.tamperLatch 1 ||| bitIf s.tables.tamperErase.isSome 2 |||
      bitIf s.events.overflow 3] ++
  le 4 s.activeVersion

/-! ### Limits block (R93, section 11.3) -/

/-- The 8 bytes of one entry.  With no last offending record the position is 0, as section 11.3 gives it, and the
channel 0xFF, as R185 gives an absent one-byte field (DEDUCED, log 37). -/
def RunState.bytes (r : RunState) : List Byte :=
  r.level.code :: byte r.count ::
    match r.last with
    | none => [0, absent] ++ le 4 0
    | some o => [byte o.position, byte o.channel] ++ leInt 4 o.value

/-- The limits block. -/
def State.limitsBlock (s : State) : List Byte :=
  let setId := match s.activeProfile with
    | some p => p.limitSetId
    | none => 0
  [optByte s.activeId, byte setId, byte (s.limits.runStates.length - 1),
    bitIf s.alertHeld 0 ||| bitIf s.closeBlocked 1 ||| bitIf s.tripHeld 2] ++
  s.limits.runStates.flatMap RunState.bytes

/-! ### Round pieces (R59, section 11.4) -/

/-- The header piece, 23 bytes.  The store count is sent plain: DESIGN CHOICE (log 38). -/
def RoundRecord.headerPiece (r : RoundRecord) (storeCount : Nat) : List Byte :=
  le 4 r.number.toNat ++ [byte r.profileId, byte r.scheduleId, byte r.entryIndex, r.kind.code] ++
  le 4 r.tSend.toNat ++ le 4 r.lateness.toNat ++
  [bitIf r.unevaluated 0 ||| bitIf r.isPartial 1 ||| bitIf r.packSum.isSome 2 |||
      bitIf (match r.packSum with | some p => p.complete | none => false) 3,
    byte (r.entries.length - 1)] ++
  le 4 (match r.packSum with | some p => p.sum | none => 0) ++ [byte storeCount]

/-- A module entry piece; absent module flags are 0xFF (R56, R185). -/
def RoundEntry.piece (e : RoundEntry) : List Byte :=
  let raw := e.raw.getD []
  let comp := e.compensated.getD []
  let temps := e.temperatures.getD []
  [byte e.position, e.status.code] ++ le 4 e.sampleInstant.toNat ++
  (match e.aligned with
   | some a => (byte a.flag.code ||| bitIf a.saturated 3) :: leInt 3 a.current
   | none => absent :: le 3 0) ++
  [match e.flags with | some f => f | none => absent,
    byte raw.length, byte comp.length, byte temps.length] ++
  raw.flatMap (le 2) ++ comp.flatMap (le 2) ++ temps.flatMap (leInt 2)

/-! ### Event records (section 11.4) -/

/-- The 17 bytes of an event record. -/
def EventRecord.bytes (r : EventRecord) : List Byte :=
  le 4 r.stamp.toNat ++ le 4 r.newestRound.toNat ++
  [r.kind.code, contactorByte r.contactor, r.cause.code, optByte r.sequence, optByte r.step] ++
  (match r.current with
   | some c => (bitIf true 0 ||| bitIf c.saturated 1) :: leInt 3 c.current
   | none => 0 :: le 3 0)

end Sys2Proof.Machine
end

