-- ==== Sys2Proof/Machine/Operands.lean ====
section
/-!
DEFINITION. The operand forms of the management commands (R6, R7, section 11.3): which row of the table a payload
belongs to, the argument forms, and the taking of a command.
-/

namespace Sys2Proof.Machine

/-! ### Argument forms.  Each reads the bytes behind the command code; `none` is BAD_ARG (R7). -/

/-- No argument. -/
def argNone : List Byte → Option Unit
  | [] => some ()
  | _ => none

/-- One byte, which must satisfy a test. -/
def argByte (ok : Nat → Bool) : List Byte → Option Nat
  | [b] => if ok b.toNat then some b.toNat else none
  | _ => none

/-- The arguments of READ_TABLE. -/
structure ReadTableArgs where
  kind : Nat
  index : Nat
  offset : Nat
  length : Nat
  deriving DecidableEq, Repr

/-- Table kind 0 to 4, index 0 to 7, offset, length − 1 in 0 to 127. -/
def argReadTable : List Byte → Option ReadTableArgs
  | [k, i, o0, o1, l] =>
    if k.toNat < 5 ∧ i.toNat < 8 ∧ l.toNat < 128 then
      some ⟨k.toNat, i.toNat, fromLe [o0, o1], l.toNat + 1⟩
    else none
  | _ => none

/-- The arguments of SET_TRIM. -/
structure SetTrimArgs where
  module : Nat
  fineAdjust : Int
  deriving DecidableEq, Repr

/-- Module position and fine adjust of magnitude 0 to 7. -/
def argSetTrim : List Byte → Option SetTrimArgs
  | [m, a] => (fineAdjustOf a).map fun v => ⟨m.toNat, v⟩
  | _ => none

/-- The arguments of UPD_WRITE. -/
structure UpdWriteArgs where
  offset : Nat
  data : List Byte
  deriving DecidableEq, Repr

/-- Offset and 1 to 48 data bytes. -/
def argUpdWrite : List Byte → Option UpdWriteArgs
  | o0 :: o1 :: d :: rest => if rest.length < 48 then some ⟨fromLe [o0, o1], d :: rest⟩ else none
  | _ => none

/-- An entry 0 to 23. -/
def argEntry : List Byte → Option Nat := argByte fun n => decide (n < 24)

/-- The code that stands for ALL in CLEAR_LIMIT. -/
def argAll : List Byte → Option Unit
  | [b] => if b = absent then some () else none
  | _ => none

/-- A sequence id, a profile id, or a number stored as the number minus one: 0 to 7. -/
def argBelow8 : List Byte → Option Nat := argByte fun n => decide (n < 8)

/-- A piece 0 to 20. -/
def argPiece : List Byte → Option Nat := argByte fun n => decide (n ≤ 20)

/-- A block 0 to 255. -/
def argBlock : List Byte → Option Nat := argByte fun _ => true

/-- The clear option of GET_STATUS: 0 or 1. -/
def argClear : List Byte → Option Nat := argByte fun n => decide (n < 2)

/-! ### Rows -/

/-- The row of the table to which a command payload belongs.  GET_STATUS with the clear option and CLEAR_LIMIT with
ALL have rows of their own; a payload of either code that is malformed belongs to the plain row, which answers it
BAD_ARG; a code that is none of section 11.3 belongs to UNKNOWN_COMMAND_CODE. -/
def commandRow (payload : List Byte) : Instr :=
  match payload with
  | [] => .unknownCommandCode
  | code :: args =>
    match code.toNat with
    | 0x01 => if args = [1#8] then .getStatusClear else .getStatus
    | 0x02 => .readTable
    | 0x03 => .setTrim
    | 0x04 => .restart
    | 0x10 => .readRound
    | 0x11 => .releaseRound
    | 0x20 => .readLimits
    | 0x21 => if args = [absent] then .clearLimitAll else .clearLimit
    | 0x30 => .close
    | 0x31 => .openCmd
    | 0x32 => .fastOpen
    | 0x33 => .clearTrip
    | 0x38 => .readEvents
    | 0x40 => .switchProfile
    | 0x41 => .enterProfile
    | 0x42 => .returnProfile
    | 0x48 => .sleep
    | 0x50 => .updErase
    | 0x51 => .updWrite
    | 0x52 => .updVerify
    | 0x53 => .updActivate
    | _ => .unknownCommandCode

/-! ### Taking a command (R6, R7) -/

/-- The decoder may take a command: start-up loading has ended (R182), RESTART has not been taken (R13), and the
transmit queue has a free place for the reply (R6) that is not another producer's (R5). -/
def State.decoderReady (s : State) : Bool :=
  s.operating && s.tables.startUp == .ended && !s.north.restartTaken && s.mayAdd .decoder

/-- The command a row takes: the oldest of the list, if the decoder may take it and it belongs to the row. -/
def State.takeable (s : State) (row : Instr) : Option Command :=
  match s.north.commands with
  | [] => none
  | c :: _ => if s.decoderReady && commandRow c.payload == row then some c else none

/-- The command leaves the list when it is taken (R6). -/
def State.popCommand (s : State) : State :=
  s.withNorth { s.north with commands := s.north.commands.tail }

/-- The REPLY to a command joins the transmit queue. -/
def State.reply (s : State) (c : Command) (r : Reply) : State :=
  s.enqueueTx .decoder (r.frame c.tag (c.payload.headD 0))

/-- What taking a command does: the form is checked first (BAD_ARG), then the owner's body runs, and the reply is
built from its outcome. -/
def takeCommand {α : Type} (row : Instr) (args : List Byte → Option α) (body : α → State → State × Reply)
    (s : State) : State :=
  match s.takeable row with
  | none => s
  | some c =>
    match args c.payload.tail with
    | none => s.popCommand.reply c (.plain .badArg)
    | some a => (body a s.popCommand).1.reply c (body a s.popCommand).2

/-- A refusal with a reason. -/
def refuse (s : State) (r : Reason) : State × Reply := (s, .plain (.refused r))

/-- A reply that changes nothing. -/
def answer (s : State) (st : ReplyStatus) : State × Reply := (s, .plain st)

end Sys2Proof.Machine
end

