-- ==== Sys2Proof/Machine/Images.lean ====
section
/-!
DEFINITION. Images (R169, section 11.6): reading the tables of an image, the five checks of R174, and the layouts
in which READ_TABLE serialises the working tables.
-/

namespace Sys2Proof.Machine

/-! ### Reading the tables.  Every reader checks the ranges its chapter gives; `none` is a FIELDS failure. -/

/-- The members of a mask: `first + i` for each set bit i below `n`, ascending. -/
def maskMembers (v : Nat) : Nat → Nat → List Nat
  | 0, _ => []
  | n + 1, first => if v % 2 = 1 then first :: maskMembers (v / 2) n (first + 1) else maskMembers (v / 2) n (first + 1)

/-- The mask of a set of members counted from `first`. -/
def membersMask (first : Nat) (members : List Nat) : Nat := members.foldl (fun v m => v + 2 ^ (m - first)) 0

def inRange (lo v hi : Nat) : Bool := decide (lo ≤ v) && decide (v ≤ hi)

def inRangeInt (lo v hi : Int) : Bool := decide (lo ≤ v) && decide (v ≤ hi)

/-- The byte at an offset, as a number. -/
def u8 (bs : List Byte) (offset : Nat) : Nat := (bs.getD offset 0).toNat

/-- The number of `n` bytes at an offset. -/
def field (bs : List Byte) (offset n : Nat) : Nat := fromLe ((bs.drop offset).take n)

def wakeModeOf : Nat → Option WakeInMode
  | 0 => some .high
  | 1 => some .low
  | 2 => some .rising
  | 3 => some .falling
  | _ => none

def WakeInMode.code : WakeInMode → Byte
  | .high => 0
  | .low => 1
  | .rising => 2
  | .falling => 3

/-- One module entry of 6 bytes. -/
def parseModuleEntry (bs : List Byte) : Option ModuleEntry :=
  match fineAdjustOf (bs.getD 5 0) with
  | none => none
  | some adj =>
    let pop := maskMembers (field bs 0 2) 12 1
    if bs.length == 6 && !pop.isEmpty && decide (u8 bs 2 ≤ 4) then some ⟨pop, u8 bs 2, field bs 3 2, adj⟩
    else none

/-- `n` records of `size` bytes each, all of them and nothing more. -/
def parseRecords {α : Type} (size : Nat) (parse : List Byte → Option α) : Nat → List Byte → Option (List α)
  | 0, [] => some []
  | 0, _ :: _ => none
  | n + 1, bs =>
    match parse (bs.take size), parseRecords size parse n (bs.drop size) with
    | some x, some xs => some (x :: xs)
    | _, _ => none

/-- The module table (R39). -/
def parseModuleTable (count : Nat) (bs : List Byte) : Option ModuleTable :=
  match wakeModeOf (u8 bs 13), parseRecords 6 parseModuleEntry count (bs.drop 16) with
  | some mode, some mods =>
    let m : ModuleTable :=
      { syncDelay := u8 bs 0, hopDelay := u8 bs 1, replyTimeout := field bs 2 2, forwardWindow := field bs 4 2
        converterLatency := u8 bs 6, streamTimeout := field bs 7 2, gapLimit := field bs 9 2
        alignWaitLimit := field bs 11 2, wakeInMode := mode, holdTime := u8 bs 14, modules := mods }
    if decide (16 ≤ bs.length) && inRange 1 count 20 && inRange 0 m.hopDelay 31 && inRange 20 m.replyTimeout 1000 &&
        inRange 100 m.streamTimeout 50000 && inRange 10 m.gapLimit 10000 && inRange 0 m.alignWaitLimit 5000 &&
        inRange 1 m.holdTime 255 then
      some m
    else none
  | _, _ => none

def measKindOf : Nat → Option MeasKind
  | 0 => some .cells
  | 1 => some .temps
  | 2 => some .both
  | _ => none

/-- One schedule entry of 7 bytes (R40), for a chain of `modules` modules. -/
def parseScheduleEntry (modules : Nat) (bs : List Byte) : Option ScheduleEntry :=
  match measKindOf (u8 bs 2) with
  | none => none
  | some kind =>
    let set := maskMembers (field bs 4 3) 20 1
    if bs.length == 7 && inRange 0 (field bs 0 2) 4095 && decide (u8 bs 3 ≤ 63) && !set.isEmpty &&
        set.all (fun p => decide (p ≤ modules)) then
      some ⟨field bs 0 2, kind, set, u8 bs 3 + 1⟩
    else none

/-- A schedule of 1 to 16 entries. -/
def parseSchedule (modules count : Nat) (bs : List Byte) : Option (List ScheduleEntry) :=
  if inRange 1 count 16 then parseRecords 7 (parseScheduleEntry modules) count bs else none

def signalClassOf : Nat → Option SignalClass
  | 0 => some .cellRaw
  | 1 => some .cellComp
  | 2 => some .temp
  | 3 => some .current
  | 4 => some .moduleFlag
  | 5 => some .moduleMissing
  | _ => none

def SignalClass.code : SignalClass → Byte
  | .cellRaw => 0
  | .cellComp => 1
  | .temp => 2
  | .current => 3
  | .moduleFlag => 4
  | .moduleMissing => 5

/-- The ranges of R80 for the fields an entry's class uses. -/
def LimitEntry.inRanges (e : LimitEntry) : Bool :=
  inRange 1 e.firstPosition 20 && inRange 1 e.lastPosition 20 && decide (e.firstPosition ≤ e.lastPosition) &&
  inRange 1 e.persistence 7 &&
  match e.cls with
  | .cellRaw | .cellComp =>
    inRange 1 e.firstChannel 12 && inRange 1 e.lastChannel 12 && decide (e.firstChannel ≤ e.lastChannel) &&
    inRangeInt 0 e.threshold 65535 && inRange 0 e.hysteresis 65535
  | .temp =>
    inRange 1 e.firstChannel 4 && inRange 1 e.lastChannel 4 && decide (e.firstChannel ≤ e.lastChannel) &&
    inRangeInt (-32768) e.threshold 32767 && inRange 0 e.hysteresis 65535
  | .current => inRangeInt (-2000000) e.threshold 2000000 && inRange 0 e.hysteresis 4000000
  | .moduleFlag => !(e.flagMask == 0)
  | .moduleMissing => true

/-- One limit entry of 17 bytes. -/
def parseLimitEntry (bs : List Byte) : Option LimitEntry :=
  match signalClassOf (u8 bs 0) with
  | none => none
  | some cls =>
    let k := bs.getD 14 0
    let a := bs.getD 15 0
    let e : LimitEntry :=
      { cls := cls, firstPosition := u8 bs 1, lastPosition := u8 bs 2, firstChannel := u8 bs 3
        lastChannel := u8 bs 4, flagMask := bs.getD 5 0, threshold := signedFromLe ((bs.drop 6).take 4)
        hysteresis := field bs 10 4, below := k.getLsbD 0, latch := k.getLsbD 1
        persistence := (k.extractLsb' 2 3).toNat + 1, alert := a.getLsbD 0, fastOpen := a.getLsbD 1
        blockClose := a.getLsbD 2, wake := a.getLsbD 3, enter := a.getLsbD 4, enterTarget := u8 bs 16 }
    if bs.length == 17 && e.inRanges then some e else none

/-- A limit set of 1 to 24 entries. -/
def parseLimitSet (count : Nat) (bs : List Byte) : Option (List LimitEntry) :=
  if inRange 1 count 24 then parseRecords 17 parseLimitEntry count bs else none

def contactorOf (n : Nat) : Contactor :=
  match n % 4 with
  | 0 => .mneg
  | 1 => .mpos
  | 2 => .pre
  | _ => .chg

/-- One step of 4 bytes (R104).  The bytes a step kind does not use (its coil byte, and the time of DRIVE, RELEASE and
END, which section 11.6 gives as 0) are ignored whatever they hold: DESIGN CHOICE (log 35). -/
def parseStep (bs : List Byte) : Option SeqStep :=
  let c := u8 bs 1
  let t := field bs 2 2
  if bs.length = 4 then
    match u8 bs 0 with
    | 0 => some (.drive (contactorOf c))
    | 1 => some (.release (contactorOf c))
    | 2 => if 1 ≤ t then some (.wait t) else none
    | 3 => if 1 ≤ t then some (.awaitFb (contactorOf c) (decide (128 ≤ c)) t) else none
    | 4 => if 128 ≤ c ∧ 1 ≤ t then some (.awaitPrecharge c t) else none
    | 5 => some .endStep
    | _ => none
  else none

def seqClassOf : Nat → Option SeqClass
  | 0 => some .closeDrive
  | 1 => some .closeCharge
  | 2 => some .openSeq
  | _ => none

def SeqClass.code : SeqClass → Byte
  | .closeDrive => 0
  | .closeCharge => 1
  | .openSeq => 2

/-- A step that a sequence of class OPEN may hold (R104). -/
def SeqStep.allowedInOpen : SeqStep → Bool
  | .drive _ | .awaitPrecharge _ _ => false
  | .awaitFb _ closed _ => !closed
  | .release _ | .wait _ | .endStep => true

/-- END stands at the end and nowhere else. -/
def endsOnce : List SeqStep → Bool
  | [] => false
  | [s] => s == .endStep
  | s :: rest => !(s == .endStep) && endsOnce rest

/-- What R104 asks of a sequence. -/
def Sequence.wellBuilt (q : Sequence) : Bool :=
  inRange 1 q.steps.length 12 && endsOnce q.steps &&
    (!(q.cls == .openSeq) || q.steps.all SeqStep.allowedInOpen)

/-- The byte lengths of `n` sequences in a row; `none` when the bytes end too early. -/
def sequencesLength : Nat → List Byte → Option Nat
  | 0, _ => some 0
  | n + 1, _ :: c :: rest =>
    let k := 4 * (c.toNat + 1)
    if k ≤ rest.length then (sequencesLength n (rest.drop k)).map (· + (2 + k)) else none
  | _ + 1, _ => none

/-- `n` sequences, and nothing more. -/
def parseSequences : Nat → List Byte → Option (List Sequence)
  | 0, [] => some []
  | n + 1, cl :: c :: rest =>
    let k := 4 * (c.toNat + 1)
    match seqClassOf cl.toNat, parseRecords 4 parseStep (c.toNat + 1) (rest.take k), parseSequences n (rest.drop k) with
    | some cls, some steps, some more =>
      if (Sequence.mk cls steps).wellBuilt then some (⟨cls, steps⟩ :: more) else none
    | _, _, _ => none
  | _, _ => none

/-- Four bytes, one for each contactor. -/
def perContactorAt (bs : List Byte) (offset : Nat) : PerContactor Nat :=
  ⟨u8 bs offset, u8 bs (offset + 1), u8 bs (offset + 2), u8 bs (offset + 3)⟩

/-- A test of all four values. -/
def PerContactor.allRange (p : PerContactor Nat) (lo hi : Nat) : Bool :=
  inRange lo p.mneg hi && inRange lo p.mpos hi && inRange lo p.pre hi && inRange lo p.chg hi

/-- The sequence table (R103, R104): up to 8 sequences, sequence 0 of class OPEN. -/
def parseSequenceTable (count : Nat) (bs : List Byte) : Option SequenceTable :=
  match parseSequences count (bs.drop 14) with
  | some (q :: qs) =>
    let t : SequenceTable :=
      { pullInTime := perContactorAt bs 0, holdLevel := perContactorAt bs 4, debounceTime := u8 bs 8
        breakLimit := field bs 9 3, deferTimeout := field bs 12 2, sequences := q :: qs }
    if decide (14 ≤ bs.length) && inRange 1 count 8 && t.pullInTime.allRange 10 255 &&
        t.holdLevel.allRange 1 4 && inRange 1 t.debounceTime 15 && inRange 0 t.breakLimit 1999999 &&
        inRange 0 t.deferTimeout 5000 && q.cls == .openSeq then
      some t
    else none
  | _ => none

/-- One profile record of 18 bytes (R135).  The sets of a WATCH record are empty and its NORMAL flags clear; the fields
of a NORMAL record that R135 uses in class WATCH only are not tested (DEDUCED, log 11).  H is read plain, not minus one:
DESIGN CHOICE (log 38). -/
def parseProfile (bs : List Byte) : Option ProfileRecord :=
  let f := bs.getD 0 0
  let p : ProfileRecord :=
    { id := u8 bs 1, watch := f.getLsbD 0, base := f.getLsbD 1, sleepOk := f.getLsbD 2
      activateOk := f.getLsbD 3, openOnEntry := f.getLsbD 4, keepNewest := f.getLsbD 5
      scheduleId := u8 bs 2, limitSetId := u8 bs 3, lnom := field bs 4 4, tol := field bs 8 2
      holdoverLimit := u8 bs 10, allowedClose := bs.getD 11 0, forwardSet := (bs.getD 12 0).setWidth 4
      watchProfile := if u8 bs 13 = 255 then none else some (u8 bs 13)
      watchInterval := field bs 14 2, chainWakeTime := u8 bs 16, reportEvery := u8 bs 17 }
  if bs.length == 18 && inRange 0 p.id 7 && inRange 1000 p.lnom 100000 && inRange 1 p.tol 4095 &&
      decide (8 * p.tol ≤ p.lnom) && inRange 1 p.holdoverLimit 7 &&
      (if p.watch then
        inRange 1 p.watchInterval 65535 && inRange 1 p.chainWakeTime 255 && p.allowedClose == 0 &&
          p.forwardSet == 0 && !p.base && !p.sleepOk && !p.activateOk && !p.openOnEntry
       else true) then
    some p
  else none

/-- 1 to 8 profile records. -/
def parseProfiles (count : Nat) (bs : List Byte) : Option (List ProfileRecord) :=
  if inRange 1 count 8 then parseRecords 18 parseProfile count bs else none

/-! ### References between the tables (check FIELDS of R174) -/

/-- A profile id names a record of the class wanted. -/
def definedAs (profiles : List ProfileRecord) (id : Nat) (watch : Bool) : Bool :=
  profiles.any fun p => p.id == id && p.watch == watch

/-- No id twice. -/
def distinctIds : List Nat → Bool
  | [] => true
  | i :: rest => !rest.contains i && distinctIds rest

/-- What a profile names is there; every watch profile id, in a WATCH record too, names a WATCH record (R135).  An allowed
close sequence is any defined sequence, also one of class OPEN, which CLOSE then refuses (R110): DESIGN CHOICE
(log 44). -/
def ProfileRecord.resolves (t : WorkingTables) (p : ProfileRecord) : Bool :=
  decide (p.scheduleId < t.schedules.length) && decide (p.limitSetId < t.limitSets.length) &&
  (maskMembers p.allowedClose.toNat 8 0).all (fun q => decide (q < t.sequence.sequences.length)) &&
  (match p.watchProfile with
   | none => !p.sleepOk
   | some w => definedAs t.profiles w true)

/-- Every reference resolves.  The ENTER target of an entry whose action set has no ENTER is not tested, whatever its byte:
DESIGN CHOICE (log 47). -/
def WorkingTables.resolve (t : WorkingTables) : Bool :=
  t.limitSets.all (fun l => l.all fun e => !e.enter || definedAs t.profiles e.enterTarget false) &&
  t.profiles.all (ProfileRecord.resolves t) && distinctIds (t.profiles.map (·.id)) &&
  (t.profiles.filter (·.base)).length == 1

/-! ### The directory -/

/-- One directory entry of 6 bytes. -/
structure DirEntry where
  kind : Nat
  count : Nat
  offset : Nat
  length : Nat
  deriving DecidableEq, Repr

def parseDirEntry (bs : List Byte) : Option DirEntry :=
  if bs.length = 6 then some ⟨u8 bs 0, u8 bs 1 + 1, field bs 2 2, field bs 4 2⟩ else none

/-- The bytes of a directory entry's table. -/
def DirEntry.table (e : DirEntry) (image : List Byte) : List Byte := (image.drop e.offset).take e.length

/-- The entry count agrees with the table's length. -/
def DirEntry.countAgrees (e : DirEntry) (image : List Byte) : Bool :=
  match e.kind with
  | 0 => e.length == 16 + 6 * e.count
  | 1 => e.length == 7 * e.count
  | 2 => e.length == 17 * e.count
  | 3 => decide (14 ≤ e.length) && sequencesLength e.count ((e.table image).drop 14) == some (e.length - 14)
  | 4 => e.length == 18 * e.count
  | _ => true

/-- Two tables share a byte. -/
def DirEntry.overlaps (a b : DirEntry) : Bool :=
  decide (max a.offset b.offset < min (a.offset + a.length) (b.offset + b.length))

def noOverlap : List DirEntry → Bool
  | [] => true
  | e :: rest => rest.all (fun f => !e.overlaps f) && noOverlap rest

def ofKind (k : Nat) (dir : List DirEntry) : List DirEntry := dir.filter fun e => e.kind == k

/-- The check DIRECTORY of R174, for a directory of `n` entries. -/
def directoryOk (n : Nat) (image : List Byte) (dir : List DirEntry) : Bool :=
  inRange 1 n 16 &&
  dir.all (fun e => decide (16 + 6 * n ≤ e.offset) && decide (e.offset + e.length + 16 ≤ image.length)) &&
  noOverlap dir &&
  (ofKind 0 dir).length == 1 && (ofKind 3 dir).length == 1 && (ofKind 4 dir).length == 1 &&
  inRange 1 (ofKind 1 dir).length 4 && inRange 1 (ofKind 2 dir).length 4 &&
  dir.all (fun e => e.countAgrees image)

/-- All of a list, if every one reads. -/
def readAll {α β : Type} (f : α → Option β) : List α → Option (List β)
  | [] => some []
  | a :: rest =>
    match f a, readAll f rest with
    | some b, some bs => some (b :: bs)
    | _, _ => none

/-- The tables a directory names, in directory order; `none` is the failure of check FIELDS. -/
def readTables (version : BitVec 32) (image : List Byte) (dir : List DirEntry) : Option WorkingTables :=
  if dir.all (fun e => decide (e.kind < 5)) then
    match ofKind 0 dir, ofKind 3 dir, ofKind 4 dir with
    | [m], [q], [p] =>
      match parseModuleTable m.count (m.table image) with
      | none => none
      | some mt =>
        match readAll (fun e => parseSchedule mt.modules.length e.count (e.table image)) (ofKind 1 dir),
          readAll (fun e => parseLimitSet e.count (e.table image)) (ofKind 2 dir),
          parseSequenceTable q.count (q.table image), parseProfiles p.count (p.table image) with
        | some ss, some ls, some st, some ps =>
          let t : WorkingTables := ⟨version, mt, ss, ls, st, ps⟩
          if t.resolve then some t else none
        | _, _, _, _ => none
    | _, _, _ => none
  else none

/-! ### The checks (R174, R182) -/

/-- The format word of a CG20 image. -/
def formatWord : Nat := 0x7C20D1A5

/-- The header fields as the slot holds them. -/
structure ImageHeader where
  format : Nat
  version : BitVec 32
  length : Nat
  entries : Nat
  deriving DecidableEq, Repr

def readHeader (mem : List Host.Cell) (slot : Slot) : ImageHeader where
  format := fromLe (Memory.slice mem slot.base 4)
  version := BitVec.ofNat 32 (fromLe (Memory.slice mem (slot.base + 4) 4))
  length := fromLe (Memory.slice mem (slot.base + 8) 4)
  entries := (Memory.read mem (slot.base + 12)).toNat + 1

/-- The check FORMAT of R174. -/
def ImageHeader.formatOk (h : ImageHeader) : Bool :=
  h.format == formatWord && decide (16 + 6 * h.entries + 16 ≤ h.length) && decide (h.length ≤ slotSize)

/-- The image's tag is the one the tag engine computes (R169). -/
def authentic (secret image : List Byte) : Bool :=
  image.drop (image.length - 16) == (Config.computedTag secret (image.take (image.length - 16))).toList

/-- The five checks of R174 in order, with the version check given; the tables the image holds, or the reason of the
first check that fails. -/
def checkImage (secret : List Byte) (mem : List Host.Cell) (slot : Slot) (versionOk : BitVec 32 → Bool) :
    Except VerifyReason WorkingTables :=
  let h := readHeader mem slot
  if h.formatOk then
    let image := Memory.slice mem slot.base h.length
    match parseRecords 6 parseDirEntry h.entries ((image.drop 16).take (6 * h.entries)) with
    | none => .error .directory
    | some dir =>
      if directoryOk h.entries image dir then
        match readTables h.version image dir with
        | none => .error .fields
        | some t =>
          if versionOk h.version then
            if authentic secret image then .ok t else .error .tag
          else .error .version
      else .error .directory
  else .error .format

/-- The image of the staging slot under the checks of R174: its version greater than the counter. -/
def State.verifyStaging (s : State) : Except VerifyReason WorkingTables :=
  checkImage s.tables.secret s.tables.array s.stagingSlot fun v => decide (s.tables.counter < v)

/-- The image of the active slot under the checks of R182: its version not less than the counter. -/
def State.checkActive (s : State) : Except VerifyReason WorkingTables :=
  checkImage s.tables.secret s.tables.array s.tables.slotPointer fun v => decide (s.tables.counter ≤ v)

/-- The tables of the active slot, taken without a check (R178). -/
def State.activeTables (s : State) : Option WorkingTables :=
  let h := readHeader s.tables.array s.tables.slotPointer
  let image := Memory.slice s.tables.array s.tables.slotPointer.base (min h.length slotSize)
  match parseRecords 6 parseDirEntry h.entries ((image.drop 16).take (6 * h.entries)) with
  | none => none
  | some dir => readTables h.version image dir

/-! ### Serialising the working tables (R11, section 11.6) -/

def ModuleEntry.bytes (e : ModuleEntry) : List Byte :=
  le 2 (membersMask 1 e.population) ++ [byte e.temperatureCount] ++ le 2 e.resistance ++
    [fineAdjustByte e.fineAdjust]

def ModuleTable.bytes (m : ModuleTable) : List Byte :=
  [byte m.syncDelay, byte m.hopDelay] ++ le 2 m.replyTimeout ++ le 2 m.forwardWindow ++
  [byte m.converterLatency] ++ le 2 m.streamTimeout ++ le 2 m.gapLimit ++ le 2 m.alignWaitLimit ++
  [m.wakeInMode.code, byte m.holdTime, 0] ++ m.modules.flatMap ModuleEntry.bytes

def ScheduleEntry.bytes (e : ScheduleEntry) : List Byte :=
  le 2 e.phase ++ [e.kind.code, byte (e.decimation - 1)] ++ le 3 (membersMask 1 e.moduleSet)

def LimitEntry.bytes (e : LimitEntry) : List Byte :=
  [e.cls.code, byte e.firstPosition, byte e.lastPosition, byte e.firstChannel, byte e.lastChannel, e.flagMask] ++
  leInt 4 e.threshold ++ le 4 e.hysteresis ++
  [bitIf e.below 0 ||| bitIf e.latch 1 ||| byte (4 * (e.persistence - 1)),
    bitIf e.alert 0 ||| bitIf e.fastOpen 1 ||| bitIf e.blockClose 2 ||| bitIf e.wake 3 ||| bitIf e.enter 4,
    byte e.enterTarget]

def SeqStep.bytes : SeqStep → List Byte
  | .drive c => [0, byte (contactorCode c), 0, 0]
  | .release c => [1, byte (contactorCode c), 0, 0]
  | .wait t => [2, 0] ++ le 2 t
  | .awaitFb c closed t => [3, byte (contactorCode c) ||| bitIf closed 7] ++ le 2 t
  | .awaitPrecharge r t => [4, byte r] ++ le 2 t
  | .endStep => [5, 0, 0, 0]

def Sequence.bytes (q : Sequence) : List Byte :=
  [q.cls.code, byte (q.steps.length - 1)] ++ q.steps.flatMap SeqStep.bytes

def PerContactor.bytes (p : PerContactor Nat) : List Byte := [byte p.mneg, byte p.mpos, byte p.pre, byte p.chg]

def SequenceTable.bytes (t : SequenceTable) : List Byte :=
  t.pullInTime.bytes ++ t.holdLevel.bytes ++ [byte t.debounceTime] ++ le 3 t.breakLimit ++
    le 2 t.deferTimeout ++ t.sequences.flatMap Sequence.bytes

/-- The 18 bytes of a profile record.  H is sent plain, as it is read: DESIGN CHOICE (log 38). -/
def ProfileRecord.bytes (p : ProfileRecord) : List Byte :=
  [bitIf p.watch 0 ||| bitIf p.base 1 ||| bitIf p.sleepOk 2 ||| bitIf p.activateOk 3 ||| bitIf p.openOnEntry 4 |||
      bitIf p.keepNewest 5,
    byte p.id, byte p.scheduleId, byte p.limitSetId] ++ le 4 p.lnom ++ le 2 p.tol ++
  [byte p.holdoverLimit, p.allowedClose, p.forwardSet.setWidth 8, optByte p.watchProfile] ++
  le 2 p.watchInterval ++ [byte p.chainWakeTime, byte p.reportEvery]

/-- The working table a kind and an index name (R11), serialised; `none` if they name none. -/
def WorkingTables.table (t : WorkingTables) (kind index : Nat) : Option (List Byte) :=
  match kind with
  | 0 => if index = 0 then some t.modules.bytes else none
  | 1 => (t.schedules[index]?).map (List.flatMap ScheduleEntry.bytes)
  | 2 => (t.limitSets[index]?).map (List.flatMap LimitEntry.bytes)
  | 3 => if index = 0 then some t.sequence.bytes else none
  | 4 => if index = 0 then some (t.profiles.flatMap ProfileRecord.bytes) else none
  | _ => none

end Sys2Proof.Machine
end

