-- ==== Sys2Proof/Machine/Sequencer.lean ====
section
/-!
DEFINITION. The contactor sequencer (chapter 6): coil drivers and interlocks, the precharge test it reads (R77),
running a sequence step by step, orderly open, fast open, and what reaches it from other blocks (R124).
-/

namespace Sys2Proof.Machine

/-! ### Coil drivers (R100, R101, R105) -/

/-- The open-coil monitor's no-current interval: 5 ms (R101). -/
def noCurrentInterval : Nat := ms 5

/-- Release: a driver in PULL_IN or HOLD enters OFF at once; a driver in OFF is unchanged. -/
def CoilDriver.release (d : CoilDriver) : CoilDriver := if d.driven then .released d.sense else d

/-- Drive: a driver in OFF enters PULL_IN for the pull-in time (in ms), and its monitor starts the interval when the
sense shows no current; a driven driver is unchanged. -/
def CoilDriver.drive (d : CoilDriver) (pullInTime : Nat) : CoilDriver :=
  if d.driven then d
  else ⟨.pullIn, some (ms pullInTime), d.sense, if d.sense then none else some noCurrentInterval, false⟩

/-- All four coils are released at once. -/
def State.releaseAll (s : State) : State :=
  s.withSeq { s.seq with coils := s.seq.coils.map CoilDriver.release }

/-- A release of one coil; that of MNEG releases all four (R105). -/
def State.releaseCoil (s : State) (c : Contactor) : State :=
  match c with
  | .mneg => s.releaseAll
  | .mpos | .pre | .chg =>
    s.withSeq { s.seq with coils := s.seq.coils.set c (s.seq.coils.get c).release }

/-- The pull-in time of a coil, in ms (R103). -/
def State.pullInTime (s : State) (c : Contactor) : Nat :=
  match s.tables.working with
  | some t => t.sequence.pullInTime.get c
  | none => 0

/-- A drive of one coil. -/
def State.driveCoil (s : State) (c : Contactor) : State :=
  s.withSeq { s.seq with coils := s.seq.coils.set c ((s.seq.coils.get c).drive (s.pullInTime c)) }

/-- The MNEG coil is driven. -/
def State.mnegDriven (s : State) : Bool := s.seq.coils.mneg.driven

/-- A DRIVE step is stopped by an interlock (R105). -/
def State.interlocked (s : State) (cls : SeqClass) (c : Contactor) : Bool :=
  (!(c == .mneg) && !s.mnegDriven) || (c == .chg && cls == .closeDrive)

/-! ### The precharge test (R76, R77) -/

inductive Precharge where
  | reached | notReached | noReference
  deriving DecidableEq, Repr

/-- The age of the pack reference in ms, 0 to 65,535. -/
def PackReference.age (r : PackReference) : Nat := r.elapsed / 1000

/-- The precharge test for a ratio. -/
def State.precharge (s : State) (ratio : Nat) : Precharge :=
  match s.current.reference with
  | none => .noReference
  | some r =>
    if r.age < 1000 then
      match s.current.stream, s.newestRecord with
      | .present, some rec => if ratio * (r.sum / 100) ≤ rec.link * 256 then .reached else .notReached
      | _, _ => .notReached
    else .noReference

/-! ### Running a sequence (R107 to R111, R115) -/

/-- The current step waits with the step timer running. -/
def State.waitAt (s : State) (i timer : Nat) : State :=
  s.withSeq { s.seq with step := some i, stepTimer := some timer }

/-- The cause kept as the open cause; a running orderly open always has one (R106). -/
def State.openCauseOr (s : State) : Cause := s.seq.openCause.getD .command

/-- Nothing is suspected of a weld. -/
def noSuspects : PerContactor Bool := ⟨false, false, false, false⟩

/-- END of the default open sequence (R115). -/
def State.openEnd (s : State) (i : Nat) : State :=
  let s1 := s.releaseAll
  let ended : Sequencer :=
    { s1.seq with running := none, step := none, stepTimer := none, openCause := none, deferTimer := none }
  if s.seq.weldSuspects = noSuspects then
    (s1.record .openDone none s.openCauseOr (some 0) (some i)).withSeq { ended with state := .opened }
  else s1.withSeq { ended with state := .tripped, tripCause := some .weld }

/-- Steps of the default open sequence, from index `i` on.  A sequence of class OPEN holds no DRIVE and no
AWAIT_PRECHARGE (R104); they would do nothing here. -/
def runOpening : List SeqStep → Nat → State → State
  | [], i, s => s.openEnd i
  | .endStep :: _, i, s => s.openEnd i
  | .release c :: rest, i, s => runOpening rest (i + 1) (s.releaseCoil c)
  | .wait t :: _, i, s => s.waitAt i (ms t)
  | .awaitFb c closed t :: rest, i, s =>
    if (s.seq.feedback.get c).debounced = closed then runOpening rest (i + 1) s else s.waitAt i (ms t)
  | .drive _ :: rest, i, s => runOpening rest (i + 1) s
  | .awaitPrecharge _ _ :: rest, i, s => runOpening rest (i + 1) s

/-- The steps of the default open sequence. -/
def State.openSteps (s : State) : List SeqStep :=
  match s.sequence 0 with
  | some q => q.steps
  | none => []

/-- The default open sequence starts (R115); a defer timer stops (R114). -/
def State.startOpen (s : State) : State :=
  runOpening s.openSteps 0
    (s.withSeq
      { s.seq with state := .opening, running := some 0, step := some 0, stepTimer := none, deferTimer := none
                   weldSuspects := noSuspects })

/-- A step of a close sequence fails (R111). -/
def State.closeFailed (s : State) (id i : Nat) (contactor : Option Contactor) (reason : Cause) : State :=
  let s1 := s.record .closeFailed contactor reason (some id) (some i)
  (s1.withSeq { s1.seq with openCause := some reason }).startOpen

/-- END of a close sequence (R111). -/
def State.closeDone (s : State) (id i : Nat) : State :=
  let s1 := s.record .closeDone none .command (some id) (some i)
  s1.withSeq { s1.seq with state := .closed, step := none, stepTimer := none }

/-- Steps of a close sequence, from index `i` on. -/
def runClosing (id : Nat) (cls : SeqClass) : List SeqStep → Nat → State → State
  | [], i, s => s.closeDone id i
  | .endStep :: _, i, s => s.closeDone id i
  | .drive c :: rest, i, s =>
    if s.interlocked cls c then s.closeFailed id i (some c) .interlock
    else runClosing id cls rest (i + 1) (s.driveCoil c)
  | .release c :: rest, i, s => runClosing id cls rest (i + 1) (s.releaseCoil c)
  | .wait t :: _, i, s => s.waitAt i (ms t)
  | .awaitFb c closed t :: rest, i, s =>
    if (s.seq.feedback.get c).debounced = closed then runClosing id cls rest (i + 1) s else s.waitAt i (ms t)
  | .awaitPrecharge ratio t :: rest, i, s =>
    match s.precharge ratio with
    | .reached => runClosing id cls rest (i + 1) s
    | .notReached => s.waitAt i (ms t)
    | .noReference => s.closeFailed id i none .noReference

/-- The running sequence with its id, and the current step with its index. -/
structure Running where
  id : Nat
  seq : Sequence
  index : Nat
  step : SeqStep
  deriving DecidableEq, Repr

/-- The step being carried out in CLOSING and OPENING. -/
def State.runningStep (s : State) : Option Running :=
  match s.seq.running, s.seq.step with
  | some id, some i =>
    match s.sequence id with
    | none => none
    | some q =>
      match q.steps[i]? with
      | none => none
      | some st => some ⟨id, q, i, st⟩
  | _, _ => none

/-- The current step completes: the step timer stops and the next step is carried out at the same event (R107). -/
def State.stepDone (s : State) (r : Running) : State :=
  let s1 := s.withSeq { s.seq with stepTimer := none }
  match s.seq.state with
  | .closing => runClosing r.id r.seq.cls (r.seq.steps.drop (r.index + 1)) (r.index + 1) s1
  | .opening => runOpening (r.seq.steps.drop (r.index + 1)) (r.index + 1) s1
  | .opened | .closed | .deferred | .tripped => s

/-- A CLOSE that has passed its checks (R110). -/
def State.startClose (s : State) (id : Nat) (q : Sequence) : State :=
  let s1 := s.record .closeCmd none .command (some id) (some 0)
  runClosing id q.cls q.steps 0
    (s1.withSeq { s1.seq with state := .closing, running := some id, step := some 0, stepTimer := none
                              openCause := none })

/-! ### Orderly open (R112 to R114) -/

/-- The break limit in mA (R103). -/
def State.breakLimit (s : State) : Nat :=
  match s.tables.working with
  | some t => t.sequence.breakLimit
  | none => 0

/-- The defer timeout in ms (R103). -/
def State.deferTimeout (s : State) : Nat :=
  match s.tables.working with
  | some t => t.sequence.deferTimeout
  | none => 0

/-- The open is deferred: the stream is PRESENT and the magnitude of the pack current is above the break limit
(R113). -/
def State.highCurrent (s : State) : Bool :=
  match s.packCurrent with
  | some c => decide (s.breakLimit < c.current.natAbs)
  | none => false

/-- The defer timer's expiry (R114). -/
def State.deferExpired (s : State) : State :=
  (s.record .highCurrentBreak none .timeout none none).startOpen

/-- The deferral test (R113); a defer timeout of 0 expires at this event (R114). -/
def State.deferralTest (s : State) : State :=
  if s.highCurrent then
    let s1 := s.record .openDeferred none s.openCauseOr none none
    let s2 := s1.withSeq { s1.seq with state := .deferred, running := none, step := none, stepTimer := none
                                       deferTimer := some (ms s.deferTimeout) }
    if s.deferTimeout = 0 then s2.deferExpired else s2
  else s.startOpen

/-- The END step of the running sequence. -/
def State.endStepIndex (s : State) : Option Nat :=
  match s.seq.running with
  | none => none
  | some id => (s.sequence id).map fun q => q.steps.length - 1

/-- An orderly open request (R112). -/
def State.orderlyOpen (s : State) (cause : Cause) : State :=
  match s.seq.state with
  | .closing =>
    let s1 := s.record .openCmd none cause s.seq.running s.seq.step
    (s1.withSeq { s1.seq with stepTimer := none, openCause := some cause }).deferralTest
  | .closed =>
    let s1 := s.record .openCmd none cause s.seq.running s.endStepIndex
    (s1.withSeq { s1.seq with stepTimer := none, openCause := some cause }).deferralTest
  | .opened | .deferred | .opening | .tripped => s

/-! ### Fast open (R117) -/

/-- A FAST_OPEN, by command or by a request of the limit monitor. -/
def State.takeFastOpen (s : State) (cause : Cause) : State :=
  match s.seq.state with
  | .tripped => s.record .fastOpen none cause none none
  | .opened | .closing | .closed | .deferred | .opening =>
    let s1 := s.releaseAll.record .fastOpen none cause none none
    s1.withSeq { s1.seq with state := .tripped, running := none, step := none, stepTimer := none
                             openCause := none, deferTimer := none, tripCause := some cause }

/-! ### What reaches the sequencer (R124) -/

/-- The precharge test is applied again to a waiting AWAIT_PRECHARGE step (R109). -/
def State.retestPrecharge (s : State) : State :=
  match s.seq.state, s.runningStep with
  | .closing, some r =>
    match r.step with
    | .awaitPrecharge ratio _ =>
      match s.precharge ratio with
      | .reached => s.stepDone r
      | .notReached => s
      | .noReference => s.closeFailed r.id r.index none .noReference
    | .drive _ | .release _ | .wait _ | .awaitFb _ _ _ | .endStep => s
  | _, _ => s

/-- A current record has entered the ring (R66, R109, R114). -/
def State.sequencerRecord (s : State) : State :=
  match s.seq.state with
  | .closing => s.retestPrecharge
  | .deferred => if s.highCurrent then s else s.startOpen
  | .opened | .closed | .opening | .tripped => s

/-- The stream has become ABSENT (R67, R109, R114). -/
def State.sequencerStreamAbsent (s : State) : State :=
  match s.seq.state with
  | .closing => s.retestPrecharge
  | .deferred => s.startOpen
  | .opened | .closed | .opening | .tripped => s

/-- The current step is an AWAIT_FB for this contactor and state. -/
def SeqStep.awaits (st : SeqStep) (c : Contactor) (closed : Bool) : Bool :=
  match st with
  | .awaitFb c' closed' _ => c' == c && closed' == closed
  | .drive _ | .release _ | .wait _ | .awaitPrecharge _ _ | .endStep => false

/-- A debounced change is a feedback loss when MNEG or MPOS reads OPEN while its coil is driven (R119). -/
def State.feedbackLost (s : State) (c : Contactor) (closed : Bool) : Bool :=
  (c == .mneg || c == .mpos) && !closed && (s.seq.coils.get c).driven

/-- A debounced feedback change reaches the sequencer (R108, R119). -/
def State.sequencerFeedback (s : State) (c : Contactor) (closed : Bool) : State :=
  match s.seq.state with
  | .closing | .opening =>
    match s.runningStep with
    | some r => if r.step.awaits c closed then s.stepDone r else s
    | none => s
  | .closed =>
    if s.feedbackLost c closed then
      (s.record .feedbackLost (some c) .feedback s.seq.running none).orderlyOpen .feedback
    else s
  | .opened | .deferred | .tripped => s

/-- The step timer's expiry (R107 to R109, R111, R115). -/
def State.stepTimerExpired (s : State) (r : Running) : State :=
  match r.step with
  | .wait _ => s.stepDone r
  | .awaitFb c _ _ =>
    match s.seq.state with
    | .opening =>
      let s1 := s.record .weldSuspect (some c) .timeout (some 0) (some r.index)
      (s1.withSeq { s1.seq with weldSuspects := s1.seq.weldSuspects.set c true }).stepDone r
    | .closing => s.closeFailed r.id r.index (some c) .timeout
    | .opened | .closed | .deferred | .tripped => s
  | .awaitPrecharge ratio _ =>
    match s.precharge ratio with
    | .reached => s.stepDone r
    | .notReached => s.closeFailed r.id r.index none .timeout
    | .noReference => s.closeFailed r.id r.index none .noReference
  | .drive _ | .release _ | .endStep => s

/-- An open coil is reported (R101, R119). -/
def State.coilFault (s : State) (c : Contactor) : State :=
  let s1 := s.record .coilFault (some c) .feedback s.seq.running s.seq.step
  match s.seq.state with
  | .closed => s1.orderlyOpen .feedback
  | .opened | .closing | .deferred | .opening | .tripped => s1

end Sys2Proof.Machine
end

