-- ==== Sys2Proof/Machine/Schedule.lean ====
section
/-!
DEFINITION. The schedule engine's frames and triggers (R40 to R49): frame starts, due entries, take and skip,
equal-phase groups, cancelling, and the next trigger instant.
-/

namespace Sys2Proof.Machine

/-- The engine acts on a frame start given now (R41). -/
def State.actsOnFrames (s : State) : Bool :=
  s.tablesLoaded && s.enumerated && s.sleep.power == .active && !(s.tables.engine == .activating) &&
    !s.north.restartTaken

/-- The schedule runs (R41). -/
def State.scheduleRuns (s : State) : Bool :=
  s.actsOnFrames && (s.lock.state == .locked || s.lock.state == .holdover)

/-- The round counter advances by `n` (R45). -/
def State.countRounds (s : State) (n : Nat) : State :=
  s.withStore { s.store with roundCounter := stampAdd s.store.roundCounter n }

/-- `n` due entries are skipped: each takes a round number, and OVERRUN is set (R45). -/
def State.skipEntries (s : State) (n : Nat) : State :=
  if n = 0 then s else (s.countRounds n).setOverrun

/-- The previous frame is closed (R42): its due and held entries are skipped, and a trigger waiting for the link
keeps its number and sets OVERRUN. -/
def State.closeFrame (s : State) : State :=
  let s1 := s.skipEntries (s.sched.due.length + s.sched.held.length)
  let s2 := if s.sched.waiting.isSome then s1.setOverrun else s1
  s2.withSched { s2.sched with due := [], held := [], waiting := none }

/-- A due entry joins a list ordered by phase, behind entries of its phase (R44). -/
def insertDue (d : DueEntry) : List DueEntry → List DueEntry
  | [] => [d]
  | e :: rest => if d.phase < e.phase then d :: e :: rest else e :: insertDue d rest

/-- The entries whose counter is 0, ordered by phase and index (R42, R44). -/
def dueEntries (instantOf : ScheduleEntry → Stamp) : Nat → List ScheduleEntry → List Nat → List DueEntry → List DueEntry
  | i, e :: es, c :: cs, acc =>
    dueEntries instantOf (i + 1) es cs (if c = 0 then insertDue ⟨i, e.phase, instantOf e⟩ acc else acc)
  | _, _, _, acc => acc

/-- Every counter advances by 1 modulo d (R42). -/
def advanceCounters : List ScheduleEntry → List Nat → List Nat
  | e :: es, c :: cs => (c + 1) % e.decimation :: advanceCounters es cs
  | _, cs => cs

/-- The offset of a phase in a frame of length `lEst` (R44). -/
def phaseOffset (phase lEst : Nat) : Nat := phase * lEst / 4096

/-- The trigger instant of an entry (R44). -/
def triggerInstant (tFrame : Stamp) (lEst : Nat) (e : ScheduleEntry) : Stamp :=
  stampAdd tFrame (phaseOffset e.phase lEst)

/-- The new frame is opened (R42). -/
def State.openFrame (s : State) (tFrame : Stamp) (lEst : Nat) : State :=
  s.withSched
    { s.sched with
      due := dueEntries (triggerInstant tFrame lEst) 0 s.activeSchedule s.sched.counters []
      counters := advanceCounters s.activeSchedule s.sched.counters }

/-- A due entry is taken (R45): the counter advances and its trigger waits to be sent. -/
def State.takeEntry (s : State) (d : DueEntry) : State :=
  let s1 := s.countRounds 1
  s1.withSched { s1.sched with waiting := some ⟨d.index, d.instant, s1.store.roundCounter⟩ }

/-- No round is in assembly and no trigger waits or is held (R45). -/
def State.canTake (s : State) : Bool :=
  s.sched.assembly.isNone && s.sched.waiting.isNone && s.sched.held.isEmpty

/-- The first equal-phase group is decided: taken with its other members held, or skipped whole (R45, R46). -/
def State.decideGroup (s : State) : State :=
  match s.sched.due with
  | [] => s
  | d :: rest =>
    let members := rest.takeWhile fun e => e.phase == d.phase
    let others := rest.dropWhile fun e => e.phase == d.phase
    if s.canTake then (s.withSched { s.sched with due := others, held := members }).takeEntry d
    else (s.skipEntries (1 + members.length)).withSched { s.sched with due := others }

/-- The instant of the first due entry has come. -/
def State.instantCome (s : State) : Bool :=
  match s.sched.due with
  | [] => false
  | d :: _ => notLater d.instant s.now

/-- Every group whose instant has come is decided, in order; `n` bounds their number. -/
def decideGroups : Nat → State → State
  | 0, s => s
  | n + 1, s => if s.instantCome then decideGroups n s.decideGroup else s

/-- A frame start (R28, R41, R42, R44). -/
def State.frameStart (s : State) (tFrame : Stamp) (lEst : Nat) : State :=
  if s.actsOnFrames then
    let s1 := s.closeFrame.openFrame tFrame lEst
    decideGroups s1.sched.due.length s1
  else s

/-- The next held entry is taken when the round before it leaves assembly (R46). -/
def State.takeHeld (s : State) : State :=
  match s.sched.held with
  | [] => s
  | d :: rest => (s.withSched { s.sched with held := rest }).takeEntry d

/-- The due entries are cancelled (R48). -/
def State.cancelDue (s : State) : State :=
  s.withSched { s.sched with due := [], held := [], waiting := none }

/-- The smallest phase of a schedule. -/
def minPhase : List ScheduleEntry → Nat
  | [] => 0
  | [e] => e.phase
  | e :: rest => min e.phase (minPhase rest)

/-- The next trigger instant (R49). -/
def State.nextTriggerInstant (s : State) : Option Stamp :=
  if s.scheduleRuns then
    match s.sched.waiting, s.sched.held, s.sched.due, s.lock.tLast with
    | some w, _, _, _ => some w.instant
    | none, d :: _, _, _ => some d.instant
    | none, [], d :: _, _ => some d.instant
    | none, [], [], some t =>
      some (stampAdd t (s.lock.lEst + phaseOffset (minPhase s.activeSchedule) s.lock.lEst))
    | none, [], [], none => none
  else none

end Sys2Proof.Machine
end

