-- ==== Sys2Proof/Machine/Lock.lean ====
section
/-!
DEFINITION. The sync lock (R26 to R38): the decision lag, SYNC arrivals, window closes, loss of lock and the
change of parameters at a commit.
-/

namespace Sys2Proof.Machine

/-- The lock parameters of a profile (R27). -/
structure LockParams where
  lnom : Nat
  tol : Nat
  limit : Nat
  deriving DecidableEq, Repr

def ProfileRecord.lockParams (p : ProfileRecord) : LockParams := ⟨p.lnom, p.tol, p.holdoverLimit⟩

/-- The parameters in force: those of the active profile. -/
def State.lockParams (s : State) : LockParams :=
  match s.activeProfile with
  | some p => p.lockParams
  | none => ⟨1000, 1, 1⟩

/-- 48 bit times in microseconds (R26). -/
def LinkRate.syncTime : LinkRate → Nat
  | .mbit1 => 48
  | .mbit2 => 24
  | .mbit4 => 12
  | .mbit8 => 6

/-- The sync delay of the working module table (R25). -/
def State.syncDelay (s : State) : Nat :=
  match s.moduleTable with
  | some m => m.syncDelay
  | none => 0

/-- The decision lag Δ (R26). -/
def State.lag (s : State) : Nat := s.syncDelay + s.north.rate.syncTime

/-- The expected instant E of LOCKED and HOLDOVER (R27). -/
def State.expected (s : State) (tLast : Stamp) : Stamp := stampAdd tLast s.lock.lEst

/-- The window's close (R27). -/
def State.windowCloseAt (s : State) (tLast : Stamp) : Stamp :=
  stampAdd (s.expected tLast) (s.lockParams.tol + s.lag)

/-- The acquire window's close (R27). -/
def State.acquireCloseAt (s : State) (tLast : Stamp) : Stamp :=
  stampAdd tLast (s.lockParams.lnom + s.lockParams.tol + s.lag)

/-- The lock enters UNLOCKED (R31, R35, R36): the schedule stops and an orderly open is requested. -/
def State.lockLoss (s : State) : State :=
  (s.withLock { s.lock with state := .unlocked, tLast := none, acquireCount := 0, missCount := 0 }).cancelDue.orderlyOpen
    .unlock

/-- A SYNC is accepted in LOCKED or HOLDOVER (R32, R34). -/
def State.acceptSync (s : State) (t tLast : Stamp) : State :=
  let p := s.lockParams
  let moved : Int := s.lock.lEst + (stampDiff t tLast - s.lock.lEst).tdiv 8
  let lEst := (clampInt moved ((p.lnom : Int) - p.tol) ((p.lnom : Int) + p.tol)).toNat
  (s.withLock { s.lock with state := .locked, tLast := some t, lEst := lEst, missCount := 0 }).frameStart t lEst

/-- A virtual frame starts with a miss count (R33, R35). -/
def State.virtualFrame (s : State) (e : Stamp) (misses : Nat) : State :=
  (s.withLock { s.lock with state := .holdover, tLast := some e, missCount := misses }).frameStart e s.lock.lEst

/-- A window closes without an accepted SYNC (R33, R35). -/
def State.closeWindow (s : State) (tLast : Stamp) : State :=
  match s.lock.state with
  | .locked => s.virtualFrame (s.expected tLast) 1
  | .holdover =>
    if s.lock.missCount + 1 ≤ s.lockParams.limit then s.virtualFrame (s.expected tLast) (s.lock.missCount + 1)
    else s.lockLoss
  | .unlocked | .acquiring => s

/-- A SYNC in UNLOCKED (R29). -/
def State.beginAcquire (s : State) (t : Stamp) : State :=
  s.withLock { s.lock with state := .acquiring, tLast := some t, acquireCount := 0 }

/-- A SYNC in ACQUIRING (R30). -/
def State.acquire (s : State) (t tLast : Stamp) : State :=
  let p := s.lockParams
  let l := stampDiff t tLast
  if (p.lnom : Int) - p.tol ≤ l ∧ l ≤ (p.lnom : Int) + p.tol then
    if s.lock.acquireCount + 1 = 2 then
      (s.withLock { s.lock with state := .locked, tLast := some t, lEst := l.toNat, acquireCount := 0
                                missCount := 0 }).frameStart t l.toNat
    else
      s.withLock { s.lock with tLast := some t, lEst := l.toNat, acquireCount := s.lock.acquireCount + 1 }
  else s.withLock { s.lock with tLast := some t, acquireCount := 0 }

/-- A SYNC arrival with stamp `t` (R29 to R34).  A stamp later than the window's end is judged after the closes it
comes behind (R32); `n` bounds their number, since after at most H of them the lock is UNLOCKED.  In ACQUIRING a SYNC
is judged under R30 as it stands, also one whose stamp lies beyond an acquire window whose close has not been taken:
DESIGN CHOICE (log 36). -/
def judgeSync : Nat → Stamp → State → State
  | n, t, s =>
    match s.lock.state, s.lock.tLast with
    | .unlocked, _ => s.beginAcquire t
    | .acquiring, some tLast => s.acquire t tLast
    | .acquiring, none => s.beginAcquire t
    | .locked, none | .holdover, none => s.beginAcquire t
    | .locked, some tLast | .holdover, some tLast =>
      let d := stampDiff t (s.expected tLast)
      if d < -(s.lockParams.tol : Int) then s.setStraySync
      else if d ≤ (s.lockParams.tol : Int) then s.acceptSync t tLast
      else
        match n with
        | 0 => s
        | n + 1 => judgeSync n t (s.closeWindow tLast)

/-- An accepted SYNC frame reaches the lock (R25); with no tables it is dropped there. -/
def State.syncArrival (s : State) (delimiter : Stamp) : State :=
  if s.tablesLoaded then judgeSync 9 (stampAddInt delimiter (-(s.syncDelay : Int))) s else s

/-- The acquire window's close has already passed (R37).  A close that falls at this very microtick has not: it is left
to ACQUIRE_WINDOW_CLOSE, DESIGN CHOICE (log 39). -/
def State.acquireClosePassed (s : State) : Bool :=
  match s.lock.state, s.lock.tLast with
  | .acquiring, some t => later s.now (s.acquireCloseAt t)
  | _, _ => false

/-- A close that has already passed is taken at once (R37). -/
def State.takePassedClose (s : State) : State := if s.acquireClosePassed then s.lockLoss else s

/-- The new parameters of a commit (R37); `old` are those before it, and those of `s` are the new.  A lock that stays
LOCKED or HOLDOVER takes no window close here, also where the new tol has put it in the past: it is then due, for
WINDOW_CLOSE or for the SYNC that comes behind it, DESIGN CHOICE (log 42). -/
def State.lockCommit (s : State) (old : LockParams) : State :=
  if s.lockParams = old then s
  else
    match s.lock.state with
    | .unlocked => s
    | .acquiring => s.takePassedClose
    | .locked | .holdover =>
      if s.lockParams.tol < ((s.lock.lEst : Int) - s.lockParams.lnom).natAbs then
        ((s.withLock { s.lock with state := .acquiring, acquireCount := 0, missCount := 0 }).cancelDue).takePassedClose
      else s

/-- The lock is set to UNLOCKED at sleep entry (R38); L_est is kept. -/
def State.lockSleep (s : State) : State :=
  s.withLock { s.lock with state := .unlocked, tLast := none, acquireCount := 0, missCount := 0 }

/-- A window close of LOCKED or HOLDOVER is due (R26, R27). -/
def State.windowCloseDue (s : State) : Option Stamp :=
  match s.lock.state, s.lock.tLast with
  | .locked, some t | .holdover, some t => if notLater (s.windowCloseAt t) s.now then some t else none
  | _, _ => none

/-- The acquire window's close is due (R26, R27). -/
def State.acquireCloseDue (s : State) : Bool :=
  match s.lock.state, s.lock.tLast with
  | .acquiring, some t => notLater (s.acquireCloseAt t) s.now
  | _, _ => false

/-- WINDOW_CLOSE (R33, R35). -/
def execWindowClose (s : State) : Host.Outcome State Fault Refusal :=
  .next
    (match s.operating, s.windowCloseDue with
     | true, some tLast => s.closeWindow tLast
     | _, _ => s)

/-- ACQUIRE_WINDOW_CLOSE (R31). -/
def execAcquireWindowClose (s : State) : Host.Outcome State Fault Refusal :=
  .next (if s.operating && s.acquireCloseDue then s.lockLoss else s)

end Sys2Proof.Machine
end

