-- ==== Sys2Proof/Machine/Profiles.lean ====
section
/-!
DEFINITION. The profile controller (chapter 8): the checks of R139, the three commits, and what a commit changes.
-/

namespace Sys2Proof.Machine

/-- A fresh run state (R96). -/
def RunState.fresh : RunState := ⟨.clear, 0, none⟩

/-- Fresh run states for a limit set. -/
def freshRunStates (set : List LimitEntry) : List RunState := set.map fun _ => RunState.fresh

/-- Fresh decimation counters for a schedule (R43). -/
def freshCounters (schedule : List ScheduleEntry) : List Nat := schedule.map fun _ => 0

/-- The live state of the active profile (R142). -/
def State.liveContext (s : State) : SavedContext := ⟨s.limits.runStates, s.sched.counters⟩

/-- The limit run states and the decimation counters that come into force (R146, R147). -/
def State.loadContext (s : State) (c : SavedContext) : State :=
  (s.withLimits { s.limits with runStates := c.runStates }).withSched { s.sched with counters := c.counters }

/-- The context a profile starts from when it is made active with fresh state. -/
def State.freshContext (s : State) : SavedContext := ⟨freshRunStates s.limitSet, freshCounters s.activeSchedule⟩

/-- The commit mark of the round in assembly is set (R54, R146). -/
def State.markRound (s : State) : State :=
  s.withSched { s.sched with assembly := s.sched.assembly.map fun r => { r with commitMark := true } }

/-- The running sequence is among a profile's allowed close sequences. -/
def State.runningAllowed (s : State) (p : ProfileRecord) : Bool :=
  match s.seq.running with
  | some id => p.allowedClose.getLsbD id
  | none => true

/-- A commit calls for an orderly open (R149). -/
def State.commitOpens (s : State) (p : ProfileRecord) : Bool :=
  match s.seq.state with
  | .closing | .closed => !s.runningAllowed p || p.openOnEntry
  | .deferred => p.openOnEntry
  | .opened | .opening | .tripped => false

/-- The test after a commit (R149). -/
def State.postCommitOpen (s : State) : State :=
  match s.activeProfile with
  | none => s
  | some p => if s.commitOpens p then s.orderlyOpen .profile else s

/-- What every commit does once the chain has changed (R146 to R149); `old` are the lock parameters before it and
`context` what comes into force, fresh or restored. -/
def State.applyCommit (s : State) (old : LockParams) (context : SavedContext) : State :=
  ((s.cancelDue.loadContext context).markRound.lockCommit old).postCommitOpen

/-- The profile chain is replaced. -/
def State.withChainList (s : State) (chain : List ChainElement) : State := s.withProfiles ⟨chain⟩

/-- The commit of SWITCH_PROFILE (R140). -/
def State.switchCommit (s : State) (p : Nat) : State :=
  let s1 := s.withChainList (⟨p, .command, none⟩ :: s.profiles.chain.tail)
  s1.applyCommit s.lockParams s1.freshContext

/-- The chain with the active profile's context saved (R142). -/
def State.savedChain (s : State) : List ChainElement :=
  match s.profiles.chain with
  | [] => []
  | a :: below => { a with saved := some s.liveContext } :: below

/-- The commit of an ENTER of any cause (R141, R144, R145). -/
def State.enterCommit (s : State) (p : Nat) (cause : Cause) : State :=
  let s1 := s.withChainList (⟨p, cause, none⟩ :: s.savedChain)
  s1.applyCommit s.lockParams s1.freshContext

/-- The commit of a RETURN (R143, R145): the saved context is consumed. -/
def State.returnCommit (s : State) : State :=
  match s.profiles.chain with
  | _ :: b :: below =>
    let s1 := s.withChainList ({ b with saved := none } :: below)
    s1.applyCommit s.lockParams (b.saved.getD s1.freshContext)
  | _ => s

/-- Checks 1 to 3 of R139. -/
def State.profileGate (s : State) : Option ReplyStatus :=
  if !s.tablesLoaded then some (.refused .noTables)
  else if s.tables.engine = .activating then some .busy
  else if s.sleep.power ≠ .active then some (.refused .state)
  else none

/-- The checks of R139 on entering or switching to `p`; `depthCheck` adds check 7 and `classCheck` check 5. -/
def State.profileCheck (s : State) (p : Nat) (classCheck depthCheck : Bool) : Option ReplyStatus :=
  match s.profileGate with
  | some st => some st
  | none =>
    match s.profileRecord p with
    | none => some (.refused .range)
    | some r =>
      if classCheck && r.watch then some (.refused .notAllowed)
      else if s.busy p then some (.refused .profileBusy)
      else if depthCheck && decide (4 ≤ s.depth) then some (.refused .depth)
      else none

/-- The reply OK of a profile command: the chain as the commit left it. -/
def State.chainReplyOk (s : State) : State × Reply := (s, ⟨.ok, s.chainBytes⟩)

/-- SWITCH_PROFILE(p), past its form. -/
def State.doSwitch (p : Nat) (s : State) : State × Reply :=
  match s.profileCheck p true false with
  | some st => answer s st
  | none => (s.switchCommit p).chainReplyOk

/-- ENTER_PROFILE(p), past its form. -/
def State.doEnter (p : Nat) (s : State) : State × Reply :=
  match s.profileCheck p true true with
  | some st => answer s st
  | none => (s.enterCommit p .command).chainReplyOk

/-- RETURN_PROFILE, past its form. -/
def State.doReturn (_ : Unit) (s : State) : State × Reply :=
  match s.profileGate with
  | some st => answer s st
  | none => if s.depth ≤ 1 then refuse s .state else s.returnCommit.chainReplyOk

/-- A limit ENTER request is taken (R144). -/
def State.takeEnterRequest (s : State) (r : EnterRequest) : State :=
  match s.profileCheck r.profile false true with
  | some _ => s.setEntryFailed
  | none => s.enterCommit r.profile (.limit r.entry)

/-- Limit ENTER requests handed out and not yet taken are refused, each setting ENTRY_FAILED (R90, R144). -/
def State.refuseEnters (s : State) : State :=
  if s.limits.enterRequests.isEmpty then s
  else (s.withLimits { s.limits with enterRequests := [] }).setEntryFailed

/-- SWITCH_PROFILE (R139, R140). -/
def execSwitchProfile (s : State) : Host.Outcome State Fault Refusal :=
  .next (takeCommand .switchProfile argBelow8 State.doSwitch s)

/-- ENTER_PROFILE (R139, R141). -/
def execEnterProfile (s : State) : Host.Outcome State Fault Refusal :=
  .next (takeCommand .enterProfile argBelow8 State.doEnter s)

/-- RETURN_PROFILE (R139, R143). -/
def execReturnProfile (s : State) : Host.Outcome State Fault Refusal :=
  .next (takeCommand .returnProfile argNone State.doReturn s)

/-- LIMIT_ENTER_REQUEST (R144): the oldest ENTER request handed and not yet taken. -/
def execLimitEnterRequest (s : State) : Host.Outcome State Fault Refusal :=
  .next
    (match s.operating, s.limits.enterRequests with
     | true, r :: rest => (s.withLimits { s.limits with enterRequests := rest }).takeEnterRequest r
     | _, _ => s)

end Sys2Proof.Machine
end

