-- ==== Sys2Proof/Machine/Align.lean ====
section
/-!
DEFINITION. The alignment unit (R69 to R76): the aligned current of each module entry, the compensated voltages,
the pack sum and the pack reference.
-/

namespace Sys2Proof.Machine

/-- r0: the newest record whose stamp is not later than `t` (R69). -/
def newestNotLater (t : Stamp) : List RingRecord → Option RingRecord
  | [] => none
  | r :: rest =>
    match newestNotLater t rest with
    | some x => some x
    | none => if notLater r.stamp t then some r else none

/-- r1: the oldest record whose stamp is later than `t` (R69). -/
def oldestLater (t : Stamp) (ring : List RingRecord) : Option RingRecord := ring.find? fun r => later r.stamp t

/-- A current taken from one record, with its mark (R73). -/
def RingRecord.aligned (r : RingRecord) (flag : AlignFlag) : Aligned := ⟨r.current, flag, r.saturated⟩

/-- No current (R72). -/
def Aligned.noCurrent : Aligned := ⟨0, .noCurrent, false⟩

/-- The aligned current of a bracketed entry (R70). -/
def bracketed (gapLimit : Nat) (r0 r1 : RingRecord) (t : Stamp) : Aligned :=
  let g := stampDiff r1.stamp r0.stamp
  let d := stampDiff t r0.stamp
  if (gapLimit : Int) < g then
    if d ≤ stampDiff r1.stamp t then r0.aligned .gap else r1.aligned .gap
  else ⟨r0.current + roundDiv ((r1.current - r0.current) * d) g.toNat, .ok, r0.saturated || r1.saturated⟩

/-- The test of R69 for an instant; `none` is the waiting case. -/
def alignAt (stream : StreamState) (ring : List RingRecord) (gapLimit : Nat) (t : Stamp) : Option Aligned :=
  match stream, ring with
  | .absent, _ => some .noCurrent
  | .present, [] => some .noCurrent
  | .present, oldest :: _ =>
    match newestNotLater t ring, oldestLater t ring with
    | none, _ => some (oldest.aligned .stale)
    | some r0, some r1 => some (bracketed gapLimit r0 r1 t)
    | some _, none => none

/-- A module entry that still waits for its aligned current. -/
def RoundEntry.unsettled (e : RoundEntry) : Bool := e.status == .ok && e.aligned.isNone

/-- Every OK entry that is not settled is tested and, unless it waits, settled (R69, R71). -/
def settleWith (f : Stamp → Option Aligned) (entries : List RoundEntry) : List RoundEntry :=
  entries.map fun e => if e.unsettled then { e with aligned := f e.sampleInstant } else e

/-- The gap limit of the working module table. -/
def State.gapLimit (s : State) : Nat :=
  match s.moduleTable with
  | some m => m.gapLimit
  | none => 0

/-- The align wait limit of the working module table. -/
def State.alignWaitLimit (s : State) : Nat :=
  match s.moduleTable with
  | some m => m.alignWaitLimit
  | none => 0

/-- The entries after the test of R69 against the ring as it stands. -/
def State.settle (s : State) (entries : List RoundEntry) : List RoundEntry :=
  settleWith (alignAt s.current.stream s.current.ring s.gapLimit) entries

/-- The entries after the align wait's expiry: those that wait take the newest record's current, HELD (R71). -/
def State.settleHeld (s : State) (entries : List RoundEntry) : List RoundEntry :=
  settleWith
    (fun _ => match s.newestRecord with
      | some r => some (r.aligned .held)
      | none => some .noCurrent)
    entries

/-- The module entry of a position in the working module table. -/
def State.moduleAt (s : State) (position : Nat) : Option ModuleEntry :=
  match s.moduleTable, position with
  | some m, p + 1 => m.modules[p]?
  | _, _ => none

/-- The compensation resistance of a position, in µΩ. -/
def State.resistance (s : State) (position : Nat) : Nat :=
  match s.moduleAt position with
  | some m => m.resistance
  | none => 0

/-- One compensated voltage (R74). -/
def compensate (current : Int) (resistance v : Nat) : Nat :=
  (clampInt ((v : Int) + roundDiv (current * resistance) 100000) 0 65535).toNat

/-- The compensated voltages of an entry: for its raw voltages, when it is OK and its flag is not NO_CURRENT (R74). -/
def State.compensateEntry (s : State) (e : RoundEntry) : RoundEntry :=
  match e.status, e.raw, e.aligned with
  | .ok, some raw, some a =>
    if a.flag = .noCurrent then e
    else { e with compensated := some (raw.map (compensate a.current (s.resistance e.position))) }
  | _, _, _ => e

/-- The raw voltages an entry adds to the pack sum (R75). -/
def RoundEntry.rawSum (e : RoundEntry) : Nat :=
  match e.status, e.raw with
  | .ok, some raw => raw.foldl (· + ·) 0
  | _, _ => 0

/-- Positions 1 to `n` all stand in the entries with status OK (R75). -/
def positionsOk (entries : List RoundEntry) : Nat → Bool
  | 0 => true
  | n + 1 => entries.any (fun e => e.position == n + 1 && e.status == .ok) && positionsOk entries n

/-- The module count of the working module table. -/
def State.moduleCount (s : State) : Nat :=
  match s.moduleTable with
  | some m => m.modules.length
  | none => 0

/-- The pack sum of a round, absent for kind TEMPS (R75). -/
def State.packSumOf (s : State) (kind : MeasKind) (entries : List RoundEntry) : Option PackSum :=
  match kind with
  | .temps => none
  | .cells | .both =>
    some ⟨(entries.map RoundEntry.rawSum).foldl (· + ·) 0, positionsOk entries s.moduleCount⟩

/-- The pack reference when a round leaves ALIGNING with a pack sum (R76). -/
def State.setReference (s : State) (sum : Option PackSum) (tSend : Stamp) : State :=
  match sum with
  | some p =>
    if p.complete && !s.deepSleep then
      s.withCurrent { s.current with reference := some ⟨p.sum, tSend, 0⟩ }
    else s
  | none => s

/-- The sample instant of a position (R50). -/
def sampleInstant (tSend : Stamp) (hop position : Nat) (adjust : Int) : Stamp :=
  stampAddInt (stampAdd tSend (hop * position)) adjust

end Sys2Proof.Machine
end

