-- ==== Sys2Proof/Machine/Limits.lean ====
section
/-!
DEFINITION. The limit monitor (chapter 5): what each class watches, the evaluation of a round, the actions of a
trip, and the commands on limits.
-/

namespace Sys2Proof.Machine

/-! ### Channels with data (R81, R82) -/

/-- A position lies in an entry's range. -/
def LimitEntry.covers (e : LimitEntry) (position : Nat) : Bool :=
  decide (e.firstPosition ≤ position) && decide (position ≤ e.lastPosition)

/-- The channels of an entry's channel range among values numbered by `channels`. -/
def channelsIn (e : LimitEntry) (position : Nat) : List Nat → List Int → List Offence
  | c :: cs, v :: vs =>
    if e.firstChannel ≤ c ∧ c ≤ e.lastChannel then ⟨position, c, v⟩ :: channelsIn e position cs vs
    else channelsIn e position cs vs
  | _, _ => []

/-- The populated inputs of a position. -/
def State.populationAt (s : State) (position : Nat) : List Nat :=
  match s.moduleAt position with
  | some m => m.population
  | none => []

/-- Positions of one value: channel 0 (R83). -/
def onePosition (position : Nat) (v : Option Int) : List Offence :=
  match v with
  | some x => [⟨position, 0, x⟩]
  | none => []

/-- The voltages a CELL_COMP entry reads: the compensated ones, or the raw ones where there are none (R82). -/
def RoundEntry.compOrRaw (m : RoundEntry) : List Nat :=
  match m.compensated with
  | some c => c
  | none => m.raw.getD []

/-- The channels with data that one module entry gives a limit entry. -/
def State.entryChannels (s : State) (e : LimitEntry) (m : RoundEntry) : List Offence :=
  match e.cls with
  | .moduleMissing => [⟨m.position, 0, m.status.code.toNat⟩]
  | .cellRaw =>
    if m.status = .ok then
      channelsIn e m.position (s.populationAt m.position) ((m.raw.getD []).map Int.ofNat)
    else []
  | .cellComp =>
    if m.status = .ok then channelsIn e m.position (s.populationAt m.position) (m.compOrRaw.map Int.ofNat)
    else []
  | .temp =>
    if m.status = .ok then
      channelsIn e m.position (List.range' 1 (m.temperatures.getD []).length) (m.temperatures.getD [])
    else []
  | .current =>
    match m.status, m.aligned with
    | .ok, some a => onePosition m.position (if a.flag = .noCurrent then none else some a.current)
    | _, _ => []
  | .moduleFlag =>
    if m.status = .ok then onePosition m.position (m.flags.map fun f => (f.toNat : Int)) else []

/-- The in-range channels with data of a round, by position and channel. -/
def State.channelsWithData (s : State) (e : LimitEntry) (entries : List RoundEntry) : List Offence :=
  (entries.filter fun m => e.covers m.position).flatMap (s.entryChannels e)

/-! ### Trip and release conditions (R83, R86) -/

/-- The flags of the mask among a module's flags. -/
def maskedFlags (mask : Byte) (v : Int) : Byte := BitVec.ofInt 8 v &&& mask

/-- A channel offends. -/
def LimitEntry.offends (e : LimitEntry) (c : Offence) : Bool :=
  match e.cls with
  | .cellRaw | .cellComp | .temp | .current =>
    if e.below then decide (c.value < e.threshold) else decide (e.threshold < c.value)
  | .moduleFlag => !(maskedFlags e.flagMask c.value == 0)
  | .moduleMissing => !(c.value == 0)

/-- A channel lies on the safe side of the threshold moved by the hysteresis. -/
def LimitEntry.safe (e : LimitEntry) (c : Offence) : Bool :=
  match e.cls with
  | .cellRaw | .cellComp | .temp | .current =>
    if e.below then decide (e.threshold + e.hysteresis < c.value) else decide (c.value < e.threshold - e.hysteresis)
  | .moduleFlag | .moduleMissing => !e.offends c

/-- The first channel for which no other is better. -/
def firstBest (better : Offence → Offence → Bool) : Offence → List Offence → Offence
  | best, [] => best
  | best, c :: rest => firstBest better (if better c best then c else best) rest

/-- The most offending of the channels (R83); `none` without channels. -/
def LimitEntry.mostOffending (e : LimitEntry) (channels : List Offence) : Option Offence :=
  match e.cls with
  | .cellRaw | .cellComp | .temp | .current =>
    match channels with
    | [] => none
    | c :: rest =>
      some (firstBest (fun a b => if e.below then decide (a.value < b.value) else decide (b.value < a.value)) c rest)
  | .moduleFlag =>
    (channels.find? e.offends).map fun c => { c with value := ((maskedFlags e.flagMask c.value).toNat : Int) }
  | .moduleMissing => channels.find? e.offends

/-! ### Evaluation (R84 to R87) -/

/-- The run state of an entry after a round that gives it these channels. -/
def LimitEntry.evaluate (e : LimitEntry) (channels : List Offence) (r : RunState) : RunState :=
  match channels with
  | [] => r
  | _ :: _ =>
    let c := channels.any e.offends
    let last := if c then e.mostOffending channels else r.last
    match r.level with
    | .tripped =>
      if !e.latch && channels.all e.safe then ⟨.clear, 0, last⟩ else { r with last := last }
    | .clear | .pending =>
      if c then
        if e.persistence ≤ r.count + 1 then ⟨.tripped, e.persistence, last⟩ else ⟨.pending, r.count + 1, last⟩
      else ⟨.clear, 0, last⟩

/-- The run states after a round. -/
def State.evaluateAll (s : State) (entries : List RoundEntry) : List LimitEntry → List RunState → List RunState
  | e :: es, r :: rs => e.evaluate (s.channelsWithData e entries) r :: s.evaluateAll entries es rs
  | _, rs => rs

/-- The entries that passed into TRIPPED, with their indexes, in index order (R88). -/
def tripped : Nat → List LimitEntry → List RunState → List RunState → List (Nat × LimitEntry)
  | i, e :: es, a :: as, b :: bs =>
    if !(a.level == .tripped) && b.level == .tripped then (i, e) :: tripped (i + 1) es as bs
    else tripped (i + 1) es as bs
  | _, _, _, _ => []

/-- What one evaluation hands out (R88): fast-open requests, ENTER candidates, and whether WAKE was asked for. -/
structure Actions where
  fastOpens : List Nat
  enters : List EnterRequest
  wake : Bool
  deriving DecidableEq, Repr

/-- The actions of the entries that tripped, in index order. -/
def actionsOf (trips : List (Nat × LimitEntry)) : Actions where
  fastOpens := (trips.filter fun t => t.2.fastOpen).map (·.1)
  enters := (trips.filter fun t => t.2.enter).map fun t => ⟨t.2.enterTarget, t.1⟩
  wake := trips.any fun t => t.2.wake

/-- The run states and the actions after an evaluation. -/
def State.evaluationActions (s : State) (entries : List RoundEntry) : Actions :=
  actionsOf (tripped 0 s.limitSet s.limits.runStates (s.evaluateAll entries s.limitSet s.limits.runStates))

/-- The evaluation of a round (R84): the run states, and the requests handed out.  ENTRY_FAILED is set for every
ENTER candidate behind the first (R90); the wake request goes to the offer of the round (R91). -/
def State.evaluate (s : State) (entries : List RoundEntry) : State :=
  let a := s.evaluationActions entries
  let s1 := s.withLimits
    { s.limits with
      runStates := s.evaluateAll entries s.limitSet s.limits.runStates
      fastOpenRequests := s.limits.fastOpenRequests ++ a.fastOpens
      enterRequests := s.limits.enterRequests ++ a.enters.take 1 }
  if 1 < a.enters.length then s1.setEntryFailed else s1

/-! ### Commands (R93 to R95) -/

/-- Checks 1 and 2 of R11, R12, R93, R94 and R95. -/
def State.tablesGate (s : State) : Option ReplyStatus :=
  if !s.tablesLoaded then some (.refused .noTables)
  else if s.tables.engine = .activating then some .busy
  else none

/-- READ_LIMITS, past its form. -/
def State.doReadLimits (_ : Unit) (s : State) : State × Reply :=
  match s.tablesGate with
  | some st => answer s st
  | none => (s, ⟨.ok, s.limitsBlock⟩)

/-- A cleared run state keeps its last offending record (R94). -/
def RunState.cleared (r : RunState) : RunState := ⟨.clear, 0, r.last⟩

/-- CLEAR_LIMIT(entry), past its form. -/
def State.doClearLimit (entry : Nat) (s : State) : State × Reply :=
  match s.tablesGate with
  | some st => answer s st
  | none =>
    match s.limitSet[entry]?, s.limits.runStates[entry]? with
    | some e, some r =>
      if e.latch then
        (s.withLimits { s.limits with runStates := s.limits.runStates.set entry r.cleared }, .plain .ok)
      else refuse s .state
    | _, _ => refuse s .range

/-- Every TRIPPED LATCH entry cleared (R95). -/
def clearAll : List LimitEntry → List RunState → List RunState
  | e :: es, r :: rs => (if e.latch && r.level == .tripped then r.cleared else r) :: clearAll es rs
  | _, rs => rs

/-- How many entries CLEAR_LIMIT(ALL) clears. -/
def clearedCount : List LimitEntry → List RunState → Nat
  | e :: es, r :: rs => (if e.latch && r.level == .tripped then 1 else 0) + clearedCount es rs
  | _, _ => 0

/-- CLEAR_LIMIT(ALL), past its form. -/
def State.doClearAll (_ : Unit) (s : State) : State × Reply :=
  match s.tablesGate with
  | some st => answer s st
  | none =>
    (s.withLimits { s.limits with runStates := clearAll s.limitSet s.limits.runStates },
      ⟨.ok, [byte (clearedCount s.limitSet s.limits.runStates)]⟩)

/-- READ_LIMITS (R93). -/
def execReadLimits (s : State) : Host.Outcome State Fault Refusal :=
  .next (takeCommand .readLimits argNone State.doReadLimits s)

/-- CLEAR_LIMIT of one entry (R94). -/
def execClearLimit (s : State) : Host.Outcome State Fault Refusal :=
  .next (takeCommand .clearLimit argEntry State.doClearLimit s)

/-- CLEAR_LIMIT of ALL (R95). -/
def execClearLimitAll (s : State) : Host.Outcome State Fault Refusal :=
  .next (takeCommand .clearLimitAll argAll State.doClearAll s)

/-- LIMIT_FAST_OPEN_REQUEST (R89): the oldest fast-open request handed and not yet taken. -/
def execLimitFastOpenRequest (s : State) : Host.Outcome State Fault Refusal :=
  .next
    (match s.operating, s.limits.fastOpenRequests with
     | true, e :: rest => (s.withLimits { s.limits with fastOpenRequests := rest }).takeFastOpen (.limit e)
     | _, _ => s)

end Sys2Proof.Machine
end

