-- ==== Sys2Proof/Machine/Sleep.lean ====
section
/-!
DEFINITION. The sleep controller (chapter 9): wake causes, WAKING, watch cycles, and its commands and events.
-/

namespace Sys2Proof.Machine

/-! ### The watch profile's settings (R136) -/

/-- The chain wake time of the active profile, in ms. -/
def State.chainWakeTime (s : State) : Nat :=
  match s.activeProfile with
  | some p => p.chainWakeTime
  | none => 0

/-- The watch interval of the active profile, in microticks (R152). -/
def State.watchInterval (s : State) : Nat :=
  match s.activeProfile with
  | some p => 1000000 * p.watchInterval
  | none => 0

/-- The report-every count of the active profile. -/
def State.reportEvery (s : State) : Nat :=
  match s.activeProfile with
  | some p => p.reportEvery
  | none => 0

/-! ### Wake causes (R161, R163) -/

def WakeCauses.add (w : WakeCauses) : WakeCause → WakeCauses
  | .limit => { w with limit := true }
  | .wakeIn => { w with wakeIn := true }
  | .link => { w with link := true }
  | .tamper => { w with tamper := true }
  | .report => { w with report := true }

/-- A cause joins the set; the one that starts a wake becomes the first wake cause (R161). -/
def State.noteCause (s : State) (c : WakeCause) (starts : Bool) : State :=
  s.withSleep
    { s.sleep with
      wakeCauses := s.sleep.wakeCauses.add c
      firstCause := if starts then some c else s.sleep.firstCause }

/-- The current port is powered, with the ring empty and the stream ABSENT (R68). -/
def State.powerPort (s : State) : State :=
  s.withCurrent { s.current with ring := [], stream := .absent, streamTimer := none, portOn := true }

/-- The power state becomes WAKING (R164). -/
def State.enterWaking (s : State) : State :=
  let s1 := (s.withSleep { s.sleep with power := .waking, watchTimer := none }).powerPort
  match s1.sleep.chainSleep with
  | .asleep => s1.claimLink .wake
  | .awake => s1

/-- Wake pending is set. -/
def State.setWakePending (s : State) : State := s.withSleep { s.sleep with wakePending := true }

/-- A wake cause is recorded and acts by the power state (R161, R163).  In WATCH_ROUND before the pass, a cause that
comes while CHAIN_WAKE is still being sent waits, as wake pending, for the event at which it has been sent (log 28), so
that a second cause in that time joins the set and leaves the first wake cause as it is: DESIGN CHOICE (log 41).  A
cause that comes while CHAIN_SLEEP is claimed and waits for a TRIGGER still being sent acts as one that comes while it
is in flight: DESIGN CHOICE (log 32). -/
def State.wakeCause (s : State) (c : WakeCause) : State :=
  match s.sleep.power with
  | .active | .sleepPending => s
  | .asleep => (s.noteCause c true).enterWaking
  | .waking => s.noteCause c false
  | .watchRound =>
    let s1 := s.noteCause c (!s.sleep.wakePending)
    if s.sleep.passMade then s1.setWakePending
    else
      match s.sleep.chainSleep with
      | .awake => s1.enterWaking
      | .asleep => s1.setWakePending

/-! ### Watch cycles (R158 to R160) -/

/-- Step 1 of R160: the pass is counted, and REPORT recorded when the count reaches the report-every count. -/
def State.countPass (s : State) : State :=
  if s.reportEvery = 0 then s
  else if s.sleep.watchPassCount + 1 = s.reportEvery then
    (s.withSleep { s.sleep with watchPassCount := 0 }).wakeCause .report
  else s.withSleep { s.sleep with watchPassCount := s.sleep.watchPassCount + 1 }

/-- The watch pass is completed (R160). -/
def State.completePass (s : State) : State :=
  let s1 := s.countPass
  if s1.sleep.wakePending then s1.enterWaking else s1.claimLink .sleep

/-- The watch pass (R158): due entries are found as at a frame start; the first is taken, the others are held. -/
def State.watchPass (s : State) : State :=
  let s1 := s.withSleep { s.sleep with passMade := true }
  let due := dueEntries (fun _ => s.now) 0 s.activeSchedule s.sched.counters []
  let s2 := s1.withSched
    { s1.sched with counters := advanceCounters s.activeSchedule s.sched.counters, held := due }
  match due with
  | [] => s2.completePass
  | _ :: _ => s2.takeHeld

/-- A round of a watch pass has been offered (R160, R163): a wake request of it is recorded, and the pass goes on or
is completed. -/
def State.watchRoundOffered (s : State) (wake : Bool) : State :=
  let s1 := if wake then s.wakeCause .limit else s
  if s1.sleep.wakePending then s1.cancelDue.completePass
  else
    match s1.sched.held with
    | [] => s1.completePass
    | _ :: _ => s1.takeHeld

/-! ### Commands and events -/

/-- The update engine works on the staging slot (R156). -/
def EngineState.working : EngineState → Bool
  | .erasing | .programming | .verifying => true
  | .idle | .verified | .activating | .locked _ => false

/-- SLEEP, past its form (R153, R154). -/
def State.doSleep (_ : Unit) (s : State) : State × Reply :=
  match s.activeProfile with
  | none => refuse s .noTables
  | some p =>
    if s.tables.engine.working || s.tables.engine == .activating then answer s .busy
    else if s.sleep.power ≠ .active then refuse s .state
    else if !p.sleepOk then refuse s .notAllowed
    else if s.seq.state ≠ .opened then refuse s .state
    else if 4 ≤ s.depth then refuse s .depth
    else
      ((s.withSleep { s.sleep with power := .sleepPending, entryStarted := false }).cancelDue, .plain .ok)

/-- SLEEP (R153, R154). -/
def execSleep (s : State) : Host.Outcome State Fault Refusal :=
  .next (takeCommand .sleep argNone State.doSleep s)

/-- Every entry of the forward queue is answered BUSY (R155). -/
def State.answerQueueBusy (s : State) : List FwdEntry → State
  | [] => s
  | e :: rest => (s.chainReply (fwdReply e.dest e.tag .busy [])).answerQueueBusy rest

/-- Entry start may be taken (R155).  Once RESTART has been taken the pending sleep is cancelled (R166). -/
def State.entryStartDue (s : State) : Bool :=
  s.operating && s.sleep.power == .sleepPending && !s.sleep.entryStarted && s.sched.assembly.isNone &&
    s.chain.transaction.isNone && !s.north.restartTaken

/-- ENTRY_START (R155). -/
def execEntryStart (s : State) : Host.Outcome State Fault Refusal :=
  .next
    (if s.entryStartDue then
      let s1 := (s.withChain { s.chain with forwardQueue := [] }).answerQueueBusy s.chain.forwardQueue
      (s1.withSleep { s1.sleep with entryStarted := true }).claimLink .sleep
     else s)

/-- Entry completion may be taken (R156). -/
def State.entryCompletionDue (s : State) : Bool :=
  s.operating && s.sleep.power == .sleepPending && s.sleep.entryStarted && s.sleep.chainSleep == .asleep &&
    s.chain.transaction.isNone && s.chain.sleepClaim.isNone && s.chain.keptReplies.isEmpty &&
    s.north.holding.isNone && s.north.commands.isEmpty && s.north.tx.isEmpty &&
    s.north.receiver == .idle && !s.tables.engine.working && !s.north.restartTaken

/-- The current port at sleep entry (R68, R76). -/
def CurrentPort.asleep : CurrentPort := ⟨[], .absent, none, false, none, none⟩

/-- The level of the WAKE_IN mode, for the level modes (R162). -/
def WakeInMode.level : WakeInMode → Option Bool
  | .high => some true
  | .low => some false
  | .rising | .falling => none

/-- The detector is armed; in a level mode the hold interval starts if the input stands at the level (R162). -/
def State.armDetector (s : State) : State :=
  match s.moduleTable with
  | none => s
  | some m =>
    s.withSleep
      { s.sleep with
        detectorArmed := true
        holdInterval := if m.wakeInMode.level = some s.sleep.wakeInHigh then some (ms m.holdTime) else none }

/-- The steps of entry completion, in order (R156), for the watch profile `w`. -/
def State.completeEntry (s : State) (w : Nat) : State :=
  let s1 := (s.enterCommit w .sleep).lockSleep
  let s2 := (s1.withCurrent .asleep).withTimebase { s1.timebase with clock := .lowPower }
  let s3 := (s2.withSleep { s2.sleep with watchPassCount := 0, wakePending := false }).armDetector
  s3.withSleep { s3.sleep with power := .asleep, watchTimer := some s3.watchInterval }

/-- ENTRY_COMPLETION (R156). -/
def execEntryCompletion (s : State) : Host.Outcome State Fault Refusal :=
  .next
    (if s.entryCompletionDue then
      match s.activeProfile with
      | none => s
      | some p =>
        match p.watchProfile with
        | none => s
        | some w => s.completeEntry w
     else s)

/-- WATCH_TIMER_EXPIRY (R157, R158). -/
def execWatchTimerExpiry (s : State) : Host.Outcome State Fault Refusal :=
  .next
    (if s.operating && s.sleep.power == .asleep && expired s.sleep.watchTimer then
      (s.withSleep { s.sleep with power := .watchRound, watchTimer := none, passMade := false }).claimLink .wake
     else s)

/-- CHAIN_WAKE_TIMER_EXPIRY (R158, R164). -/
def execChainWakeTimerExpiry (s : State) : Host.Outcome State Fault Refusal :=
  .next
    (if s.operating && expired s.sleep.chainWakeTimer then
      let s1 := s.withSleep { s.sleep with chainWakeTimer := none }
      match s.sleep.power with
      | .watchRound => if s.sleep.passMade then s1 else s1.watchPass
      | .active | .sleepPending | .asleep | .waking => s1
     else s)

/-- A detection in an edge mode (R162). -/
def WakeInMode.detects (m : WakeInMode) (high : Bool) : Bool :=
  match m with
  | .rising => high
  | .falling => !high
  | .high | .low => false

/-- The armed detector sees a change of the input to a level (R162). -/
def State.detectChange (s : State) (m : ModuleTable) (high : Bool) : State :=
  match m.wakeInMode.level with
  | some level =>
    s.withSleep { s.sleep with holdInterval := if high = level then some (ms m.holdTime) else none }
  | none => if m.wakeInMode.detects high then s.wakeCause .wakeIn else s

/-- WAKE_IN_CHANGE (R162): the input changes to a level; a disarmed detector detects nothing. -/
def execWakeInChange (high : Bool) (s : State) : Host.Outcome State Fault Refusal :=
  .next
    (if s.sleep.wakeInHigh = high then s
     else
      let s1 := s.withSleep { s.sleep with wakeInHigh := high }
      match s.operating && s.sleep.detectorArmed, s.moduleTable with
      | true, some m => s1.detectChange m high
      | _, _ => s1)

/-- WAKE_IN_HOLD_EXPIRY (R162): the interval does not start again until the input has left the level. -/
def execWakeInHoldExpiry (s : State) : Host.Outcome State Fault Refusal :=
  .next
    (if s.operating && s.sleep.detectorArmed && expired s.sleep.holdInterval then
      (s.withSleep { s.sleep with holdInterval := none }).wakeCause .wakeIn
     else s)

/-- WAKING may end (R164). -/
def State.wakingEndDue (s : State) : Bool :=
  s.operating && s.sleep.power == .waking && s.chain.transaction.isNone && s.chain.sleepClaim.isNone &&
    s.sleep.chainWakeTimer.isNone

/-- The steps of the end of WAKING, in order (R164).  An ENTER request handed out before it was handed outside ACTIVE,
or has seen the part outside ACTIVE since, and is refused before the power state changes (R90, R159; log 33).  The
watch pass count keeps its value until the next entry completion: DESIGN CHOICE (log 43). -/
def State.endWaking (s : State) : State :=
  let s1 := s.refuseEnters.returnCommit
  let s2 := s1.withTimebase { s1.timebase with clock := .main }
  s2.withSleep
    { s2.sleep with detectorArmed := false, holdInterval := none, wakePending := false, wakeOut := true, power := .active }

/-- WAKING_END (R164, R165). -/
def execWakingEnd (s : State) : Host.Outcome State Fault Refusal :=
  .next (if s.wakingEndDue then s.endWaking else s)

end Sys2Proof.Machine
end

