-- ==== Sys2Proof/Machine/Rounds.lean ====
section
/-!
DEFINITION. Round assembly and the round store (R50 to R61): the sending of a trigger, the reads, ALIGNING,
EVALUATING, the offer to the store, and READ_ROUND and RELEASE_ROUND.
-/

namespace Sys2Proof.Machine

/-! ### The round store (R56 to R61) -/

/-- The record of a round that leaves assembly (R56). -/
def Round.record (r : Round) : RoundRecord where
  number := r.number
  profileId := r.profileId
  scheduleId := r.scheduleId
  entryIndex := r.entryIndex
  kind := r.kind
  tSend := r.tSend
  lateness := r.lateness
  unevaluated := r.commitMark
  isPartial := r.entries.any fun e => !(e.status == .ok)
  packSum := r.packSum
  entries := r.entries

/-- The oldest record that is not open is removed (R58). -/
def RoundStore.makeRoom (st : RoundStore) : List RoundRecord :=
  match st.openMark, st.records with
  | true, a :: _ :: rest => a :: rest
  | _, records => records.tail

/-- A round is offered (R57, R58, R61). -/
def RoundStore.offer (st : RoundStore) (r : RoundRecord) (keepNewest : Bool) : RoundStore :=
  if st.records.length < 8 then { st with records := st.records ++ [r] }
  else
    { st with
      records := if keepNewest then st.makeRoom ++ [r] else st.records
      dropped := min 65535 (st.dropped + 1) }

/-- The round store policy of the active profile (R58). -/
def State.keepNewest (s : State) : Bool :=
  match s.activeProfile with
  | some p => p.keepNewest
  | none => false

/-! ### Leaving assembly (R55, R57) -/

/-- The round in assembly is offered to the store and leaves assembly; `wake` says that its evaluation asked for a
wake (R91).  The next held entry may then be taken (R46), or the watch pass goes on (R160). -/
def State.leaveAssembly (s : State) (r : Round) (wake : Bool) : State :=
  let s1 := (s.withSched { s.sched with assembly := none }).withStore (s.store.offer r.record s.keepNewest)
  match s1.sleep.power with
  | .watchRound => s1.watchRoundOffered wake
  | .active | .sleepPending | .asleep | .waking => s1.takeHeld

/-- A round that has left ALIGNING enters EVALUATING (R54): it is evaluated unless its commit mark is set, and then
offered. -/
def State.evaluateRound (s : State) (r : Round) : State :=
  if r.commitMark then s.leaveAssembly r false
  else (s.evaluate r.entries).leaveAssembly r (s.evaluationActions r.entries).wake

/-- Every OK entry is settled: the compensated voltages, the pack sum and the pack reference are formed, the align
wait ends, and the round enters EVALUATING (R73 to R76). -/
def State.finishAligning (s : State) (r : Round) (entries : List RoundEntry) : State :=
  let done := entries.map s.compensateEntry
  let sum := s.packSumOf r.kind done
  let s1 := (s.withCurrent { s.current with alignWait := none }).setReference sum r.tSend
  s1.evaluateRound { r with phase := .evaluating, entries := done, packSum := sum }

/-- The round waits in ALIGNING with these entries. -/
def State.keepAligning (s : State) (r : Round) (entries : List RoundEntry) : State :=
  s.withSched { s.sched with assembly := some { r with phase := .aligning, entries := entries } }

/-- Some OK entry is not settled. -/
def anyUnsettled (entries : List RoundEntry) : Bool := entries.any RoundEntry.unsettled

/-- The round enters ALIGNING (R53, R69, R71). -/
def State.enterAligning (s : State) (r : Round) : State :=
  let entries := s.settle r.entries
  if anyUnsettled entries then
    if s.alignWaitLimit = 0 then s.finishAligning r (s.settleHeld entries)
    else
      let s1 := s.keepAligning r entries
      s1.withCurrent { s1.current with alignWait := some s.alignWaitLimit }
  else s.finishAligning r entries

/-- The round that waits in ALIGNING is tested again, after a record entry or when the stream became ABSENT (R71). -/
def State.realign (s : State) : State :=
  match s.sched.assembly with
  | none => s
  | some r =>
    match r.phase with
    | .aligning =>
      let entries := s.settle r.entries
      if anyUnsettled entries then s.keepAligning r entries else s.finishAligning r entries
    | .collecting | .evaluating => s

/-! ### Collecting (R51, R52) -/

/-- The next position to read. -/
def nextRead (entries : List RoundEntry) : Option Nat :=
  (entries.find? fun e => e.status == .waiting).map (·.position)

/-- The next read is started, or, when every position has a status, the round enters ALIGNING (R51). -/
def State.continueCollecting (s : State) : State :=
  match s.sched.assembly with
  | none => s
  | some r =>
    match r.phase with
    | .collecting =>
      match nextRead r.entries with
      | some p => s.startTransaction (.readResult p)
      | none => s.enterAligning r
    | .aligning | .evaluating => s

/-- What a read gives a position (R52). -/
inductive ReadOutcome where
  | good (voltages temperatures : List (BitVec 16)) (flags : Byte)
  | crcError
  | missing
  deriving DecidableEq, Repr

/-- The kind asks for cell voltages. -/
def MeasKind.cellsAsked : MeasKind → Bool
  | .cells | .both => true
  | .temps => false

/-- The kind asks for temperatures. -/
def MeasKind.tempsAsked : MeasKind → Bool
  | .temps | .both => true
  | .cells => false

/-- The content of a reply fits the module (R52). -/
def contentFits (kind : MeasKind) (m : ModuleEntry) (voltages temperatures : List (BitVec 16)) : Bool :=
  (!kind.cellsAsked || voltages.length == m.population.length) &&
  (!kind.tempsAsked || temperatures.length == m.temperatureCount)

/-- An entry with the outcome of its read. -/
def State.readEntry (s : State) (kind : MeasKind) (e : RoundEntry) (o : ReadOutcome) : RoundEntry :=
  match o with
  | .missing => { e with status := .missing }
  | .crcError => { e with status := .crcError }
  | .good vs ts flags =>
    match s.moduleAt e.position with
    | none => { e with status := .crcError }
    | some m =>
      if contentFits kind m vs ts then
        { e with
          status := .ok
          flags := some flags
          raw := if kind.cellsAsked then some (vs.map BitVec.toNat) else none
          temperatures := if kind.tempsAsked then some (ts.map BitVec.toInt) else none }
      else { e with status := .crcError }

/-- The read of a position ends (R52); its outcome is dropped when no round collects (R55). -/
def State.readEnded (s : State) (position : Nat) (o : ReadOutcome) : State :=
  match s.sched.assembly with
  | none => s
  | some r =>
    match r.phase with
    | .collecting =>
      let entries := r.entries.map fun e =>
        if e.position = position ∧ e.status = .waiting then s.readEntry r.kind e o else e
      (s.withSched { s.sched with assembly := some { r with entries := entries } }).continueCollecting
    | .aligning | .evaluating => s

/-! ### Sending a trigger (R47, R50, R51) -/

/-- The module entry with which a position enters a round. -/
def State.newEntry (s : State) (tSend : Stamp) (position : Nat) : RoundEntry where
  position := position
  status := if position ≤ s.chain.foundCount then .waiting else .notPresent
  sampleInstant :=
    sampleInstant tSend (match s.moduleTable with | some m => m.hopDelay | none => 0) position
      (match s.moduleAt position with | some m => m.fineAdjust | none => 0)
  raw := none
  temperatures := none
  flags := none
  aligned := none
  compensated := none

/-- The schedule id of the active profile. -/
def State.scheduleId (s : State) : Nat :=
  match s.activeProfile with
  | some p => p.scheduleId
  | none => 0

/-- The round a trigger sent now opens. -/
def State.newRound (s : State) (w : TakenTrigger) (e : ScheduleEntry) : Round where
  number := w.round
  profileId := s.activeId.getD 0
  scheduleId := s.scheduleId
  entryIndex := w.index
  kind := e.kind
  triggerInstant := w.instant
  tSend := s.now
  lateness := s.now - w.instant
  commitMark := false
  phase := .collecting
  entries := e.moduleSet.map (s.newEntry s.now)
  packSum := none

/-- The waiting trigger is sent (R47).  A round whose every position is NOT_PRESENT enters ALIGNING at once (R51). -/
def State.sendTrigger (s : State) (w : TakenTrigger) (e : ScheduleEntry) : State :=
  let r := s.newRound w e
  let s1 := (s.withSched { s.sched with waiting := none, assembly := some r }).startTransaction
    (.trigger e.kind e.moduleSet)
  match nextRead r.entries with
  | some _ => s1
  | none => s1.enterAligning r

/-- The trigger that may be sent now: it waits and the link is free. -/
def State.sendableTrigger (s : State) : Option TakenTrigger :=
  if s.operating && s.linkFree && s.sched.assembly.isNone then s.sched.waiting else none

/-! ### Commands and events -/

/-- TRIGGER_INSTANT (R45, R46): the first due group is decided when its instant has come. -/
def execTriggerInstant (s : State) : Host.Outcome State Fault Refusal :=
  .next (if s.operating && s.instantCome then s.decideGroup else s)

/-- TRIGGER_SEND (R47). -/
def execTriggerSend (s : State) : Host.Outcome State Fault Refusal :=
  .next
    (match s.sendableTrigger with
     | none => s
     | some w =>
       match s.activeSchedule[w.index]? with
       | none => s
       | some e => s.sendTrigger w e)

/-- ALIGN_WAIT_EXPIRY (R71): the entries that still wait are settled HELD. -/
def execAlignWaitExpiry (s : State) : Host.Outcome State Fault Refusal :=
  .next
    (if s.operating && expired s.current.alignWait then
      match s.sched.assembly with
      | none => s
      | some r => s.finishAligning r (s.settleHeld r.entries)
     else s)

/-- A piece of a record (R59). -/
def RoundRecord.piece (r : RoundRecord) (storeCount : Nat) : Nat → Option (List Byte)
  | 0 => some (r.headerPiece storeCount)
  | k + 1 => (r.entries[k]?).map RoundEntry.piece

/-- READ_ROUND(piece), past its form (R59). -/
def State.doReadRound (piece : Nat) (s : State) : State × Reply :=
  if s.tables.engine = .activating then answer s .busy
  else
    match s.store.records with
    | [] => answer s .empty
    | r :: _ =>
      match r.piece s.store.records.length piece with
      | none => refuse s .range
      | some bytes => (s.withStore { s.store with openMark := true }, ⟨.ok, bytes⟩)

/-- RELEASE_ROUND, past its form (R60). -/
def State.doReleaseRound (_ : Unit) (s : State) : State × Reply :=
  if s.tables.engine = .activating then answer s .busy
  else
    match s.store.records with
    | [] => answer s .empty
    | _ :: rest => (s.withStore { s.store with records := rest, openMark := false }, ⟨.ok, [byte rest.length]⟩)

/-- READ_ROUND (R59). -/
def execReadRound (s : State) : Host.Outcome State Fault Refusal :=
  .next (takeCommand .readRound argPiece State.doReadRound s)

/-- RELEASE_ROUND (R60). -/
def execReleaseRound (s : State) : Host.Outcome State Fault Refusal :=
  .next (takeCommand .releaseRound argNone State.doReleaseRound s)

end Sys2Proof.Machine
end

