-- ==== Sys2Proof/Machine/Chain.lean ====
section
/-!
DEFINITION. The chain port and the chain arbiter (R14 to R20): the events of a transaction, enumeration, the start of
the forward head, and the replies that wait for a place in the transmit queue.
-/

namespace Sys2Proof.Machine

/-! ### Enumeration (R16, R17) -/

/-- Enumeration begins at the end of a start-up: CHAIN_WAKE is sent first. -/
def State.beginEnumeration (s : State) : State :=
  (s.withChain { s.chain with enumeration := .running none }).startTransaction (.chainWake true)

/-- ENUMERATE is sent. -/
def State.sendEnumerate (s : State) : State :=
  (s.withChain { s.chain with enumeration := .running none }).startTransaction .enumerate

/-- Enumeration ends with a found count, saturated at 31, which is compared with the module count (R16, R17). -/
def State.endEnumeration (s : State) (found : Nat) : State :=
  let n := min 31 found
  let s1 := s.withChain { s.chain with enumeration := .ended, foundCount := n }
  if s.tablesLoaded && !(n == s.moduleCount) then s1.setChainMismatch else s1

/-- The 5 ms wait for the modules to come up (R16). -/
def enumerationWait : Nat := ms 5

/-- CHAIN_WAKE_WAIT_EXPIRY (R16). -/
def execChainWakeWaitExpiry (s : State) : Host.Outcome State Fault Refusal :=
  .next (if s.operating && s.chain.enumeration == .running (some 0) then s.sendEnumerate else s)

/-! ### The events of a transaction (R14, R15) -/

/-- The reply timeout of a frame (R15): 1,000 µs for ENUMERATE, else that of the working module table. -/
def State.replyTimeout (s : State) (f : ChainFrame) : Nat :=
  match f, s.moduleTable with
  | .enumerate, _ => 1000
  | .readResult _, some m | .forwarded _, some m => m.replyTimeout
  | _, _ => 1000

/-- The sent frame's reply is awaited. -/
def State.awaitReply (s : State) (f : ChainFrame) : State :=
  s.withChain { s.chain with transaction := some ⟨f, .awaiting (s.replyTimeout f)⟩ }

/-- The chain sleep state (R152). -/
def State.setChainSleep (s : State) (x : ChainSleep) : State := s.withSleep { s.sleep with chainSleep := x }

/-- CHAIN_WAKE has been sent (R16, R158, R163, R164). -/
def State.wakeSent (s : State) (forEnumeration : Bool) : State :=
  let s1 := s.setChainSleep .awake
  if forEnumeration then s1.withChain { s1.chain with enumeration := .running (some enumerationWait) }
  else
    let s2 := s1.withSleep { s1.sleep with chainWakeTimer := some (ms s1.chainWakeTime) }
    if s2.sleep.power == .watchRound && s2.sleep.wakePending then s2.enterWaking else s2

/-- CHAIN_SLEEP has been sent (R155, R160). -/
def State.sleepSent (s : State) : State :=
  let s1 := s.setChainSleep .asleep
  match s1.sleep.power with
  | .watchRound =>
    if s1.sleep.wakePending then s1.enterWaking
    else s1.withSleep { s1.sleep with power := .asleep, watchTimer := some s1.watchInterval }
  | .active | .sleepPending | .asleep | .waking => s1

/-- The last byte of the frame of the transaction in flight has been sent. -/
def State.frameSent (s : State) (f : ChainFrame) : State :=
  match f with
  | .chainWake forEnumeration => s.endTransaction.wakeSent forEnumeration
  | .chainSleep => s.endTransaction.sleepSent
  | .trigger _ _ => s.endTransaction.continueCollecting
  | .enumerate | .readResult _ => s.awaitReply f
  | .forwarded e =>
    if e.dest = 31 then s.endTransaction.chainReply (fwdReply e.dest e.tag .ok []) else s.awaitReply f

/-- CHAIN_FRAME_SENT (R14, R15). -/
def execChainFrameSent (s : State) : Host.Outcome State Fault Refusal :=
  .next
    (match s.operating, s.chain.transaction with
     | true, some ⟨f, .sending⟩ => (s.frameSent f).arbitrate
     | _, _ => s)

/-- A frame begins that no transaction takes (R15, R21). -/
def State.hearUnasked (s : State) : State := s.withChain { s.chain with unasked := true }

/-- A frame begins on the chain link (R15): the reply awaited, which stops the reply timeout, or, while nothing waits
for one, an unasked frame.  A reply that begins while an unasked frame is still in reception breaks that frame off, and
a frame that begins while a reply is in reception is not seen: DESIGN CHOICE (log 40). -/
def State.replyStarts (s : State) : State :=
  match s.chain.transaction with
  | some ⟨f, .awaiting _⟩ => s.withChain { s.chain with transaction := some ⟨f, .receiving⟩, unasked := false }
  | some ⟨_, .receiving⟩ => s
  | some ⟨_, .sending⟩ | none => s.hearUnasked

/-- CHAIN_REPLY_START (R15).  Without power or in reset no transaction waits: the reply of an abandoned one may begin then
too, and is not taken later (R21, log 45). -/
def execChainReplyStart (s : State) : Host.Outcome State Fault Refusal :=
  .next (if s.operating then s.replyStarts else s.hearUnasked)

/-- How a transaction with a reply ends (R15). -/
inductive TxnOutcome where
  | good (content : ChainContent)
  | crcError
  | noReply
  deriving DecidableEq, Repr

/-- A reply's content answers a request: its kind matches, and for READ_RESULT its position (R15). -/
def answers (f : ChainFrame) (content : ChainContent) : Bool :=
  match f, content with
  | .enumerate, .count _ => true
  | .readResult p, .result q _ _ _ => p == q
  | .forwarded _, .moduleReply _ => true
  | _, _ => false

/-- The outcome of a reply received whole or broken off (R15, R186). -/
def replyOutcome (f : ChainFrame) (rx : ChainRx) : TxnOutcome :=
  if !rx.truncated && crcRight rx.bytes && answers f rx.content then .good rx.content else .crcError

/-- The outcome a read has for the schedule engine (R52). -/
def TxnOutcome.read : TxnOutcome → ReadOutcome
  | .good (.result _ vs ts flags) => .good vs ts flags
  | .good _ => .crcError
  | .crcError => .crcError
  | .noReply => .missing

/-- The found count of an ENUMERATE (R16). -/
def TxnOutcome.found : TxnOutcome → Nat
  | .good (.count n) => n
  | .good _ | .crcError | .noReply => 0

/-- The FWD_REPLY of a forward transaction (R19). -/
def TxnOutcome.fwdReply (o : TxnOutcome) (e : FwdEntry) : NorthFrame :=
  match o with
  | .good (.moduleReply payload) => Machine.fwdReply e.dest e.tag .ok payload
  | .good _ | .crcError => Machine.fwdReply e.dest e.tag .crcError []
  | .noReply => Machine.fwdReply e.dest e.tag .timeout []

/-- A transaction with a reply ends, and its outcome goes to its claimant (R15). -/
def State.transactionEnded (s : State) (f : ChainFrame) (o : TxnOutcome) : State :=
  match f with
  | .enumerate => s.endTransaction.endEnumeration o.found
  | .readResult p => s.endTransaction.readEnded p o.read
  | .forwarded e => s.endTransaction.chainReply (o.fwdReply e)
  | .chainWake _ | .chainSleep | .trigger _ _ => s

/-- An unasked frame has ended, and is discarded (R15). -/
def State.dropUnasked (s : State) : State := s.withChain { s.chain with unasked := false }

/-- A frame on the chain link ends (R15): the reply in reception ends its transaction; a frame that began while nothing
waited has no effect on any transaction, also when one waits by now.  A frame whose beginning was no event of its own
begins here (log 6). -/
def State.frameEnds (s : State) (rx : ChainRx) : State :=
  match s.chain.transaction with
  | some ⟨f, .receiving⟩ => (s.transactionEnded f (replyOutcome f rx)).arbitrate
  | some ⟨f, .awaiting _⟩ =>
    if s.chain.unasked then s.dropUnasked else (s.transactionEnded f (replyOutcome f rx)).arbitrate
  | some ⟨_, .sending⟩ | none => s.dropUnasked

/-- CHAIN_FRAME_RECEIVED (R15); without power or in reset a frame that ends is gone (R21, log 45). -/
def execChainFrameReceived (rx : ChainRx) (s : State) : Host.Outcome State Fault Refusal :=
  .next (if s.operating then s.frameEnds rx else s.dropUnasked)

/-- CHAIN_REPLY_TIMEOUT (R15). -/
def execChainReplyTimeout (s : State) : Host.Outcome State Fault Refusal :=
  .next
    (match s.operating, s.chain.transaction with
     | true, some ⟨f, .awaiting 0⟩ => (s.transactionEnded f .noReply).arbitrate
     | _, _ => s)

/-! ### The forward queue (R18 to R20) -/

/-- The class of a module command code (R18). -/
def fwdClassOf (code : Byte) : FwdClass :=
  match (code.extractLsb' 6 2).toNat with
  | 0 => .read
  | 1 => .balance
  | 2 => .config
  | _ => .diag

def FwdClass.code : FwdClass → Nat
  | .read => 0
  | .balance => 1
  | .config => 2
  | .diag => 3

/-- The active profile permits a class (R18, R19). -/
def State.permits (s : State) (c : FwdClass) : Bool :=
  match s.activeProfile with
  | some p => p.forwardSet.getLsbD c.code
  | none => false

/-- A round is COLLECTING. -/
def State.collecting (s : State) : Bool :=
  match s.sched.assembly with
  | some r => r.phase == .collecting
  | none => false

/-- The forward queue is held, or starts no further transaction (R13, R19, R154, R177).  R19 says so of the kept reply of
a forward transaction that has ended; that the kept BLOCKED answer of a re-check holds the queue too is a DESIGN CHOICE
(log 46). -/
def State.forwardHeld (s : State) : Bool :=
  !(s.sleep.power == .active) || s.tables.engine == .activating || s.north.restartTaken ||
    !s.chain.keptReplies.isEmpty

/-- The forward window of the working module table. -/
def State.forwardWindow (s : State) : Nat :=
  match s.moduleTable with
  | some m => m.forwardWindow
  | none => 0

/-- The forward window ends no later than the next trigger instant, if there is one (R20). -/
def State.windowFits (s : State) : Bool :=
  match s.nextTriggerInstant with
  | none => true
  | some t => notLater (stampAdd s.now s.forwardWindow) t

/-- The head of the forward queue may start (R20). -/
def State.headStartable (s : State) : Bool :=
  s.operating && s.linkFree && !s.collecting && !s.forwardHeld && s.sched.waiting.isNone && s.windowFits

/-- FORWARD_HEAD_START (R19): the head leaves the queue and is checked again. -/
def execForwardHeadStart (s : State) : Host.Outcome State Fault Refusal :=
  .next
    (match s.headStartable, s.chain.forwardQueue with
     | true, e :: rest =>
       let s1 := s.withChain { s.chain with forwardQueue := rest }
       if s.permits e.cls then s1.startTransaction (.forwarded e)
       else s1.chainReply (fwdReply e.dest e.tag .blocked [])
     | _, _ => s)

/-! ### Replies that wait for a place (R5, R18, R19) -/

/-- HOLDING_PLACE_REPLY_ENQUEUE (R5, R18). -/
def execHoldingPlaceReplyEnqueue (s : State) : Host.Outcome State Fault Refusal :=
  .next
    (match s.operating && s.mayAdd .filter, s.north.holding with
     | true, some f => (s.withNorth { s.north with holding := none }).enqueueTx .filter f
     | _, _ => s)

/-- CHAIN_PORT_REPLY_ENQUEUE (R5, R19, R155). -/
def execChainPortReplyEnqueue (s : State) : Host.Outcome State Fault Refusal :=
  .next
    (match s.operating && s.mayAdd .chainPort, s.chain.keptReplies with
     | true, f :: rest => (s.withChain { s.chain with keptReplies := rest }).enqueueTx .chainPort f
     | _, _ => s)

end Sys2Proof.Machine
end

