-- ==== Sys2Proof/Machine/Current.lean ====
section
/-!
DEFINITION. The current port (R63 to R68): the arrival of current sample records, the current ring and the stream
state.
-/

namespace Sys2Proof.Machine

/-- A record that passes R64: its current, saturated where R64 says so, its link voltage and its mark. -/
structure SortedRecord where
  current : Int
  link : Nat
  saturated : Bool
  deriving DecidableEq, Repr

/-- A current saturated by its sign (R64). -/
def saturate (current : Int) : Int := if current < 0 then -2000000 else 2000000

/-- A record sorted by its status (R64); `none` is a FAULT record: status FAULT, a status outside its list, a wrong
check, or an incomplete record (R63, R185). -/
def sortRecord (bytes : List Byte) : Option SortedRecord :=
  match bytes with
  | [st, c0, c1, c2, l0, l1, l2, check] =>
    if check = crc8 [st, c0, c1, c2, l0, l1, l2] then
      let current := signedFromLe [c0, c1, c2]
      let link := min (fromLe [l0, l1, l2]) 100000
      match st.toNat with
      | 0 =>
        if -2000000 ≤ current ∧ current ≤ 2000000 then some ⟨current, link, false⟩
        else some ⟨saturate current, link, true⟩
      | 1 => some ⟨saturate current, link, true⟩
      | _ => none
    else none
  | _ => none

/-- The newest 64 records of a ring (R66). -/
def newest64 (ring : List RingRecord) : List RingRecord := ring.drop (ring.length - 64)

/-- A record is entered (R66, R67): it joins the ring, the stream is PRESENT and its timer restarts; the alignment
unit and then the sequencer act on it. -/
def State.enterRecord (s : State) (m : ModuleTable) (stamp : Stamp) (r : SortedRecord) : State :=
  let s1 := s.withCurrent
    { s.current with
      ring := newest64 (s.current.ring ++ [⟨stamp, r.current, r.link, r.saturated⟩])
      stream := .present
      streamTimer := some m.streamTimeout }
  s1.realign.sequencerRecord

/-- The stamp of a record is later than the newest ring stamp, or the ring is empty (R65). -/
def State.inOrder (s : State) (stamp : Stamp) : Bool :=
  match s.newestRecord with
  | some n => later stamp n.stamp
  | none => true

/-- A record arrives (R63 to R65). -/
def State.recordArrives (s : State) (m : ModuleTable) (bytes : List Byte) : State :=
  match sortRecord bytes with
  | none => s.setCurFault
  | some r =>
    let stamp := stampAddInt s.now (-(m.converterLatency : Int))
    if s.inOrder stamp then s.enterRecord m stamp r else s.setCurOrder

/-- The working module table, while the port has power: without tables every record is dropped (R63), and without
power none is received (R68). -/
def State.recordTable (s : State) : Option ModuleTable :=
  if s.operating && s.current.portOn then s.moduleTable else none

/-- CURRENT_RECORD_ARRIVAL (R63). -/
def execCurrentRecordArrival (record : List Byte) (s : State) : Host.Outcome State Fault Refusal :=
  .next
    (match s.recordTable with
     | none => s
     | some m => s.recordArrives m record)

/-- CURRENT_RECORD_IDLE_TIMEOUT (R63): an incomplete record is a FAULT record. -/
def execCurrentRecordIdleTimeout (s : State) : Host.Outcome State Fault Refusal :=
  .next
    (match s.recordTable with
     | none => s
     | some _ => s.setCurFault)

/-- STREAM_TIMER_EXPIRY (R67): the stream becomes ABSENT and the ring is emptied; the alignment unit and then the
sequencer act on it. -/
def execStreamTimerExpiry (s : State) : Host.Outcome State Fault Refusal :=
  .next
    (if s.operating && expired s.current.streamTimer then
      (s.withCurrent { s.current with ring := [], stream := .absent, streamTimer := none }).realign.sequencerStreamAbsent
     else s)

end Sys2Proof.Machine
end

