-- ==== Sys2Proof/Machine/Contactors.lean ====
section
/-!
DEFINITION. The commands and events of the contactor sequencer (R100 to R119) and READ_EVENTS (R130).
-/

namespace Sys2Proof.Machine

/-! ### Commands -/

/-- A sequence that CLOSE may run under the active profile (check 6 of R110). -/
def State.closeSequence (s : State) (id : Nat) : Option Sequence :=
  match s.sequence id, s.activeProfile with
  | some q, some p => if q.cls ≠ .openSeq ∧ p.allowedClose.getLsbD id then some q else none
  | _, _ => none

/-- CLOSE(sequence id), past its form (R110). -/
def State.doClose (id : Nat) (s : State) : State × Reply :=
  if !s.tablesLoaded then refuse s .noTables
  else if s.tables.engine = .activating then answer s .busy
  else if s.sleep.power ≠ .active then refuse s .state
  else if s.seq.state = .tripped then (s, ⟨.refused .state, [s.tripCauseByte]⟩)
  else if s.seq.state ≠ .opened then answer s .busy
  else
    match s.closeSequence id with
    | none => refuse s .notAllowed
    | some q =>
      if s.lock.state = .unlocked ∨ s.lock.state = .acquiring then refuse s .notLocked
      else if s.closeBlocked then refuse s .blocked
      else (s.startClose id q, .plain .accepted)

/-- OPEN, past its form (R116). -/
def State.doOpen (_ : Unit) (s : State) : State × Reply :=
  match s.seq.state with
  | .closing | .closed => (s.orderlyOpen .command, .plain .accepted)
  | .opened | .deferred | .opening | .tripped => answer s .ok

/-- FAST_OPEN, past its form (R117). -/
def State.doFastOpen (_ : Unit) (s : State) : State × Reply := (s.takeFastOpen .command, .plain .ok)

/-- CLEAR_TRIP, past its form (R118). -/
def State.doClearTrip (_ : Unit) (s : State) : State × Reply :=
  if s.tables.engine = .activating then answer s .busy
  else if s.seq.state ≠ .tripped then refuse s .state
  else if s.tripHeld then refuse s .blocked
  else (s.withSeq { s.seq with state := .opened, tripCause := none }, .plain .ok)

/-- READ_EVENTS(n), past its form (R130); `k` is n − 1.  The overflow flag is sent as 1 or 0: DESIGN CHOICE (log 31).
`m` is sent plain: DESIGN CHOICE (log 38). -/
def State.doReadEvents (k : Nat) (s : State) : State × Reply :=
  match s.events.records with
  | [] => answer s .empty
  | _ :: _ =>
    let m := min (k + 1) s.events.records.length
    let rest := s.events.records.drop m
    (s.withEvents ⟨rest, false⟩,
      ⟨.ok, [byte m, byte rest.length, bitIf s.events.overflow 0] ++
        (s.events.records.take m).flatMap EventRecord.bytes⟩)

/-- CLOSE (R110). -/
def execClose (s : State) : Host.Outcome State Fault Refusal :=
  .next (takeCommand .close argBelow8 State.doClose s)

/-- OPEN (R116). -/
def execOpen (s : State) : Host.Outcome State Fault Refusal :=
  .next (takeCommand .openCmd argNone State.doOpen s)

/-- FAST_OPEN (R117). -/
def execFastOpen (s : State) : Host.Outcome State Fault Refusal :=
  .next (takeCommand .fastOpen argNone State.doFastOpen s)

/-- CLEAR_TRIP (R118). -/
def execClearTrip (s : State) : Host.Outcome State Fault Refusal :=
  .next (takeCommand .clearTrip argNone State.doClearTrip s)

/-- READ_EVENTS (R130). -/
def execReadEvents (s : State) : Host.Outcome State Fault Refusal :=
  .next (takeCommand .readEvents argBelow8 State.doReadEvents s)

/-! ### Coils -/

/-- One coil driver is replaced. -/
def State.withCoil (s : State) (c : Contactor) (d : CoilDriver) : State :=
  s.withSeq { s.seq with coils := s.seq.coils.set c d }

/-- PULL_IN_TIMER_EXPIRY (R100): the driver enters HOLD. -/
def execPullInTimerExpiry (c : Contactor) (s : State) : Host.Outcome State Fault Refusal :=
  .next
    (if s.operating && expired (s.seq.coils.get c).pullInTimer then
      s.withCoil c { s.seq.coils.get c with state := .hold, pullInTimer := none }
     else s)

/-- The open-coil monitor sees a change of the sense (R101): a driven coil that has not been reported starts the
interval when its current goes, and the interval is cancelled when it comes. -/
def CoilDriver.senseChange (d : CoilDriver) (current : Bool) : CoilDriver :=
  if d.sense = current then d
  else if current then { d with sense := true, noCurrent := none }
  else { d with sense := false, noCurrent := if d.driven && !d.reported then some noCurrentInterval else none }

/-- COIL_SENSE_CHANGE (R101); without power, or in reset, no coil is driven and only the sense is kept. -/
def execCoilSenseChange (c : Contactor) (current : Bool) (s : State) : Host.Outcome State Fault Refusal :=
  .next (s.withCoil c ((s.seq.coils.get c).senseChange current))

/-- OPEN_COIL_INTERVAL_EXPIRY (R101, R119). -/
def execOpenCoilIntervalExpiry (c : Contactor) (s : State) : Host.Outcome State Fault Refusal :=
  .next
    (if s.operating && expired (s.seq.coils.get c).noCurrent then
      (s.withCoil c { s.seq.coils.get c with noCurrent := none, reported := true }).coilFault c
     else s)

/-! ### Feedback (R102) -/

/-- The debounce time in microticks: that of the loaded table, or 15 ms without one. -/
def State.debounceTime (s : State) : Nat :=
  match s.tables.working with
  | some t => ms t.sequence.debounceTime
  | none => ms 15

/-- A debounced input sees its raw reading change: away from the debounced state an interval starts (or starts
again); back to it the interval is cancelled (R102, R180).  `running` is false without power or in reset. -/
def DebouncedInput.change (d : DebouncedInput) (raw running : Bool) (interval : Nat) : DebouncedInput :=
  if d.raw = raw then d
  else { d with raw := raw, interval := if running && !(raw == d.debounced) then some interval else none }

/-- A debounce interval runs to its end: the debounced state takes the raw reading. -/
def DebouncedInput.settled (d : DebouncedInput) : DebouncedInput := ⟨d.raw, d.raw, none⟩

/-- One feedback input is replaced. -/
def State.withFeedback (s : State) (c : Contactor) (d : DebouncedInput) : State :=
  s.withSeq { s.seq with feedback := s.seq.feedback.set c d }

/-- FEEDBACK_INPUT_CHANGE (R102). -/
def execFeedbackInputChange (c : Contactor) (closed : Bool) (s : State) : Host.Outcome State Fault Refusal :=
  .next (s.withFeedback c ((s.seq.feedback.get c).change closed s.operating s.debounceTime))

/-- FEEDBACK_DEBOUNCE_EXPIRY (R102, R108, R119). -/
def execFeedbackDebounceExpiry (c : Contactor) (s : State) : Host.Outcome State Fault Refusal :=
  .next
    (if s.operating && expired (s.seq.feedback.get c).interval then
      (s.withFeedback c (s.seq.feedback.get c).settled).sequencerFeedback c (s.seq.feedback.get c).raw
     else s)

/-! ### Timers -/

/-- STEP_TIMER_EXPIRY (R107 to R109, R115). -/
def execStepTimerExpiry (s : State) : Host.Outcome State Fault Refusal :=
  .next
    (if s.operating && expired s.seq.stepTimer then
      match s.runningStep with
      | none => s
      | some r => s.stepTimerExpired r
     else s)

/-- DEFER_TIMER_EXPIRY (R114). -/
def execDeferTimerExpiry (s : State) : Host.Outcome State Fault Refusal :=
  .next (if s.operating && expired s.seq.deferTimer then s.deferExpired else s)

end Sys2Proof.Machine
end

