-- ==== Sys2Proof/Machine/North.lean ====
section
/-!
DEFINITION. The north link port (R2 to R6), the forward filter (R18), and the commands of the link chapter:
GET_STATUS, READ_TABLE, SET_TRIM, RESTART and a code that is no command (R7 to R13).
-/

namespace Sys2Proof.Machine

/-! ### Receiving frames -/

/-- A frame in assembly is truncated: LINK_ERROR, unless its start was seen in deep sleep (R2, R3). -/
def State.truncateFrame (s : State) : State :=
  match s.north.receiver with
  | .assembling _ false => s.setLinkError
  | .assembling _ true | .idle => s

/-- START_DELIMITER (R2, R25, R161). -/
def execStartDelimiter (s : State) : Host.Outcome State Fault Refusal :=
  .next
    (if s.operating then
      let s1 := s.truncateFrame
      let s2 := s1.withNorth { s1.north with receiver := .assembling s.now s.deepSleep }
      if s.deepSleep then s2.wakeCause .link else s2
     else s)

/-- RECEIVE_IDLE_TIMEOUT (R2, R3). -/
def execReceiveIdleTimeout (s : State) : Host.Outcome State Fault Refusal :=
  .next
    (if s.operating then
      let s1 := s.truncateFrame
      s1.withNorth { s1.north with receiver := .idle }
     else s)

/-! ### Routing (R4, R6, R18) -/

/-- WAKE_OUT is deasserted by a reported CMD frame while the power state is ACTIVE (R165). -/
def State.reportCommand (s : State) : State :=
  if s.sleep.power = .active then s.withSleep { s.sleep with wakeOut := false } else s

/-- A CMD frame joins the command list, or is discarded with LINK_ERROR (R6). -/
def State.joinCommands (s : State) (f : NorthFrame) : State :=
  let s1 := s.reportCommand
  if s1.north.commands.length < 4 then
    s1.withNorth { s1.north with commands := s1.north.commands ++ [⟨f.tag, f.payload⟩] }
  else s1.setLinkError

/-- The class of a FWD frame: that of its first payload byte (R18). -/
def NorthFrame.fwdClass (f : NorthFrame) : FwdClass := fwdClassOf (f.payload.headD 0)

/-- The forward filter's decision: the status of a refusal, or `none` when the frame joins the queue (R18). -/
def State.filterRefusal (s : State) (c : FwdClass) : Option FwdStatus :=
  if s.north.restartTaken || s.sleep.power == .sleepPending then some .busy
  else if !s.tablesLoaded then some .notAllowed
  else if !s.permits c then some .blocked
  else if 4 ≤ s.chain.forwardQueue.length then some .queueFull
  else none

/-- A refusal enters the transmit queue, or stays in the holding place (R18). -/
def State.refuseForward (s : State) (f : NorthFrame) : State :=
  if s.mayAdd .filter then s.enqueueTx .filter f else s.withNorth { s.north with holding := some f }

/-- A FWD frame is routed to the forward filter (R18). -/
def State.filterForward (s : State) (f : NorthFrame) : State :=
  if s.north.holding.isSome then s.setLinkError
  else
    match s.filterRefusal f.fwdClass with
    | some st => s.refuseForward (fwdReply f.dest f.tag st [])
    | none =>
      s.withChain
        { s.chain with forwardQueue := s.chain.forwardQueue ++ [⟨f.dest, f.tag, f.fwdClass, f.payload⟩] }

/-- An accepted frame is routed by its kind (R4). -/
def State.routeFrame (s : State) (delimiter : Stamp) (f : NorthFrame) : State :=
  match f.kind with
  | .sync => s.syncArrival delimiter
  | .cmd => s.joinCommands f
  | .fwd => s.filterForward f
  | .reply | .fwdReply => s

/-- The frame in assembly is complete (R2 to R4). -/
def State.frameComplete (s : State) (delimiter : Stamp) (bytes : List Byte) : State :=
  match acceptNorthFrame bytes with
  | none => s.setLinkError
  | some f => s.routeFrame delimiter f

/-- NORTH_FRAME_COMPLETE (R2 to R4). -/
def execNorthFrameComplete (bytes : List Byte) (s : State) : Host.Outcome State Fault Refusal :=
  .next
    (match s.operating, s.north.receiver with
     | true, .assembling delimiter discard =>
       let s1 := s.withNorth { s.north with receiver := .idle }
       if discard then s1 else s1.frameComplete delimiter bytes
     | _, _ => s)

/-- NORTH_FRAME_SENT (R5). -/
def execNorthFrameSent (s : State) : Host.Outcome State Fault Refusal :=
  .next (if s.operating then s.frameLeaves else s)

/-! ### Commands -/

/-- GET_STATUS, past its form (R9). -/
def State.doGetStatus (_ : Nat) (s : State) : State × Reply := (s, ⟨.ok, s.statusBlock⟩)

/-- The clears of R10. -/
def State.clearStatus (s : State) : State :=
  let s1 := (s.setSticky .clear).withStore { s.store with dropped := 0 }
  s1.withSleep { s1.sleep with wakeCauses := .empty, firstCause := none }

/-- GET_STATUS with the clear option, past its form (R10). -/
def State.doGetStatusClear (_ : Nat) (s : State) : State × Reply := (s.clearStatus, ⟨.ok, s.statusBlock⟩)

/-- GET_STATUS (R9). -/
def execGetStatus (s : State) : Host.Outcome State Fault Refusal :=
  .next (takeCommand .getStatus argClear State.doGetStatus s)

/-- GET_STATUS with the clear option (R10). -/
def execGetStatusClear (s : State) : Host.Outcome State Fault Refusal :=
  .next (takeCommand .getStatusClear argClear State.doGetStatusClear s)

/-- The bytes of a table READ_TABLE asks for. -/
def State.tableBytes (s : State) (a : ReadTableArgs) : Option (List Byte) :=
  match s.tables.working with
  | none => none
  | some t => t.table a.kind a.index

/-- READ_TABLE, past its form (R11).  The byte count is sent plain: DESIGN CHOICE (log 38). -/
def State.doReadTable (a : ReadTableArgs) (s : State) : State × Reply :=
  match s.tablesGate with
  | some st => answer s st
  | none =>
    match s.tableBytes a with
    | none => refuse s .range
    | some bytes =>
      if bytes.length ≤ a.offset then refuse s .range
      else
        let data := (bytes.drop a.offset).take a.length
        (s, ⟨if a.offset + a.length ≤ bytes.length then .ok else .isPartial, byte data.length :: data⟩)

/-- READ_TABLE (R11). -/
def execReadTable (s : State) : Host.Outcome State Fault Refusal :=
  .next (takeCommand .readTable argReadTable State.doReadTable s)

/-- The fine adjust of one place of a module list is replaced. -/
def adjustAt (modules : List ModuleEntry) (place : Nat) (v : Int) : List ModuleEntry :=
  modules.modify place fun m => { m with fineAdjust := v }

/-- The working tables with a module list. -/
def WorkingTables.withModules (t : WorkingTables) (modules : List ModuleEntry) : WorkingTables :=
  { t with modules := { t.modules with modules := modules } }

/-- A trim is set in the trim list and in the working module table (R12). -/
def State.setTrim (s : State) (t : WorkingTables) (place : Nat) (v : Int) : State :=
  (s.withChain { s.chain with trims := s.chain.trims.set place (some v) }).withTables
    { s.tables with working := some (t.withModules (adjustAt t.modules.modules place v)) }

/-- SET_TRIM, past its form (R12). -/
def State.doSetTrim (a : SetTrimArgs) (s : State) : State × Reply :=
  match s.tables.working with
  | none => refuse s .noTables
  | some t =>
    if s.tables.engine = .activating then answer s .busy
    else if 1 ≤ a.module ∧ a.module ≤ t.modules.modules.length then
      (s.setTrim t (a.module - 1) a.fineAdjust, .plain .ok)
    else refuse s .range

/-- SET_TRIM (R12). -/
def execSetTrim (s : State) : Host.Outcome State Fault Refusal :=
  .next (takeCommand .setTrim argSetTrim State.doSetTrim s)

/-- RESTART, past its form (R13, R48). -/
def State.doRestart (_ : Unit) (s : State) : State × Reply :=
  ((s.withNorth { s.north with commands := [], restartTaken := true }).cancelDue, .plain .ok)

/-- RESTART (R13). -/
def execRestart (s : State) : Host.Outcome State Fault Refusal :=
  .next (takeCommand .restart argNone State.doRestart s)

/-- UNKNOWN_COMMAND_CODE (R7): BAD_ARG, whatever the rest of the payload. -/
def execUnknownCommandCode (s : State) : Host.Outcome State Fault Refusal :=
  .next (takeCommand .unknownCommandCode (fun _ => (none : Option Unit)) (fun _ s => answer s .badArg) s)

end Sys2Proof.Machine
end

