-- ==== Sys2Proof/Machine/Update.lean ====
section
/-!
DEFINITION. The table store and update engine (R167 to R181): the update commands, the operations of the array,
verification, activation, the reload, and the tamper response.
-/

namespace Sys2Proof.Machine

/-! ### The array (R167) -/

/-- The size of an erase block, and the times of the array's operations in microticks. -/
def blockSize : Nat := 2048
def eraseTime : Nat := ms 20
def programTime : Nat := ms 1
def pointerTime : Nat := ms 5
def counterTime : Nat := ms 5

/-- An operation of the array begins. -/
def State.beginOp (s : State) (op : ArrayOp) (time : Nat) : State :=
  s.withTables { s.tables with operation := some ⟨op, time⟩ }

/-- The operation whose time has run out. -/
def State.finishedOp (s : State) : Option ArrayOp :=
  match s.power.powered, s.tables.operation with
  | true, some ⟨op, 0⟩ => some op
  | _, _ => none

def State.setEngine (s : State) (e : EngineState) : State := s.withTables { s.tables with engine := e }

/-! ### Staging marks (R171) -/

/-- The marks of the 32 rows of a slot block are cleared. -/
def clearMarks (marks : List Bool) (block : Nat) : List Bool :=
  marks.take (32 * block) ++ List.replicate 32 false ++ marks.drop (32 * block + 32)

/-- A block of the array is a block of the staging slot. -/
def State.stagingBlock (s : State) (block : Nat) : Option Nat :=
  if s.stagingSlot.firstBlock ≤ block ∧ block < s.stagingSlot.firstBlock + 28 then
    some (block - s.stagingSlot.firstBlock)
  else none

/-! ### The tamper erase (R181) -/

/-- The next block erase of the tamper erase begins when it may: nothing is in flight, the engine is LOCKED(TAMPER)
and start-up loading does not wait for the array. -/
def State.kickTamper (s : State) : State :=
  match s.tables.tamperErase, s.tables.operation with
  | some b, none =>
    if s.tables.engine = .locked .tamper ∧ s.tables.startUp ≠ .waiting then
      s.beginOp (.erase (s.stagingSlot.firstBlock + b) true) eraseTime
    else s
  | _, _ => s

/-- The engine locks for a tamper assertion, and the tamper erase begins at once. -/
def State.lockTamper (s : State) : State :=
  (s.withTables { s.tables with engine := .locked .tamper, tamperErase := some 0 }).kickTamper

/-- What an assertion does to the engine (R180).  Behind an erase or a program in flight the tamper erase begins when
that has completed. -/
def State.tamperEngine (s : State) : State :=
  match s.tables.engine with
  | .erasing | .programming => s.setEngine (.locked .tamper)
  | .idle | .verified | .locked .fails => s.lockTamper
  | .verifying => (s.withTables { s.tables with lastVerification := .abandoned }).lockTamper
  | .activating | .locked .tamper => s

/-- A tamper assertion (R180). -/
def State.tamperAssertion (s : State) : State :=
  ((s.withTables { s.tables with tamperLatch := true }).tamperEngine).wakeCause .tamper

/-- The debounce of the TAMPER input: 10 ms (R180). -/
def tamperDebounce : Nat := ms 10

/-- TAMPER_INPUT_CHANGE (R180). -/
def execTamperInputChange (active : Bool) (s : State) : Host.Outcome State Fault Refusal :=
  .next (s.withTables { s.tables with tamper := s.tables.tamper.change active s.operating tamperDebounce })

/-- TAMPER_DEBOUNCE_EXPIRY (R180). -/
def execTamperDebounceExpiry (s : State) : Host.Outcome State Fault Refusal :=
  .next
    (if s.operating && expired s.tables.tamper.interval then
      let s1 := s.withTables { s.tables with tamper := s.tables.tamper.settled }
      if s.tables.tamper.raw then s1.tamperAssertion else s1
     else s)

/-! ### Building an image (R170, R172, R173) -/

/-- The replies of R170 to UPD_ERASE and UPD_WRITE by engine state. -/
def EngineState.writeGate : EngineState → Option ReplyStatus
  | .idle | .verified => none
  | .erasing | .programming | .verifying | .activating => some .busy
  | .locked _ => some (.refused .locked)

/-- UPD_ERASE(block), past its form (R172). -/
def State.doUpdErase (block : Nat) (s : State) : State × Reply :=
  match s.tables.engine.writeGate with
  | some st => answer s st
  | none =>
    if 27 < block then refuse s .range
    else
      ((s.setEngine .erasing).beginOp (.erase (s.stagingSlot.firstBlock + block) false) eraseTime,
        .plain .accepted)

/-- The number of bytes from an offset to the end of its row (R173). -/
def rowRemainder (offset : Nat) : Nat := 64 - offset % 64

/-- UPD_WRITE(offset, bytes), past its form (R173).  The count programmed is sent plain: DESIGN CHOICE (log 38). -/
def State.doUpdWrite (a : UpdWriteArgs) (s : State) : State × Reply :=
  match s.tables.engine.writeGate with
  | some st => answer s st
  | none =>
    if slotSize ≤ a.offset then refuse s .range
    else if s.tables.marks.getD (a.offset / 64) true then refuse s .notErased
    else
      let data := a.data.take (rowRemainder a.offset)
      let s1 := s.withTables
        { s.tables with marks := s.tables.marks.set (a.offset / 64) true, engine := .programming }
      (s1.beginOp (.program (s.stagingSlot.base + a.offset) data) programTime,
        ⟨if a.data.length ≤ rowRemainder a.offset then .accepted else .isPartial, [byte data.length]⟩)

/-- UPD_ERASE (R172). -/
def execUpdErase (s : State) : Host.Outcome State Fault Refusal :=
  .next (takeCommand .updErase argBlock State.doUpdErase s)

/-- UPD_WRITE (R173). -/
def execUpdWrite (s : State) : Host.Outcome State Fault Refusal :=
  .next (takeCommand .updWrite argUpdWrite State.doUpdWrite s)

/-- The engine after the erase or program it ran has completed. -/
def EngineState.afterWork : EngineState → EngineState
  | .erasing | .programming => .idle
  | .idle => .idle
  | .verifying => .verifying
  | .verified => .verified
  | .activating => .activating
  | .locked c => .locked c

/-- The field of the tamper erase after one of its block erases (R181). -/
def tamperNext (block : Option Nat) : Option Nat :=
  match block with
  | some b => if b < 27 then some (b + 1) else none
  | none => none

/-- The field of the tamper erase after an erase or program of an update command: under LOCKED(TAMPER) the tamper erase
begins, at block 0 (R180). -/
def TableStore.tamperBegins (t : TableStore) : Option Nat :=
  if t.engine = .locked .tamper then some 0 else t.tamperErase

/-- A block erase completes (R167, R171, R172, R181). -/
def State.eraseDone (s : State) (block : Nat) (tamper : Bool) : State :=
  (s.withTables
    { s.tables with
      array := Memory.erase s.tables.array (block * blockSize) blockSize
      operation := none
      marks := match s.stagingBlock block with
        | some b => clearMarks s.tables.marks b
        | none => s.tables.marks
      engine := s.tables.engine.afterWork
      tamperErase := if tamper then tamperNext s.tables.tamperErase else s.tables.tamperBegins }).kickTamper

/-- BLOCK_ERASE_COMPLETE (R167, R172, R181); the array carries an operation to its end across RST_N. -/
def execBlockEraseComplete (s : State) : Host.Outcome State Fault Refusal :=
  .next
    (match s.finishedOp with
     | some (.erase block tamper) => s.eraseDone block tamper
     | some (.program _ _) | some (.pointerWrite _) | some (.counterWrite _ _) | none => s)

/-- A row program completes (R167, R173, R180). -/
def State.programDone (s : State) (address : Nat) (bytes : List Byte) : State :=
  (s.withTables
    { s.tables with
      array := Memory.writeBytes s.tables.array address bytes
      operation := none
      engine := s.tables.engine.afterWork
      tamperErase := s.tables.tamperBegins }).kickTamper

/-- ROW_PROGRAM_COMPLETE (R167, R173). -/
def execRowProgramComplete (s : State) : Host.Outcome State Fault Refusal :=
  .next
    (match s.finishedOp with
     | some (.program address bytes) => s.programDone address bytes
     | some (.erase _ _) | some (.pointerWrite _) | some (.counterWrite _ _) | none => s)

/-! ### Verification (R174, R175) -/

/-- UPD_VERIFY, past its form (R170, R174). -/
def State.doUpdVerify (_ : Unit) (s : State) : State × Reply :=
  match s.tables.engine with
  | .idle => (s.setEngine .verifying, .plain .accepted)
  | .erasing | .programming | .verifying | .activating => answer s .busy
  | .verified => refuse s .state
  | .locked _ => refuse s .locked

/-- UPD_VERIFY (R174). -/
def execUpdVerify (s : State) : Host.Outcome State Fault Refusal :=
  .next (takeCommand .updVerify argNone State.doUpdVerify s)

/-- The two outcomes of verification (R175). -/
def State.verified (s : State) (o : Except VerifyReason WorkingTables) : State :=
  match o with
  | .ok _ => s.withTables { s.tables with lastVerification := .passed, failureCount := 0, engine := .verified }
  | .error r =>
    s.withTables
      { s.tables with
        lastVerification := .failed r
        failureCount := s.tables.failureCount + 1
        engine := if s.tables.failureCount + 1 < 3 then .idle else .locked .fails }

/-- VERIFICATION_END (R174, R175). -/
def execVerificationEnd (s : State) : Host.Outcome State Fault Refusal :=
  .next (if s.operating && s.tables.engine == .verifying then s.verified s.verifyStaging else s)

/-! ### Activation (R176 to R178) -/

/-- Tables are loaded and the active profile does not have ACTIVATE_OK (check 6 of R176). -/
def State.activateForbidden (s : State) : Bool :=
  match s.activeProfile with
  | some p => !p.activateOk
  | none => false

/-- What the taking of UPD_ACTIVATE does (R177, R48, R55, R144). -/
def State.beginActivation (s : State) : State :=
  let s1 := (s.setEngine .activating).cancelDue
  let s2 := (s1.withSched { s1.sched with assembly := none }).withCurrent { s1.current with alignWait := none }
  let s3 := s2.withChain { s2.chain with trims := List.replicate 20 none }
  s3.refuseEnters.beginOp (.pointerWrite s.stagingSlot) pointerTime

/-- UPD_ACTIVATE, past its form (R176, R177). -/
def State.doUpdActivate (_ : Unit) (s : State) : State × Reply :=
  match s.tables.engine with
  | .erasing | .programming | .verifying | .activating => answer s .busy
  | .locked _ => refuse s .locked
  | .idle => if s.tables.tamperLatch then refuse s .locked else refuse s .state
  | .verified =>
    if s.tables.tamperLatch then refuse s .locked
    else if s.sleep.power ≠ .active then refuse s .state
    else if s.seq.state ≠ .opened ∧ s.seq.state ≠ .tripped then refuse s .state
    else if s.activateForbidden then refuse s .notAllowed
    else (s.beginActivation, .plain .accepted)

/-- UPD_ACTIVATE (R176, R177). -/
def execUpdActivate (s : State) : Host.Outcome State Fault Refusal :=
  .next (takeCommand .updActivate argNone State.doUpdActivate s)

/-- The version of the image in the active slot. -/
def State.activeImageVersion (s : State) : BitVec 32 := (readHeader s.tables.array s.tables.slotPointer).version

/-- The slot-pointer write completes; during ACTIVATING the counter write begins (R177). -/
def State.pointerDone (s : State) (slot : Slot) : State :=
  let s1 := s.withTables { s.tables with slotPointer := slot, operation := none }
  if s1.tables.engine = .activating then s1.beginOp (.counterWrite s1.activeImageVersion false) counterTime else s1

/-- SLOT_POINTER_WRITE_COMPLETE (R177). -/
def execSlotPointerWriteComplete (s : State) : Host.Outcome State Fault Refusal :=
  .next
    (match s.finishedOp with
     | some (.pointerWrite slot) => s.pointerDone slot
     | some (.erase _ _) | some (.program _ _) | some (.counterWrite _ _) | none => s)

/-- COUNTER_WRITE_COMPLETE (R177, R182). -/
def execCounterWriteComplete (s : State) : Host.Outcome State Fault Refusal :=
  .next
    (match s.finishedOp with
     | some (.counterWrite v _) => s.withTables { s.tables with counter := v, operation := none }
     | some (.erase _ _) | some (.program _ _) | some (.pointerWrite _) | none => s)

/-! ### Loading tables into the blocks (R178, R182) -/

/-- The base profile of a table set (R174). -/
def WorkingTables.baseProfile (t : WorkingTables) : Option ProfileRecord := t.profiles.find? (·.base)

/-- The profile chain after a load: the base profile alone, with cause START (R151). -/
def WorkingTables.baseChain (t : WorkingTables) : List ChainElement :=
  match t.baseProfile with
  | some p => [⟨p.id, .start, none⟩]
  | none => []

/-- The nominal frame length of the base profile (R38). -/
def WorkingTables.baseLnom (t : WorkingTables) : Nat :=
  match t.baseProfile with
  | some p => p.lnom
  | none => 1000

/-- The working tables come into force: the chain becomes [base] with fresh run states and counters, and the lock is
UNLOCKED with the base profile's L_est (R38, R62, R98, R151). -/
def State.loadTables (s : State) (t : WorkingTables) : State :=
  let s1 := (s.withTables { s.tables with working := some t, loadResult := .loaded }).withProfiles ⟨t.baseChain⟩
  (s1.loadContext s1.freshContext).withLock ⟨.unlocked, none, t.baseLnom, 0, 0⟩

/-- A running debounce interval is restarted with the debounce time in force (R102, R122). -/
def DebouncedInput.restart (d : DebouncedInput) (interval : Nat) : DebouncedInput :=
  { d with interval := d.interval.map fun _ => interval }

/-- The reload (R178), with the tables of the new active slot. -/
def State.reload (s : State) (t : WorkingTables) : State :=
  let s1 := s.loadTables t
  let s2 := s1.withStore { s1.store with records := [], openMark := false }
  let s3 := s2.withCurrent
    { s2.current with ring := [], stream := .absent, streamTimer := none, reference := none, alignWait := none }
  let s4 := s3.withSeq { s3.seq with feedback := s3.seq.feedback.map fun d => d.restart s3.debounceTime }
  let s5 := s4.withTables
    { s4.tables with
      marks := allMarks
      lastVerification := .none
      engine := if s.tables.tamperLatch then .locked .tamper else .idle
      tamperErase := if s.tables.tamperLatch then some 0 else s.tables.tamperErase }
  s5.kickTamper.sendEnumerate

/-- The reload may be taken (R178). -/
def State.reloadDue (s : State) : Bool :=
  s.operating && s.tables.engine == .activating && s.tables.operation.isNone && s.chain.transaction.isNone

/-- RELOAD (R178). -/
def execReload (s : State) : Host.Outcome State Fault Refusal :=
  .next
    (if s.reloadDue then
      match s.activeTables with
      | none => s
      | some t => s.reload t
     else s)

end Sys2Proof.Machine
end

