-- ==== Sys2Proof/Machine/StartUp.lean ====
section
/-!
DEFINITION. Resets, power loss and start-up loading (R21, R22, R38, R62, R68, R98, R123, R134, R151, R166, R167,
R182, R184).
-/

namespace Sys2Proof.Machine

/-! ### What the resets share -/

/-- The link rate the straps select (R1). -/
def strapRate (st : Straps) : LinkRate :=
  match st.lr1, st.lr0 with
  | false, false => .mbit1
  | false, true => .mbit2
  | true, false => .mbit4
  | true, true => .mbit8

/-- The sequencer after a reset (R123): OPEN, every driver OFF, every debounced feedback state OPEN; `interval` is
the debounce interval of an input, `none` while the debounce does not run. -/
def Sequencer.afterReset (q : Sequencer) (interval : Option Nat) : Sequencer where
  state := .opened
  running := none
  step := none
  stepTimer := none
  openCause := none
  deferTimer := none
  weldSuspects := noSuspects
  tripCause := none
  coils := q.coils.map fun d => .released d.sense
  feedback := q.feedback.map fun d => ⟨d.raw, false, if d.raw then interval else none⟩

/-- The feedback debounce of a start-up, before tables load (R102). -/
def startUpDebounce : Nat := ms 15

/-- The TAMPER input with its debounce running from now (R180, R184). -/
def DebouncedInput.rerun (d : DebouncedInput) (interval : Nat) : DebouncedInput :=
  { d with interval := if d.raw == d.debounced then none else some interval }

/-- A reset finds the tamper latch set during ACTIVATING (R180, R184). -/
def TableStore.latchedActivating (t : TableStore) : Bool := t.engine == .activating && t.tamperLatch

/-- The engine state after RST_N or RESTART (R184). -/
def TableStore.engineAfterReset (t : TableStore) : EngineState :=
  match t.engine with
  | .locked c => .locked c
  | .activating => if t.tamperLatch then .locked .tamper else .idle
  | .idle | .erasing | .programming | .verifying | .verified => .idle

/-- The table store after RST_N or RESTART (R184): the array, its operation, the failure count, the latch and the
tamper erase are kept; start-up loading waits for the array. -/
def TableStore.afterReset (t : TableStore) : TableStore :=
  { t with
    engine := t.engineAfterReset
    lastVerification := .none
    marks := allMarks
    tamperErase := if t.latchedActivating then some 0 else t.tamperErase
    startUp := .waiting
    working := none }

/-- Every block but power, links, sequencer, events, sleep and table store at its reset value. -/
def State.resetBlocks (s : State) : State :=
  ((((((s.withTimebase .powerOn).withLock .powerOn).withSched .powerOn).withStore .powerOn).withCurrent
    .powerOn).withLimits .powerOn).withProfiles .powerOn

/-! ### Power (R167, R184) -/

/-- `n` free bytes from an index on. -/
def freeBytes : Nat → Nat → List Byte
  | _, 0 => []
  | i, n + 1 => Config.freeByte i :: freeBytes (i + 1) n

/-- The array when power is lost during an operation (R167): the bytes of an erase or a program are free values.  A
write of an activation that has not completed has not taken: the old slot stays active, and the counter stays below
the new version (R179).  The counter write of start-up loading has taken or has not, a free choice (R167), also after
an RST_N or RESTART that came while it was in flight (log 9). -/
def State.stopOp (s : State) : State :=
  match s.tables.operation with
  | none => s
  | some o =>
    match o.op with
    | .erase block _ =>
      (s.withTables
        { s.tables with
          array := Memory.writeBytes s.tables.array (block * blockSize) (freeBytes s.freeIndex blockSize)
          operation := none }).withFreeIndex (s.freeIndex + blockSize)
    | .program address bytes =>
      (s.withTables
        { s.tables with
          array := Memory.writeBytes s.tables.array address (freeBytes s.freeIndex bytes.length)
          operation := none }).withFreeIndex (s.freeIndex + bytes.length)
    | .pointerWrite _ => s.withTables { s.tables with operation := none }
    | .counterWrite v loading =>
      if loading then
        (s.withTables
          { s.tables with
            counter := if Config.freeChoice s.freeIndex then v else s.tables.counter
            operation := none }).withFreeIndex (s.freeIndex + 1)
      else s.withTables { s.tables with operation := none }

/-- The table store at power-on (R184): only the array, the pointer, the counter and the secret are kept. -/
def TableStore.powerOn (t : TableStore) : TableStore where
  array := t.array
  slotPointer := t.slotPointer
  counter := t.counter
  secret := t.secret
  operation := none
  engine := .idle
  failureCount := 0
  lastVerification := .none
  loadResult := .noTables .format
  marks := allMarks
  tamperLatch := false
  tamperErase := none
  tamper := ⟨t.tamper.raw, false, none⟩
  startUp := .waiting
  working := none

/-- A frame is in reception on the chain link, awaited or not. -/
def ChainPort.inReception (c : ChainPort) : Bool :=
  c.unasked ||
    match c.transaction with
    | some ⟨_, .receiving⟩ => true
    | some ⟨_, .sending⟩ | some ⟨_, .awaiting _⟩ | none => false

/-- The chain port after a reset that abandons its transaction (R21): the reply in reception goes on, and no transaction
takes it (R15). -/
def ChainPort.abandoned (c : ChainPort) : ChainPort := { ChainPort.powerOn with unasked := c.inReception }

/-- Every block at its power-on value, no debounce running. -/
def State.clearVolatile (s : State) : State :=
  (((((((s.resetBlocks).withNorth (.powerOn s.north.rate)).withChain s.chain.abandoned).withSeq
    (s.seq.afterReset none)).withEvents ⟨[], false⟩).withSleep (.powerOn s.sleep.wakeInHigh .asleep)).withTables
    s.tables.powerOn)

/-- The debounces of feedback and TAMPER start (R102, R184). -/
def State.startDebounces (s : State) : State :=
  (s.withSeq
    { s.seq with feedback := s.seq.feedback.map fun d => d.rerun startUpDebounce }).withTables
    { s.tables with tamper := s.tables.tamper.rerun tamperDebounce }

/-- Power is lost (R167). -/
def State.losePower (s : State) : State :=
  (s.stopOp.clearVolatile).withPower { s.power with powered := false }

/-- POWER_LOSS (R167). -/
def execPowerLoss (s : State) : Host.Outcome State Fault Refusal :=
  .next (if s.power.powered then s.losePower else s)

/-- Power comes up (R21): every block at its power-on value, the straps read, and start-up begun unless RST_N holds
the part in reset. -/
def State.powerUp (s : State) (straps : Straps) : State :=
  let s1 := s.losePower.withPower { s.power with powered := true }
  let s2 := s1.withNorth { s1.north with rate := strapRate straps }
  if s2.operating then s2.startDebounces else s2

/-- POWER_ON_RESET (R21, R184). -/
def execPowerOnReset (straps : Straps) (s : State) : Host.Outcome State Fault Refusal :=
  .next (s.powerUp straps)

/-! ### RST_N (R21) -/

/-- RST_N goes low: every block at its value after RST_N, debounces stopped; the array goes on. -/
def State.holdReset (s : State) : State :=
  (((((((s.resetBlocks).withNorth (.powerOn s.north.rate)).withChain
    { s.chain.abandoned with foundCount := s.chain.foundCount }).withSeq (s.seq.afterReset none)).withEvents
    ⟨[], false⟩).withSleep (.powerOn s.sleep.wakeInHigh s.sleep.chainSleep)).withTables
    { s.tables.afterReset with tamper := { s.tables.tamper with interval := none } }).withPower
    { s.power with rstNLow := true }

/-- RST_N_LOW (R21); without power only the line's level changes. -/
def execRstNLow (s : State) : Host.Outcome State Fault Refusal :=
  .next
    (if s.power.rstNLow then s
     else if s.power.powered then s.holdReset
     else s.withPower { s.power with rstNLow := true })

/-- RST_N_HIGH (R21, R22): the straps are read, the count and the debounces run, and start-up begins. -/
def execRstNHigh (straps : Straps) (s : State) : Host.Outcome State Fault Refusal :=
  .next
    (if s.power.rstNLow then
      let s1 := s.withPower { s.power with rstNLow := false }
      if s.power.powered then (s1.withNorth { s1.north with rate := strapRate straps }).startDebounces else s1
     else s)

/-! ### The in-band restart (R13, R21) -/

/-- The restart may begin (R13). -/
def State.restartDue (s : State) : Bool :=
  s.operating && s.north.restartTaken && s.chain.transaction.isNone && s.north.holding.isNone &&
    s.chain.keptReplies.isEmpty && s.north.tx.isEmpty

/-- The restart begins: the rate, the trims, the found count and the event queue are kept. -/
def State.beginRestart (s : State) : State :=
  ((((((s.resetBlocks).withNorth (.powerOn s.north.rate)).withChain
    { s.chain.abandoned with foundCount := s.chain.foundCount, trims := s.chain.trims }).withSeq
    (s.seq.afterReset (some startUpDebounce))).withSleep
    (.powerOn s.sleep.wakeInHigh s.sleep.chainSleep)).withTables s.tables.afterReset)

/-- RESTART_BEGIN (R13, R21). -/
def execRestartBegin (s : State) : Host.Outcome State Fault Refusal :=
  .next (if s.restartDue then s.beginRestart else s)

/-! ### Start-up loading (R182) -/

/-- Loading may begin: no operation of the array is in flight. -/
def State.loadingDue (s : State) : Bool :=
  s.operating && s.tables.startUp == .waiting && s.tables.operation.isNone

/-- The checks begin.  A version above the counter completes an activation: the trim list is emptied and a counter
write begins. -/
def State.beginLoading (s : State) : State :=
  let s1 := s.withTables { s.tables with startUp := .checking, marks := allMarks }
  match s1.checkActive with
  | .error _ => s1
  | .ok t =>
    if s1.tables.counter < t.version then
      (s1.withChain { s1.chain with trims := List.replicate 20 none }).beginOp (.counterWrite t.version true) counterTime
    else s1

/-- START_UP_LOADING (R182). -/
def execStartUpLoading (s : State) : Host.Outcome State Fault Refusal :=
  .next (if s.loadingDue then s.beginLoading else s)

/-- The trims replace the fine adjusts of their modules (R12). -/
def applyTrims : List ModuleEntry → List (Option Int) → List ModuleEntry
  | m :: ms, some v :: ts => { m with fineAdjust := v } :: applyTrims ms ts
  | m :: ms, none :: ts => m :: applyTrims ms ts
  | ms, _ => ms

/-- A counter write is in flight. -/
def State.counterWriting (s : State) : Bool :=
  match s.tables.operation with
  | some ⟨.counterWrite _ _, _⟩ => true
  | _ => false

/-- Loading may end. -/
def State.loadingEndDue (s : State) : Bool :=
  s.operating && s.tables.startUp == .checking && !s.counterWriting

/-- Loading ends with the tables of the active slot, or with no tables (R182, R183). -/
def State.loadOutcome (s : State) (o : Except VerifyReason WorkingTables) : State :=
  match o with
  | .ok t => s.loadTables (t.withModules (applyTrims t.modules.modules s.chain.trims))
  | .error r => s.withTables { s.tables with loadResult := .noTables r, working := none }

/-- The end of loading: the decoder may take commands, the chain is enumerated, and a tamper erase goes on. -/
def State.endLoading (s : State) : State :=
  let s1 := s.loadOutcome s.checkActive
  (s1.withTables { s1.tables with startUp := .ended }).kickTamper.beginEnumeration

/-- START_UP_LOADING_END (R182). -/
def execStartUpLoadingEnd (s : State) : Host.Outcome State Fault Refusal :=
  .next (if s.loadingEndDue then s.endLoading else s)

end Sys2Proof.Machine
end

