-- ==== Sys2Proof/Machine/Clock.lean ====
section
/-!
DEFINITION. The passing of time: `n` microticks go by with no event (R22).  Every timer runs down and stands at 0
until its expiry is taken; the pack reference ages; an operation of the array goes on even while RST_N is low.
-/

namespace Sys2Proof.Machine

/-- A timer after `n` microticks; a stopped timer stays stopped. -/
def runDown (n : Nat) (t : Option Nat) : Option Nat := t.map (· - n)

/-- The microticks after which the age of the pack reference stops: 65,535 ms (R76). -/
def ageLimit : Nat := ms 65535

def CoilDriver.elapse (n : Nat) (d : CoilDriver) : CoilDriver :=
  { d with pullInTimer := runDown n d.pullInTimer, noCurrent := runDown n d.noCurrent }

def DebouncedInput.elapse (n : Nat) (d : DebouncedInput) : DebouncedInput := { d with interval := runDown n d.interval }

def TxnPhase.elapse (n : Nat) : TxnPhase → TxnPhase
  | .awaiting t => .awaiting (t - n)
  | .sending => .sending
  | .receiving => .receiving

def Transaction.elapse (n : Nat) (t : Transaction) : Transaction := { t with phase := t.phase.elapse n }

def Enumeration.elapse (n : Nat) : Enumeration → Enumeration
  | .running w => .running (runDown n w)
  | .notBegun => .notBegun
  | .ended => .ended

def ChainPort.elapse (n : Nat) (c : ChainPort) : ChainPort :=
  { c with transaction := c.transaction.map (Transaction.elapse n), enumeration := c.enumeration.elapse n }

def PackReference.elapse (n : Nat) (r : PackReference) : PackReference :=
  { r with elapsed := min ageLimit (r.elapsed + n) }

def CurrentPort.elapse (n : Nat) (c : CurrentPort) : CurrentPort :=
  { c with
    streamTimer := runDown n c.streamTimer
    alignWait := runDown n c.alignWait
    reference := c.reference.map (PackReference.elapse n) }

def Sequencer.elapse (n : Nat) (q : Sequencer) : Sequencer :=
  { q with
    stepTimer := runDown n q.stepTimer
    deferTimer := runDown n q.deferTimer
    coils := q.coils.map (CoilDriver.elapse n)
    feedback := q.feedback.map (DebouncedInput.elapse n) }

def SleepController.elapse (n : Nat) (c : SleepController) : SleepController :=
  { c with
    watchTimer := runDown n c.watchTimer
    chainWakeTimer := runDown n c.chainWakeTimer
    holdInterval := runDown n c.holdInterval }

/-- The array's operation after `n` microticks. -/
def ArrayOperation.elapse (n : Nat) (o : ArrayOperation) : ArrayOperation := { o with remaining := o.remaining - n }

/-- The array goes on with its operation. -/
def State.elapseArray (n : Nat) (s : State) : State :=
  s.withTables { s.tables with operation := s.tables.operation.map (ArrayOperation.elapse n) }

/-- The rest of the part. -/
def State.elapseBlocks (n : Nat) (s : State) : State :=
  (((((s.withTimebase { s.timebase with microtick := stampAdd s.timebase.microtick n }).withChain
    (s.chain.elapse n)).withCurrent (s.current.elapse n)).withSeq (s.seq.elapse n)).withSleep
    (s.sleep.elapse n)).withTables { s.tables with tamper := s.tables.tamper.elapse n }

/-- `n` microticks go by: nothing happens without power; while RST_N is low only the array goes on. -/
def elapse (n : Nat) (s : State) : State :=
  if s.power.powered then
    if s.power.rstNLow then s.elapseArray n else (s.elapseArray n).elapseBlocks n
  else s

end Sys2Proof.Machine
end

