-- ==== Sys2Proof/Machine/Dispatch.lean ====
section
/-!
DEFINITION. The effect of every command: one arm for each row of the table, one direct call of its meaning.
-/

namespace Sys2Proof.Machine

def exec (i : Instr) (s : State) : Host.Outcome State Fault Refusal :=
  match i with
  | .powerOnReset straps => Sys2Proof.Machine.execPowerOnReset straps s
  | .powerLoss => Sys2Proof.Machine.execPowerLoss s
  | .rstNLow => Sys2Proof.Machine.execRstNLow s
  | .rstNHigh straps => Sys2Proof.Machine.execRstNHigh straps s
  | .startUpLoading => Sys2Proof.Machine.execStartUpLoading s
  | .startUpLoadingEnd => Sys2Proof.Machine.execStartUpLoadingEnd s
  | .chainWakeWaitExpiry => Sys2Proof.Machine.execChainWakeWaitExpiry s
  | .startDelimiter => Sys2Proof.Machine.execStartDelimiter s
  | .receiveIdleTimeout => Sys2Proof.Machine.execReceiveIdleTimeout s
  | .northFrameComplete bytes => Sys2Proof.Machine.execNorthFrameComplete bytes s
  | .northFrameSent => Sys2Proof.Machine.execNorthFrameSent s
  | .holdingPlaceReplyEnqueue => Sys2Proof.Machine.execHoldingPlaceReplyEnqueue s
  | .chainPortReplyEnqueue => Sys2Proof.Machine.execChainPortReplyEnqueue s
  | .getStatus => Sys2Proof.Machine.execGetStatus s
  | .getStatusClear => Sys2Proof.Machine.execGetStatusClear s
  | .readTable => Sys2Proof.Machine.execReadTable s
  | .setTrim => Sys2Proof.Machine.execSetTrim s
  | .restart => Sys2Proof.Machine.execRestart s
  | .restartBegin => Sys2Proof.Machine.execRestartBegin s
  | .readRound => Sys2Proof.Machine.execReadRound s
  | .releaseRound => Sys2Proof.Machine.execReleaseRound s
  | .readLimits => Sys2Proof.Machine.execReadLimits s
  | .clearLimit => Sys2Proof.Machine.execClearLimit s
  | .clearLimitAll => Sys2Proof.Machine.execClearLimitAll s
  | .close => Sys2Proof.Machine.execClose s
  | .openCmd => Sys2Proof.Machine.execOpen s
  | .fastOpen => Sys2Proof.Machine.execFastOpen s
  | .clearTrip => Sys2Proof.Machine.execClearTrip s
  | .readEvents => Sys2Proof.Machine.execReadEvents s
  | .switchProfile => Sys2Proof.Machine.execSwitchProfile s
  | .enterProfile => Sys2Proof.Machine.execEnterProfile s
  | .returnProfile => Sys2Proof.Machine.execReturnProfile s
  | .sleep => Sys2Proof.Machine.execSleep s
  | .updErase => Sys2Proof.Machine.execUpdErase s
  | .updWrite => Sys2Proof.Machine.execUpdWrite s
  | .updVerify => Sys2Proof.Machine.execUpdVerify s
  | .updActivate => Sys2Proof.Machine.execUpdActivate s
  | .windowClose => Sys2Proof.Machine.execWindowClose s
  | .acquireWindowClose => Sys2Proof.Machine.execAcquireWindowClose s
  | .triggerInstant => Sys2Proof.Machine.execTriggerInstant s
  | .triggerSend => Sys2Proof.Machine.execTriggerSend s
  | .forwardHeadStart => Sys2Proof.Machine.execForwardHeadStart s
  | .chainFrameSent => Sys2Proof.Machine.execChainFrameSent s
  | .chainFrameReceived frame => Sys2Proof.Machine.execChainFrameReceived frame s
  | .chainReplyTimeout => Sys2Proof.Machine.execChainReplyTimeout s
  | .currentRecordArrival record => Sys2Proof.Machine.execCurrentRecordArrival record s
  | .currentRecordIdleTimeout => Sys2Proof.Machine.execCurrentRecordIdleTimeout s
  | .streamTimerExpiry => Sys2Proof.Machine.execStreamTimerExpiry s
  | .alignWaitExpiry => Sys2Proof.Machine.execAlignWaitExpiry s
  | .limitFastOpenRequest => Sys2Proof.Machine.execLimitFastOpenRequest s
  | .limitEnterRequest => Sys2Proof.Machine.execLimitEnterRequest s
  | .pullInTimerExpiry coil => Sys2Proof.Machine.execPullInTimerExpiry coil s
  | .coilSenseChange coil current => Sys2Proof.Machine.execCoilSenseChange coil current s
  | .openCoilIntervalExpiry coil => Sys2Proof.Machine.execOpenCoilIntervalExpiry coil s
  | .feedbackInputChange contactor closed => Sys2Proof.Machine.execFeedbackInputChange contactor closed s
  | .feedbackDebounceExpiry contactor => Sys2Proof.Machine.execFeedbackDebounceExpiry contactor s
  | .stepTimerExpiry => Sys2Proof.Machine.execStepTimerExpiry s
  | .deferTimerExpiry => Sys2Proof.Machine.execDeferTimerExpiry s
  | .entryStart => Sys2Proof.Machine.execEntryStart s
  | .entryCompletion => Sys2Proof.Machine.execEntryCompletion s
  | .watchTimerExpiry => Sys2Proof.Machine.execWatchTimerExpiry s
  | .chainWakeTimerExpiry => Sys2Proof.Machine.execChainWakeTimerExpiry s
  | .wakeInChange high => Sys2Proof.Machine.execWakeInChange high s
  | .wakeInHoldExpiry => Sys2Proof.Machine.execWakeInHoldExpiry s
  | .wakingEnd => Sys2Proof.Machine.execWakingEnd s
  | .blockEraseComplete => Sys2Proof.Machine.execBlockEraseComplete s
  | .rowProgramComplete => Sys2Proof.Machine.execRowProgramComplete s
  | .verificationEnd => Sys2Proof.Machine.execVerificationEnd s
  | .slotPointerWriteComplete => Sys2Proof.Machine.execSlotPointerWriteComplete s
  | .counterWriteComplete => Sys2Proof.Machine.execCounterWriteComplete s
  | .reload => Sys2Proof.Machine.execReload s
  | .tamperInputChange active => Sys2Proof.Machine.execTamperInputChange active s
  | .tamperDebounceExpiry => Sys2Proof.Machine.execTamperDebounceExpiry s
  | .chainReplyStart => Sys2Proof.Machine.execChainReplyStart s
  | .unknownCommandCode => Sys2Proof.Machine.execUnknownCommandCode s

end Sys2Proof.Machine
end

