-- ==== Sys2Proof/WellFormed.lean ====
section
/-!
DEFINITION. Which commands the outside world can hand the part.  Only operands that are lists can be ill-formed;
every meaning is total and says what it does with an ill-formed operand too (it is the truncated frame, the
incomplete record or the content that does not fit of the rule concerned).
-/

namespace Sys2Proof

/-- A north frame that has completed: a 4-byte header, the payload its third byte announces, two CRC bytes (R2). -/
def wellFormedNorthFrame (bytes : List Byte) : Bool :=
  match bytes with
  | _ :: _ :: len :: _ :: rest => rest.length == len.toNat + 2
  | _ => false

/-- A current sample record that has arrived whole holds 8 bytes (R63, section 11.5). -/
def wellFormedRecord (record : List Byte) : Bool := record.length == 8

/-- A RESULT frame carries a position, up to 12 voltages and up to 4 temperatures (R14); the count and the module's
reply payload fit the bytes that carry them, the reply payload behind its status in one north frame (R19). -/
def wellFormedContent : ChainContent → Bool
  | .result position voltages temperatures _ =>
      decide (position < 256) && decide (voltages.length ≤ 12) && decide (temperatures.length ≤ 4)
  | .count found => decide (found < 256)
  | .moduleReply payload => decide (payload.length ≤ 254)
  | .other => true

/-- A chain frame holds at least its CRC unless it broke off (R15, R186). -/
def wellFormedChainRx (frame : ChainRx) : Bool :=
  wellFormedContent frame.content && (frame.truncated || decide (2 ≤ frame.bytes.length))

/-- The commands the outside world can hand the part. -/
def Instr.wellFormed : Instr → Bool
  | .northFrameComplete bytes => wellFormedNorthFrame bytes
  | .currentRecordArrival record => wellFormedRecord record
  | .chainFrameReceived frame => wellFormedChainRx frame
  | .powerOnReset _ | .powerLoss | .rstNLow | .rstNHigh _ | .startUpLoading | .startUpLoadingEnd
  | .chainWakeWaitExpiry | .startDelimiter | .receiveIdleTimeout | .northFrameSent
  | .holdingPlaceReplyEnqueue | .chainPortReplyEnqueue | .getStatus | .getStatusClear | .readTable
  | .setTrim | .restart | .restartBegin | .readRound | .releaseRound | .readLimits | .clearLimit
  | .clearLimitAll | .close | .openCmd | .fastOpen | .clearTrip | .readEvents | .switchProfile
  | .enterProfile | .returnProfile | .sleep | .updErase | .updWrite | .updVerify | .updActivate
  | .windowClose | .acquireWindowClose | .triggerInstant | .triggerSend | .forwardHeadStart
  | .chainFrameSent | .chainReplyTimeout | .currentRecordIdleTimeout | .streamTimerExpiry
  | .alignWaitExpiry | .limitFastOpenRequest | .limitEnterRequest | .pullInTimerExpiry _
  | .coilSenseChange _ _ | .openCoilIntervalExpiry _ | .feedbackInputChange _ _
  | .feedbackDebounceExpiry _ | .stepTimerExpiry | .deferTimerExpiry | .entryStart | .entryCompletion
  | .watchTimerExpiry | .chainWakeTimerExpiry | .wakeInChange _ | .wakeInHoldExpiry | .wakingEnd
  | .blockEraseComplete | .rowProgramComplete | .verificationEnd | .slotPointerWriteComplete
  | .counterWriteComplete | .reload | .tamperInputChange _ | .tamperDebounceExpiry | .chainReplyStart
  | .unknownCommandCode => true

end Sys2Proof
end

