-- ==== Sys2Proof/Safety.lean ====
section
/-!
DEFINITION. What counts as a safe run, in the terms claims use: the blocks of the part and what a command may touch,
the safety of the coils, of the array, of the queues, of the current ring and of the profile chain.
-/

namespace Sys2Proof.Machine

/-! ### Blocks and frames -/

/-- The parts of State. -/
inductive Block where
  | power | north | chain | timebase | lock | sched | store | current | limits | seq | events | profiles | sleep
  | tables | freeIndex | pending
  deriving DecidableEq, Repr

/-- A block has the same content in two states. -/
def sameBlock (b : Block) (s t : State) : Prop :=
  match b with
  | .power => t.power = s.power
  | .north => t.north = s.north
  | .chain => t.chain = s.chain
  | .timebase => t.timebase = s.timebase
  | .lock => t.lock = s.lock
  | .sched => t.sched = s.sched
  | .store => t.store = s.store
  | .current => t.current = s.current
  | .limits => t.limits = s.limits
  | .seq => t.seq = s.seq
  | .events => t.events = s.events
  | .profiles => t.profiles = s.profiles
  | .sleep => t.sleep = s.sleep
  | .tables => t.tables = s.tables
  | .freeIndex => t.freeIndex = s.freeIndex
  | .pending => t.pending = s.pending

/-- From `s` to `t` nothing changes but what stands in the blocks listed. -/
def Touches (bs : List Block) (s t : State) : Prop := ∀ b, b ∉ bs → sameBlock b s t

/-! ### Coils (R105, R106) -/

/-- No coil is driven. -/
def State.noCoilDriven (s : State) : Bool :=
  !s.seq.coils.mneg.driven && !s.seq.coils.mpos.driven && !s.seq.coils.pre.driven && !s.seq.coils.chg.driven

/-- The sequencer is OPEN or TRIPPED. -/
def SeqState.resting : SeqState → Bool
  | .opened | .tripped => true
  | .closing | .closed | .deferred | .opening => false

/-- The pull-in timer of a driver that is OFF is stopped (R100). -/
def CoilDriver.quiet (d : CoilDriver) : Bool := d.driven || d.pullInTimer.isNone

/-- All four drivers. -/
def PerContactor.allCoils (p : PerContactor CoilDriver) (f : CoilDriver → Bool) : Bool :=
  f p.mneg && f p.mpos && f p.pre && f p.chg

/-- The sequencer must be at rest: outside ACTIVE, with no tables, before start-up loading has ended, during
ACTIVATING, without power and in reset (R106, R121, R122). -/
def State.mustRest (s : State) : Bool :=
  !(s.sleep.power == .active) || s.tables.working.isNone || !(s.tables.startUp == .ended) ||
    s.tables.engine == .activating || !s.operating

/-- The coils are safe (R105, R106): none is driven while MNEG is not; while the sequencer is OPEN or TRIPPED none is
driven, no sequence runs and no timer of it runs; the sequencer is OPEN or TRIPPED whenever it must rest; and the
pull-in timer of a driver that is OFF is stopped. -/
def CoilsSafe (s : State) : Prop :=
  (s.mnegDriven = false → s.noCoilDriven = true) ∧
  (s.seq.state.resting = true →
    s.noCoilDriven = true ∧ s.seq.running = none ∧ s.seq.stepTimer = none ∧ s.seq.deferTimer = none) ∧
  (s.mustRest = true → s.seq.state.resting = true) ∧
  s.seq.coils.allCoils CoilDriver.quiet = true

/-! ### The array (R167, R168) -/

/-- An operation stays inside the slots. -/
def ArrayOp.inSlots : ArrayOp → Bool
  | .erase block _ => decide (block < 56)
  | .program address bytes => decide (address + bytes.length ≤ arraySize)
  | .pointerWrite _ | .counterWrite _ _ => true

/-- The array keeps its canonical form, and no operation reaches outside the two slots. -/
def ArraySafe (s : State) : Prop :=
  Memory.wf s.tables.array = true ∧
  (∀ o, s.tables.operation = some o → o.op.inSlots = true) ∧
  (∀ b, s.tables.tamperErase = some b → b < 28)

/-! ### Capacities (R5, R6, R12, R18, R57, R66, R127, R138, R171) -/

/-- Every queue and list is within its capacity. -/
def CapacitiesHold (s : State) : Prop :=
  s.north.commands.length ≤ 4 ∧ s.north.tx.length ≤ 8 ∧ s.chain.forwardQueue.length ≤ 4 ∧
  s.store.records.length ≤ 8 ∧ s.current.ring.length ≤ 64 ∧ s.events.records.length ≤ 32 ∧
  s.chain.trims.length = 20 ∧ s.tables.marks.length = 896

/-- Whenever the overflow flag is set, the queue holds 32 records (R129). -/
def OverflowMeansFull (s : State) : Prop := s.events.overflow = true → s.events.records.length = 32

/-! ### The current ring (R66, R67) -/

/-- Each stamp is later than the one before it. -/
def ringRises : List RingRecord → Bool
  | a :: b :: rest => later b.stamp a.stamp && ringRises (b :: rest)
  | _ => true

/-- The ring's stamps rise, and the ring is empty exactly while the stream is ABSENT. -/
def RingSafe (s : State) : Prop :=
  ringRises s.current.ring = true ∧ (s.current.ring = [] ↔ s.current.stream = .absent)

/-! ### The profile chain (R138, R142, R145) -/

/-- A profile id names a defined record of class NORMAL. -/
def State.normal (s : State) (id : Nat) : Prop := ∃ r, s.profileRecord id = some r ∧ r.watch = false

/-- A profile id names a defined record of class WATCH. -/
def State.watching (s : State) (id : Nat) : Prop := ∃ r, s.profileRecord id = some r ∧ r.watch = true

/-- The chain less the watch profile of a sleep. -/
def State.dayChain (s : State) : List ChainElement :=
  if s.deepSleep then s.profiles.chain.tail else s.profiles.chain

/-- What the commands rely on when they change the chain: the working tables are those of a verified image, the ENTER
requests of the limit monitor name NORMAL profiles, tables are loaded before anything sleeps, nothing sleeps or activates
before start-up loading has ended, and during ACTIVATING nothing is sampled and nothing requested. -/
def TablesSteady (s : State) : Prop :=
  (∀ t, s.tables.working = some t → t.resolve = true) ∧
  (∀ r ∈ s.limits.enterRequests, s.normal r.profile) ∧
  (s.tables.working = none → s.profiles.chain = [] ∧ s.limits.enterRequests = []) ∧
  (s.tables.startUp ≠ .ended →
    s.tables.working = none ∧ s.sleep.power = .active ∧ s.tables.engine ≠ .activating) ∧
  (s.tables.engine = .activating →
    s.sleep.power = .active ∧ s.limits.enterRequests = [] ∧ s.sched.due = [] ∧ s.sched.held = [] ∧
      s.sched.waiting = none ∧ s.sched.assembly = none)

/-- The depth is at most 4, at most 3 while a sleep is pending, at least 2 in deep sleep, and at least 1 with tables
loaded; no profile stands twice in the chain; the active profile is a WATCH profile in deep sleep, and every other
profile of the chain is NORMAL; the active profile holds no saved context and every other profile of the chain holds
one. -/
def ChainSafe (s : State) : Prop :=
  s.depth ≤ 4 ∧ (s.sleep.power = .sleepPending → s.depth ≤ 3) ∧
  (s.deepSleep = true → 2 ≤ s.depth ∧ ∀ e, s.profiles.chain.head? = some e → s.watching e.profile) ∧
  (s.tablesLoaded = true → 1 ≤ s.depth) ∧
  (s.profiles.chain.map (·.profile)).Nodup ∧ (∀ e ∈ s.dayChain, s.normal e.profile) ∧
  (∀ e, s.profiles.chain.head? = some e → e.saved = none) ∧
  (∀ e, e ∈ s.profiles.chain.tail → e.saved.isSome = true) ∧
  TablesSteady s

/-! ### The decoder's rows (R6, R7) -/

/-- The rows by which the management decoder takes a command. -/
def decoderRows : List Instr :=
  [.getStatus, .getStatusClear, .readTable, .setTrim, .restart, .readRound, .releaseRound, .readLimits, .clearLimit,
    .clearLimitAll, .close, .openCmd, .fastOpen, .clearTrip, .readEvents, .switchProfile, .enterProfile,
    .returnProfile, .sleep, .updErase, .updWrite, .updVerify, .updActivate, .unknownCommandCode]

/-- The bytes behind the command code have the form section 11.3 gives the row's command. -/
def formRight (row : Instr) (args : List Byte) : Bool :=
  match row with
  | .getStatus | .getStatusClear => (argClear args).isSome
  | .readTable => (argReadTable args).isSome
  | .setTrim => (argSetTrim args).isSome
  | .readRound => (argPiece args).isSome
  | .clearLimit => (argEntry args).isSome
  | .clearLimitAll => (argAll args).isSome
  | .close | .readEvents | .switchProfile | .enterProfile => (argBelow8 args).isSome
  | .updErase => (argBlock args).isSome
  | .updWrite => (argUpdWrite args).isSome
  | .restart | .releaseRound | .readLimits | .openCmd | .fastOpen | .clearTrip | .returnProfile | .sleep
  | .updVerify | .updActivate => (argNone args).isSome
  | _ => false

/-- The command `c` is answered with a status and without data, and nothing else changes but that it leaves the
list. -/
def State.answered (s : State) (c : Command) (st : ReplyStatus) : Host.Outcome State Fault Refusal :=
  .next (s.popCommand.reply c (.plain st))

/-! ### What each command may touch -/

/-- What an orderly open may touch: the sequencer and the events it records. -/
def Block.opening : List Block := [.seq, .events]

/-- What a commit may touch. -/
def Block.commit : List Block := [.profiles, .limits, .sched, .lock, .seq, .events]

/-- What may change when a round moves on: its trigger, its reads, its alignment, evaluation and offer, the watch
pass it belongs to and the wake it asks for. -/
def Block.round : List Block := [.north, .chain, .sched, .store, .current, .limits, .sleep]

/-- Every block but the queue of commands. -/
def Block.allBlocks : List Block :=
  [.power, .north, .chain, .timebase, .lock, .sched, .store, .current, .limits, .seq, .events, .profiles, .sleep,
    .tables, .freeIndex]

/-- The blocks in which a command may change anything. -/
def blocksOf : Instr → List Block
  | .powerOnReset _ | .powerLoss => Block.allBlocks
  | .rstNLow | .restartBegin =>
    [.power, .north, .chain, .timebase, .lock, .sched, .store, .current, .limits, .seq, .events, .profiles, .sleep,
      .tables]
  | .rstNHigh _ => [.power, .north, .seq, .tables]
  | .startUpLoading => [.chain, .tables]
  | .startUpLoadingEnd => [.chain, .lock, .sched, .limits, .profiles, .tables]
  | .chainWakeWaitExpiry | .chainReplyStart => [.chain]
  | .startDelimiter => [.north, .chain, .current, .sleep]
  | .receiveIdleTimeout | .northFrameSent | .holdingPlaceReplyEnqueue | .unknownCommandCode | .getStatus
  | .readTable | .readLimits => [.north]
  | .northFrameComplete _ => [.north, .chain, .lock, .sched, .store, .seq, .events, .sleep]
  | .chainPortReplyEnqueue | .forwardHeadStart => [.north, .chain]
  | .getStatusClear => [.north, .store, .sleep]
  | .setTrim => [.north, .chain, .tables]
  | .restart => [.north, .sched]
  | .readRound | .releaseRound => [.north, .store]
  | .clearLimit | .clearLimitAll => [.north, .limits]
  | .close | .openCmd | .fastOpen => [.north, .seq, .events]
  | .clearTrip => [.north, .seq]
  | .readEvents => [.north, .events]
  | .switchProfile | .enterProfile | .returnProfile => .north :: Block.commit
  | .sleep => [.north, .sched, .sleep]
  | .updErase | .updWrite | .updVerify => [.north, .tables]
  | .updActivate => [.north, .chain, .sched, .current, .limits, .tables]
  | .windowClose => [.north, .lock, .sched, .store, .seq, .events]
  | .acquireWindowClose => [.lock, .sched, .seq, .events]
  | .triggerInstant => [.north, .sched, .store]
  | .triggerSend | .chainFrameSent | .chainFrameReceived _ | .chainReplyTimeout | .alignWaitExpiry => Block.round
  | .currentRecordArrival _ | .streamTimerExpiry => Block.round ++ Block.opening
  | .currentRecordIdleTimeout => [.north]
  | .limitFastOpenRequest => [.limits, .seq, .events]
  | .limitEnterRequest => .north :: Block.commit
  | .pullInTimerExpiry _ | .coilSenseChange _ _ | .feedbackInputChange _ _ => [.seq]
  | .openCoilIntervalExpiry _ | .feedbackDebounceExpiry _ | .stepTimerExpiry | .deferTimerExpiry => Block.opening
  | .entryStart => [.north, .chain, .sleep]
  | .entryCompletion => [.timebase, .current, .sleep] ++ Block.commit
  | .watchTimerExpiry => [.chain, .sleep]
  | .chainWakeTimerExpiry => [.chain, .sched, .store, .current, .sleep]
  | .wakeInChange _ | .wakeInHoldExpiry => [.chain, .current, .sleep]
  | .wakingEnd => [.north, .timebase, .sleep] ++ Block.commit
  | .blockEraseComplete | .rowProgramComplete | .verificationEnd | .slotPointerWriteComplete
  | .counterWriteComplete | .tamperInputChange _ => [.tables]
  | .reload => [.chain, .lock, .sched, .store, .current, .limits, .seq, .profiles, .tables]
  | .tamperDebounceExpiry => [.chain, .current, .sleep, .tables]

/-! ### Resets and enumeration (R16, R17, R21) -/

/-- The values the manual gives each volatile block at power-on, the rate and the kept inputs apart (the levels of the
coil senses, the feedback inputs and WAKE_IN, a frame in reception on the chain link, and the chain sleep state, which
R166 leaves to the start-up CHAIN_WAKE). -/
def State.blank (t : State) (rate : LinkRate) : Prop :=
  t.north = ⟨rate, .idle, [], [], ⟨false, false, false, false, false, false, false⟩, none, false, []⟩ ∧
  t.chain.forwardQueue = [] ∧ t.chain.transaction = none ∧ t.chain.sleepClaim = none ∧ t.chain.keptReplies = [] ∧
  t.chain.enumeration = .notBegun ∧
  t.timebase = ⟨0, .main⟩ ∧ t.lock = ⟨.unlocked, none, 1000, 0, 0⟩ ∧
  t.sched = ⟨[], [], [], none, none⟩ ∧ t.store = ⟨[], false, 0, 0⟩ ∧
  t.current = ⟨[], .absent, none, true, none, none⟩ ∧ t.limits = ⟨[], [], []⟩ ∧
  t.seq =
    { t.seq with
      state := .opened, running := none, step := none, stepTimer := none, openCause := none, deferTimer := none
      weldSuspects := ⟨false, false, false, false⟩, tripCause := none } ∧
  (∀ c, t.seq.coils.get c = ⟨.off, none, (t.seq.coils.get c).sense, none, false⟩) ∧ t.noCoilDriven = true ∧
  (∀ c, (t.seq.feedback.get c).debounced = false) ∧
  t.profiles.chain = [] ∧
  t.sleep =
    { t.sleep with
      power := .active, entryStarted := false, watchTimer := none, chainWakeTimer := none, watchPassCount := 0
      passMade := false, wakePending := false, wakeCauses := ⟨false, false, false, false, false⟩, firstCause := none
      detectorArmed := false, holdInterval := none, wakeOut := false } ∧
  t.tables.working = none ∧ t.tables.lastVerification = .none ∧ t.tables.marks = allMarks

/-- Enumeration ends with a found count (R16, R17): CHAIN_MISMATCH is set when tables are loaded and the count is not
the module count; nothing else changes. -/
def State.enumeratedWith (s : State) (found : Nat) : State :=
  let s1 := s.withChain { s.chain with transaction := none, enumeration := .ended, foundCount := found }
  if s.tablesLoaded = true ∧ found ≠ s.moduleCount then
    s1.withNorth { s.north with sticky := { s.north.sticky with chainMismatch := true } }
  else s1

/-- A frame is in assembly that was begun awake (R2). -/
def Receiver.assemblingAwake : Receiver → Bool
  | .assembling _ false => true
  | .assembling _ true | .idle => false

/-! ### Layouts, as R185 words them, apart from the meanings' own serialisers -/

/-- An enumerated field: the position of the value in its list. -/
def listPlace {α : Type} [DecidableEq α] (values : List α) (x : α) : Byte := BitVec.ofNat 8 (values.idxOf x)

/-- A field of `n` bytes, least significant byte first. -/
def littleEndian (n v : Nat) : List Byte := (List.range n).map fun i => BitVec.ofNat 8 (v / 256 ^ i)

/-- A signed field of `n` bytes, two's complement, least significant byte first. -/
def littleEndianSigned (n : Nat) (v : Int) : List Byte := (List.range n).map fun i => BitVec.ofInt 8 (v / 256 ^ i)

/-- A set or a byte of marks: bit 0 for the first member listed. -/
def setByte (members : List Bool) : Byte := BitVec.ofNat 8 (members.foldr (fun b n => b.toNat + 2 * n) 0)

/-- An optional one-byte field: 0xFF when absent. -/
def orAbsent (field : Option Byte) : Byte := field.getD 0xFF

/-- The cause byte of section 11.1. -/
def causeByte : Cause → Byte
  | .limit entry => BitVec.ofNat 8 (0x80 + entry)
  | c => listPlace [.command, .profile, .feedback, .unlock, .timeout, .interlock, .noReference, .weld, .start, .sleep] c

/-- The verification reasons in the order of their list. -/
def verifyReasons : List VerifyReason := [.format, .directory, .fields, .version, .tag]

/-! ### Images, as R169 and R174 word them -/

/-- The number in `n` bytes of an image from an offset, least significant byte first. -/
def imageField (image : List Byte) (offset n : Nat) : Nat :=
  ((List.range n).map fun i => (image.getD (offset + i) 0).toNat * 256 ^ i).sum

/-- The directory of `n` entries: from offset 16, 6 bytes each, namely kind, entry count − 1, offset, length. -/
def imageDirectory (image : List Byte) (n : Nat) : List DirEntry :=
  (List.range n).map fun i =>
    ⟨imageField image (16 + 6 * i) 1, imageField image (17 + 6 * i) 1 + 1, imageField image (18 + 6 * i) 2,
      imageField image (20 + 6 * i) 2⟩

/-- How many tables of a kind a directory names. -/
def tablesOfKind (dir : List DirEntry) (kind : Nat) : Nat := (dir.filter fun e => e.kind = kind).length

/-- The entry count of a directory entry agrees with its table's length (R174, section 11.6). -/
def DirEntry.CountAgrees (e : DirEntry) (image : List Byte) : Prop :=
  (e.kind = 0 → e.length = 16 + 6 * e.count) ∧ (e.kind = 1 → e.length = 7 * e.count) ∧
  (e.kind = 2 → e.length = 17 * e.count) ∧ (e.kind = 4 → e.length = 18 * e.count) ∧
  (e.kind = 3 →
    ∃ (header : List Byte) (parts : List (List Byte)), header.length = 14 ∧ parts.length = e.count ∧
      (image.drop e.offset).take e.length = header ++ parts.flatten ∧
      ∀ part ∈ parts, ∃ cls count steps, part = cls :: count :: steps ∧ steps.length = 4 * (count.toNat + 1))

/-- What the check DIRECTORY of R174 asks. -/
def DirectorySound (n : Nat) (image : List Byte) (dir : List DirEntry) : Prop :=
  1 ≤ n ∧ n ≤ 16 ∧
  (∀ e ∈ dir, 16 + 6 * n ≤ e.offset ∧ e.offset + e.length ≤ image.length - 16) ∧
  dir.Pairwise (fun a b =>
    ¬ ∃ x, a.offset ≤ x ∧ x < a.offset + a.length ∧ b.offset ≤ x ∧ x < b.offset + b.length) ∧
  tablesOfKind dir 0 = 1 ∧ tablesOfKind dir 3 = 1 ∧ tablesOfKind dir 4 = 1 ∧
  1 ≤ tablesOfKind dir 1 ∧ tablesOfKind dir 1 ≤ 4 ∧ 1 ≤ tablesOfKind dir 2 ∧ tablesOfKind dir 2 ≤ 4 ∧
  ∀ e ∈ dir, e.CountAgrees image

/-- The module table in its ranges (R39). -/
def ModuleTable.Sound (m : ModuleTable) : Prop :=
  1 ≤ m.modules.length ∧ m.modules.length ≤ 20 ∧ m.syncDelay ≤ 255 ∧ m.hopDelay ≤ 31 ∧
  20 ≤ m.replyTimeout ∧ m.replyTimeout ≤ 1000 ∧ m.forwardWindow ≤ 65535 ∧ m.converterLatency ≤ 255 ∧
  100 ≤ m.streamTimeout ∧ m.streamTimeout ≤ 50000 ∧ 10 ≤ m.gapLimit ∧ m.gapLimit ≤ 10000 ∧
  m.alignWaitLimit ≤ 5000 ∧ 1 ≤ m.holdTime ∧ m.holdTime ≤ 255 ∧
  ∀ e ∈ m.modules, e.population ≠ [] ∧ (∀ i ∈ e.population, 1 ≤ i ∧ i ≤ 12) ∧ e.temperatureCount ≤ 4 ∧
    e.resistance ≤ 65535 ∧ -7 ≤ e.fineAdjust ∧ e.fineAdjust ≤ 7

/-- A schedule in its ranges, for a chain of `modules` modules (R40). -/
def scheduleSound (modules : Nat) (schedule : List ScheduleEntry) : Prop :=
  1 ≤ schedule.length ∧ schedule.length ≤ 16 ∧
  ∀ e ∈ schedule, e.phase ≤ 4095 ∧ e.moduleSet ≠ [] ∧ (∀ p ∈ e.moduleSet, 1 ≤ p ∧ p ≤ modules) ∧
    1 ≤ e.decimation ∧ e.decimation ≤ 64

/-- A limit entry in its ranges (R80). -/
def LimitEntry.Sound (e : LimitEntry) : Prop :=
  1 ≤ e.firstPosition ∧ e.firstPosition ≤ e.lastPosition ∧ e.lastPosition ≤ 20 ∧
  1 ≤ e.persistence ∧ e.persistence ≤ 7 ∧
  (e.cls = .cellRaw ∨ e.cls = .cellComp →
    1 ≤ e.firstChannel ∧ e.firstChannel ≤ e.lastChannel ∧ e.lastChannel ≤ 12 ∧
    0 ≤ e.threshold ∧ e.threshold ≤ 65535 ∧ e.hysteresis ≤ 65535) ∧
  (e.cls = .temp →
    1 ≤ e.firstChannel ∧ e.firstChannel ≤ e.lastChannel ∧ e.lastChannel ≤ 4 ∧
    -32768 ≤ e.threshold ∧ e.threshold ≤ 32767 ∧ e.hysteresis ≤ 65535) ∧
  (e.cls = .current → -2000000 ≤ e.threshold ∧ e.threshold ≤ 2000000 ∧ e.hysteresis ≤ 4000000) ∧
  (e.cls = .moduleFlag → e.flagMask ≠ 0)

/-- A sequence as R104 asks: 1 to 12 steps, END last and nowhere else, and in class OPEN no DRIVE, AWAIT_PRECHARGE or
AWAIT_FB(CLOSED). -/
def Sequence.Sound (q : Sequence) : Prop :=
  q.steps.length ≤ 12 ∧ (∃ before, q.steps = before ++ [.endStep] ∧ .endStep ∉ before) ∧
  ∀ x ∈ q.steps,
    (∀ t, x = .wait t → 1 ≤ t ∧ t ≤ 65535) ∧
    (∀ c closed t, x = .awaitFb c closed t → 1 ≤ t ∧ t ≤ 65535 ∧ (q.cls = .openSeq → closed = false)) ∧
    (∀ ratio t, x = .awaitPrecharge ratio t →
      128 ≤ ratio ∧ ratio ≤ 255 ∧ 1 ≤ t ∧ t ≤ 65535 ∧ q.cls ≠ .openSeq) ∧
    (∀ c, x = .drive c → q.cls ≠ .openSeq)

/-- The sequence table in its ranges (R103, R104). -/
def SequenceTable.Sound (t : SequenceTable) : Prop :=
  (∀ c, 10 ≤ t.pullInTime.get c ∧ t.pullInTime.get c ≤ 255 ∧ 1 ≤ t.holdLevel.get c ∧ t.holdLevel.get c ≤ 4) ∧
  1 ≤ t.debounceTime ∧ t.debounceTime ≤ 15 ∧ t.breakLimit ≤ 1999999 ∧ t.deferTimeout ≤ 5000 ∧
  t.sequences.length ≤ 8 ∧ (∃ q rest, t.sequences = q :: rest ∧ q.cls = .openSeq) ∧ ∀ q ∈ t.sequences, q.Sound

/-- The fields of every table in their ranges, and every reference resolved: the check FIELDS of R174. -/
def WorkingTables.Sound (t : WorkingTables) : Prop :=
  t.modules.Sound ∧ (∀ x ∈ t.schedules, scheduleSound t.modules.modules.length x) ∧
  (∀ x ∈ t.limitSets, 1 ≤ x.length ∧ x.length ≤ 24 ∧
    ∀ e ∈ x, e.Sound ∧ (e.enter = true → ∃ p ∈ t.profiles, p.id = e.enterTarget ∧ p.watch = false)) ∧
  t.sequence.Sound ∧ t.profiles.length ≤ 8 ∧ (t.profiles.map (·.id)).Nodup ∧
  (t.profiles.filter (·.base)).length = 1 ∧
  ∀ p ∈ t.profiles,
    p.id ≤ 7 ∧ 1000 ≤ p.lnom ∧ p.lnom ≤ 100000 ∧ 1 ≤ p.tol ∧ p.tol ≤ 4095 ∧ 8 * p.tol ≤ p.lnom ∧
    1 ≤ p.holdoverLimit ∧ p.holdoverLimit ≤ 7 ∧ (p.base = true → p.watch = false) ∧
    (p.watch = true →
      1 ≤ p.watchInterval ∧ p.watchInterval ≤ 65535 ∧ 1 ≤ p.chainWakeTime ∧ p.chainWakeTime ≤ 255) ∧
    p.scheduleId < t.schedules.length ∧ p.limitSetId < t.limitSets.length ∧
    (∀ id, p.allowedClose.getLsbD id = true → id < t.sequence.sequences.length) ∧
    (∀ id, p.watchProfile = some id → ∃ w ∈ t.profiles, w.id = id ∧ w.watch = true) ∧
    (p.sleepOk = true → p.watchProfile ≠ none)

/-! ### The layouts of section 11.6, field by field at their offsets -/

/-- The signed number in `n` bytes of an image from an offset, two's complement. -/
def imageSigned (image : List Byte) (offset n : Nat) : Int :=
  let v := imageField image offset n
  if 256 ^ n ≤ 2 * v then (v : Int) - (256 ^ n : Nat) else v

/-- Bit `i` of the field of `n` bytes at an offset. -/
def imageBit (image : List Byte) (offset n i : Nat) : Bool := (imageField image offset n).testBit i

/-- The enumerated value the byte at an offset stands for: the position in its list. -/
def imageEnum {α : Type} (values : List α) (image : List Byte) (offset : Nat) : Option α :=
  values[imageField image offset 1]?

/-- A set of numbers 1 to `count`, ascending, as the mask of `n` bytes at an offset. -/
def imageSet (members : List Nat) (image : List Byte) (offset n count : Nat) : Prop :=
  members.Pairwise (· < ·) ∧
    ∀ p, p ∈ members ↔ 1 ≤ p ∧ p ≤ count ∧ imageBit image offset n (p - 1) = true

/-- A module entry at an offset; fine adjust in sign-magnitude form (R185). -/
def ModuleEntry.LaidOut (e : ModuleEntry) (image : List Byte) (o : Nat) : Prop :=
  imageSet e.population image o 2 12 ∧ e.temperatureCount = imageField image (o + 2) 1 ∧
  e.resistance = imageField image (o + 3) 2 ∧
  e.fineAdjust =
    (if imageBit image (o + 5) 1 7 then -1 else 1) * ((imageField image (o + 5) 1 % 16 : Nat) : Int)

/-- The module table at an offset; the WAKE_IN codes are the model's choice (log 11). -/
def ModuleTable.LaidOut (m : ModuleTable) (image : List Byte) (o : Nat) : Prop :=
  m.syncDelay = imageField image o 1 ∧ m.hopDelay = imageField image (o + 1) 1 ∧
  m.replyTimeout = imageField image (o + 2) 2 ∧ m.forwardWindow = imageField image (o + 4) 2 ∧
  m.converterLatency = imageField image (o + 6) 1 ∧ m.streamTimeout = imageField image (o + 7) 2 ∧
  m.gapLimit = imageField image (o + 9) 2 ∧ m.alignWaitLimit = imageField image (o + 11) 2 ∧
  imageEnum [.high, .low, .rising, .falling] image (o + 13) = some m.wakeInMode ∧
  m.holdTime = imageField image (o + 14) 1 ∧
  ∀ (i : Nat) (e : ModuleEntry), m.modules[i]? = some e → e.LaidOut image (o + 16 + 6 * i)

/-- A schedule entry at an offset. -/
def ScheduleEntry.LaidOut (e : ScheduleEntry) (image : List Byte) (o : Nat) : Prop :=
  e.phase = imageField image o 2 ∧ imageEnum [.cells, .temps, .both] image (o + 2) = some e.kind ∧
  e.decimation = imageField image (o + 3) 1 + 1 ∧ imageSet e.moduleSet image (o + 4) 3 20

/-- A limit entry at an offset. -/
def LimitEntry.LaidOut (e : LimitEntry) (image : List Byte) (o : Nat) : Prop :=
  imageEnum [.cellRaw, .cellComp, .temp, .current, .moduleFlag, .moduleMissing] image o = some e.cls ∧
  e.firstPosition = imageField image (o + 1) 1 ∧ e.lastPosition = imageField image (o + 2) 1 ∧
  e.firstChannel = imageField image (o + 3) 1 ∧ e.lastChannel = imageField image (o + 4) 1 ∧
  e.flagMask.toNat = imageField image (o + 5) 1 ∧ e.threshold = imageSigned image (o + 6) 4 ∧
  e.hysteresis = imageField image (o + 10) 4 ∧ e.below = imageBit image (o + 14) 1 0 ∧
  e.latch = imageBit image (o + 14) 1 1 ∧ e.persistence = imageField image (o + 14) 1 / 4 % 8 + 1 ∧
  e.alert = imageBit image (o + 15) 1 0 ∧ e.fastOpen = imageBit image (o + 15) 1 1 ∧
  e.blockClose = imageBit image (o + 15) 1 2 ∧ e.wake = imageBit image (o + 15) 1 3 ∧
  e.enter = imageBit image (o + 15) 1 4 ∧ e.enterTarget = imageField image (o + 16) 1

/-- A step at an offset: its kind, its coil in bits 1:0 with the wanted state in bit 7, or its ratio, and its time. -/
def SeqStep.LaidOut (x : SeqStep) (image : List Byte) (o : Nat) : Prop :=
  let kind := imageField image o 1
  let coil : Option Contactor := [.mneg, .mpos, .pre, .chg][imageField image (o + 1) 1 % 4]?
  let time := imageField image (o + 2) 2
  match x with
  | .drive c => kind = 0 ∧ coil = some c
  | .release c => kind = 1 ∧ coil = some c
  | .wait t => kind = 2 ∧ t = time
  | .awaitFb c closed t => kind = 3 ∧ coil = some c ∧ closed = imageBit image (o + 1) 1 7 ∧ t = time
  | .awaitPrecharge ratio t => kind = 4 ∧ ratio = imageField image (o + 1) 1 ∧ t = time
  | .endStep => kind = 5

/-- Sequences one behind the other from an offset: class, step count − 1, and 4 bytes per step. -/
def sequencesLaidOut (image : List Byte) : List Sequence → Nat → Prop
  | [], _ => True
  | q :: rest, o =>
    imageEnum [.closeDrive, .closeCharge, .openSeq] image o = some q.cls ∧
    q.steps.length = imageField image (o + 1) 1 + 1 ∧
    (∀ (i : Nat) (x : SeqStep), q.steps[i]? = some x → x.LaidOut image (o + 2 + 4 * i)) ∧
    sequencesLaidOut image rest (o + 2 + 4 * q.steps.length)

/-- Four bytes from an offset, for MNEG, MPOS, PRE and CHG. -/
def PerContactor.LaidOut (p : PerContactor Nat) (image : List Byte) (o : Nat) : Prop :=
  p.mneg = imageField image o 1 ∧ p.mpos = imageField image (o + 1) 1 ∧ p.pre = imageField image (o + 2) 1 ∧
  p.chg = imageField image (o + 3) 1

/-- The sequence table at an offset. -/
def SequenceTable.LaidOut (t : SequenceTable) (image : List Byte) (o : Nat) : Prop :=
  t.pullInTime.LaidOut image o ∧ t.holdLevel.LaidOut image (o + 4) ∧ t.debounceTime = imageField image (o + 8) 1 ∧
  t.breakLimit = imageField image (o + 9) 3 ∧ t.deferTimeout = imageField image (o + 12) 2 ∧
  sequencesLaidOut image t.sequences (o + 14)

/-- A profile record at an offset; that H is read plain is the model's choice (log 38). -/
def ProfileRecord.LaidOut (p : ProfileRecord) (image : List Byte) (o : Nat) : Prop :=
  p.watch = imageBit image o 1 0 ∧ p.base = imageBit image o 1 1 ∧ p.sleepOk = imageBit image o 1 2 ∧
  p.activateOk = imageBit image o 1 3 ∧ p.openOnEntry = imageBit image o 1 4 ∧
  p.keepNewest = imageBit image o 1 5 ∧
  p.id = imageField image (o + 1) 1 ∧ p.scheduleId = imageField image (o + 2) 1 ∧
  p.limitSetId = imageField image (o + 3) 1 ∧ p.lnom = imageField image (o + 4) 4 ∧
  p.tol = imageField image (o + 8) 2 ∧ p.holdoverLimit = imageField image (o + 10) 1 ∧
  p.allowedClose.toNat = imageField image (o + 11) 1 ∧ p.forwardSet.toNat = imageField image (o + 12) 1 % 16 ∧
  p.watchProfile =
    (if imageField image (o + 13) 1 = 255 then none else some (imageField image (o + 13) 1)) ∧
  p.watchInterval = imageField image (o + 14) 2 ∧ p.chainWakeTime = imageField image (o + 16) 1 ∧
  p.reportEvery = imageField image (o + 17) 1

/-- Every table read from the place its directory entry gives, the schedules and limit sets in directory order. -/
def WorkingTables.LaidOut (t : WorkingTables) (image : List Byte) (dir : List DirEntry) : Prop :=
  (∀ e ∈ dir, e.kind = 0 → t.modules.modules.length = e.count ∧ t.modules.LaidOut image e.offset) ∧
  List.Forall₂
    (fun e x => x.length = e.count ∧
      ∀ (i : Nat) (y : ScheduleEntry), x[i]? = some y → y.LaidOut image (e.offset + 7 * i))
    (dir.filter fun e => e.kind = 1) t.schedules ∧
  List.Forall₂
    (fun e x => x.length = e.count ∧
      ∀ (i : Nat) (y : LimitEntry), x[i]? = some y → y.LaidOut image (e.offset + 17 * i))
    (dir.filter fun e => e.kind = 2) t.limitSets ∧
  (∀ e ∈ dir, e.kind = 3 → t.sequence.sequences.length = e.count ∧ t.sequence.LaidOut image e.offset) ∧
  ∀ e ∈ dir, e.kind = 4 →
    t.profiles.length = e.count ∧
      ∀ (i : Nat) (p : ProfileRecord), t.profiles[i]? = some p → p.LaidOut image (e.offset + 18 * i)

/-! ### SYNC arrivals (R25) -/

/-- These bytes, completing now, are a SYNC that reaches the lock with this stamp: the count at the end of its
delimiter minus the sync delay. -/
def State.syncArrives (s : State) (bytes : List Byte) (stamp : Stamp) : Prop :=
  s.power = ⟨true, false⟩ ∧ s.tablesLoaded = true ∧
    ∃ d f, s.north.receiver = .assembling d false ∧ acceptNorthFrame bytes = some f ∧ f.kind = .sync ∧
      stamp = d - BitVec.ofNat 32 s.syncDelay

/-! ### Trips (R85, R88) -/

/-- The entry with index `i` of the working limit set is `e`, and a round with these entries trips it: it was not TRIPPED
and is now. -/
def State.tripsIn (s : State) (entries : List RoundEntry) (i : Nat) (e : LimitEntry) : Prop :=
  ∃ x, s.limitSet[i]? = some e ∧ s.limits.runStates[i]? = some x ∧ x.level ≠ .tripped ∧
    (e.evaluate (s.channelsWithData e entries) x).level = .tripped

/-! ### Commits (R146 to R149) -/

/-- The state in which a commit finds the lock and the sequencer (R48, R146, R147): the new chain, the run states and
counters that come into force, nothing due, held or waiting, and the round in assembly marked. -/
def State.recast (s : State) (chain : List ChainElement) (context : SavedContext) : State :=
  ((s.withProfiles ⟨chain⟩).withLimits { s.limits with runStates := context.runStates }).withSched
    ⟨context.counters, [], [], none, s.sched.assembly.map fun r => { r with commitMark := true }⟩

/-- Fresh run states and counters for the active profile of a chain (R43, R96). -/
def State.freshFor (s : State) (chain : List ChainElement) : SavedContext :=
  let u := s.withProfiles ⟨chain⟩
  ⟨u.limitSet.map fun _ => ⟨.clear, 0, none⟩, u.activeSchedule.map fun _ => 0⟩

/-- The lock is lost (R31, R36): UNLOCKED with L_est kept, nothing due, and an orderly open with cause UNLOCK. -/
def State.unlocked (s : State) : State :=
  ((s.withLock ⟨.unlocked, none, s.lock.lEst, 0, 0⟩).withSched
    { s.sched with due := [], held := [], waiting := none }).orderlyOpen .unlock

/-- What every commit leaves (R48, R146): no entry is due, held or waiting; the round in assembly, if there is one, is
marked and otherwise as it was; nothing changes but the blocks of a commit, and the command taken with it. -/
def State.committed (t s : State) : Prop :=
  t.sched.due = [] ∧ t.sched.held = [] ∧ t.sched.waiting = none ∧
  t.sched.assembly = s.sched.assembly.map (fun r => { r with commitMark := true }) ∧
  t.north = s.popCommand.north ∧ Touches (.north :: Block.commit) s t

/-- A commit that makes a profile active with fresh state (R43, R96). -/
def State.freshlyCommitted (t s : State) : Prop :=
  t.committed s ∧ (∀ r ∈ t.limits.runStates, r = ⟨.clear, 0, none⟩) ∧ (∀ n ∈ t.sched.counters, n = 0) ∧
  t.limits.runStates.length = t.limitSet.length ∧ t.sched.counters.length = t.activeSchedule.length

/-! ### Waking (R161, R164) -/

/-- The part after a cause that wakes it from ASLEEP while the chain sleeps and its link is free: the cause is recorded
and is the first, the power state is WAKING, the watch timer stops, the current port is powered with nothing in its
ring, and CHAIN_WAKE is being sent. -/
def State.woken (s : State) (c : WakeCause) : State :=
  ((s.withSleep
    { s.sleep with
      power := .waking, watchTimer := none, wakeCauses := s.sleep.wakeCauses.add c, firstCause := some c }).withCurrent
    { s.current with ring := [], stream := .absent, streamTimer := none, portOn := true }).withChain
    { s.chain with sleepClaim := none, transaction := some ⟨.chainWake false, .sending⟩ }

end Sys2Proof.Machine
end

