-- ==== Sys2Proof/Certificates/Slice0/Obligations.lean ====
section
/-!
DEFINITION. The statements for the provers: what a step, a command and a passing microtick do, by the numbered rules
of the manual, chapter by chapter, and what holds in every state.
-/

open Sys2Proof Sys2Proof.Machine

/-! ### The step -/

/-- A step with a command in front is that command's effect on the rest. -/
def Obligations.StepTakesFrontCommand : Prop :=
  ∀ (c : Instr) (s : State), step (s.withPending (c :: s.pending)) = exec c s

/-- On an empty queue one microtick goes by (log 1): the count advances by one modulo 2^32, is held while RST_N is low,
and without power nothing changes at all. Every running timer runs down by one and stands at 0 once it has run out: the
reply timeout and the wait for the modules (R15, R16), the stream timer and the align wait (R67, R71), the step timer,
the defer timer, the pull-in timers, no-current intervals and debounces of the sequencer (R100 to R102, R107, R114), the
watch timer, the chain wake timer and the hold interval (R158, R162, R164), the TAMPER debounce (R180), and the array's
operation (R167), which alone goes on while RST_N is low; the pack reference grows older, up to 65,535 ms (R76). Waiting
is additive (log 1): no event is lost between two spans of time. -/
def Obligations.WaitingPassesTime : Prop :=
  (∀ s : State, s.pending = [] →
    ∃ t, step s = .next t ∧ t.pending = [] ∧
      (s.power = ⟨true, false⟩ → t.now = s.now + 1) ∧
      (s.power = ⟨true, true⟩ → t.now = s.now) ∧
      (let down : Option Nat → Option Nat := Option.map (· - 1)
       let operation := s.tables.operation.map fun o => { o with remaining := o.remaining - 1 }
       (s.power = ⟨true, true⟩ → t = s.withTables { s.tables with operation := operation }) ∧
       (s.power = ⟨true, false⟩ →
         t.chain =
           { s.chain with
             transaction := s.chain.transaction.map fun x =>
               match x.phase with
               | .awaiting left => { x with phase := .awaiting (left - 1) }
               | .sending | .receiving => x
             enumeration := match s.chain.enumeration with
               | .running wait => .running (down wait)
               | .notBegun => .notBegun
               | .ended => .ended } ∧
         t.current =
           { s.current with
             streamTimer := down s.current.streamTimer
             alignWait := down s.current.alignWait
             reference := s.current.reference.map fun x => { x with elapsed := min 65535000 (x.elapsed + 1) } } ∧
         (∀ c,
           t.seq.coils.get c =
             { s.seq.coils.get c with
               pullInTimer := down (s.seq.coils.get c).pullInTimer
               noCurrent := down (s.seq.coils.get c).noCurrent } ∧
           t.seq.feedback.get c =
             { s.seq.feedback.get c with interval := down (s.seq.feedback.get c).interval }) ∧
         t.seq =
           { s.seq with
             stepTimer := down s.seq.stepTimer
             deferTimer := down s.seq.deferTimer
             coils := t.seq.coils
             feedback := t.seq.feedback } ∧
         t.sleep =
           { s.sleep with
             watchTimer := down s.sleep.watchTimer
             chainWakeTimer := down s.sleep.chainWakeTimer
             holdInterval := down s.sleep.holdInterval } ∧
         t.tables =
           { s.tables with
             operation := operation
             tamper := { s.tables.tamper with interval := down s.tables.tamper.interval } } ∧
         t.timebase = { s.timebase with microtick := s.now + 1 } ∧
         Touches [.timebase, .chain, .current, .seq, .sleep, .tables] s t)) ∧
      (s.power.powered = false → t = s)) ∧
  (∀ (m n : Nat) (s : State), elapse n (elapse m s) = elapse (m + n) s)

/-- Every command answers a next state, whatever the state; it touches only its own blocks; the queue of commands stays
as it is. -/
def Obligations.EveryCommandCompletesInItsBlocks : Prop :=
  ∀ (i : Instr) (s : State), ∃ t, exec i s = .next t ∧ Touches (blocksOf i) s t ∧ t.pending = s.pending

/-! ### Power and resets (R1, R21, R22, R38, R62, R68, R98, R123, R134, R151, R166, R184) -/

/-- The state after the first power-on reset, where the manual gives it: every volatile block blank, the event queue
empty, the found count 0 and the trim list empty, the engine IDLE, and the array as the part leaves the factory. The
invariants below hold at reset. That no frame is in reception on the chain link then is the model's choice (log 3). -/
def Obligations.ResetStateAndInvariants : Prop :=
  (State.reset.blank State.reset.north.rate ∧ State.reset.chain.unasked = false ∧
  State.reset.events = ⟨[], false⟩ ∧ State.reset.chain.foundCount = 0 ∧
  State.reset.chain.trims = List.replicate 20 none ∧
  State.reset.tables.engine = .idle ∧ State.reset.tables.failureCount = 0 ∧
  State.reset.tables.tamperLatch = false ∧ State.reset.tables.tamperErase = none ∧
  State.reset.tables.slotPointer = .zero ∧ State.reset.tables.counter = 0 ∧
  (∀ a, Memory.read State.reset.tables.array a = 0xFF) ∧ State.reset.pending = []) ∧
  (CoilsSafe State.reset ∧ ArraySafe State.reset ∧ CapacitiesHold State.reset ∧ OverflowMeansFull State.reset ∧
    RingSafe State.reset ∧ ChainSafe State.reset)

/-- R1: the straps give the rate at power-on reset and when RST_N goes high; no other command changes it; the status
block does not show it. -/
def Obligations.LinkRateFollowsTheStraps : Prop :=
  (∀ (lr1 lr0 : Bool) (s : State), ∃ t, exec (.powerOnReset ⟨lr1, lr0⟩) s = .next t ∧
    t.north.rate =
      (match lr1, lr0 with
       | false, false => LinkRate.mbit1
       | false, true => LinkRate.mbit2
       | true, false => LinkRate.mbit4
       | true, true => LinkRate.mbit8)) ∧
  (∀ (lr1 lr0 : Bool) (s : State), s.power = ⟨true, true⟩ → ∃ t, exec (.rstNHigh ⟨lr1, lr0⟩) s = .next t ∧
    t.north.rate =
      (match lr1, lr0 with
       | false, false => LinkRate.mbit1
       | false, true => LinkRate.mbit2
       | true, false => LinkRate.mbit4
       | true, true => LinkRate.mbit8)) ∧
  (∀ (i : Instr) (s t : State), (∀ straps, i ≠ .powerOnReset straps) → (∀ straps, i ≠ .rstNHigh straps) →
    exec i s = .next t → t.north.rate = s.north.rate) ∧
  (∀ (s : State) (r : LinkRate), (s.withNorth { s.north with rate := r }).statusBlock = s.statusBlock)

/-- Power-on reset, from any state in which no operation of the array is in flight: every volatile block is blank, the
event queue, trim list and found count are empty, the engine is IDLE with no failure, latch or tamper erase; the array,
the slot pointer, the counter and the update secret are kept; unless RST_N holds the part in reset, the debounces of the
feedback inputs that read CLOSED run for 15 ms and that of an active TAMPER for 10 ms from now (R102, R184), and the
inputs, WAKE_IN among them, keep their levels; a reply in reception is one that no transaction takes any more (R21, R15;
log 45); that the load result is NO_TABLES(FORMAT) and the chain sleep state ASLEEP before start-up has found them is
the model's choice (log 3). A power loss with an operation of the array in flight (R167, R168, R179): no coil stays
driven; a byte outside the block being erased or the bytes being programmed reads as before; the old slot stays active;
the counter holds its old value, or, in a counter write that start-up loading began, the old value or the new one whole
(which of them is a free value, log 9). -/
def Obligations.PowerOnAndPowerLoss : Prop :=
  (∀ (straps : Straps) (s : State), s.tables.operation = none →
    ∃ t, exec (.powerOnReset straps) s = .next t ∧ t.blank (strapRate straps) ∧
      t.power = ⟨true, s.power.rstNLow⟩ ∧ t.events = ⟨[], false⟩ ∧ t.chain.foundCount = 0 ∧
      t.chain.trims = List.replicate 20 none ∧ t.chain.enumeration = .notBegun ∧ t.tables.engine = .idle ∧
      t.tables.failureCount = 0 ∧ t.tables.tamperLatch = false ∧ t.tables.tamperErase = none ∧
      t.tables.startUp = .waiting ∧ t.tables.array = s.tables.array ∧
      t.tables.slotPointer = s.tables.slotPointer ∧ t.tables.counter = s.tables.counter ∧
      t.tables.secret = s.tables.secret ∧ t.tables.operation = none ∧ t.tables.loadResult = .noTables .format ∧
      t.sleep.wakeInHigh = s.sleep.wakeInHigh ∧ t.sleep.chainSleep = .asleep ∧ t.freeIndex = s.freeIndex ∧
      t.pending = s.pending ∧
      (t.chain.unasked = true ↔ s.chain.unasked = true ∨ ∃ f, s.chain.transaction = some ⟨f, .receiving⟩) ∧
      (let run (level : Bool) (time : Nat) : DebouncedInput :=
         ⟨level, false, if level = true ∧ s.power.rstNLow = false then some time else none⟩
       (∀ c, t.seq.feedback.get c = run (s.seq.feedback.get c).raw 15000 ∧
         (t.seq.coils.get c).sense = (s.seq.coils.get c).sense) ∧
       t.tables.tamper = run s.tables.tamper.raw 10000)) ∧
  (∀ s : State, s.power.powered = true → ArraySafe s →
    ∃ t, exec .powerLoss s = .next t ∧ t.power.powered = false ∧ t.noCoilDriven = true ∧ t.tables.operation = none ∧
      t.chain.transaction = none ∧
      (t.chain.unasked = true ↔ s.chain.unasked = true ∨ ∃ f, s.chain.transaction = some ⟨f, .receiving⟩) ∧
      (∀ a, (∀ block tamper left, s.tables.operation = some ⟨.erase block tamper, left⟩ →
              ¬ (block * 2048 ≤ a ∧ a < block * 2048 + 2048)) →
            (∀ address bytes left, s.tables.operation = some ⟨.program address bytes, left⟩ →
              ¬ (address ≤ a ∧ a < address + bytes.length)) →
            Memory.read t.tables.array a = Memory.read s.tables.array a) ∧
      t.tables.slotPointer = s.tables.slotPointer ∧
      ((∀ v left, s.tables.operation ≠ some ⟨.counterWrite v true, left⟩) → t.tables.counter = s.tables.counter) ∧
      (t.tables.counter = s.tables.counter ∨
        ∃ left, s.tables.operation = some ⟨.counterWrite t.tables.counter true, left⟩))

/-- RST_N going low and high again (R21, R22, R38, R62, R68, R98, R123, R134, R151, R166, R167, R184; log 5). Low, with
power: every volatile block is blank; a reply in reception is one that no transaction takes any more (R15; log 45); the
found count and (log 21) the chain sleep state are kept, the event queue and the trim list are emptied, no debounce
runs; of the table store everything is kept, the load result too (log 29), but that the engine is IDLE or LOCKED, the
last verification NONE, every mark set, no table loaded, and start-up waits to load; a tamper latch set during
ACTIVATING leaves the engine LOCKED(TAMPER) with the erase to begin at block 0. High: the straps are read, the debounces
of the feedback inputs and of TAMPER run from now where a reading differs, and nothing else changes. A level the line
already has changes nothing, and without power only the level changes (log 17). -/
def Obligations.ResetLineClears : Prop :=
  (∀ s : State, s.power = ⟨true, false⟩ →
    ∃ t, exec .rstNLow s = .next t ∧ t.blank s.north.rate ∧ t.power = ⟨true, true⟩ ∧
      t.events = ⟨[], false⟩ ∧ t.chain.foundCount = s.chain.foundCount ∧
      (t.chain.unasked = true ↔ s.chain.unasked = true ∨ ∃ f, s.chain.transaction = some ⟨f, .receiving⟩) ∧
      t.chain.trims = List.replicate 20 none ∧ t.sleep.chainSleep = s.sleep.chainSleep ∧
      t.sleep.wakeInHigh = s.sleep.wakeInHigh ∧
      (∀ c, (t.seq.coils.get c).sense = (s.seq.coils.get c).sense ∧
        t.seq.feedback.get c = ⟨(s.seq.feedback.get c).raw, false, none⟩) ∧
      t.tables =
        { s.tables with
          engine := match s.tables.engine with
            | .locked cause => .locked cause
            | .activating => if s.tables.tamperLatch then .locked .tamper else .idle
            | .idle | .erasing | .programming | .verifying | .verified => .idle
          lastVerification := .none
          marks := allMarks
          tamperErase :=
            if s.tables.engine = .activating ∧ s.tables.tamperLatch = true then some 0 else s.tables.tamperErase
          tamper := ⟨s.tables.tamper.raw, s.tables.tamper.debounced, none⟩
          startUp := .waiting
          working := none } ∧
      t.freeIndex = s.freeIndex ∧ t.pending = s.pending) ∧
  (∀ (straps : Straps) (s : State), s.power = ⟨true, true⟩ →
    let run (d : DebouncedInput) (time : Nat) : DebouncedInput :=
      ⟨d.raw, d.debounced, if d.raw = d.debounced then none else some time⟩
    exec (.rstNHigh straps) s =
      .next ((((s.withPower ⟨true, false⟩).withNorth { s.north with rate := strapRate straps }).withSeq
        { s.seq with
          feedback := ⟨run s.seq.feedback.mneg 15000, run s.seq.feedback.mpos 15000, run s.seq.feedback.pre 15000,
            run s.seq.feedback.chg 15000⟩ }).withTables
        { s.tables with tamper := run s.tables.tamper 10000 })) ∧
  (∀ (straps : Straps) (s : State),
    (s.power.rstNLow = true → exec .rstNLow s = .next s) ∧
    (s.power.rstNLow = false → exec (.rstNHigh straps) s = .next s) ∧
    (s.power = ⟨false, false⟩ → exec .rstNLow s = .next (s.withPower ⟨false, true⟩)) ∧
    (s.power = ⟨false, true⟩ → exec (.rstNHigh straps) s = .next (s.withPower ⟨false, false⟩)))

/-- The in-band restart begins once the reply has gone out and nothing waits (R13, R21, R38, R62, R68, R98, R123, R134,
R151, R166, R167, R184; R102): every volatile block is blank but that the rate, the trims, the found count, the event
queue and (log 21) the chain sleep state are kept, and a frame in reception that no transaction takes goes on (R15,
log 45); the debounce of every feedback input that reads CLOSED runs for 15 ms from now, and the TAMPER debounce
goes on; of the table store everything is kept, the load result too (log 29), but that the engine is IDLE or LOCKED, the
last verification NONE, every mark set, no table loaded, and start-up waits to load; a tamper latch set during
ACTIVATING leaves the engine LOCKED(TAMPER) with the erase to begin at block 0. R13, R48: RESTART answers OK, empties
the command list without replies, cancels the due entries and is remembered; nothing else changes. -/
def Obligations.RestartIsTakenAndBegins : Prop :=
  (∀ s : State, s.power = ⟨true, false⟩ → s.north.restartTaken = true → s.chain.transaction = none →
    s.north.holding = none → s.chain.keptReplies = [] → s.north.tx = [] →
    ∃ t, exec .restartBegin s = .next t ∧ t.blank s.north.rate ∧ t.events = s.events ∧
      t.chain.foundCount = s.chain.foundCount ∧ t.chain.trims = s.chain.trims ∧ t.chain.unasked = s.chain.unasked ∧
      t.sleep.chainSleep = s.sleep.chainSleep ∧ t.sleep.wakeInHigh = s.sleep.wakeInHigh ∧ t.power = s.power ∧
      (∀ c, (t.seq.coils.get c).sense = (s.seq.coils.get c).sense ∧
        t.seq.feedback.get c =
          let reads := (s.seq.feedback.get c).raw
          ⟨reads, false, if reads = true then some 15000 else none⟩) ∧
      t.tables =
        { s.tables with
          engine := match s.tables.engine with
            | .locked cause => .locked cause
            | .activating => if s.tables.tamperLatch then .locked .tamper else .idle
            | .idle | .erasing | .programming | .verifying | .verified => .idle
          lastVerification := .none
          marks := allMarks
          tamperErase :=
            if s.tables.engine = .activating ∧ s.tables.tamperLatch = true then some 0 else s.tables.tamperErase
          startUp := .waiting
          working := none } ∧
      t.freeIndex = s.freeIndex ∧ t.pending = s.pending) ∧
  (∀ (s : State) (c : Command), s.takeable .restart = some c → argNone c.payload.tail = some () →
    exec .restart s =
      .next (((s.withNorth { s.north with commands := [], restartTaken := true }).withSched
        { s.sched with due := [], held := [], waiting := none }).reply c (.plain .ok)))

/-! ### Start-up loading and enumeration (R16, R17, R182) -/

/-- Loading begins when no operation of the array is in flight (R182): every mark is set; a slot that fails a check and
a sound image of the counter's version change nothing else; a sound image with a version above the counter completes
an activation, so the trims are emptied and the counter write begins (at this command, log 18). Loading ends (R16,
R182, R183): with the reason of the first failing check (in the order that VerificationEnds unfolds, the version check
being that the version is not less than the counter) and no tables, or with the tables of the active slot, the
trims in place of the fine adjusts, the chain [base] and fresh counters and run states; in both cases the decoder may
take commands from now on, CHAIN_WAKE is sent for enumeration, a tamper erase goes on (R181, R184), and nothing else
changes: a feedback debounce that runs keeps its 15 ms (log 12). -/
def Obligations.StartUpLoading : Prop :=
  (∀ s : State, s.power = ⟨true, false⟩ → s.tables.startUp = .waiting → s.tables.operation = none →
    let s1 := s.withTables { s.tables with startUp := .checking, marks := allMarks }
    (∀ r, s.checkActive = .error r → exec .startUpLoading s = .next s1) ∧
    (∀ w, s.checkActive = .ok w → ¬ s.tables.counter < w.version → exec .startUpLoading s = .next s1) ∧
    (∀ w, s.checkActive = .ok w → s.tables.counter < w.version →
      exec .startUpLoading s =
        .next ((s.withChain { s.chain with trims := List.replicate 20 none }).withTables
          { s.tables with
            startUp := .checking
            marks := allMarks
            operation := some ⟨.counterWrite w.version true, 5000⟩ }))) ∧
  (∀ s : State, s.power = ⟨true, false⟩ → s.tables.startUp = .checking → s.counterWriting = false →
    let resumed : Option ArrayOperation :=
      match s.tables.operation, s.tables.tamperErase with
      | none, some b =>
        if s.tables.engine = .locked .tamper then some ⟨.erase (s.stagingSlot.firstBlock + b) true, 20000⟩ else none
      | o, _ => o
    ∃ t, exec .startUpLoadingEnd s = .next t ∧
      t.chain = { s.chain with enumeration := .running none, transaction := some ⟨.chainWake true, .sending⟩ } ∧
      (∀ r, s.checkActive = .error r →
        t.tables =
          { s.tables with loadResult := .noTables r, working := none, startUp := .ended, operation := resumed } ∧
        Touches [.chain, .tables] s t) ∧
      (∀ w, s.checkActive = .ok w →
        t.tables =
          { s.tables with
            loadResult := .loaded
            working := some (w.withModules (applyTrims w.modules.modules s.chain.trims))
            startUp := .ended
            operation := resumed } ∧
        (∀ p, w.profiles.find? (·.base) = some p →
          t.profiles.chain = [⟨p.id, .start, none⟩] ∧ t.lock = ⟨.unlocked, none, p.lnom, 0, 0⟩ ∧
          t.limits = { s.limits with runStates := t.limitSet.map fun _ => ⟨.clear, 0, none⟩ } ∧
          t.sched = { s.sched with counters := t.activeSchedule.map fun _ => 0 }) ∧
        (∀ n ∈ t.sched.counters, n = 0) ∧ (∀ r ∈ t.limits.runStates, r = ⟨.clear, 0, none⟩) ∧
        Touches [.chain, .lock, .sched, .limits, .profiles, .tables] s t)) ∧
  (∀ s : State, s.checkActive =
    checkImage s.tables.secret s.tables.array s.tables.slotPointer fun v => decide (s.tables.counter ≤ v))

/-- Enumeration (R16, R17): after the 5 ms wait ENUMERATE is sent; a count frame received whole gives the found count,
saturated at 31; a bad reply and no reply give 0; with tables loaded CHAIN_MISMATCH is set exactly when the found
count is not the module count, and with none the sticky flags stay as they are. -/
def Obligations.Enumeration : Prop :=
  (∀ s : State, s.power = ⟨true, false⟩ → s.chain.enumeration = .running (some 0) →
    exec .chainWakeWaitExpiry s =
      .next (s.withChain { s.chain with enumeration := .running none, transaction := some ⟨.enumerate, .sending⟩ })) ∧
  (∀ (s : State) (rx : ChainRx) (n : Nat), s.power = ⟨true, false⟩ → s.chain.sleepClaim = none →
    s.chain.transaction = some ⟨.enumerate, .receiving⟩ → rx.truncated = false → crcRight rx.bytes = true →
    rx.content = .count n →
    exec (.chainFrameReceived rx) s = .next (s.enumeratedWith (min 31 n))) ∧
  (∀ (s : State) (rx : ChainRx), s.power = ⟨true, false⟩ → s.chain.sleepClaim = none →
    s.chain.transaction = some ⟨.enumerate, .receiving⟩ → (rx.truncated = true ∨ crcRight rx.bytes = false) →
    exec (.chainFrameReceived rx) s = .next (s.enumeratedWith 0)) ∧
  (∀ s : State, s.power = ⟨true, false⟩ → s.chain.sleepClaim = none →
    s.chain.transaction = some ⟨.enumerate, .awaiting 0⟩ →
    exec .chainReplyTimeout s = .next (s.enumeratedWith 0))

/-! ### North link frames (R2 to R6, R18) -/

/-- R186: the 16-bit code byte by byte, sent low byte first. R3: of a frame whose CRC is right, which kinds,
destinations and payload lengths the port accepts, with the fields it reads; a frame whose CRC is wrong is never
accepted. -/
def Obligations.AcceptedFrames : Prop :=
  (crc16 [] = 0xFFFF ∧
    (∀ (bytes : List Byte) (b : Byte),
      crc16 (bytes ++ [b]) =
        Nat.iterate (fun c : BitVec 16 => if c.getLsbD 15 = true then (c <<< 1) ^^^ 0x1021 else c <<< 1) 8
          (crc16 bytes ^^^ (b.setWidth 16 <<< 8))) ∧
    ∀ bytes : List Byte, crc16Bytes bytes = littleEndian 2 (crc16 bytes).toNat) ∧
  ∀ (b0 b1 b2 b3 : Byte) (payload : List Byte), payload.length = b2.toNat →
    (∀ crc : List Byte, crc.length = 2 → crc ≠ crc16Bytes (b0 :: b1 :: b2 :: b3 :: payload) →
      acceptNorthFrame (b0 :: b1 :: b2 :: b3 :: (payload ++ crc)) = none) ∧
    acceptNorthFrame (b0 :: b1 :: b2 :: b3 :: (payload ++ crc16Bytes (b0 :: b1 :: b2 :: b3 :: payload))) =
      (let dest := b0.toNat % 32
       let kind := b1.toNat % 16
       let f (k : FrameKind) : NorthFrame := ⟨b0.extractLsb' 0 5, k, b1.extractLsb' 4 4, payload⟩
       if kind = 0 ∧ b2 = 0 then some (f .sync)
       else if kind = 1 ∧ dest = 0 ∧ b2 ≠ 0 then some (f .cmd)
       else if kind = 3 ∧ b2 ≠ 0 ∧ (1 ≤ dest ∧ dest ≤ 20 ∨ dest = 31) then some (f .fwd)
       else none)

/-- A frame the port accepts is read back from its bytes, whatever its destination, tag and payload. -/
def Obligations.NorthFrameRoundTrip : Prop :=
  ∀ f : NorthFrame, f.permitted = true → f.payload.length ≤ 255 → acceptNorthFrame f.bytes = some f

/-- Frames in assembly (R2, R3): a start delimiter, awake, begins a frame with the present count, and an idle line ends
assembly; both set LINK_ERROR exactly when they break off a frame begun awake. A complete frame that is not accepted
(bytes that are no frame among them: the model's choice, log 22) sets LINK_ERROR; one begun in deep sleep is dropped
without it. Nothing else changes. A CMD frame (R4, R6, R165): it joins a command list of fewer than 4, and is dropped
with LINK_ERROR at 4; WAKE_OUT is deasserted in ACTIVE, also by a frame that finds the list full (the model's reading,
log 27); nothing else changes. -/
def Obligations.FramesAreDiscardedOrJoinTheList : Prop :=
  ((∀ s : State, s.power = ⟨true, false⟩ → s.deepSleep = false →
    exec .startDelimiter s =
      .next (s.withNorth
        { s.north with
          receiver := .assembling s.now false
          sticky := { s.north.sticky with linkError := s.north.sticky.linkError || s.north.receiver.assemblingAwake } })) ∧
  (∀ s : State, s.power = ⟨true, false⟩ →
    exec .receiveIdleTimeout s =
      .next (s.withNorth
        { s.north with
          receiver := .idle
          sticky := { s.north.sticky with linkError := s.north.sticky.linkError || s.north.receiver.assemblingAwake } })) ∧
  (∀ (s : State) (d : Stamp) (bytes : List Byte), s.power = ⟨true, false⟩ → s.north.receiver = .assembling d false →
    acceptNorthFrame bytes = none →
    exec (.northFrameComplete bytes) s =
      .next (s.withNorth { s.north with receiver := .idle, sticky := { s.north.sticky with linkError := true } })) ∧
  (∀ (s : State) (d : Stamp) (bytes : List Byte), s.power = ⟨true, false⟩ → s.north.receiver = .assembling d true →
    exec (.northFrameComplete bytes) s = .next (s.withNorth { s.north with receiver := .idle }))) ∧
  (∀ (s : State) (d : Stamp) (bytes : List Byte) (f : NorthFrame), s.power = ⟨true, false⟩ →
    s.north.receiver = .assembling d false → acceptNorthFrame bytes = some f → f.kind = .cmd →
    exec (.northFrameComplete bytes) s =
      .next ((s.withNorth
        (if s.north.commands.length < 4 then
          { s.north with receiver := .idle, commands := s.north.commands ++ [⟨f.tag, f.payload⟩] }
         else { s.north with receiver := .idle, sticky := { s.north.sticky with linkError := true } })).withSleep
        { s.sleep with wakeOut := s.sleep.wakeOut && !(s.sleep.power == .active) }))

/-- A FWD frame (R18): the checks in order, the FWD_REPLY of a refusal with the frame's tag and destination (kept in the
holding place while the filter may add no frame to the transmit queue), the tail of the forward queue, and LINK_ERROR
while the holding place is occupied; nothing else changes. The classes of module commands (R18). -/
def Obligations.ForwardFilterDecides : Prop :=
  (∀ (s : State) (d : Stamp) (bytes : List Byte) (f : NorthFrame), s.power = ⟨true, false⟩ →
    s.north.receiver = .assembling d false → acceptNorthFrame bytes = some f → f.kind = .fwd →
    (s.north.holding ≠ none →
      exec (.northFrameComplete bytes) s =
        .next (s.withNorth { s.north with receiver := .idle, sticky := { s.north.sticky with linkError := true } })) ∧
    (s.north.holding = none →
      exec (.northFrameComplete bytes) s =
        (let refused (st : FwdStatus) : Host.Outcome State Fault Refusal :=
          if s.mayAdd .filter = true then
            .next ((s.withNorth { s.north with receiver := .idle }).enqueueTx .filter (fwdReply f.dest f.tag st []))
          else .next (s.withNorth { s.north with receiver := .idle, holding := some (fwdReply f.dest f.tag st []) })
         if s.north.restartTaken = true ∨ s.sleep.power = .sleepPending then refused .busy
         else if s.tablesLoaded = false then refused .notAllowed
         else if s.permits (fwdClassOf (f.payload.headD 0)) = false then refused .blocked
         else if 4 ≤ s.chain.forwardQueue.length then refused .queueFull
         else
          .next ((s.withNorth { s.north with receiver := .idle }).withChain
            { s.chain with
              forwardQueue := s.chain.forwardQueue ++
                [⟨f.dest, f.tag, fwdClassOf (f.payload.headD 0), f.payload⟩] })))) ∧
  (∀ code : Byte, fwdClassOf code =
    (if code.toNat < 0x40 then .read else if code.toNat < 0x80 then .balance
     else if code.toNat < 0xC0 then .config else .diag))

/-- The transmit queue (R5, R18, R19): the frame at its head leaves when it has been sent; a producer may add a frame to
its tail when it holds fewer than 8 and the place is not another's; the filter's reply and the oldest reply the chain
port keeps (log 25) join it then and only then, and otherwise their rows change nothing (log 2). R5: when a frame of a
full queue has been sent, each producer that waited may take the place; once one has, the next free place is the
other's, and not that producer's (who counts as waiting: log 34). -/
def Obligations.TransmitQueueIsFirstInFirstOut : Prop :=
  (∀ s : State, s.power = ⟨true, false⟩ →
    exec .northFrameSent s = .next (s.withNorth { s.north with tx := s.north.tx.tail, claims := s.nextClaims })) ∧
  (∀ (s : State) (p : Producer),
    (s.mayAdd p = true ↔ s.north.tx.length < 8 ∧ ((∀ q ∈ s.north.claims, s.waits q = false) ∨
      p ∈ s.north.claims ∧ s.waits p = true)) ∧
    (∀ f, s.enqueueTx p f =
      s.withNorth { s.north with tx := s.north.tx ++ [f], claims := s.north.claims.filter fun q => !(q == p) }) ∧
    (s.waits .filter = s.north.holding.isSome ∧ s.waits .chainPort = !s.chain.keptReplies.isEmpty ∧
      (s.waits .decoder = true ↔ s.power = ⟨true, false⟩ ∧ s.tables.startUp = .ended ∧ s.north.restartTaken = false ∧
        s.north.commands ≠ []))) ∧
  (∀ (s : State) (f : NorthFrame), s.power = ⟨true, false⟩ → s.north.holding = some f →
    exec .holdingPlaceReplyEnqueue s =
      .next (if s.mayAdd .filter = true then (s.withNorth { s.north with holding := none }).enqueueTx .filter f
        else s)) ∧
  (∀ (s : State) (f : NorthFrame) (rest : List NorthFrame), s.power = ⟨true, false⟩ → s.chain.keptReplies = f :: rest →
    exec .chainPortReplyEnqueue s =
      .next (if s.mayAdd .chainPort = true then
          (s.withChain { s.chain with keptReplies := rest }).enqueueTx .chainPort f
        else s)) ∧
  (∀ (s t u : State) (p q : Producer) (f : NorthFrame), s.power = ⟨true, false⟩ → p ≠ q → s.north.tx.length = 8 →
    (∀ r ∈ s.north.claims, s.waits r = false) → s.waits p = true → s.waits q = true →
    exec .northFrameSent s = .next t →
    t.mayAdd p = true ∧ t.mayAdd q = true ∧
      (u.north.claims = (t.enqueueTx p f).north.claims → u.north.tx.length < 8 → u.waits q = true →
        u.mayAdd q = true ∧ u.mayAdd p = false))

/-! ### Taking commands (R6 to R13) -/

/-- R6, R13, R182: the decoder's rows change nothing while loading has not ended, after RESTART has been taken, without
a place in the transmit queue that is the decoder's to take (R5), without power or in reset (logs 5, 17), with no
command waiting, or when the oldest command is another row's (log 4); that a row with nothing to take changes nothing is
log 2. R7: a command that is not of its form, and one whose code is no command code, is answered BAD_ARG and changes
nothing else. In every other case the row of the oldest command takes it (R6). R7, R185, section 11.3: the code of each
command, and the arguments of each form, value by value: GET_STATUS 0 or 1, CLEAR_LIMIT 0 to 23 or 0xFF, UPD_WRITE 1 to
48 bytes, a fine adjust of magnitude 0 to 7 with its sign in bit 7, a negative zero read as 0 and bits 6:4 ignored.
Which row a malformed GET_STATUS or CLEAR_LIMIT belongs to is the model's choice (log 4). -/
def Obligations.CommandsNotTakenAndMalformed : Prop :=
  (∀ (row : Instr) (s : State), row ∈ decoderRows →
    (¬ s.power = ⟨true, false⟩ ∨ s.tables.startUp ≠ .ended ∨ s.north.restartTaken = true ∨ 8 ≤ s.north.tx.length ∨
      s.mayAdd .decoder = false ∨
      s.north.commands = [] ∨ ∃ c rest, s.north.commands = c :: rest ∧ commandRow c.payload ≠ row) →
    exec row s = .next s) ∧
  (∀ (row : Instr) (s : State) (c : Command), row ∈ decoderRows → s.takeable row = some c →
    formRight row c.payload.tail = false → exec row s = s.answered c .badArg) ∧
  (∀ (row : Instr) (s : State) (c : Command) (rest : List Command), s.power = ⟨true, false⟩ →
    s.tables.startUp = .ended → s.north.restartTaken = false → s.mayAdd .decoder = true →
    s.north.commands = c :: rest → commandRow c.payload = row → s.takeable row = some c) ∧
  (let rows : List (Byte × Instr) :=
     [(0x02, .readTable), (0x03, .setTrim), (0x04, .restart), (0x10, .readRound), (0x11, .releaseRound),
       (0x20, .readLimits), (0x30, .close), (0x31, .openCmd), (0x32, .fastOpen), (0x33, .clearTrip),
       (0x38, .readEvents), (0x40, .switchProfile), (0x41, .enterProfile), (0x42, .returnProfile), (0x48, .sleep),
       (0x50, .updErase), (0x51, .updWrite), (0x52, .updVerify), (0x53, .updActivate)]
   (∀ (code : Byte) (row : Instr) (args : List Byte), (code, row) ∈ rows → commandRow (code :: args) = row) ∧
   (∀ args : List Byte, commandRow (0x01 :: args) = if args = [1] then .getStatusClear else .getStatus) ∧
   (∀ args : List Byte, commandRow (0x21 :: args) = if args = [0xFF] then .clearLimitAll else .clearLimit) ∧
   (∀ (code : Byte) (args : List Byte), code ≠ 0x01 → code ≠ 0x21 → (∀ row, (code, row) ∉ rows) →
     commandRow (code :: args) = .unknownCommandCode) ∧
   commandRow [] = .unknownCommandCode) ∧
  (∀ args : List Byte,
    let one (n : Nat) : Byte := BitVec.ofNat 8 n
    (argNone args = some () ↔ args = []) ∧
    (∀ n, argClear args = some n ↔ n ≤ 1 ∧ args = [one n]) ∧
    (∀ n, argPiece args = some n ↔ n ≤ 20 ∧ args = [one n]) ∧
    (∀ n, argEntry args = some n ↔ n ≤ 23 ∧ args = [one n]) ∧
    (argAll args = some () ↔ args = [0xFF]) ∧
    (∀ n, argBelow8 args = some n ↔ n ≤ 7 ∧ args = [one n]) ∧
    (∀ n, argBlock args = some n ↔ n ≤ 255 ∧ args = [one n]) ∧
    (∀ a, argReadTable args = some a ↔
      a.kind ≤ 4 ∧ a.index ≤ 7 ∧ a.offset ≤ 65535 ∧ 1 ≤ a.length ∧ a.length ≤ 128 ∧
        args = [one a.kind, one a.index] ++ littleEndian 2 a.offset ++ [one (a.length - 1)]) ∧
    (∀ a, argSetTrim args = some a ↔
      ∃ adjust : Byte, a.module ≤ 255 ∧ args = [one a.module, adjust] ∧ adjust.toNat % 16 ≤ 7 ∧
        a.fineAdjust = (if 128 ≤ adjust.toNat then -1 else 1) * ((adjust.toNat % 16 : Nat) : Int)) ∧
    (∀ a, argUpdWrite args = some a ↔
      a.offset ≤ 65535 ∧ 1 ≤ a.data.length ∧ a.data.length ≤ 48 ∧ args = littleEndian 2 a.offset ++ a.data)) ∧
  (∀ (row : Instr) (args : List Byte),
    (row ∈ [.getStatus, .getStatusClear] → formRight row args = (argClear args).isSome) ∧
    (row = .readTable → formRight row args = (argReadTable args).isSome) ∧
    (row = .setTrim → formRight row args = (argSetTrim args).isSome) ∧
    (row = .readRound → formRight row args = (argPiece args).isSome) ∧
    (row = .clearLimit → formRight row args = (argEntry args).isSome) ∧
    (row = .clearLimitAll → formRight row args = (argAll args).isSome) ∧
    (row ∈ [.close, .readEvents, .switchProfile, .enterProfile] → formRight row args = (argBelow8 args).isSome) ∧
    (row = .updErase → formRight row args = (argBlock args).isSome) ∧
    (row = .updWrite → formRight row args = (argUpdWrite args).isSome) ∧
    (row ∈ [.restart, .releaseRound, .readLimits, .openCmd, .fastOpen, .clearTrip, .returnProfile, .sleep, .updVerify,
        .updActivate] → formRight row args = (argNone args).isSome) ∧
    (row = .unknownCommandCode → formRight row args = false))

/-- R5, R6: every command taken gets exactly one REPLY, with its tag and its code, behind the frames that already wait;
and it leaves the list. R8, R185, sections 11.2 and 11.3: the status and reason bytes of a REPLY, in front of its data;
the status byte of a FWD_REPLY, in front of the module's payload; the header bytes of a frame of each kind, its payload
and its CRC. -/
def Obligations.EveryCommandTakenIsAnsweredOnce : Prop :=
  let status : ReplyStatus → Byte
    | .ok => 0
    | .accepted => 1
    | .isPartial => 2
    | .empty => 3
    | .busy => 4
    | .refused _ => 5
    | .badArg => 6
  let reason : ReplyStatus → Byte
    | .refused r =>
      listPlace [.noTables, .notLocked, .blocked, .state, .range, .depth, .profileBusy, .notAllowed, .locked,
        .notErased] r + 1
    | .ok | .accepted | .isPartial | .empty | .busy | .badArg => 0
  (∀ (row : Instr) (s : State) (c : Command), row ∈ decoderRows → s.takeable row = some c →
    ∃ t r st data, exec row s = .next t ∧ t.north.tx = s.north.tx ++ [r] ∧ r.dest = 0 ∧ r.kind = .reply ∧
      r.tag = c.tag ∧ r.payload = [c.payload.headD 0, status st, reason st] ++ data ∧
      (row ≠ .restart ∨ formRight row c.payload.tail = false → t.north.commands = s.north.commands.tail)) ∧
  (∀ (s : State) (c : Command) (r : Reply),
    s.reply c r =
      s.enqueueTx .decoder ⟨0, .reply, c.tag, [c.payload.headD 0, status r.status, reason r.status] ++ r.data⟩ ∧
    s.popCommand = s.withNorth { s.north with commands := s.north.commands.tail } ∧
    ∀ st, s.answered c st = .next (s.popCommand.reply c ⟨st, []⟩)) ∧
  (∀ (dest : BitVec 5) (tag : BitVec 4) (st : FwdStatus) (payload : List Byte),
    fwdReply dest tag st payload =
      ⟨dest, .fwdReply, tag,
        listPlace [.ok, .blocked, .queueFull, .busy, .notAllowed, .timeout, .crcError] st :: payload⟩) ∧
  (∀ f : NorthFrame,
    let kind := [FrameKind.sync, .cmd, .reply, .fwd, .fwdReply].idxOf f.kind
    let body : List Byte :=
      [BitVec.ofNat 8 f.dest.toNat, BitVec.ofNat 8 (kind + 16 * f.tag.toNat), BitVec.ofNat 8 f.payload.length, 0] ++
        f.payload
    f.bytes = body ++ crc16Bytes body)

/-- R9, R10: GET_STATUS answers the 37 bytes of the status block and changes nothing; with the clear option it answers
the same and then clears the sticky flags, the dropped count, the wake cause set and the first wake cause. R185,
sections 11.1 and 11.3: the status block byte by byte, from the power state at offset 0 to the active image version at
offset 33. -/
def Obligations.GetStatusReadsAndClears : Prop :=
  (∀ (s : State) (c : Command) (a : Nat), s.takeable .getStatus = some c → argClear c.payload.tail = some a →
    exec .getStatus s = .next (s.popCommand.reply c ⟨.ok, s.statusBlock⟩)) ∧
  (∀ (s : State) (c : Command), s.takeable .getStatusClear = some c →
    exec .getStatusClear s =
      .next ((((s.popCommand.setSticky ⟨false, false, false, false, false, false, false⟩).withStore
        { s.store with dropped := 0 }).withSleep
        { s.sleep with wakeCauses := ⟨false, false, false, false, false⟩, firstCause := none }).reply c
          ⟨.ok, s.statusBlock⟩)) ∧
  (∀ s : State, s.statusBlock.length = 37) ∧
  (∀ s : State,
    let element (i : Nat) : List Byte :=
      match s.profiles.chain[i]? with
      | some e => [BitVec.ofNat 8 e.profile, causeByte e.cause]
      | none => [0xFF, 0xFF]
    s.statusBlock =
      [listPlace [.active, .sleepPending, .asleep, .watchRound, .waking] s.sleep.power,
        listPlace [.unlocked, .acquiring, .locked, .holdover] s.lock.state] ++
      littleEndian 4 s.lock.lEst ++
      [listPlace [.opened, .closing, .closed, .deferred, .opening, .tripped] s.seq.state,
        orAbsent (s.seq.running.map (BitVec.ofNat 8)), orAbsent (s.seq.step.map (BitVec.ofNat 8)),
        if s.seq.state = .tripped then orAbsent (s.seq.tripCause.map causeByte) else 0xFF,
        BitVec.ofNat 8 s.profiles.chain.length] ++
      element 0 ++ element 1 ++ element 2 ++ element 3 ++
      [match s.tables.engine with
        | .locked _ => 6
        | e => listPlace [.idle, .erasing, .programming, .verifying, .verified, .activating] e,
        match s.tables.engine with
        | .locked cause => listPlace [.tamper, .fails] cause
        | _ => 0xFF,
        match s.tables.lastVerification with
        | .none => 0
        | .passed => 1
        | .abandoned => 2
        | .failed reason => 0x10 + listPlace verifyReasons reason,
        BitVec.ofNat 8 s.tables.failureCount,
        match s.tables.loadResult with
        | .loaded => 0
        | .noTables reason => 1 + listPlace verifyReasons reason,
        BitVec.ofNat 8 s.store.records.length] ++
      littleEndian 2 s.store.dropped ++
      [BitVec.ofNat 8 s.events.records.length,
        setByte [s.sleep.wakeCauses.limit, s.sleep.wakeCauses.wakeIn, s.sleep.wakeCauses.link,
          s.sleep.wakeCauses.tamper, s.sleep.wakeCauses.report],
        orAbsent (s.sleep.firstCause.map (listPlace [.limit, .wakeIn, .link, .tamper, .report])),
        BitVec.ofNat 8 s.chain.foundCount,
        setByte [s.north.sticky.linkError, s.north.sticky.straySync, s.north.sticky.overrun, s.north.sticky.curOrder,
          s.north.sticky.curFault, s.north.sticky.chainMismatch, s.north.sticky.entryFailed],
        setByte [s.tables.working.isSome, s.tables.tamperLatch, s.tables.tamperErase.isSome, s.events.overflow]] ++
      littleEndian 4 (match s.tables.working with
        | some w => w.version.toNat
        | none => 0))

/-- R11: READ_TABLE answers NO_TABLES, BUSY, RANGE, the bytes asked for, or PARTIAL with the bytes that remain, in that
order, and changes nothing. R12: SET_TRIM answers NO_TABLES, BUSY or RANGE in that order, or sets the position's trim
and its working fine adjust and answers OK; nothing else changes. The byte count is sent plain (the model's choice, log
38). R11, R185, section 11.6: the bytes of each working table, kind by kind and byte by byte, in the order of the codes
MODULE, SCHEDULE, LIMIT_SET, SEQUENCE and PROFILE; the codes of the WAKE_IN mode, HIGH 0, LOW 1, RISING 2 and FALLING 3,
are the model's choice (log 11), since R185 lists none; the steps' unused bytes are 0 (log 35), the ENTER target of an
entry without ENTER is sent as it was loaded (the model's choice, log 47), and H is sent plain (the model's choice, log
38). -/
def Obligations.WorkingTableCommands : Prop :=
  (∀ (s : State) (c : Command) (a : ReadTableArgs), s.takeable .readTable = some c →
    argReadTable c.payload.tail = some a →
    (s.tables.working = none → exec .readTable s = s.answered c (.refused .noTables)) ∧
    (∀ w, s.tables.working = some w →
      (s.tables.engine = .activating → exec .readTable s = s.answered c .busy) ∧
      (s.tables.engine ≠ .activating →
        (w.table a.kind a.index = none → exec .readTable s = s.answered c (.refused .range)) ∧
        (∀ bytes, w.table a.kind a.index = some bytes →
          (bytes.length ≤ a.offset → exec .readTable s = s.answered c (.refused .range)) ∧
          (a.offset < bytes.length →
            exec .readTable s =
              .next (s.popCommand.reply c
                ⟨if a.offset + a.length ≤ bytes.length then .ok else .isPartial,
                  byte (min a.length (bytes.length - a.offset)) :: (bytes.drop a.offset).take a.length⟩)))))) ∧
  (∀ (s : State) (c : Command) (a : SetTrimArgs), s.takeable .setTrim = some c → argSetTrim c.payload.tail = some a →
    (s.tables.working = none → exec .setTrim s = s.answered c (.refused .noTables)) ∧
    (∀ w, s.tables.working = some w →
      (s.tables.engine = .activating → exec .setTrim s = s.answered c .busy) ∧
      (s.tables.engine ≠ .activating →
        (¬ (1 ≤ a.module ∧ a.module ≤ w.modules.modules.length) →
          exec .setTrim s = s.answered c (.refused .range)) ∧
        (1 ≤ a.module → a.module ≤ w.modules.modules.length →
          exec .setTrim s =
            .next (((s.popCommand.withChain
              { s.chain with trims := s.chain.trims.set (a.module - 1) (some a.fineAdjust) }).withTables
              { s.tables with
                working := some (w.withModules
                  (w.modules.modules.modify (a.module - 1) fun m => { m with fineAdjust := a.fineAdjust })) }).reply c
              (.plain .ok)))))) ∧
  (∀ w : WorkingTables,
    let one (n : Nat) : Byte := BitVec.ofNat 8 n
    let members (l : List Nat) : Nat := (l.map fun p => 2 ^ (p - 1)).sum
    let four (p : PerContactor Nat) : List Byte := [one p.mneg, one p.mpos, one p.pre, one p.chg]
    let coil : Contactor → Byte := listPlace [.mneg, .mpos, .pre, .chg]
    let step : SeqStep → List Byte
      | .drive c => [0, coil c, 0, 0]
      | .release c => [1, coil c, 0, 0]
      | .wait t => [2, 0] ++ littleEndian 2 t
      | .awaitFb c closed t => [3, coil c ||| (if closed then 0x80 else 0)] ++ littleEndian 2 t
      | .awaitPrecharge ratio t => [4, one ratio] ++ littleEndian 2 t
      | .endStep => [5, 0, 0, 0]
    w.table 0 0 =
      some ([one w.modules.syncDelay, one w.modules.hopDelay] ++ littleEndian 2 w.modules.replyTimeout ++
        littleEndian 2 w.modules.forwardWindow ++ [one w.modules.converterLatency] ++
        littleEndian 2 w.modules.streamTimeout ++ littleEndian 2 w.modules.gapLimit ++
        littleEndian 2 w.modules.alignWaitLimit ++
        [listPlace [.high, .low, .rising, .falling] w.modules.wakeInMode, one w.modules.holdTime, 0] ++
        w.modules.modules.flatMap fun m =>
          littleEndian 2 (members m.population) ++ [one m.temperatureCount] ++ littleEndian 2 m.resistance ++
          [one (if m.fineAdjust < 0 then 0x80 + m.fineAdjust.natAbs else m.fineAdjust.natAbs)]) ∧
    (∀ i, w.table 1 i = w.schedules[i]?.map fun entries => entries.flatMap fun e =>
      littleEndian 2 e.phase ++ [listPlace [.cells, .temps, .both] e.kind, one (e.decimation - 1)] ++
      littleEndian 3 (members e.moduleSet)) ∧
    (∀ i, w.table 2 i = w.limitSets[i]?.map fun entries => entries.flatMap fun e =>
      [listPlace [.cellRaw, .cellComp, .temp, .current, .moduleFlag, .moduleMissing] e.cls, one e.firstPosition,
        one e.lastPosition, one e.firstChannel, one e.lastChannel, e.flagMask] ++
      littleEndianSigned 4 e.threshold ++ littleEndian 4 e.hysteresis ++
      [setByte [e.below, e.latch] ||| one (4 * (e.persistence - 1)),
        setByte [e.alert, e.fastOpen, e.blockClose, e.wake, e.enter], one e.enterTarget]) ∧
    w.table 3 0 =
      some (four w.sequence.pullInTime ++ four w.sequence.holdLevel ++ [one w.sequence.debounceTime] ++
        littleEndian 3 w.sequence.breakLimit ++ littleEndian 2 w.sequence.deferTimeout ++
        w.sequence.sequences.flatMap fun q =>
          [listPlace [.closeDrive, .closeCharge, .openSeq] q.cls, one (q.steps.length - 1)] ++ q.steps.flatMap step) ∧
    w.table 4 0 =
      some (w.profiles.flatMap fun p =>
        [setByte [p.watch, p.base, p.sleepOk, p.activateOk, p.openOnEntry, p.keepNewest], one p.id,
          one p.scheduleId, one p.limitSetId] ++
        littleEndian 4 p.lnom ++ littleEndian 2 p.tol ++
        [one p.holdoverLimit, p.allowedClose, p.forwardSet.setWidth 8, orAbsent (p.watchProfile.map one)] ++
        littleEndian 2 p.watchInterval ++ [one p.chainWakeTime, one p.reportEvery]) ∧
    (∀ kind i, (4 < kind ∨ i ≠ 0 ∧ kind ≠ 1 ∧ kind ≠ 2) → w.table kind i = none))

/-! ### The chain link (R14, R15, R19, R20) -/

/-- Transactions (R14, R15): a frame with a reply, once sent, waits the reply timeout; a reply that begins stops it; a
frame that begins while nothing waits for a reply has no effect on any transaction, neither when it ends with nothing
waiting nor when a transaction waits by then, whose reply may still begin (that a complete frame with no beginning of
its own, while no unasked frame is in reception, acts on a waiting transaction as if its reply had begun is the model's
choice, log 6; that a reply breaks off the unasked frame, and that a frame beginning during a reply is not seen, is the
model's choice, log 40); a reply of another kind than the one awaited is a bad one. Without power or while RST_N is low
a frame that begins is one that no transaction takes (R21; logs 5, 17 and 45). CHAIN_WAKE and CHAIN_SLEEP end when they
have been sent (R16, R152, R158), and a TRIGGER hands the link to the first read of its round (R20, R51); a claim of the
sleep controller is granted when the link is free. Forward transactions (R19, R20): the head of the queue starts exactly
when the link is free, no round is COLLECTING, the queue is not held (not SLEEP_PENDING, R154; RESTART not taken, R13;
not ACTIVATING, R177; no FWD_REPLY kept, R19, where the hold by a kept BLOCKED answer is the model's choice, log 46), no
trigger waits (log 24) and the forward window ends no later than the next trigger instant, and a head that may not start
stays as it is (log 2); it is checked again and is sent, or answered BLOCKED; a frame to all modules is answered OK once
sent, a good reply with its payload unchanged, a bad one CRC_ERROR, none TIMEOUT; the answer carries the frame's tag and
destination and joins the transmit queue, or is kept behind those already kept (log 25) while the chain port may add no
frame; nothing else changes. R49: the next trigger instant. -/
def Obligations.ChainTransactions : Prop :=
  ((∀ (s : State) (p : Nat) (m : ModuleTable), s.power = ⟨true, false⟩ → s.moduleTable = some m →
    s.chain.sleepClaim = none → s.chain.transaction = some ⟨.readResult p, .sending⟩ →
    exec .chainFrameSent s =
      .next (s.withChain { s.chain with transaction := some ⟨.readResult p, .awaiting m.replyTimeout⟩ })) ∧
  (∀ (s : State), s.power = ⟨true, false⟩ → s.chain.sleepClaim = none →
    s.chain.transaction = some ⟨.enumerate, .sending⟩ →
    exec .chainFrameSent s =
      .next (s.withChain { s.chain with transaction := some ⟨.enumerate, .awaiting 1000⟩ })) ∧
  (∀ (s : State) (f : ChainFrame) (n : Nat), s.power = ⟨true, false⟩ → s.chain.transaction = some ⟨f, .awaiting n⟩ →
    exec .chainReplyStart s =
      .next (s.withChain { s.chain with transaction := some ⟨f, .receiving⟩, unasked := false })) ∧
  (∀ (s : State) (rx : ChainRx), s.power = ⟨true, false⟩ →
    ((s.chain.transaction = none ∨ ∃ f, s.chain.transaction = some ⟨f, .sending⟩) →
      exec .chainReplyStart s = .next (s.withChain { s.chain with unasked := true }) ∧
      exec (.chainFrameReceived rx) s = .next (s.withChain { s.chain with unasked := false })) ∧
    (∀ f n, s.chain.transaction = some ⟨f, .awaiting n⟩ →
      (s.chain.unasked = true →
        exec (.chainFrameReceived rx) s = .next (s.withChain { s.chain with unasked := false })) ∧
      (s.chain.unasked = false → (f = .enumerate ∨ (∃ p, f = .readResult p) ∨ ∃ e, f = .forwarded e) →
        exec (.chainFrameReceived rx) s =
          exec (.chainFrameReceived rx) (s.withChain { s.chain with transaction := some ⟨f, .receiving⟩ }))) ∧
    (∀ f, s.chain.transaction = some ⟨f, .receiving⟩ → exec .chainReplyStart s = .next s)) ∧
  (∀ (s : State) (rx : ChainRx), s.power ≠ ⟨true, false⟩ →
    exec .chainReplyStart s = .next (s.withChain { s.chain with unasked := true }) ∧
    exec (.chainFrameReceived rx) s = .next (s.withChain { s.chain with unasked := false })) ∧
  (∀ s : State, s.power = ⟨true, false⟩ → s.chain.sleepClaim = none →
    (s.chain.transaction = some ⟨.chainWake true, .sending⟩ →
      exec .chainFrameSent s =
        .next ((s.withChain { s.chain with transaction := none, enumeration := .running (some 5000) }).withSleep
          { s.sleep with chainSleep := .awake })) ∧
    (s.chain.transaction = some ⟨.chainWake false, .sending⟩ →
      (s.sleep.power ≠ .watchRound ∨ s.sleep.wakePending = false) →
      exec .chainFrameSent s =
        .next ((s.withChain { s.chain with transaction := none }).withSleep
          { s.sleep with chainSleep := .awake, chainWakeTimer := some (1000 * s.chainWakeTime) })) ∧
    (s.chain.transaction = some ⟨.chainSleep, .sending⟩ → s.sleep.power ≠ .watchRound →
      exec .chainFrameSent s =
        .next ((s.withChain { s.chain with transaction := none }).withSleep { s.sleep with chainSleep := .asleep })) ∧
    (∀ kind set, s.chain.transaction = some ⟨.trigger kind set, .sending⟩ →
      ((∀ r, s.sched.assembly = some r → r.phase ≠ .collecting) →
        exec .chainFrameSent s = .next (s.withChain { s.chain with transaction := none })) ∧
      (∀ r p, s.sched.assembly = some r → r.phase = .collecting →
        (r.entries.find? fun e => e.status == .waiting).map (·.position) = some p →
        exec .chainFrameSent s =
          .next (s.withChain { s.chain with transaction := some ⟨.readResult p, .sending⟩ })))) ∧
  (∀ s : State,
    (s.chain.sleepClaim = none ∨ s.linkFree = false → s.arbitrate = s) ∧
    (s.linkFree = true → s.chain.sleepClaim = some .wake →
      s.arbitrate = s.withChain { s.chain with sleepClaim := none, transaction := some ⟨.chainWake false, .sending⟩ }) ∧
    (s.linkFree = true → s.chain.sleepClaim = some .sleep →
      s.arbitrate = s.withChain { s.chain with sleepClaim := none, transaction := some ⟨.chainSleep, .sending⟩ }) ∧
    (∀ kind set f, s.power = ⟨true, false⟩ → s.chain.transaction = some ⟨.trigger kind set, .sending⟩ →
      s.sched.assembly = none → s.chain.sleepClaim = some f →
      exec .chainFrameSent s = .next (s.withChain { s.chain with transaction := none }).arbitrate)) ∧
  (∀ (s : State) (rx : ChainRx), s.power = ⟨true, false⟩ → s.chain.sleepClaim = none →
    s.chain.transaction = some ⟨.enumerate, .receiving⟩ → (∀ n, rx.content ≠ .count n) →
    exec (.chainFrameReceived rx) s = .next (s.enumeratedWith 0))) ∧
  ((∀ s : State,
    (s.headStartable = true ↔
      s.power = ⟨true, false⟩ ∧ s.chain.transaction = none ∧ s.enumerating = false ∧
      (∀ r, s.sched.assembly = some r → r.phase ≠ .collecting) ∧ s.sleep.power = .active ∧
      s.tables.engine ≠ .activating ∧ s.north.restartTaken = false ∧ s.chain.keptReplies = [] ∧
      s.sched.waiting = none ∧
      ∀ t, s.nextTriggerInstant = some t → (s.now + BitVec.ofNat 32 s.forwardWindow - t).toInt ≤ 0) ∧
    (s.headStartable = false → exec .forwardHeadStart s = .next s)) ∧
  (∀ (s : State) (f : NorthFrame),
    s.chainReply f =
      if s.mayAdd .chainPort = true ∧ s.chain.keptReplies = [] then s.enqueueTx .chainPort f
      else s.withChain { s.chain with keptReplies := s.chain.keptReplies ++ [f] }) ∧
  (∀ (s : State) (e : FwdEntry) (rest : List FwdEntry), s.headStartable = true → s.chain.forwardQueue = e :: rest →
    exec .forwardHeadStart s =
      .next (if s.permits e.cls then
          s.withChain { s.chain with forwardQueue := rest, transaction := some ⟨.forwarded e, .sending⟩ }
        else (s.withChain { s.chain with forwardQueue := rest }).chainReply (fwdReply e.dest e.tag .blocked []))) ∧
  (∀ (s : State) (e : FwdEntry), s.power = ⟨true, false⟩ → s.chain.sleepClaim = none →
    let answered (st : FwdStatus) (payload : List Byte) : Host.Outcome State Fault Refusal :=
      .next ((s.withChain { s.chain with transaction := none }).chainReply (fwdReply e.dest e.tag st payload))
    (s.chain.transaction = some ⟨.forwarded e, .sending⟩ → e.dest = 31 →
      exec .chainFrameSent s = answered .ok []) ∧
    (∀ m : ModuleTable, s.chain.transaction = some ⟨.forwarded e, .sending⟩ → e.dest ≠ 31 → s.moduleTable = some m →
      exec .chainFrameSent s =
        .next (s.withChain { s.chain with transaction := some ⟨.forwarded e, .awaiting m.replyTimeout⟩ })) ∧
    (∀ (rx : ChainRx) (payload : List Byte), s.chain.transaction = some ⟨.forwarded e, .receiving⟩ →
      rx.content = .moduleReply payload →
      exec (.chainFrameReceived rx) s =
        if rx.truncated = false ∧ crcRight rx.bytes = true then answered .ok payload else answered .crcError []) ∧
    (∀ rx : ChainRx, s.chain.transaction = some ⟨.forwarded e, .receiving⟩ →
      (∀ payload, rx.content ≠ .moduleReply payload) →
      exec (.chainFrameReceived rx) s = answered .crcError []) ∧
    (s.chain.transaction = some ⟨.forwarded e, .awaiting 0⟩ →
      exec .chainReplyTimeout s = answered .timeout [])) ∧
  (∀ s : State,
    (s.scheduleRuns = true ↔
      s.actsOnFrames = true ∧ (s.lock.state = .locked ∨ s.lock.state = .holdover)) ∧
    (s.actsOnFrames = true ↔
      s.tablesLoaded = true ∧ s.chain.enumeration = .ended ∧ s.sleep.power = .active ∧
        s.tables.engine ≠ .activating ∧ s.north.restartTaken = false) ∧
    (s.scheduleRuns = false → s.nextTriggerInstant = none) ∧
    (s.scheduleRuns = true →
      (∀ w, s.sched.waiting = some w → s.nextTriggerInstant = some w.instant) ∧
      (s.sched.waiting = none →
        (∀ d rest, s.sched.held = d :: rest → s.nextTriggerInstant = some d.instant) ∧
        (s.sched.held = [] →
          (∀ d rest, s.sched.due = d :: rest → s.nextTriggerInstant = some d.instant) ∧
          (∀ (start : Stamp) (e : ScheduleEntry), s.sched.due = [] → s.lock.tLast = some start →
            e ∈ s.activeSchedule → (∀ x ∈ s.activeSchedule, e.phase ≤ x.phase) →
            s.nextTriggerInstant =
              some (start + BitVec.ofNat 32 (s.lock.lEst + e.phase * s.lock.lEst / 4096))))))))

/-! ### The sync lock (chapter 2) -/

/-- R29: a SYNC in UNLOCKED begins acquisition; the acquire window closes at T + Lnom + tol + Δ; L_est and everything
else is unchanged, and no frame start is given. -/
def Obligations.SyncInUnlockedBeginsAcquisition : Prop :=
  ∀ (s : State) (bytes : List Byte) (stamp : Stamp) (p : ProfileRecord), s.syncArrives bytes stamp →
    s.lock.state = .unlocked → s.activeProfile = some p →
    ∃ t, exec (.northFrameComplete bytes) s = .next t ∧
      t = (s.withNorth { s.north with receiver := .idle }).withLock
        { s.lock with state := .acquiring, tLast := some stamp, acquireCount := 0 } ∧
      (∀ n : Stamp, ({ t with timebase := ⟨n, t.timebase.clock⟩ } : State).acquireCloseDue =
        decide ((stamp + BitVec.ofNat 32 (p.lnom + p.tol + s.lag) - n).toInt ≤ 0))

/-- R30: a SYNC in ACQUIRING is judged on its interval; the second good interval in a row locks and gives the first
frame start; a bad one starts the count again; STRAY_SYNC is not set. -/
def Obligations.SyncInAcquiringIsJudgedOnItsInterval : Prop :=
  ∀ (s : State) (bytes : List Byte) (stamp before : Stamp) (p : ProfileRecord), s.syncArrives bytes stamp →
    s.lock.state = .acquiring → s.lock.tLast = some before → s.activeProfile = some p →
    let good : Prop := (p.lnom : Int) - p.tol ≤ (stamp - before).toInt ∧ (stamp - before).toInt ≤ (p.lnom : Int) + p.tol
    let s1 := s.withNorth { s.north with receiver := .idle }
    (good → s.lock.acquireCount = 0 →
      exec (.northFrameComplete bytes) s =
        .next (s1.withLock
          { s.lock with tLast := some stamp, lEst := (stamp - before).toInt.toNat, acquireCount := 1 })) ∧
    (good → s.lock.acquireCount = 1 →
      exec (.northFrameComplete bytes) s =
        .next ((s1.withLock ⟨.locked, some stamp, (stamp - before).toInt.toNat, 0, 0⟩).frameStart stamp
          (stamp - before).toInt.toNat)) ∧
    (¬ good →
      exec (.northFrameComplete bytes) s =
        .next (s1.withLock { s.lock with tLast := some stamp, acquireCount := 0 }))

/-- R32, R34: a SYNC in LOCKED or HOLDOVER inside the window is accepted, moves L_est by an eighth of its error,
clamped, and starts a frame; one before the window only sets STRAY_SYNC. R32: no accepted SYNC carries L_est out of
the band Lnom ± tol of the active profile. -/
def Obligations.SyncInTheWindowIsAccepted : Prop :=
  (∀ (s : State) (bytes : List Byte) (stamp before : Stamp) (p : ProfileRecord), s.syncArrives bytes stamp →
    (s.lock.state = .locked ∨ s.lock.state = .holdover) → s.lock.tLast = some before → s.activeProfile = some p →
    let error : Int := (stamp - (before + BitVec.ofNat 32 s.lock.lEst)).toInt
    let s1 := s.withNorth { s.north with receiver := .idle }
    (-(p.tol : Int) ≤ error → error ≤ p.tol →
      let moved : Int := s.lock.lEst + ((stamp - before).toInt - s.lock.lEst).tdiv 8
      let lEst := (max ((p.lnom : Int) - p.tol) (min moved (p.lnom + p.tol))).toNat
      exec (.northFrameComplete bytes) s =
        .next ((s1.withLock { s.lock with state := .locked, tLast := some stamp, lEst := lEst, missCount := 0 }).frameStart
          stamp lEst)) ∧
    (error < -(p.tol : Int) →
      exec (.northFrameComplete bytes) s =
        .next (s1.withNorth { s1.north with sticky := { s.north.sticky with straySync := true } }))) ∧
  (∀ (s : State) (stamp before : Stamp) (p : ProfileRecord), s.activeProfile = some p → p.tol ≤ p.lnom →
    let t := s.acceptSync stamp before
    t.lock.state = .locked ∧ t.lock.tLast = some stamp ∧ p.lnom - p.tol ≤ t.lock.lEst ∧ t.lock.lEst ≤ p.lnom + p.tol)

/-- R26, R33, R35, R36: a window close is taken when the count has reached E + tol + Δ and not before; it starts a
virtual frame at E with L_est unchanged while the misses stay within H, and loses the lock beyond: then the entries
of the frame are cancelled and an orderly open with cause UNLOCK is requested. R31, R36: the acquire window's close
returns the lock to UNLOCKED with L_est kept, cancels what is due and requests an orderly open with cause UNLOCK;
before their moments, and outside their states, the two rows change nothing (the model's choice, log 2). R26: the
decision lag Δ is the sync delay plus 48, 24, 12 or 6 microseconds by the link rate. -/
def Obligations.WindowsClose : Prop :=
  (∀ (s : State) (m : ModuleTable), s.moduleTable = some m →
    s.lag = m.syncDelay +
      match s.north.rate with
      | .mbit1 => 48
      | .mbit2 => 24
      | .mbit4 => 12
      | .mbit8 => 6) ∧
  (∀ (s : State) (before : Stamp) (p : ProfileRecord), s.power = ⟨true, false⟩ → s.lock.tLast = some before →
    s.activeProfile = some p →
    let e : Stamp := before + BitVec.ofNat 32 s.lock.lEst
    let reached : Prop := (e + BitVec.ofNat 32 (p.tol + s.lag) - s.now).toInt ≤ 0
    (¬ reached ∨ s.lock.state = .unlocked ∨ s.lock.state = .acquiring → exec .windowClose s = .next s) ∧
    (reached → s.lock.state = .locked →
      exec .windowClose s =
        .next ((s.withLock { s.lock with state := .holdover, tLast := some e, missCount := 1 }).frameStart e s.lock.lEst)) ∧
    (reached → s.lock.state = .holdover → s.lock.missCount + 1 ≤ p.holdoverLimit →
      exec .windowClose s =
        .next ((s.withLock
          { s.lock with state := .holdover, tLast := some e, missCount := s.lock.missCount + 1 }).frameStart e
            s.lock.lEst)) ∧
    (reached → s.lock.state = .holdover → p.holdoverLimit < s.lock.missCount + 1 →
      exec .windowClose s =
        .next (((s.withLock ⟨.unlocked, none, s.lock.lEst, 0, 0⟩).withSched
          { s.sched with due := [], held := [], waiting := none }).orderlyOpen .unlock))) ∧
  (∀ (s : State) (before : Stamp) (p : ProfileRecord), s.power = ⟨true, false⟩ → s.lock.tLast = some before →
    s.activeProfile = some p →
    let reached : Prop := (before + BitVec.ofNat 32 (p.lnom + p.tol + s.lag) - s.now).toInt ≤ 0
    (s.lock.state = .acquiring → reached →
      exec .acquireWindowClose s =
        .next (((s.withLock ⟨.unlocked, none, s.lock.lEst, 0, 0⟩).withSched
          { s.sched with due := [], held := [], waiting := none }).orderlyOpen .unlock)) ∧
    (s.lock.state ≠ .acquiring ∨ ¬ reached → exec .acquireWindowClose s = .next s))

/-! ### The schedule (chapter 3) -/

/-- R41 to R44: a frame start that is not acted on changes nothing; one that is advances every counter modulo d, skips
what is left of the previous frame (each skipped entry takes a round number, and OVERRUN is set; a waiting trigger
keeps its number) and makes due exactly the entries whose counter was 0, each at T_frame + floor(phase × L_est / 4096),
ordered by phase and then by index. Instants that have already come then come at this event, group by group in that
order, each as at its TRIGGER_INSTANT, until the first that lies ahead. -/
def Obligations.FrameStartOpensTheFrame : Prop :=
  (∀ (s : State) (start : Stamp) (length : Nat),
    (s.actsOnFrames = false → s.frameStart start length = s) ∧
    (s.actsOnFrames = true → s.sched.counters.length = s.activeSchedule.length →
      let t := s.frameStart start length
      let instant (e : ScheduleEntry) : Stamp := start + BitVec.ofNat 32 (e.phase * length / 4096)
      t.sched.counters.length = s.sched.counters.length ∧
      (∀ (i : Nat) (e : ScheduleEntry) (c : Nat), s.activeSchedule[i]? = some e → s.sched.counters[i]? = some c →
        t.sched.counters[i]? = some ((c + 1) % e.decimation)) ∧
      ∃ (u : State) (n : Nat),
        (∀ d : DueEntry, d ∈ u.sched.due ↔
          ∃ e, s.activeSchedule[d.index]? = some e ∧ s.sched.counters[d.index]? = some 0 ∧
            d = ⟨d.index, e.phase, instant e⟩) ∧
        u.sched.due.Pairwise (fun a b => a.phase < b.phase ∨ a.phase = b.phase ∧ a.index < b.index) ∧
        u.sched.held = [] ∧ u.sched.waiting = none ∧ u.sched.assembly = s.sched.assembly ∧
        u.sched.counters = t.sched.counters ∧
        u.store =
          { s.store with
            roundCounter := s.store.roundCounter + BitVec.ofNat 32 (s.sched.due.length + s.sched.held.length) } ∧
        u.north =
          { s.north with
            sticky := { s.north.sticky with
              overrun := s.north.sticky.overrun || !s.sched.due.isEmpty || !s.sched.held.isEmpty ||
                s.sched.waiting.isSome } } ∧
        Touches [.north, .sched, .store] s u ∧
        t = Nat.repeat State.decideGroup n u ∧
        (∀ k, k < n → (Nat.repeat State.decideGroup k u).instantCome = true) ∧ t.instantCome = false ∧
        ((∀ (i : Nat) (e : ScheduleEntry), s.activeSchedule[i]? = some e → s.sched.counters[i]? = some 0 →
          later (instant e) s.now = true) → n = 0))) ∧
  (∀ u : State, u.power = ⟨true, false⟩ →
    exec .triggerInstant u = .next (if u.instantCome = true then u.decideGroup else u)) ∧
  (∀ u : State, u.instantCome = true ↔ ∃ d rest, u.sched.due = d :: rest ∧ (d.instant - u.now).toInt ≤ 0)

/-- R45, R46: when the first due instant has come, its equal-phase group is taken (the first entry waits with the next
round number, the others are held) if no round is in assembly and no trigger waits or is held, and skipped whole
otherwise, each entry with a number of its own and OVERRUN set; before its instant nothing changes (the model's
choice, log 2). -/
def Obligations.TriggerInstantTakesOrSkips : Prop :=
  ∀ (s : State) (d : DueEntry) (group others : List DueEntry), s.power = ⟨true, false⟩ →
    s.sched.due = d :: (group ++ others) → (∀ e ∈ group, e.phase = d.phase) →
    (∀ e, others.head? = some e → e.phase ≠ d.phase) →
    let come : Prop := (d.instant - s.now).toInt ≤ 0
    let free : Prop := s.sched.assembly = none ∧ s.sched.waiting = none ∧ s.sched.held = []
    (¬ come → exec .triggerInstant s = .next s) ∧
    (come → free →
      exec .triggerInstant s =
        .next ((s.withStore { s.store with roundCounter := s.store.roundCounter + 1 }).withSched
          { s.sched with
            due := others, held := group, waiting := some ⟨d.index, d.instant, s.store.roundCounter + 1⟩ })) ∧
    (come → ¬ free →
      exec .triggerInstant s =
        .next (((s.withStore
          { s.store with roundCounter := s.store.roundCounter + BitVec.ofNat 32 (1 + group.length) }).withNorth
          { s.north with sticky := { s.north.sticky with overrun := true } }).withSched { s.sched with due := others }))

/-- R47, R50, R51: a waiting trigger is sent when the link is free: T_send is the present count, the lateness is counted
from the instant, every position of the module set gets its entry and its sample instant T_send + hop × p + adj(p), and
a position above the found count is NOT_PRESENT; the round bears the profile and schedule ids of the active profile;
nothing changes but the round in assembly and the transaction. A round whose every position is NOT_PRESENT then enters
ALIGNING (R51); that it does so at this event, while its trigger frame is being sent, is the model's choice (log 30). -/
def Obligations.TriggerSendOpensTheRound : Prop :=
  ∀ (s : State) (w : TakenTrigger) (e : ScheduleEntry) (m : ModuleTable), s.power = ⟨true, false⟩ →
    s.chain.transaction = none → s.enumerating = false → s.sched.assembly = none → s.sched.waiting = some w →
    s.activeSchedule[w.index]? = some e → s.moduleTable = some m →
    ∃ r : Round,
      let s1 := (s.withSched { s.sched with waiting := none, assembly := some r }).withChain
        { s.chain with transaction := some ⟨.trigger e.kind e.moduleSet, .sending⟩ }
      ((∃ p ∈ e.moduleSet, p ≤ s.chain.foundCount) → exec .triggerSend s = .next s1) ∧
      ((∀ p ∈ e.moduleSet, s.chain.foundCount < p) → exec .triggerSend s = .next (s1.enterAligning r)) ∧
      (∀ a, s.activeProfile = some a → r.profileId = a.id ∧ r.scheduleId = a.scheduleId) ∧
      r.number = w.round ∧ r.entryIndex = w.index ∧ r.kind = e.kind ∧ r.triggerInstant = w.instant ∧
      some r.profileId = (s.activeId.or (some 0)) ∧ r.tSend = s.now ∧ r.lateness = s.now - w.instant ∧
      r.commitMark = false ∧ r.phase = .collecting ∧ r.packSum = none ∧ r.entries.map (·.position) = e.moduleSet ∧
      (∀ x ∈ r.entries,
        x.status = (if x.position ≤ s.chain.foundCount then .waiting else .notPresent) ∧
        (∀ k, s.moduleAt x.position = some k →
          x.sampleInstant = s.now + BitVec.ofNat 32 (m.hopDelay * x.position) + BitVec.ofInt 32 k.fineAdjust) ∧
        x.raw = none ∧ x.temperatures = none ∧ x.flags = none ∧ x.aligned = none ∧ x.compensated = none)

/-- R51, R52: the read of a position gives its entry a status: OK with the data the kind asks for when the reply is good
and fits the module, CRC_ERROR for a bad reply or a content that does not fit, MISSING without a reply; and while a
position still waits, its read follows at once. When none waits any longer the round enters ALIGNING (R53). Nothing
else changes. -/
def Obligations.ReadsFillTheRound : Prop :=
  ∀ (s : State) (r : Round) (p : Nat) (m : ModuleEntry), s.power = ⟨true, false⟩ → s.chain.sleepClaim = none →
    s.sched.assembly = some r → r.phase = .collecting → s.moduleAt p = some m →
    let next := (r.entries.find? fun e => e.status == .waiting && !(e.position == p)).map (·.position)
    let filled (f : RoundEntry → RoundEntry) : Host.Outcome State Fault Refusal :=
      let r1 := { r with entries := r.entries.map fun e => if e.position = p ∧ e.status = .waiting then f e else e }
      let s1 := s.withSched { s.sched with assembly := some r1 }
      match next with
      | some q => .next (s1.withChain { s.chain with transaction := some ⟨.readResult q, .sending⟩ })
      | none => .next ((s1.withChain { s.chain with transaction := none }).enterAligning r1).arbitrate
    (∀ (rx : ChainRx) (vs ts : List (BitVec 16)) (flags : Byte),
      s.chain.transaction = some ⟨.readResult p, .receiving⟩ → rx.content = .result p vs ts flags →
      rx.truncated = false → crcRight rx.bytes = true →
      (r.kind = .temps ∨ vs.length = m.population.length) → (r.kind = .cells ∨ ts.length = m.temperatureCount) →
      exec (.chainFrameReceived rx) s =
        filled fun e =>
          { e with
            status := .ok
            flags := some flags
            raw := if r.kind = .temps then none else some (vs.map BitVec.toNat)
            temperatures := if r.kind = .cells then none else some (ts.map BitVec.toInt) }) ∧
    (∀ rx : ChainRx, s.chain.transaction = some ⟨.readResult p, .receiving⟩ →
      (rx.truncated = true ∨ crcRight rx.bytes = false ∨ (∀ vs ts flags, rx.content ≠ .result p vs ts flags) ∨
        ∃ vs ts flags, rx.content = .result p vs ts flags ∧
          (r.kind ≠ .temps ∧ vs.length ≠ m.population.length ∨ r.kind ≠ .cells ∧ ts.length ≠ m.temperatureCount)) →
      exec (.chainFrameReceived rx) s = filled fun e => { e with status := .crcError }) ∧
    (s.chain.transaction = some ⟨.readResult p, .awaiting 0⟩ →
      exec .chainReplyTimeout s = filled fun e => { e with status := .missing })

/-! ### The round store (R57 to R61) -/

/-- R57, R58, R61: an offer to a store with room appends; to a full one it keeps the oldest records, or, under
KEEP_NEWEST, gives up the oldest that is not open; the dropped count rises by one, up to 65,535, at every offer to a
full store. R59: READ_ROUND answers BUSY, EMPTY, RANGE or the piece asked for, in that order; an OK sets the open
mark, and nothing else changes. R56, R185, section 11.4: the header piece and a module entry piece byte by byte; the
store count of the header is sent plain (the model's choice, log 38). -/
def Obligations.RoundStoreKeepsAndShows : Prop :=
  (∀ (st : RoundStore) (r : RoundRecord),
    (st.records.length < 8 → ∀ newest, st.offer r newest = { st with records := st.records ++ [r] }) ∧
    (st.records.length = 8 →
      st.offer r false = { st with dropped := min 65535 (st.dropped + 1) } ∧
      (∀ (a b : RoundRecord) (rest : List RoundRecord), st.records = a :: b :: rest →
        st.offer r true =
          { st with
            records := if st.openMark then a :: (rest ++ [r]) else b :: (rest ++ [r])
            dropped := min 65535 (st.dropped + 1) }))) ∧
  (∀ (s : State) (c : Command) (piece : Nat), s.takeable .readRound = some c → argPiece c.payload.tail = some piece →
    (s.tables.engine = .activating → exec .readRound s = s.answered c .busy) ∧
    (s.tables.engine ≠ .activating →
      (s.store.records = [] → exec .readRound s = s.answered c .empty) ∧
      (∀ (r : RoundRecord) (rest : List RoundRecord), s.store.records = r :: rest →
        (r.entries.length < piece → exec .readRound s = s.answered c (.refused .range)) ∧
        (piece ≤ r.entries.length →
          ∃ data, exec .readRound s =
              .next ((s.popCommand.withStore { s.store with openMark := true }).reply c ⟨.ok, data⟩) ∧
            (piece = 0 → data = r.headerPiece s.store.records.length) ∧
            (∀ e, piece ≠ 0 → r.entries[piece - 1]? = some e → data = e.piece))))) ∧
  (∀ (r : RoundRecord) (count : Nat),
    r.headerPiece count =
      littleEndian 4 r.number.toNat ++
      [BitVec.ofNat 8 r.profileId, BitVec.ofNat 8 r.scheduleId, BitVec.ofNat 8 r.entryIndex,
        listPlace [.cells, .temps, .both] r.kind] ++
      littleEndian 4 r.tSend.toNat ++ littleEndian 4 r.lateness.toNat ++
      [setByte [r.unevaluated, r.isPartial, r.packSum.isSome, r.packSum.any (·.complete)],
        BitVec.ofNat 8 (r.entries.length - 1)] ++
      littleEndian 4 ((r.packSum.map (·.sum)).getD 0) ++ [BitVec.ofNat 8 count]) ∧
  (∀ e : RoundEntry, e.status ≠ .waiting →
    e.piece =
      [BitVec.ofNat 8 e.position, listPlace [.ok, .missing, .crcError, .notPresent] e.status] ++
      littleEndian 4 e.sampleInstant.toNat ++
      (match e.aligned with
       | some a =>
         (listPlace [.ok, .gap, .held, .stale, .noCurrent] a.flag + if a.saturated then 8 else 0) ::
           littleEndianSigned 3 a.current
       | none => [0xFF, 0, 0, 0]) ++
      [orAbsent e.flags, BitVec.ofNat 8 (e.raw.getD []).length, BitVec.ofNat 8 (e.compensated.getD []).length,
        BitVec.ofNat 8 (e.temperatures.getD []).length] ++
      (e.raw.getD []).flatMap (littleEndian 2) ++ (e.compensated.getD []).flatMap (littleEndian 2) ++
      (e.temperatures.getD []).flatMap (littleEndianSigned 2))

/-- R60: RELEASE_ROUND answers BUSY, EMPTY, or removes the oldest record, open or not, clears the open mark and answers
the new count; the dropped count and everything else is unchanged. -/
def Obligations.ReleaseRoundRemovesTheOldest : Prop :=
  ∀ (s : State) (c : Command), s.takeable .releaseRound = some c → argNone c.payload.tail = some () →
    (s.tables.engine = .activating → exec .releaseRound s = s.answered c .busy) ∧
    (s.tables.engine ≠ .activating →
      (s.store.records = [] → exec .releaseRound s = s.answered c .empty) ∧
      (∀ (r : RoundRecord) (rest : List RoundRecord), s.store.records = r :: rest →
        exec .releaseRound s =
          .next ((s.popCommand.withStore { s.store with records := rest, openMark := false }).reply c
            ⟨.ok, [BitVec.ofNat 8 rest.length]⟩)))

/-! ### Current records, alignment and compensation (chapter 4) -/

/-- R63 to R66: what becomes of a whole record. A wrong check and a status outside OK and OVERRANGE set CUR_FAULT; a
stamp not later than the newest one sets CUR_ORDER; otherwise the record joins the ring, which keeps its newest 64,
the stream is PRESENT and its timer restarts, and the alignment unit and the sequencer act on it, in that order, here
and at the loss of the stream, by the model's choice (log 15). A current
outside ±2,000,000 mA, or of status OVERRANGE, is saturated by its sign and marked; a link voltage above 100,000 is
replaced. A record broken off sets CUR_FAULT, and without tables or while the port is off nothing changes. R67: at the
stream timer's expiry the ring is emptied, the stream is ABSENT and the timer stops, and both act on it (log 15).
Nothing else changes. R69, R71, R72: the alignment unit tests every OK entry of a round in
ALIGNING that still waits; the round goes on waiting while one does, and leaves ALIGNING otherwise; in any other phase
and without a round nothing changes. R109, R114: a sequencer in CLOSING that waits at an AWAIT_PRECHARGE applies the
test again, one in DEFERRED opens when the current is no longer above the break limit or the stream is ABSENT, and in
every other state and at every other step nothing changes. -/
def Obligations.CurrentRecordsEnterTheRing : Prop :=
  ((∀ (s : State) (m : ModuleTable) (st c0 c1 c2 l0 l1 l2 check : Byte), s.power = ⟨true, false⟩ →
    s.current.portOn = true → s.moduleTable = some m →
    let carried : Int := (c2 ++ c1 ++ c0 : BitVec 24).toInt
    let link : Nat := min (l2 ++ l1 ++ l0 : BitVec 24).toNat 100000
    let stamp : Stamp := s.now - BitVec.ofNat 32 m.converterLatency
    let result := exec (.currentRecordArrival [st, c0, c1, c2, l0, l1, l2, check]) s
    let entered (r : RingRecord) : Host.Outcome State Fault Refusal :=
      if s.current.ring.getLast?.all (fun n => decide (0 < (stamp - n.stamp).toInt)) = true then
        .next (s.withCurrent
          { s.current with
            ring := (s.current.ring ++ [r]).drop (s.current.ring.length + 1 - 64)
            stream := .present
            streamTimer := some m.streamTimeout }).realign.sequencerRecord
      else .next (s.withNorth { s.north with sticky := { s.north.sticky with curOrder := true } })
    (check ≠ crc8 [st, c0, c1, c2, l0, l1, l2] ∨ 2 ≤ st.toNat →
      result = .next (s.withNorth { s.north with sticky := { s.north.sticky with curFault := true } })) ∧
    (check = crc8 [st, c0, c1, c2, l0, l1, l2] → st = 0 → -2000000 ≤ carried → carried ≤ 2000000 →
      result = entered ⟨stamp, carried, link, false⟩) ∧
    (check = crc8 [st, c0, c1, c2, l0, l1, l2] → (st = 0 ∧ 2000000 < carried ∨ st = 1 ∧ 0 ≤ carried) →
      result = entered ⟨stamp, 2000000, link, true⟩) ∧
    (check = crc8 [st, c0, c1, c2, l0, l1, l2] → (st = 0 ∧ carried < -2000000 ∨ st = 1 ∧ carried < 0) →
      result = entered ⟨stamp, -2000000, link, true⟩)) ∧
  (∀ s : State, s.power = ⟨true, false⟩ → s.current.portOn = true → s.tablesLoaded = true →
    exec .currentRecordIdleTimeout s =
      .next (s.withNorth { s.north with sticky := { s.north.sticky with curFault := true } })) ∧
  (∀ (s : State) (record : List Byte), (s.current.portOn = false ∨ s.tablesLoaded = false) →
    exec (.currentRecordArrival record) s = .next s ∧ exec .currentRecordIdleTimeout s = .next s)) ∧
  (∀ s : State, s.power = ⟨true, false⟩ → s.current.streamTimer = some 0 →
    exec .streamTimerExpiry s =
      .next (s.withCurrent
        { s.current with ring := [], stream := .absent, streamTimer := none }).realign.sequencerStreamAbsent) ∧
  (∀ s : State,
    ((∀ r, s.sched.assembly = some r → r.phase ≠ .aligning) → s.realign = s) ∧
    (∀ r, s.sched.assembly = some r → r.phase = .aligning →
      let entries := r.entries.map fun e =>
        if e.status = .ok ∧ e.aligned = none then
          { e with aligned := alignAt s.current.stream s.current.ring s.gapLimit e.sampleInstant }
        else e
      ((∃ e ∈ entries, e.status = .ok ∧ e.aligned = none) →
        s.realign = s.withSched { s.sched with assembly := some { r with entries := entries } }) ∧
      ((∀ e ∈ entries, e.status = .ok → e.aligned ≠ none) → s.realign = s.finishAligning r entries))) ∧
  (∀ s : State,
    (s.seq.state ≠ .closing → s.seq.state ≠ .deferred → s.sequencerRecord = s ∧ s.sequencerStreamAbsent = s) ∧
    (s.seq.state = .deferred →
      s.sequencerRecord = (if s.highCurrent = true then s else s.startOpen) ∧
      s.sequencerStreamAbsent = s.startOpen) ∧
    (s.seq.state = .closing →
      s.sequencerStreamAbsent = s.sequencerRecord ∧
      ((∀ r ratio time, s.runningStep = some r → r.step ≠ .awaitPrecharge ratio time) → s.sequencerRecord = s) ∧
      (∀ r ratio time, s.runningStep = some r → r.step = .awaitPrecharge ratio time →
        s.sequencerRecord =
          match s.precharge ratio with
          | .reached => s.stepDone r
          | .notReached => s
          | .noReference => s.closeFailed r.id r.index none .noReference)))

/-- "round" of the conventions (section 5 of the introduction, R70, R74): the nearest integer, and of two equally near
the one farther from zero. R70: between two records no farther apart than the gap limit the aligned current is the
older record's plus round((I1 − I0) × (t − t0) / (t1 − t0)), with flag OK; it lies between their currents, both
included, and at the older record's stamp it is that record's; across a gap it is the current of the nearer record,
the older one at equal distance, with flag GAP. R74: a compensated voltage is the raw one plus
round(I × R / 100,000), clamped to 0 to 65,535; with R = 0 it is the raw one. -/
def Obligations.AlignmentArithmetic : Prop :=
  (∀ (n : Int) (d : Nat), 0 < d →
    2 * (n - roundDiv n d * d).natAbs ≤ d ∧
    (2 * (n - roundDiv n d * d).natAbs = d → n.natAbs ≤ (roundDiv n d).natAbs * d)) ∧
  (∀ (gap : Nat) (r0 r1 : RingRecord) (t : Stamp),
    0 ≤ (t - r0.stamp).toInt → 0 < (r1.stamp - t).toInt →
    (r1.stamp - r0.stamp).toInt = (t - r0.stamp).toInt + (r1.stamp - t).toInt →
    let a := bracketed gap r0 r1 t
    ((r1.stamp - r0.stamp).toInt ≤ gap →
      a.flag = .ok ∧
      a.current =
        r0.current +
          roundDiv ((r1.current - r0.current) * (t - r0.stamp).toInt) (r1.stamp - r0.stamp).toInt.toNat ∧
      min r0.current r1.current ≤ a.current ∧ a.current ≤ max r0.current r1.current ∧
      (t = r0.stamp → a.current = r0.current) ∧ a.saturated = (r0.saturated || r1.saturated)) ∧
    ((gap : Int) < (r1.stamp - r0.stamp).toInt →
      a = (if (t - r0.stamp).toInt ≤ (r1.stamp - t).toInt then ⟨r0.current, .gap, r0.saturated⟩
           else ⟨r1.current, .gap, r1.saturated⟩))) ∧
  (∀ (current : Int) (resistance v : Nat),
    (compensate current resistance v : Int) =
      max 0 (min 65535 ((v : Int) + roundDiv (current * resistance) 100000)) ∧
    compensate current resistance v ≤ 65535 ∧
    (resistance = 0 → v ≤ 65535 → compensate current resistance v = v))

/-- R69, R72: the cases of the test of an instant: NO_CURRENT without a stream; STALE, with the oldest record's current,
when every stamp is later; waiting when none is; bracketed otherwise. R71, R54, R84, R57: at the align wait's expiry
every entry that still waits takes the newest record's current with flag HELD; the round is then compensated, evaluated
unless its commit mark is set, offered to the store, and leaves assembly. (That the round leaves at one event is log 7;
stated for ACTIVE with nothing held.) R53, R69, R71: a round that enters ALIGNING has its OK entries tested; with one
that waits, the align wait runs, or with a limit of 0 expires at once; with none, as in every watch round (R72, R159),
the round leaves ALIGNING at once. R74 to R76: as it leaves ALIGNING its entries are compensated where they are OK with
raw voltages and a current, the pack sum is formed from the raw voltages of its OK entries with COMPLETE exactly when
every module of the table is among them (none for kind TEMPS), and a COMPLETE sum, outside deep sleep, becomes the pack
reference, of age 0. R54, R84, R91: it is evaluated unless its commit mark is set. R55 to R57, R46, R160: it is offered
with its marks UNEVALUATED and PARTIAL and leaves assembly; the next held entry is then taken, or in a watch round the
pass goes on. -/
def Obligations.AlignmentCasesAndWait : Prop :=
  (∀ (ring : List RingRecord) (gap : Nat) (t : Stamp),
    alignAt .absent ring gap t = some ⟨0, .noCurrent, false⟩ ∧
    alignAt .present [] gap t = some ⟨0, .noCurrent, false⟩ ∧
    (∀ oldest rest, ring = oldest :: rest → (∀ r ∈ ring, later r.stamp t = true) →
      alignAt .present ring gap t = some ⟨oldest.current, .stale, oldest.saturated⟩) ∧
    (ring ≠ [] → (∀ r ∈ ring, later r.stamp t = false) → alignAt .present ring gap t = none) ∧
    (∀ older newer r0 r1, ring = older ++ r0 :: r1 :: newer → (∀ r ∈ older, later r.stamp t = false) →
      later r0.stamp t = false → (∀ r ∈ r1 :: newer, later r.stamp t = true) →
      alignAt .present ring gap t = some (bracketed gap r0 r1 t))) ∧
  (∀ (s : State) (r : Round) (newest : RingRecord), s.power = ⟨true, false⟩ → s.current.alignWait = some 0 →
    s.sched.assembly = some r → s.sched.held = [] → s.sleep.power = .active → s.newestRecord = some newest →
    let entries := (r.entries.map fun e =>
      if e.unsettled then { e with aligned := some ⟨newest.current, .held, newest.saturated⟩ } else e).map
        s.compensateEntry
    ∃ t, exec .alignWaitExpiry s = .next t ∧ t.sched = { s.sched with assembly := none } ∧
      t.current.alignWait = none ∧
      t.store = s.store.offer
        { ({ r with entries := entries, packSum := s.packSumOf r.kind entries } : Round).record with } s.keepNewest ∧
      (r.commitMark = true → t.limits = s.limits ∧ t.north = s.north) ∧
      (r.commitMark = false →
        ∀ (i : Nat) (e : LimitEntry) (x : RunState), s.limitSet[i]? = some e → s.limits.runStates[i]? = some x →
          t.limits.runStates[i]? = some (e.evaluate (s.channelsWithData e entries) x)) ∧
      Touches [.north, .sched, .store, .current, .limits] s t) ∧
  (∀ (s : State) (r : Round),
    let tested := r.entries.map fun e =>
      if e.status = .ok ∧ e.aligned = none then
        { e with aligned := alignAt s.current.stream s.current.ring s.gapLimit e.sampleInstant }
      else e
    let held (newest : RingRecord) := tested.map fun e =>
      if e.status = .ok ∧ e.aligned = none then
        { e with aligned := some ⟨newest.current, .held, newest.saturated⟩ }
      else e
    ((∀ e ∈ tested, e.status = .ok → e.aligned ≠ none) → s.enterAligning r = s.finishAligning r tested) ∧
    (∀ newest, s.newestRecord = some newest → (∃ e ∈ tested, e.status = .ok ∧ e.aligned = none) →
      s.enterAligning r =
        if s.alignWaitLimit = 0 then s.finishAligning r (held newest)
        else
          (s.withSched { s.sched with assembly := some { r with phase := .aligning, entries := tested } }).withCurrent
            { s.current with alignWait := some s.alignWaitLimit })) ∧
  (∀ (s : State) (r : Round) (entries : List RoundEntry),
    let done := entries.map s.compensateEntry
    let r1 : Round := { r with phase := .evaluating, entries := done, packSum := s.packSumOf r.kind done }
    let s1 := s.withCurrent
      { s.current with
        alignWait := none
        reference := match s.packSumOf r.kind done with
          | some ⟨sum, true⟩ => if s.deepSleep = true then s.current.reference else some ⟨sum, r.tSend, 0⟩
          | _ => s.current.reference }
    s.finishAligning r entries =
      if r.commitMark = true then s1.leaveAssembly r1 false
      else (s1.evaluate done).leaveAssembly r1 (s1.evaluationActions done).wake) ∧
  (∀ (s : State) (e : RoundEntry),
    (∀ raw a m, e.status = .ok → e.raw = some raw → e.aligned = some a → a.flag ≠ .noCurrent →
      s.moduleAt e.position = some m →
      s.compensateEntry e = { e with compensated := some (raw.map (compensate a.current m.resistance)) }) ∧
    ((e.status ≠ .ok ∨ e.raw = none ∨ e.aligned = none ∨ ∃ a, e.aligned = some a ∧ a.flag = .noCurrent) →
      s.compensateEntry e = e)) ∧
  (∀ (s : State) (entries : List RoundEntry),
    s.packSumOf .temps entries = none ∧
    ∃ complete,
      s.packSumOf .cells entries =
        some ⟨(entries.map fun e => if e.status = .ok then (e.raw.getD []).sum else 0).sum, complete⟩ ∧
      s.packSumOf .both entries = s.packSumOf .cells entries ∧
      (complete = true ↔
        ∀ p, 1 ≤ p → p ≤ s.moduleCount → ∃ e ∈ entries, e.position = p ∧ e.status = .ok)) ∧
  (∀ (s : State) (r : Round) (wake : Bool),
    let s1 := (s.withSched { s.sched with assembly := none }).withStore (s.store.offer r.record s.keepNewest)
    (s.sleep.power = .watchRound → s.leaveAssembly r wake = s1.watchRoundOffered wake) ∧
    (s.sleep.power ≠ .watchRound →
      (s.sched.held = [] → s.leaveAssembly r wake = s1) ∧
      (∀ d rest, s.sched.held = d :: rest →
        s.leaveAssembly r wake =
          (s1.withStore { s1.store with roundCounter := s.store.roundCounter + 1 }).withSched
            { s.sched with
              assembly := none, held := rest, waiting := some ⟨d.index, d.instant, s.store.roundCounter + 1⟩ })) ∧
    r.record.unevaluated = r.commitMark ∧ (r.record.isPartial = true ↔ ∃ e ∈ r.entries, e.status ≠ .ok) ∧
    r.record.number = r.number ∧ r.record.entries = r.entries ∧ r.record.packSum = r.packSum)

/-- R77: the precharge test gives NO_REFERENCE when there is no reference younger than 1,000 ms; otherwise NOT_REACHED
when the stream is ABSENT, and with a newest record REACHED or NOT_REACHED as link × 256 is at least ratio ×
floor(pack sum / 100) or not. The test is a reading of the state: it changes nothing. -/
def Obligations.PrechargeTest : Prop :=
  ∀ (s : State) (ratio : Nat),
    ((∀ ref, s.current.reference = some ref → 1000 ≤ ref.elapsed / 1000) → s.precharge ratio = .noReference) ∧
    (∀ ref, s.current.reference = some ref → ref.elapsed / 1000 < 1000 →
      (s.current.stream = .absent → s.precharge ratio = .notReached) ∧
      (∀ newest, s.current.stream = .present → s.current.ring.getLast? = some newest →
        s.precharge ratio = (if ratio * (ref.sum / 100) ≤ newest.link * 256 then .reached else .notReached)))

/-! ### The limit monitor (chapter 5) -/

/-- R83: for the classes with a threshold the most offending channel is one of the greatest value for ABOVE, of the
least for BELOW, and the first of these; for the others it is the first that offends, with its status, or with those
of its flags that are in the mask. R83, R86: which channels offend, and which lie on the safe side. R81, R82: the
channels with data a module entry gives, in order: of an OK entry the populated inputs with their voltages,
compensated ones where there are any and raw ones otherwise, the temperatures, the aligned current unless it is
NO_CURRENT, the flags; of every entry its status. R85, R86, R87: how a round changes the run state of an entry.
Without data nothing; before the trip an offending round counts and the n-th trips, a round that does not offend
clears; a TRIPPED LEVEL entry releases when every channel is safe; a TRIPPED LATCH entry stays. No count exceeds the
persistence, and TRIPPED goes with count n. R84, R88 to R91: an evaluation gives every entry its new run state, hands
out one fast-open request for each entry that trips with FAST_OPEN, in index order, and the ENTER request of the
lowest index that trips with ENTER, with ENTRY_FAILED exactly when there is another; it asks for a wake exactly when
an entry trips with WAKE; an entry that was TRIPPED before hands out nothing; nothing else changes. -/
def Obligations.EvaluationCountsAndReleases : Prop :=
  ((∀ (e : LimitEntry) (channels : List Offence) (o : Offence), e.cls ≠ .moduleFlag → e.cls ≠ .moduleMissing →
    e.mostOffending channels = some o →
    ∃ before after, channels = before ++ o :: after ∧
      (e.below = false → (∀ c ∈ before, c.value < o.value) ∧ ∀ c ∈ after, c.value ≤ o.value) ∧
      (e.below = true → (∀ c ∈ before, o.value < c.value) ∧ ∀ c ∈ after, o.value ≤ c.value)) ∧
  (∀ (e : LimitEntry) (before after : List Offence) (o : Offence), (∀ c ∈ before, e.offends c = false) →
    e.offends o = true →
    (e.cls = .moduleMissing → e.mostOffending (before ++ o :: after) = some o) ∧
    (∀ flags : Byte, e.cls = .moduleFlag → o.value = flags.toNat →
      e.mostOffending (before ++ o :: after) = some { o with value := (flags &&& e.flagMask).toNat })) ∧
  (∀ (e : LimitEntry) (c : Offence),
    (e.cls ≠ .moduleFlag → e.cls ≠ .moduleMissing →
      (e.below = false →
        (e.offends c = true ↔ e.threshold < c.value) ∧ (e.safe c = true ↔ c.value < e.threshold - e.hysteresis)) ∧
      (e.below = true →
        (e.offends c = true ↔ c.value < e.threshold) ∧ (e.safe c = true ↔ e.threshold + e.hysteresis < c.value))) ∧
    (∀ flags : Byte, e.cls = .moduleFlag → c.value = flags.toNat →
      (e.offends c = true ↔ flags &&& e.flagMask ≠ 0) ∧ (e.safe c = true ↔ flags &&& e.flagMask = 0)) ∧
    (e.cls = .moduleMissing → (e.offends c = true ↔ c.value ≠ 0) ∧ (e.safe c = true ↔ c.value = 0)))) ∧
  ((∀ (s : State) (e : LimitEntry) (entries : List RoundEntry),
    s.channelsWithData e entries =
      (entries.filter fun m => decide (e.firstPosition ≤ m.position ∧ m.position ≤ e.lastPosition)).flatMap
        (s.entryChannels e)) ∧
  (∀ (s : State) (e : LimitEntry) (m : RoundEntry),
    let inRange (values : List (Nat × Int)) : List Offence :=
      (values.filter fun x => decide (e.firstChannel ≤ x.1 ∧ x.1 ≤ e.lastChannel)).map fun x => ⟨m.position, x.1, x.2⟩
    (e.cls = .moduleMissing →
      s.entryChannels e m =
        [⟨m.position, 0,
          match m.status with
          | .ok => 0
          | .missing => 1
          | .crcError => 2
          | .notPresent => 3
          | .waiting => 255⟩]) ∧
    (e.cls ≠ .moduleMissing → m.status ≠ .ok → s.entryChannels e m = []) ∧
    (m.status = .ok →
      (∀ k raw, s.moduleAt m.position = some k → m.raw = some raw →
        (e.cls = .cellRaw → s.entryChannels e m = inRange (k.population.zip (raw.map Int.ofNat))) ∧
        (e.cls = .cellComp →
          (m.compensated = none → s.entryChannels e m = inRange (k.population.zip (raw.map Int.ofNat))) ∧
          (∀ comp, m.compensated = some comp →
            s.entryChannels e m = inRange (k.population.zip (comp.map Int.ofNat))))) ∧
      (m.raw = none → m.compensated = none → (e.cls = .cellRaw ∨ e.cls = .cellComp) → s.entryChannels e m = []) ∧
      (e.cls = .temp →
        s.entryChannels e m =
          inRange ((List.range' 1 (m.temperatures.getD []).length).zip (m.temperatures.getD []))) ∧
      (e.cls = .current →
        s.entryChannels e m =
          match m.aligned with
          | none => []
          | some a => if a.flag = .noCurrent then [] else [⟨m.position, 0, a.current⟩]) ∧
      (e.cls = .moduleFlag →
        s.entryChannels e m =
          match m.flags with
          | none => []
          | some f => [⟨m.position, 0, f.toNat⟩])))) ∧
  (∀ (e : LimitEntry) (channels : List Offence) (r : RunState), 1 ≤ e.persistence →
    let t := e.evaluate channels r
    let c : Prop := ∃ x ∈ channels, e.offends x = true
    (channels = [] → t = r) ∧
    (channels ≠ [] → r.level ≠ .tripped →
      (c → t.count = min e.persistence (r.count + 1) ∧
        (e.persistence ≤ r.count + 1 → t.level = .tripped) ∧ (r.count + 1 < e.persistence → t.level = .pending)) ∧
      (¬ c → t.count = 0 ∧ t.level = .clear)) ∧
    (channels ≠ [] → r.level = .tripped → e.latch = false → (∀ x ∈ channels, e.safe x = true) →
      t.level = .clear ∧ t.count = 0) ∧
    (r.level = .tripped → (e.latch = true ∨ ∃ x ∈ channels, e.safe x = false) →
      t.level = .tripped ∧ t.count = r.count) ∧
    (c → t.last = e.mostOffending channels) ∧ (¬ c → t.last = r.last) ∧
    (r.count ≤ e.persistence → (r.level = .tripped → r.count = e.persistence) →
      t.count ≤ e.persistence ∧ (t.level = .tripped → t.count = e.persistence))) ∧
  (∀ (s : State) (entries : List RoundEntry), s.limits.runStates.length = s.limitSet.length →
    let t := s.evaluate entries
    t.limits.runStates.length = s.limitSet.length ∧
    (∀ (i : Nat) (e : LimitEntry) (x : RunState), s.limitSet[i]? = some e → s.limits.runStates[i]? = some x →
      t.limits.runStates[i]? = some (e.evaluate (s.channelsWithData e entries) x)) ∧
    (∃ opens : List Nat, t.limits.fastOpenRequests = s.limits.fastOpenRequests ++ opens ∧
      opens.Pairwise (· < ·) ∧ ∀ i, i ∈ opens ↔ ∃ e, s.tripsIn entries i e ∧ e.fastOpen = true) ∧
    ((∀ i e, s.tripsIn entries i e → e.enter = false) →
      t.limits.enterRequests = s.limits.enterRequests ∧ t.north = s.north) ∧
    (∀ i e, s.tripsIn entries i e → e.enter = true →
      (∀ j e', s.tripsIn entries j e' → e'.enter = true → i ≤ j) →
      t.limits.enterRequests = s.limits.enterRequests ++ [⟨e.enterTarget, i⟩] ∧
      ((∀ j e', s.tripsIn entries j e' → e'.enter = true → j = i) → t.north = s.north) ∧
      ((∃ j e', s.tripsIn entries j e' ∧ e'.enter = true ∧ j ≠ i) →
        t.north = { s.north with sticky := { s.north.sticky with entryFailed := true } })) ∧
    ((s.evaluationActions entries).wake = true ↔ ∃ i e, s.tripsIn entries i e ∧ e.wake = true) ∧
    Touches [.limits, .north] s t)

/-- R93, R94, R95: READ_LIMITS reads; CLEAR_LIMIT clears one LATCH entry, keeping its last offending record, or is
refused RANGE or STATE; CLEAR_LIMIT(ALL) clears every TRIPPED LATCH entry and answers their number; NO_TABLES and
BUSY come first. R92: each of the three held conditions is true exactly while an entry of the working limit set is
TRIPPED and holds its action. R185, section 11.3: the limits block byte by byte; without a last offending record the
position is 0, the value 0 and the channel 0xFF (the channel by the model's choice, log 37). -/
def Obligations.LimitCommands : Prop :=
  (∀ (row : Instr) (s : State) (c : Command), (row = .readLimits ∨ row = .clearLimit ∨ row = .clearLimitAll) →
    s.takeable row = some c → formRight row c.payload.tail = true →
    (s.tablesLoaded = false → exec row s = s.answered c (.refused .noTables)) ∧
    (s.tablesLoaded = true → s.tables.engine = .activating → exec row s = s.answered c .busy)) ∧
  (∀ (s : State) (c : Command), s.takeable .readLimits = some c → argNone c.payload.tail = some () →
    s.tablesLoaded = true → s.tables.engine ≠ .activating →
    exec .readLimits s = .next (s.popCommand.reply c ⟨.ok, s.limitsBlock⟩)) ∧
  (∀ (s : State) (c : Command) (i : Nat), s.takeable .clearLimit = some c → argEntry c.payload.tail = some i →
    s.tablesLoaded = true → s.tables.engine ≠ .activating →
    (s.limitSet.length ≤ i → exec .clearLimit s = s.answered c (.refused .range)) ∧
    (∀ (e : LimitEntry) (r : RunState), s.limitSet[i]? = some e → s.limits.runStates[i]? = some r →
      (e.latch = false → exec .clearLimit s = s.answered c (.refused .state)) ∧
      (e.latch = true →
        exec .clearLimit s =
          .next ((s.popCommand.withLimits
            { s.limits with runStates := s.limits.runStates.set i ⟨.clear, 0, r.last⟩ }).reply c (.plain .ok))))) ∧
  (∀ (s : State) (c : Command), s.takeable .clearLimitAll = some c → s.tablesLoaded = true →
    s.tables.engine ≠ .activating → s.limits.runStates.length = s.limitSet.length →
    ∃ (states : List RunState) (n : Nat),
      exec .clearLimitAll s =
        .next ((s.popCommand.withLimits { s.limits with runStates := states }).reply c ⟨.ok, [BitVec.ofNat 8 n]⟩) ∧
      states.length = s.limits.runStates.length ∧
      n = ((s.limitSet.zip s.limits.runStates).filter fun x => x.1.latch && x.2.level == .tripped).length ∧
      (∀ (i : Nat) (e : LimitEntry) (r : RunState), s.limitSet[i]? = some e → s.limits.runStates[i]? = some r →
        states[i]? = some (if e.latch = true ∧ r.level = .tripped then ⟨.clear, 0, r.last⟩ else r))) ∧
  (∀ s : State,
    let holds (has : LimitEntry → Bool) : Prop :=
      ∃ (i : Nat) (e : LimitEntry) (r : RunState), s.limitSet[i]? = some e ∧ s.limits.runStates[i]? = some r ∧
        has e = true ∧ r.level = .tripped
    (s.alertHeld = true ↔ holds (·.alert)) ∧ (s.closeBlocked = true ↔ holds (·.blockClose)) ∧
    (s.tripHeld = true ↔ holds (·.fastOpen))) ∧
  (∀ (s : State) (p : ProfileRecord), s.activeProfile = some p →
    s.limitsBlock =
      [BitVec.ofNat 8 p.id, BitVec.ofNat 8 p.limitSetId, BitVec.ofNat 8 (s.limits.runStates.length - 1),
        setByte [s.alertHeld, s.closeBlocked, s.tripHeld]] ++
      s.limits.runStates.flatMap fun r =>
        [listPlace [.clear, .pending, .tripped] r.level, BitVec.ofNat 8 r.count] ++
        match r.last with
        | some o => [BitVec.ofNat 8 o.position, BitVec.ofNat 8 o.channel] ++ littleEndianSigned 4 o.value
        | none => [0, 0xFF, 0, 0, 0, 0])

/-! ### The contactor sequencer (chapter 6) -/

/-- R100, R101: at the pull-in timer's expiry a driver goes on in HOLD, and an expiry that is not due changes nothing
(the model's choice, log 2); the open-coil monitor starts its 5 ms when a
driven coil that has not been reported loses its current, and stops when the current comes; at the end of the 5 ms
COIL_FAULT is recorded once, and a CLOSED sequencer opens with cause FEEDBACK. -/
def Obligations.CoilDriverEvents : Prop :=
  (∀ (s : State) (c : Contactor), s.power = ⟨true, false⟩ →
    exec (.pullInTimerExpiry c) s =
      .next (if (s.seq.coils.get c).pullInTimer = some 0 then
          s.withSeq { s.seq with coils := s.seq.coils.set c { s.seq.coils.get c with state := .hold, pullInTimer := none } }
        else s)) ∧
  (∀ (s : State) (c : Contactor) (d : CoilDriver), s.seq.coils.get c = d →
    (d.sense = false →
      exec (.coilSenseChange c true) s =
        .next (s.withSeq { s.seq with coils := s.seq.coils.set c { d with sense := true, noCurrent := none } })) ∧
    (d.sense = true →
      exec (.coilSenseChange c false) s =
        .next (s.withSeq
          { s.seq with
            coils := s.seq.coils.set c
              { d with
                sense := false
                noCurrent := if d.state ≠ .off ∧ d.reported = false then some 5000 else none } }))) ∧
  (∀ (s : State) (c : Contactor), s.power = ⟨true, false⟩ → (s.seq.coils.get c).noCurrent = some 0 →
    let s1 := (s.withSeq
      { s.seq with coils := s.seq.coils.set c { s.seq.coils.get c with noCurrent := none, reported := true } }).record
        .coilFault (some c) .feedback s.seq.running s.seq.step
    exec (.openCoilIntervalExpiry c) s = .next (if s.seq.state = .closed then s1.orderlyOpen .feedback else s1))

/-- R102, R119: a feedback reading away from the debounced state starts the debounce, of the loaded table's time or of
15 ms with no tables, one back to it cancels it; at its
end the debounced state takes the reading; in CLOSED an OPEN of MNEG or MPOS under a driven coil records
FEEDBACK_LOST and opens with cause FEEDBACK, and at rest nothing else happens. R108, R115: in CLOSING and OPENING a
change to the state the current AWAIT_FB step waits for completes the step, and any other changes nothing else. -/
def Obligations.FeedbackIsDebounced : Prop :=
  (∀ (s : State) (c : Contactor) (closed : Bool), s.power = ⟨true, false⟩ → (s.seq.feedback.get c).raw = !closed →
    exec (.feedbackInputChange c closed) s =
      .next (s.withSeq
        { s.seq with
          feedback := s.seq.feedback.set c
            ⟨closed, (s.seq.feedback.get c).debounced,
              if closed = (s.seq.feedback.get c).debounced then none else some s.debounceTime⟩ })) ∧
  (∀ (s : State) (c : Contactor) (closed : Bool), (s.seq.feedback.get c).raw = closed →
    exec (.feedbackInputChange c closed) s = .next s) ∧
  (∀ s : State,
    (∀ w, s.tables.working = some w → s.debounceTime = 1000 * w.sequence.debounceTime) ∧
    (s.tables.working = none → s.debounceTime = 15000)) ∧
  (∀ (s : State) (c : Contactor), s.power = ⟨true, false⟩ → (s.seq.feedback.get c).interval = some 0 →
    let raw := (s.seq.feedback.get c).raw
    let s1 := s.withSeq { s.seq with feedback := s.seq.feedback.set c ⟨raw, raw, none⟩ }
    ((s.seq.state = .opened ∨ s.seq.state = .deferred ∨ s.seq.state = .tripped) →
      exec (.feedbackDebounceExpiry c) s = .next s1) ∧
    (s.seq.state = .closed →
      exec (.feedbackDebounceExpiry c) s =
        .next (if (c = .mneg ∨ c = .mpos) ∧ raw = false ∧ (s.seq.coils.get c).state ≠ .off then
            (s1.record .feedbackLost (some c) .feedback s.seq.running none).orderlyOpen .feedback
          else s1)) ∧
    ((s.seq.state = .closing ∨ s.seq.state = .opening) →
      (∀ r time, s.runningStep = some r → r.step = .awaitFb c raw time →
        exec (.feedbackDebounceExpiry c) s = .next (s1.stepDone r)) ∧
      ((∀ r time, s.runningStep = some r → r.step ≠ .awaitFb c raw time) →
        exec (.feedbackDebounceExpiry c) s = .next s1)))

/-- R110: the checks of CLOSE, in order, and the start of the sequence when they pass: CLOSE_CMD is recorded, the
sequencer is CLOSING at step 0 of the sequence, and its steps are carried out at the same event. -/
def Obligations.CloseChecks : Prop :=
  (∀ (s : State) (c : Command) (id : Nat), s.takeable .close = some c → argBelow8 c.payload.tail = some id →
    exec .close s =
      (if s.tablesLoaded = false then s.answered c (.refused .noTables)
       else if s.tables.engine = .activating then s.answered c .busy
       else if s.sleep.power ≠ .active then s.answered c (.refused .state)
       else if s.seq.state = .tripped then .next (s.popCommand.reply c ⟨.refused .state, [s.tripCauseByte]⟩)
       else if s.seq.state ≠ .opened then s.answered c .busy
       else
         match s.sequence id, s.activeProfile with
         | some q, some p =>
           if q.cls = .openSeq ∨ p.allowedClose.getLsbD id = false then s.answered c (.refused .notAllowed)
           else if s.lock.state = .unlocked ∨ s.lock.state = .acquiring then s.answered c (.refused .notLocked)
           else if s.closeBlocked = true then s.answered c (.refused .blocked)
           else .next ((s.popCommand.startClose id q).reply c (.plain .accepted))
         | _, _ => s.answered c (.refused .notAllowed))) ∧
  (∀ (s : State) (id : Nat) (q : Sequence),
    s.startClose id q =
      runClosing id q.cls q.steps 0
        ((s.record .closeCmd none .command (some id) (some 0)).withSeq
          { s.seq with
            state := .closing, running := some id, step := some 0, stepTimer := none, openCause := none }))

/-- R105, R107, R108, R109, R111: how a close sequence goes on from a step, in a state that runs sequence `id`: a DRIVE
that an interlock stops fails with INTERLOCK before any coil is driven by it; otherwise DRIVE and RELEASE act and the
next step follows at once; WAIT and the two AWAITs hold with their timer unless their condition already holds;
AWAIT_PRECHARGE fails without a reference; END records CLOSE_DONE and the sequencer is CLOSED. A step that fails records
CLOSE_FAILED with its contactor, reason, sequence and step, the reason is the open cause, and the default open sequence
starts. R100, R105, R108: a release of MNEG switches all four coils off at once, a release of another that one; a drive
of a coil that is off starts its pull-in time, and the 5 ms of its monitor unless its current already flows; a drive of
a coil that is driven and a release of one that is off change nothing. -/
def Obligations.CloseSequenceSteps : Prop :=
  (∀ (s : State) (id i : Nat) (cls : SeqClass) (rest : List SeqStep),
    (∀ c, (c ≠ .mneg ∧ s.seq.coils.mneg.state = .off ∨ c = .chg ∧ cls = .closeDrive) →
      runClosing id cls (.drive c :: rest) i s = s.closeFailed id i (some c) .interlock) ∧
    (∀ c, (c = .mneg ∨ s.seq.coils.mneg.state ≠ .off) → ¬ (c = .chg ∧ cls = .closeDrive) →
      runClosing id cls (.drive c :: rest) i s = runClosing id cls rest (i + 1) (s.driveCoil c)) ∧
    (∀ c, runClosing id cls (.release c :: rest) i s = runClosing id cls rest (i + 1) (s.releaseCoil c)) ∧
    (∀ t, runClosing id cls (.wait t :: rest) i s =
      s.withSeq { s.seq with step := some i, stepTimer := some (1000 * t) }) ∧
    (∀ c closed t, runClosing id cls (.awaitFb c closed t :: rest) i s =
      if (s.seq.feedback.get c).debounced = closed then runClosing id cls rest (i + 1) s
      else s.withSeq { s.seq with step := some i, stepTimer := some (1000 * t) }) ∧
    (∀ ratio t, runClosing id cls (.awaitPrecharge ratio t :: rest) i s =
      match s.precharge ratio with
      | .reached => runClosing id cls rest (i + 1) s
      | .notReached => s.withSeq { s.seq with step := some i, stepTimer := some (1000 * t) }
      | .noReference => s.closeFailed id i none .noReference) ∧
    (runClosing id cls (.endStep :: rest) i s =
      (s.record .closeDone none .command (some id) (some i)).withSeq
        { s.seq with state := .closed, step := none, stepTimer := none }) ∧
    (∀ contactor reason, s.closeFailed id i contactor reason =
      ((s.record .closeFailed contactor reason (some id) (some i)).withSeq
        { s.seq with openCause := some reason }).startOpen)) ∧
  (∀ s : State,
    (s.releaseCoil .mneg).noCoilDriven = true ∧
    (∀ c, ((s.releaseCoil c).seq.coils.get c).state = .off ∧ ((s.releaseCoil c).seq.coils.get c).pullInTimer =
      if (s.seq.coils.get c).state = .off then (s.seq.coils.get c).pullInTimer else none) ∧
    (∀ c d : Contactor, c ≠ .mneg → d ≠ c → (s.releaseCoil c).seq.coils.get d = s.seq.coils.get d) ∧
    (∀ (c : Contactor) (t : WorkingTables), s.tables.working = some t → (s.seq.coils.get c).state = .off →
      (s.driveCoil c).seq.coils.get c =
        ⟨.pullIn, some (1000 * t.sequence.pullInTime.get c), (s.seq.coils.get c).sense,
          if (s.seq.coils.get c).sense then none else some 5000, false⟩) ∧
    (∀ c : Contactor, (s.seq.coils.get c).state ≠ .off → s.driveCoil c = s) ∧
    (∀ c : Contactor, c ≠ .mneg → (s.seq.coils.get c).state = .off → s.releaseCoil c = s))

/-- R107, R109, R111, R115: the step timer's expiry: a WAIT is done; in CLOSING an AWAIT_FB fails with TIMEOUT, and an
AWAIT_PRECHARGE is done, fails with TIMEOUT or fails with NO_REFERENCE by the test; in OPENING an AWAIT_FB records a
weld suspicion of its contactor and is done. A step that is done stops the step timer, and the sequence goes on from
the step behind it at the same event. The current step is the one the record's sequence and step name. -/
def Obligations.StepTimerExpires : Prop :=
  (∀ (s : State) (r : Running), s.power = ⟨true, false⟩ → s.seq.stepTimer = some 0 → s.runningStep = some r →
    (∀ t, r.step = .wait t → exec .stepTimerExpiry s = .next (s.stepDone r)) ∧
    (∀ c closed t, r.step = .awaitFb c closed t →
      (s.seq.state = .closing →
        exec .stepTimerExpiry s = .next (s.closeFailed r.id r.index (some c) .timeout)) ∧
      (s.seq.state = .opening →
        exec .stepTimerExpiry s =
          .next (((s.record .weldSuspect (some c) .timeout (some 0) (some r.index)).withSeq
            { s.seq with weldSuspects := s.seq.weldSuspects.set c true }).stepDone r))) ∧
    (∀ ratio t, r.step = .awaitPrecharge ratio t →
      exec .stepTimerExpiry s =
        .next (match s.precharge ratio with
          | .reached => s.stepDone r
          | .notReached => s.closeFailed r.id r.index none .timeout
          | .noReference => s.closeFailed r.id r.index none .noReference))) ∧
  (∀ (s : State) (r : Running),
    let s1 := s.withSeq { s.seq with stepTimer := none }
    let rest := r.seq.steps.drop (r.index + 1)
    (s.seq.state = .closing → s.stepDone r = runClosing r.id r.seq.cls rest (r.index + 1) s1) ∧
    (s.seq.state = .opening → s.stepDone r = runOpening rest (r.index + 1) s1) ∧
    (s.runningStep = some r ↔
      s.seq.running = some r.id ∧ s.seq.step = some r.index ∧ s.sequence r.id = some r.seq ∧
        r.seq.steps[r.index]? = some r.step))

/-- R112, R113, R114: an orderly open of a CLOSING or CLOSED sequencer records OPEN_CMD, with the abandoned step or with
the END step; above the break limit it is recorded as deferred and DEFERRED waits the defer timeout with the coils as
they are (a timeout of 0 expires at the same event), and otherwise the default open sequence starts; the defer timer's
expiry records HIGH_CURRENT_BREAK and starts it. In every other state an orderly open changes nothing. R111, R115: the
default open sequence is sequence 0, OPENING from step 0 with no weld suspicion; a RELEASE acts and the next step
follows at once, WAIT and AWAIT_FB hold with their timer unless the state awaited is there, and END switches every coil
off and leaves OPEN, with OPEN_DONE and the cause of the open, or, when a weld is suspected, TRIPPED with cause WELD
and no OPEN_DONE. -/
def Obligations.OrderlyOpenDefersUnderCurrent : Prop :=
  ((∀ (s : State) (cause : Cause), (s.seq.state = .closing ∨ s.seq.state = .closed) →
    let stepAt : Option Nat := if s.seq.state = .closing then s.seq.step else s.endStepIndex
    let s1 := (s.record .openCmd none cause s.seq.running stepAt).withSeq
      { s.seq with stepTimer := none, openCause := some cause }
    let s2 := (s1.record .openDeferred none cause none none).withSeq
      { s.seq with
        state := .deferred
        running := none
        step := none
        stepTimer := none
        openCause := some cause
        deferTimer := some (1000 * s.deferTimeout) }
    (s.highCurrent = false → s.orderlyOpen cause = s1.startOpen) ∧
    (s.highCurrent = true → s.deferTimeout ≠ 0 → s.orderlyOpen cause = s2) ∧
    (s.highCurrent = true → s.deferTimeout = 0 →
      s.orderlyOpen cause = (s2.record .highCurrentBreak none .timeout none none).startOpen)) ∧
  (∀ s : State, s.power = ⟨true, false⟩ → s.seq.deferTimer = some 0 →
    exec .deferTimerExpiry s = .next (s.record .highCurrentBreak none .timeout none none).startOpen) ∧
  (∀ s : State, s.seq.state = .opened ∨ s.seq.state = .deferred ∨ s.seq.state = .opening ∨ s.seq.state = .tripped →
    ∀ cause, s.orderlyOpen cause = s) ∧
  (∀ (s : State) (id : Nat) (q : Sequence), s.seq.running = some id → s.sequence id = some q →
    s.endStepIndex = some (q.steps.length - 1)) ∧
  (∀ (s : State) (w : WorkingTables), s.tables.working = some w →
    (s.deferTimeout = w.sequence.deferTimeout) ∧
    (s.highCurrent = true ↔
      s.current.stream = .present ∧
        ∃ newest, s.current.ring.getLast? = some newest ∧ w.sequence.breakLimit < newest.current.natAbs))) ∧
  ((∀ (s : State) (q : Sequence), s.sequence 0 = some q →
    s.startOpen =
      runOpening q.steps 0
        (s.withSeq
          { s.seq with
            state := .opening, running := some 0, step := some 0, stepTimer := none, deferTimer := none
            weldSuspects := ⟨false, false, false, false⟩ })) ∧
  (∀ (s : State) (i : Nat) (rest : List SeqStep),
    (∀ c, runOpening (.release c :: rest) i s = runOpening rest (i + 1) (s.releaseCoil c)) ∧
    (∀ t, runOpening (.wait t :: rest) i s =
      s.withSeq { s.seq with step := some i, stepTimer := some (1000 * t) }) ∧
    (∀ c closed t, runOpening (.awaitFb c closed t :: rest) i s =
      if (s.seq.feedback.get c).debounced = closed then runOpening rest (i + 1) s
      else s.withSeq { s.seq with step := some i, stepTimer := some (1000 * t) }) ∧
    (runOpening (.endStep :: rest) i s).noCoilDriven = true ∧
    (∀ cause, s.seq.openCause = some cause → s.seq.weldSuspects = ⟨false, false, false, false⟩ →
      runOpening (.endStep :: rest) i s =
        (s.record .openDone none cause (some 0) (some i)).withSeq
          { s.seq with
            coils := s.seq.coils.map CoilDriver.release
            state := .opened
            running := none
            step := none
            stepTimer := none
            openCause := none
            deferTimer := none }) ∧
    (s.seq.weldSuspects ≠ ⟨false, false, false, false⟩ →
      runOpening (.endStep :: rest) i s =
        s.withSeq
          { s.seq with
            coils := s.seq.coils.map CoilDriver.release
            state := .tripped
            tripCause := some .weld
            running := none
            step := none
            stepTimer := none
            openCause := none
            deferTimer := none })))

/-- R116: OPEN is ACCEPTED and opens in CLOSING and CLOSED; in every other state it answers OK and changes nothing. R89,
R117, R118: a fast open, by command or by the oldest request of the limit monitor, switches every coil off, records
FAST_OPEN with its cause and leaves the sequencer TRIPPED with the cause of the first; nothing else changes (that the
weld-suspect set is kept is the model's choice, log 26). CLEAR_TRIP answers BUSY, STATE or BLOCKED in that order, or
leaves TRIPPED for OPEN. -/
def Obligations.OpenFastOpenAndClearTrip : Prop :=
  (∀ (s : State) (c : Command), s.takeable .openCmd = some c → argNone c.payload.tail = some () →
    ((s.seq.state = .closing ∨ s.seq.state = .closed) →
      exec .openCmd s = .next ((s.popCommand.orderlyOpen .command).reply c (.plain .accepted))) ∧
    (s.seq.state ≠ .closing → s.seq.state ≠ .closed → exec .openCmd s = s.answered c .ok)) ∧
  ((∀ (s : State) (c : Command), s.takeable .fastOpen = some c → argNone c.payload.tail = some () →
    exec .fastOpen s = .next ((s.popCommand.takeFastOpen .command).reply c (.plain .ok))) ∧
  (∀ (s : State) (e : Nat) (rest : List Nat), s.power = ⟨true, false⟩ → s.limits.fastOpenRequests = e :: rest →
    exec .limitFastOpenRequest s =
      .next ((s.withLimits { s.limits with fastOpenRequests := rest }).takeFastOpen (.limit e))) ∧
  (∀ (s : State) (cause : Cause),
    let t := s.takeFastOpen cause
    t.seq.state = .tripped ∧ Touches [.seq, .events] s t ∧
    t.events = s.events.hand (s.eventRecord .fastOpen none cause none none) ∧
    (s.seq.state = .tripped → t.seq = s.seq) ∧
    (s.seq.state ≠ .tripped →
      t.noCoilDriven = true ∧
      t.seq =
        { s.seq with
          coils := s.seq.coils.map fun d => if d.state = .off then d else ⟨.off, none, d.sense, none, false⟩
          state := .tripped
          tripCause := some cause
          running := none
          step := none
          stepTimer := none
          openCause := none
          deferTimer := none })) ∧
  (∀ (s : State) (c : Command), s.takeable .clearTrip = some c → argNone c.payload.tail = some () →
    exec .clearTrip s =
      (if s.tables.engine = .activating then s.answered c .busy
       else if s.seq.state ≠ .tripped then s.answered c (.refused .state)
       else if s.tripHeld = true then s.answered c (.refused .blocked)
       else .next ((s.popCommand.withSeq { s.seq with state := .opened, tripCause := none }).reply c (.plain .ok)))))

/-! ### The event queue (chapter 7) -/

/-- R127, R128, R130: a record handed to a queue with room joins its newest end; to a full queue it costs the oldest
record that is no FAST_OPEN, or is itself dropped when all are, and sets the overflow flag. READ_EVENTS answers EMPTY,
or the oldest up to n records with the counts (m plain, log 38) and the flag (as 1 or 0, log 31), takes them out and
clears the flag; nothing else changes. R185, section 11.4: an event record byte by byte. R78, R120, R126: what the
sequencer records: the present count and the round counter, the contactor, kind, cause, sequence and step of the event,
and the newest ring record's current, absent with the stream. R132, R133: ALERT is asserted exactly while the queue
holds a record, the overflow flag is set or ALERT is held, with power and outside reset. -/
def Obligations.EventQueueKeepsFastOpens : Prop :=
  (∀ (q : EventQueue) (r : EventRecord),
    (q.records.length < 32 → q.hand r = { q with records := q.records ++ [r] }) ∧
    (32 ≤ q.records.length →
      (∀ before after old, q.records = before ++ old :: after → (∀ x ∈ before, x.kind = .fastOpen) →
        old.kind ≠ .fastOpen → q.hand r = ⟨before ++ after ++ [r], true⟩) ∧
      ((∀ x ∈ q.records, x.kind = .fastOpen) → q.hand r = ⟨q.records, true⟩))) ∧
  (∀ (s : State) (c : Command) (k : Nat), s.takeable .readEvents = some c → argBelow8 c.payload.tail = some k →
    (s.events.records = [] → exec .readEvents s = s.answered c .empty) ∧
    (s.events.records ≠ [] →
      let m := min (k + 1) s.events.records.length
      exec .readEvents s =
        .next ((s.popCommand.withEvents ⟨s.events.records.drop m, false⟩).reply c
          ⟨.ok, [BitVec.ofNat 8 m, BitVec.ofNat 8 (s.events.records.length - m),
              if s.events.overflow then 1 else 0] ++
            (s.events.records.take m).flatMap EventRecord.bytes⟩))) ∧
  (∀ (s : State) (kind : EventKind) (contactor : Option Contactor) (cause : Cause) (sequence step : Option Nat),
    (s.record kind contactor cause sequence step =
      s.withEvents (s.events.hand
        ⟨s.now, s.store.roundCounter, contactor, kind, cause, s.packCurrent, sequence, step⟩)) ∧
    (s.current.stream = .absent → s.packCurrent = none) ∧
    (∀ newest, s.current.stream = .present → s.current.ring.getLast? = some newest →
      s.packCurrent = some ⟨newest.current, newest.saturated⟩) ∧
    (s.alertLine = true ↔
      s.power = ⟨true, false⟩ ∧ (s.events.records ≠ [] ∨ s.events.overflow = true ∨ s.alertHeld = true))) ∧
  (∀ r : EventRecord,
    r.bytes =
      littleEndian 4 r.stamp.toNat ++ littleEndian 4 r.newestRound.toNat ++
      [listPlace [.closeCmd, .closeDone, .closeFailed, .openCmd, .openDeferred, .highCurrentBreak, .openDone, .fastOpen,
          .weldSuspect, .feedbackLost, .coilFault] r.kind,
        listPlace [some .mneg, some .mpos, some .pre, some .chg, none] r.contactor, causeByte r.cause,
        orAbsent (r.sequence.map (BitVec.ofNat 8)), orAbsent (r.step.map (BitVec.ofNat 8))] ++
      (match r.current with
       | some c => setByte [true, c.saturated] :: littleEndianSigned 3 c.current
       | none => [0, 0, 0, 0]))

/-! ### Profiles (chapter 8) -/

/-- R139: the checks of the three profile commands, in order: NO_TABLES, BUSY, STATE; then RANGE, NOT_ALLOWED for a
WATCH profile, PROFILE_BUSY and, entering, DEPTH; RETURN is refused STATE from the base. R90, R144: the oldest ENTER
request of the limit monitor is taken under the checks of ENTER_PROFILE but for the class of the target: it is
refused with ENTRY_FAILED, or its profile is entered with cause LIMIT. -/
def Obligations.ProfileChecks : Prop :=
  ((∀ (row : Instr) (s : State) (c : Command), (row = .switchProfile ∨ row = .enterProfile ∨ row = .returnProfile) →
    s.takeable row = some c → formRight row c.payload.tail = true →
    (s.tablesLoaded = false → exec row s = s.answered c (.refused .noTables)) ∧
    (s.tablesLoaded = true → s.tables.engine = .activating → exec row s = s.answered c .busy) ∧
    (s.tablesLoaded = true → s.tables.engine ≠ .activating → s.sleep.power ≠ .active →
      exec row s = s.answered c (.refused .state))) ∧
  (∀ (row : Instr) (s : State) (c : Command) (p : Nat), (row = .switchProfile ∨ row = .enterProfile) →
    s.takeable row = some c → argBelow8 c.payload.tail = some p → s.tablesLoaded = true →
    s.tables.engine ≠ .activating → s.sleep.power = .active →
    (s.profileRecord p = none → exec row s = s.answered c (.refused .range)) ∧
    (∀ r, s.profileRecord p = some r →
      (r.watch = true → exec row s = s.answered c (.refused .notAllowed)) ∧
      (r.watch = false → s.busy p = true → exec row s = s.answered c (.refused .profileBusy)) ∧
      (r.watch = false → s.busy p = false → row = .enterProfile → 4 ≤ s.depth →
        exec row s = s.answered c (.refused .depth)))) ∧
  (∀ (s : State) (c : Command), s.takeable .returnProfile = some c → argNone c.payload.tail = some () →
    s.tablesLoaded = true → s.tables.engine ≠ .activating → s.sleep.power = .active → s.depth ≤ 1 →
    exec .returnProfile s = s.answered c (.refused .state))) ∧
  (∀ (s : State) (r : EnterRequest) (rest : List EnterRequest), s.power = ⟨true, false⟩ →
    s.limits.enterRequests = r :: rest →
    let s1 := s.withLimits { s.limits with enterRequests := rest }
    exec .limitEnterRequest s =
      .next (if s.tablesLoaded = true ∧ s.tables.engine ≠ .activating ∧ s.sleep.power = .active ∧
            (s.profileRecord r.profile).isSome = true ∧ s.busy r.profile = false ∧ s.depth < 4 then
          s1.enterCommit r.profile (.limit r.entry)
        else s1.withNorth { s.north with sticky := { s.north.sticky with entryFailed := true } }))

/-- R140 to R143, R146, R147: past the checks SWITCH replaces the active profile, ENTER puts the new one above it with
its run states and counters saved, and RETURN drops the active one and restores those saved; fresh run states are CLEAR
with count 0 and fresh counters 0; the due entries are cancelled, the round in assembly is marked, and the reply shows
the new chain. R90, R144: a limit ENTER request that is taken commits in the same way, with its cause and without a
reply. Only the profile chain, run states, counters, due entries, mark, lock, sequencer and event queue may change. R97,
R142, R143: an entry followed by the return leaves the chain, the run states and the counters as they were. R37, R148:
with the same lock parameters the lock is kept; with others, a lock whose L_est lies inside the new band is kept too,
also where the new tol has put its window close in the past, which is then due (the model's choice, log 42), and one
whose L_est lies outside it goes to ACQUIRING with the count 0 and nothing due, and a lock in ACQUIRING whose acquire
window has already closed is lost (a close at this very microtick is not yet one, the model's choice, log 39). R149: a
CLOSING or CLOSED sequencer is then asked for an orderly open with cause PROFILE when the new active profile does not
allow its sequence or has OPEN_ON_ENTRY, and nothing else changes. -/
def Obligations.ProfileCommits : Prop :=
  ((∀ (s : State) (c : Command) (p : Nat), s.takeable .switchProfile = some c → argBelow8 c.payload.tail = some p →
    s.profileCheck p true false = none →
    let chain : List ChainElement := ⟨p, .command, none⟩ :: s.profiles.chain.tail
    let t := ((s.popCommand.recast chain (s.freshFor chain)).lockCommit s.lockParams).postCommitOpen
    exec .switchProfile s = .next (t.reply c ⟨.ok, t.chainBytes⟩) ∧
      t.profiles.chain = chain ∧ t.freshlyCommitted s) ∧
  (∀ (s : State) (c : Command) (p : Nat) (a : ChainElement) (below : List ChainElement),
    s.takeable .enterProfile = some c → argBelow8 c.payload.tail = some p → s.profileCheck p true true = none →
    s.profiles.chain = a :: below →
    let chain : List ChainElement :=
      ⟨p, .command, none⟩ :: { a with saved := some ⟨s.limits.runStates, s.sched.counters⟩ } :: below
    let t := ((s.popCommand.recast chain (s.freshFor chain)).lockCommit s.lockParams).postCommitOpen
    exec .enterProfile s = .next (t.reply c ⟨.ok, t.chainBytes⟩) ∧
      t.profiles.chain = chain ∧ t.freshlyCommitted s) ∧
  (∀ (s : State) (c : Command) (a b : ChainElement) (below : List ChainElement) (context : SavedContext),
    s.takeable .returnProfile = some c → argNone c.payload.tail = some () → s.profileGate = none →
    s.profiles.chain = a :: b :: below → b.saved = some context →
    let chain : List ChainElement := { b with saved := none } :: below
    let t := ((s.popCommand.recast chain context).lockCommit s.lockParams).postCommitOpen
    exec .returnProfile s = .next (t.reply c ⟨.ok, t.chainBytes⟩) ∧
      t.profiles.chain = chain ∧ t.limits.runStates = context.runStates ∧
      t.sched.counters = context.counters ∧ t.committed s)) ∧
  (∀ (s : State) (p : Nat) (cause : Cause) (a : ChainElement) (below : List ChainElement),
    s.profiles.chain = a :: below →
    let chain : List ChainElement :=
      ⟨p, cause, none⟩ :: { a with saved := some ⟨s.limits.runStates, s.sched.counters⟩ } :: below
    s.enterCommit p cause = ((s.recast chain (s.freshFor chain)).lockCommit s.lockParams).postCommitOpen) ∧
  (∀ (s : State) (p : Nat) (cause : Cause) (a : ChainElement) (below : List ChainElement),
    s.profiles.chain = a :: below → a.saved = none →
    let t := (s.enterCommit p cause).returnCommit
    t.profiles = s.profiles ∧ t.limits = s.limits ∧ t.sched.counters = s.sched.counters) ∧
  (∀ (s : State) (old : LockParams) (p : ProfileRecord), s.activeProfile = some p →
    let closed : Prop :=
      ∃ before, s.lock.tLast = some before ∧
        0 < (s.now - (before + BitVec.ofNat 32 (p.lnom + p.tol + s.lag))).toInt
    let inBand : Prop := ((s.lock.lEst : Int) - p.lnom).natAbs ≤ p.tol
    let s1 := (s.withLock { s.lock with state := .acquiring, acquireCount := 0, missCount := 0 }).withSched
      { s.sched with due := [], held := [], waiting := none }
    (old = ⟨p.lnom, p.tol, p.holdoverLimit⟩ ∨ s.lock.state = .unlocked → s.lockCommit old = s) ∧
    (old ≠ ⟨p.lnom, p.tol, p.holdoverLimit⟩ → s.lock.state = .acquiring →
      (closed → s.lockCommit old = s.unlocked) ∧ (¬ closed → s.lockCommit old = s)) ∧
    (old ≠ ⟨p.lnom, p.tol, p.holdoverLimit⟩ → (s.lock.state = .locked ∨ s.lock.state = .holdover) →
      (inBand → s.lockCommit old = s) ∧
      (¬ inBand → closed → s.lockCommit old = s1.unlocked) ∧ (¬ inBand → ¬ closed → s.lockCommit old = s1)) ∧
    s.postCommitOpen =
      (if (s.seq.state = .closing ∨ s.seq.state = .closed) ∧
          (p.openOnEntry = true ∨ ∃ id, s.seq.running = some id ∧ p.allowedClose.getLsbD id = false) then
        s.orderlyOpen .profile
      else s))

/-! ### Sleep and wake (chapter 9) -/

/-- R153, R154: the checks of SLEEP, in order, and SLEEP_PENDING with the due entries cancelled when they pass. -/
def Obligations.SleepChecks : Prop :=
  ∀ (s : State) (c : Command), s.takeable .sleep = some c → argNone c.payload.tail = some () →
    exec .sleep s =
      (match s.activeProfile with
       | none => s.answered c (.refused .noTables)
       | some p =>
         if s.tables.engine = .erasing ∨ s.tables.engine = .programming ∨ s.tables.engine = .verifying ∨
             s.tables.engine = .activating then s.answered c .busy
         else if s.sleep.power ≠ .active then s.answered c (.refused .state)
         else if p.sleepOk = false then s.answered c (.refused .notAllowed)
         else if s.seq.state ≠ .opened then s.answered c (.refused .state)
         else if 4 ≤ s.depth then s.answered c (.refused .depth)
         else
           .next (((s.popCommand.withSleep { s.sleep with power := .sleepPending, entryStarted := false }).withSched
             { s.sched with due := [], held := [], waiting := none }).reply c (.plain .ok)))

/-- R155, R156, R68, R38: entry start, once no round is in assembly and no transaction in flight, answers every queued
forward BUSY in order, through the transmit queue or kept for it, and sends CHAIN_SLEEP; entry completion, once
CHAIN_SLEEP has gone out and nothing waits, enters the watch profile with cause SLEEP, unlocks, powers the current port
off, goes to the low-power oscillator, arms the detector and is ASLEEP with the watch timer running; the run states and
counters are fresh and nothing is due; the wake causes, the first of them and WAKE_OUT are kept (R161, R165); a
sequencer OPEN or TRIPPED (R121) and the event queue stay as they are, and nothing else changes. -/
def Obligations.SleepEntry : Prop :=
  (∀ s : State, s.power = ⟨true, false⟩ → s.sleep.power = .sleepPending → s.sleep.entryStarted = false →
    s.sched.assembly = none → s.chain.transaction = none → s.north.restartTaken = false → s.enumerating = false →
    let u := s.chain.forwardQueue.foldl (fun x e => x.chainReply (fwdReply e.dest e.tag .busy []))
      (s.withChain { s.chain with forwardQueue := [] })
    exec .entryStart s =
      .next ((u.withSleep { s.sleep with entryStarted := true }).withChain
        { u.chain with sleepClaim := none, transaction := some ⟨.chainSleep, .sending⟩ })) ∧
  (∀ s : State, s.power = ⟨true, false⟩ → s.sleep.power = .sleepPending → s.sleep.entryStarted = false →
    s.sched.assembly = none → s.chain.transaction = none → s.north.restartTaken = false → s.enumerating = false →
    s.chain.keptReplies = [] → s.north.claims = [] →
    s.north.tx.length + s.chain.forwardQueue.length ≤ 8 →
    exec .entryStart s =
      .next (((s.withChain
        { s.chain with forwardQueue := [], sleepClaim := none, transaction := some ⟨.chainSleep, .sending⟩ }).withNorth
        { s.north with
          tx := s.north.tx ++ s.chain.forwardQueue.map fun e => fwdReply e.dest e.tag .busy [] }).withSleep
        { s.sleep with entryStarted := true })) ∧
  (∀ (s : State) (p w : ProfileRecord) (m : ModuleTable), s.power = ⟨true, false⟩ →
    s.sleep.power = .sleepPending → s.sleep.entryStarted = true → s.sleep.chainSleep = .asleep →
    s.chain.transaction = none → s.chain.sleepClaim = none → s.chain.keptReplies = [] → s.north.holding = none →
    s.north.commands = [] → s.north.tx = [] → s.north.receiver = .idle → s.tables.engine ≠ .erasing →
    s.tables.engine ≠ .programming → s.tables.engine ≠ .verifying → s.north.restartTaken = false →
    s.activeProfile = some p →
    p.watchProfile = some w.id → s.profileRecord w.id = some w → s.moduleTable = some m →
    ∃ t, exec .entryCompletion s = .next t ∧ t.sleep.power = .asleep ∧
      t.profiles.chain = ⟨w.id, .sleep, none⟩ :: s.savedChain ∧
      t.lock = ⟨.unlocked, none, s.lock.lEst, 0, 0⟩ ∧ t.current = ⟨[], .absent, none, false, none, none⟩ ∧
      t.timebase = ⟨s.now, .lowPower⟩ ∧
      t.sleep =
        { s.sleep with
          power := .asleep
          watchTimer := some (1000000 * w.watchInterval)
          watchPassCount := 0
          wakePending := false
          detectorArmed := true
          holdInterval :=
            if m.wakeInMode = .high ∧ s.sleep.wakeInHigh = true ∨ m.wakeInMode = .low ∧ s.sleep.wakeInHigh = false then
              some (1000 * m.holdTime)
            else none } ∧
      t.limits = { s.limits with runStates := t.limitSet.map fun _ => ⟨.clear, 0, none⟩ } ∧
      t.sched =
        ⟨t.activeSchedule.map fun _ => 0, [], [], none, s.sched.assembly.map fun r => { r with commitMark := true }⟩ ∧
      (s.seq.state = .opened ∨ s.seq.state = .tripped → t.seq = s.seq ∧ t.events = s.events) ∧
      Touches (Block.commit ++ [.timebase, .current, .sleep]) s t)

/-- R157, R158, R160: at the watch timer's expiry the power state is WATCH_ROUND and CHAIN_WAKE is sent; when the chain
wake time has passed, the pass takes the first entry that is due and holds the others, each at the present count; a pass
with nothing due is complete at once and sends CHAIN_SLEEP, unless a wake is pending or the report-every count is
reached; in WAKING, and after the pass, only the timer stops. R159, R160, R163: when a round of the pass has been
offered, a wake it asked for is recorded as LIMIT; with a wake pending the other due entries are cancelled and the pass
is completed; otherwise the next is taken, or, when there is none, the pass is completed. A completed pass is counted,
and returns the count to 0 and records REPORT when the count reaches the report-every count, unless that is 0; with a
wake pending the part is WAKING and CHAIN_SLEEP is not sent, and otherwise CHAIN_SLEEP is sent (once the link is free,
log 32). When it has been sent the chain sleeps, and the part is ASLEEP with the watch timer started, or, with a wake
pending, WAKING with the timer stopped. When CHAIN_WAKE has been sent with a wake pending the part is WAKING (log 28).
-/
def Obligations.WatchCycle : Prop :=
  ((∀ s : State, s.power = ⟨true, false⟩ → s.sleep.power = .asleep → s.sleep.watchTimer = some 0 →
    s.linkFree = true →
    exec .watchTimerExpiry s =
      .next ((s.withSleep { s.sleep with power := .watchRound, watchTimer := none, passMade := false }).withChain
        { s.chain with sleepClaim := none, transaction := some ⟨.chainWake false, .sending⟩ })) ∧
  (∀ s : State, s.power = ⟨true, false⟩ → s.sleep.chainWakeTimer = some 0 →
    (s.sleep.power ≠ .watchRound ∨ s.sleep.passMade = true) →
    exec .chainWakeTimerExpiry s = .next (s.withSleep { s.sleep with chainWakeTimer := none })) ∧
  (∀ (s : State) (d : DueEntry) (rest : List DueEntry), s.power = ⟨true, false⟩ → s.sleep.chainWakeTimer = some 0 →
    s.sleep.power = .watchRound → s.sleep.passMade = false →
    dueEntries (fun _ => s.now) 0 s.activeSchedule s.sched.counters [] = d :: rest →
    exec .chainWakeTimerExpiry s =
      .next (((s.withSleep { s.sleep with chainWakeTimer := none, passMade := true }).withStore
        { s.store with roundCounter := s.store.roundCounter + 1 }).withSched
        { s.sched with
          counters := advanceCounters s.activeSchedule s.sched.counters
          held := rest
          waiting := some ⟨d.index, d.instant, s.store.roundCounter + 1⟩ })) ∧
  (∀ s : State, s.power = ⟨true, false⟩ → s.sleep.chainWakeTimer = some 0 → s.sleep.power = .watchRound →
    s.sleep.passMade = false →
    dueEntries (fun _ => s.now) 0 s.activeSchedule s.sched.counters [] = [] →
    let s1 := (s.withSleep { s.sleep with chainWakeTimer := none, passMade := true }).withSched
      { s.sched with counters := advanceCounters s.activeSchedule s.sched.counters, held := [] }
    exec .chainWakeTimerExpiry s = .next s1.completePass ∧
    (s.sleep.wakePending = false → s.reportEvery = 0 → s.linkFree = true →
      exec .chainWakeTimerExpiry s =
        .next (s1.withChain { s.chain with sleepClaim := none, transaction := some ⟨.chainSleep, .sending⟩ })))) ∧
  ((∀ (s : State) (wake : Bool),
    let s1 := if wake = true then s.wakeCause .limit else s
    (s1.sleep.wakePending = true →
      s.watchRoundOffered wake =
        (s1.withSched { s1.sched with due := [], held := [], waiting := none }).completePass) ∧
    (s1.sleep.wakePending = false →
      (s1.sched.held = [] → s.watchRoundOffered wake = s1.completePass) ∧
      (∀ d rest, s1.sched.held = d :: rest →
        s.watchRoundOffered wake =
          (s1.withStore { s1.store with roundCounter := s1.store.roundCounter + 1 }).withSched
            { s1.sched with held := rest, waiting := some ⟨d.index, d.instant, s1.store.roundCounter + 1⟩ }))) ∧
  (∀ s : State,
    let counted :=
      if s.reportEvery = 0 then s
      else if s.sleep.watchPassCount + 1 = s.reportEvery then
        (s.withSleep { s.sleep with watchPassCount := 0 }).wakeCause .report
      else s.withSleep { s.sleep with watchPassCount := s.sleep.watchPassCount + 1 }
    s.completePass = (if counted.sleep.wakePending = true then counted.enterWaking else counted.claimLink .sleep) ∧
    (s.linkFree = true →
      s.claimLink .sleep = s.withChain { s.chain with sleepClaim := none, transaction := some ⟨.chainSleep, .sending⟩ } ∧
      s.claimLink .wake =
        s.withChain { s.chain with sleepClaim := none, transaction := some ⟨.chainWake false, .sending⟩ }) ∧
    (s.linkFree = false → ∀ f, s.claimLink f = s.withChain { s.chain with sleepClaim := some f })) ∧
  (∀ s : State, s.power = ⟨true, false⟩ → s.sleep.power = .watchRound → s.chain.sleepClaim = none →
    s.enumerating = false →
    let port : CurrentPort := { s.current with ring := [], stream := .absent, streamTimer := none, portOn := true }
    (s.chain.transaction = some ⟨.chainSleep, .sending⟩ → s.sleep.wakePending = false →
      exec .chainFrameSent s =
        .next ((s.withChain { s.chain with transaction := none }).withSleep
          { s.sleep with chainSleep := .asleep, power := .asleep, watchTimer := some s.watchInterval })) ∧
    (s.chain.transaction = some ⟨.chainSleep, .sending⟩ → s.sleep.wakePending = true →
      exec .chainFrameSent s =
        .next (((s.withChain { s.chain with transaction := some ⟨.chainWake false, .sending⟩ }).withSleep
          { s.sleep with chainSleep := .asleep, power := .waking, watchTimer := none }).withCurrent port)) ∧
    (s.chain.transaction = some ⟨.chainWake false, .sending⟩ → s.sleep.wakePending = true →
      exec .chainFrameSent s =
        .next (((s.withChain { s.chain with transaction := none }).withSleep
          { s.sleep with
            chainSleep := .awake
            chainWakeTimer := some (1000 * s.chainWakeTime)
            power := .waking
            watchTimer := none }).withCurrent port))) ∧
  (∀ (s : State) (w : ProfileRecord), s.activeProfile = some w →
    s.watchInterval = 1000000 * w.watchInterval ∧ s.chainWakeTime = w.chainWakeTime ∧
      s.reportEvery = w.reportEvery))

/-- R161, R162, R163, R164: what wakes the part. A start delimiter in deep sleep is a cause LINK, and an end of the hold
interval a cause WAKE_IN; in ASLEEP both make it WAKING, power the current port, stop the watch timer and send
CHAIN_WAKE when the chain sleeps. The detector, disarmed, only follows the input; armed in a level mode it starts the
hold interval at its level and cancels it away from it; armed in an edge mode it detects its edge. What a cause does: in
ACTIVE and SLEEP_PENDING nothing; in ASLEEP it joins the set, is the first and the part is WAKING; in WAKING it joins
the set; in WATCH_ROUND it joins the set and is the first unless a wake is pending; after the pass a wake is pending,
also while CHAIN_SLEEP is claimed and waits (the model's choice, log 32); before the pass, a wake is pending while
CHAIN_WAKE is being sent (the model's choice, log 28), so that a second cause in that time is not the first (the model's
choice, log 41), and with CHAIN_WAKE sent the part is WAKING. R164, R165: when CHAIN_WAKE has gone out and the chain
wake time has passed, WAKING ends: the profile that slept is active again with its run states and counters, the count
runs from the main oscillator, the detector is disarmed, WAKE_OUT is asserted and the power state is ACTIVE; the wake
causes are kept, and so is the watch pass count (the model's choice, log 43). R90, R159: an ENTER request not yet taken
then is refused with ENTRY_FAILED (log 33). -/
def Obligations.WakeCausesAndWaking : Prop :=
  ((∀ s : State, s.power = ⟨true, false⟩ → s.deepSleep = true →
    let s1 := s.withNorth
      { s.north with
        receiver := .assembling s.now true
        sticky := { s.north.sticky with
          linkError := s.north.sticky.linkError || s.north.receiver.assemblingAwake } }
    exec .startDelimiter s = .next (s1.wakeCause .link) ∧
    (s.sleep.power = .asleep → s.sleep.chainSleep = .asleep → s.linkFree = true →
      exec .startDelimiter s = .next (s1.woken .link))) ∧
  (∀ s : State, s.power = ⟨true, false⟩ → s.sleep.detectorArmed = true → s.sleep.holdInterval = some 0 →
    let s1 := s.withSleep { s.sleep with holdInterval := none }
    exec .wakeInHoldExpiry s = .next (s1.wakeCause .wakeIn) ∧
    (s.sleep.power = .asleep → s.sleep.chainSleep = .asleep → s.linkFree = true →
      exec .wakeInHoldExpiry s = .next (s1.woken .wakeIn))) ∧
  (∀ (s : State) (high : Bool), s.sleep.detectorArmed = false →
    exec (.wakeInChange high) s = .next (s.withSleep { s.sleep with wakeInHigh := high })) ∧
  (∀ (s : State) (high : Bool) (m : ModuleTable), s.power = ⟨true, false⟩ → s.sleep.detectorArmed = true →
    s.moduleTable = some m → s.sleep.wakeInHigh = !high →
    let s1 := s.withSleep { s.sleep with wakeInHigh := high }
    ((m.wakeInMode = .high ∨ m.wakeInMode = .low) →
      exec (.wakeInChange high) s =
        .next (s.withSleep
          { s.sleep with
            wakeInHigh := high
            holdInterval := if (m.wakeInMode = .high ↔ high = true) then some (1000 * m.holdTime) else none })) ∧
    ((m.wakeInMode = .rising ∧ high = true ∨ m.wakeInMode = .falling ∧ high = false) →
      exec (.wakeInChange high) s = .next (s1.wakeCause .wakeIn) ∧
      (s.sleep.power = .asleep → s.sleep.chainSleep = .asleep → s.linkFree = true →
        exec (.wakeInChange high) s = .next (s1.woken .wakeIn))) ∧
    ((m.wakeInMode = .rising ∧ high = false ∨ m.wakeInMode = .falling ∧ high = true) →
      exec (.wakeInChange high) s = .next s1))) ∧
  ((∀ (s : State) (c : WakeCause),
    let joined := s.sleep.wakeCauses.add c
    let port : CurrentPort := { s.current with ring := [], stream := .absent, streamTimer := none, portOn := true }
    ((s.sleep.power = .active ∨ s.sleep.power = .sleepPending) → s.wakeCause c = s) ∧
    (s.sleep.power = .asleep →
      s.wakeCause c = (s.withSleep { s.sleep with wakeCauses := joined, firstCause := some c }).enterWaking) ∧
    (s.sleep.power = .waking → s.wakeCause c = s.withSleep { s.sleep with wakeCauses := joined }) ∧
    (s.sleep.power = .watchRound →
      let first := if s.sleep.wakePending = true then s.sleep.firstCause else some c
      ((s.sleep.passMade = true ∨ s.sleep.chainSleep = .asleep) →
        s.wakeCause c =
          s.withSleep { s.sleep with wakeCauses := joined, firstCause := first, wakePending := true }) ∧
      (s.sleep.passMade = false → s.sleep.chainSleep = .awake →
        s.wakeCause c = (s.withSleep { s.sleep with wakeCauses := joined, firstCause := first }).enterWaking)) ∧
    (let s1 := (s.withSleep { s.sleep with power := .waking, watchTimer := none }).withCurrent port
     (s.sleep.chainSleep = .awake → s.enterWaking = s1) ∧
     (s.sleep.chainSleep = .asleep → s.enterWaking = s1.claimLink .wake))) ∧
  (∀ w : WakeCauses,
    w.add .limit = { w with limit := true } ∧ w.add .wakeIn = { w with wakeIn := true } ∧
      w.add .link = { w with link := true } ∧ w.add .tamper = { w with tamper := true } ∧
      w.add .report = { w with report := true })) ∧
  (∀ (s : State) (a b : ChainElement) (below : List ChainElement) (context : SavedContext), s.power = ⟨true, false⟩ →
    s.sleep.power = .waking → s.chain.transaction = none → s.chain.sleepClaim = none →
    s.sleep.chainWakeTimer = none → s.profiles.chain = a :: b :: below → b.saved = some context →
    ∃ t, exec .wakingEnd s = .next t ∧ t.profiles.chain = { b with saved := none } :: below ∧
      t.limits = ⟨context.runStates, s.limits.fastOpenRequests, []⟩ ∧ t.sched.counters = context.counters ∧
      t.north =
        (if s.limits.enterRequests = [] then s.north
         else { s.north with sticky := { s.north.sticky with entryFailed := true } }) ∧
      t.timebase = ⟨s.now, .main⟩ ∧
      t.sleep =
        { s.sleep with
          detectorArmed := false, holdInterval := none, wakePending := false, wakeOut := true, power := .active } ∧
      Touches ([.north, .timebase, .sleep] ++ Block.commit) s t)

/-! ### The table store and its updates (chapter 10) -/

/-- R170 to R174: UPD_ERASE, UPD_WRITE and UPD_VERIFY by the engine's state, and what they begin: the erase of a staging
block for 20 ms; the program of the bytes up to the end of their row for 1 ms, on a row whose mark is clear, which
sets the mark; verification. Nothing else changes. The count programmed is sent plain (the model's choice, log 38). -/
def Obligations.UpdateCommands : Prop :=
  (∀ (row : Instr) (s : State) (c : Command), (row = .updErase ∨ row = .updWrite) → s.takeable row = some c →
    formRight row c.payload.tail = true →
    ((s.tables.engine = .erasing ∨ s.tables.engine = .programming ∨ s.tables.engine = .verifying ∨
        s.tables.engine = .activating) → exec row s = s.answered c .busy) ∧
    (∀ cause, s.tables.engine = .locked cause → exec row s = s.answered c (.refused .locked))) ∧
  (∀ (s : State) (c : Command) (block : Nat), s.takeable .updErase = some c → argBlock c.payload.tail = some block →
    (s.tables.engine = .idle ∨ s.tables.engine = .verified) →
    exec .updErase s =
      (if 27 < block then s.answered c (.refused .range)
       else
         .next ((s.popCommand.withTables
           { s.tables with
             engine := .erasing
             operation := some ⟨.erase (s.stagingSlot.firstBlock + block) false, 20000⟩ }).reply c (.plain .accepted)))) ∧
  (∀ (s : State) (c : Command) (a : UpdWriteArgs), s.takeable .updWrite = some c →
    argUpdWrite c.payload.tail = some a → (s.tables.engine = .idle ∨ s.tables.engine = .verified) →
    exec .updWrite s =
      (if 57344 ≤ a.offset then s.answered c (.refused .range)
       else if s.tables.marks.getD (a.offset / 64) true = true then s.answered c (.refused .notErased)
       else
         let data := a.data.take (64 - a.offset % 64)
         .next ((s.popCommand.withTables
           { s.tables with
             marks := s.tables.marks.set (a.offset / 64) true
             engine := .programming
             operation := some ⟨.program (s.stagingSlot.base + a.offset) data, 1000⟩ }).reply c
               ⟨if data.length = a.data.length then .accepted else .isPartial, [BitVec.ofNat 8 data.length]⟩))) ∧
  (∀ (s : State) (c : Command), s.takeable .updVerify = some c → argNone c.payload.tail = some () →
    exec .updVerify s =
      (match s.tables.engine with
       | .idle => .next ((s.popCommand.withTables { s.tables with engine := .verifying }).reply c (.plain .accepted))
       | .erasing | .programming | .verifying | .activating => s.answered c .busy
       | .verified => s.answered c (.refused .state)
       | .locked _ => s.answered c (.refused .locked)))

/-- R167, R172, R173: the end of an erase gives every byte of its block the blank value and clears the marks of its
rows, the end of a program gives each byte its value; every other byte of the array reads as before; the engine is
IDLE again, or still, when an RST_N or RESTART has come since the operation began (R184). -/
def Obligations.ArrayOperationsEnd : Prop :=
  (∀ (s : State) (block : Nat), s.power.powered = true → ArraySafe s →
    (s.tables.engine = .erasing ∨ s.tables.engine = .idle) →
    s.tables.operation = some ⟨.erase (s.stagingSlot.firstBlock + block) false, 0⟩ → block < 28 →
    s.tables.marks.length = 896 →
    ∃ t, exec .blockEraseComplete s = .next t ∧ t.tables.engine = .idle ∧ t.tables.operation = none ∧
      (∀ a, Memory.read t.tables.array a =
        if (s.stagingSlot.firstBlock + block) * 2048 ≤ a ∧ a < (s.stagingSlot.firstBlock + block + 1) * 2048 then 0xFF
        else Memory.read s.tables.array a) ∧
      (∀ row, row < 896 → t.tables.marks.getD row true =
        if row / 32 = block then false else s.tables.marks.getD row true) ∧
      t.tables.slotPointer = s.tables.slotPointer ∧ t.tables.counter = s.tables.counter ∧ Touches [.tables] s t) ∧
  (∀ (s : State) (address : Nat) (bytes : List Byte), s.power.powered = true → ArraySafe s →
    (s.tables.engine = .programming ∨ s.tables.engine = .idle) →
    s.tables.operation = some ⟨.program address bytes, 0⟩ →
    ∃ t, exec .rowProgramComplete s = .next t ∧ t.tables.engine = .idle ∧ t.tables.operation = none ∧
      (∀ a, Memory.read t.tables.array a =
        if address ≤ a ∧ a < address + bytes.length then bytes.getD (a - address) 0xFF
        else Memory.read s.tables.array a) ∧
      t.tables.marks = s.tables.marks ∧ t.tables.slotPointer = s.tables.slotPointer ∧
      t.tables.counter = s.tables.counter ∧ Touches [.tables] s t)

/-- R174, R175: verification ends PASSED, with the failure count 0 and the engine VERIFIED, or with the reason of the
first failing check and one more failure, after the third of which the engine is LOCKED for FAILS; an image whose
version is not above the counter never passes. R169, R174, R182: the checks in their order, FORMAT, DIRECTORY, FIELDS,
VERSION and TAG, each applied only to an image that passes those before it: the format word and an image length that
holds header, directory and tag and fits the slot; the directory at offset 16; every field of every table in its range
and every reference resolved (what the check reads as a range is the model's reading, log 11, and that it does not test
the ENTER target of an entry without ENTER is the model's choice, log 47; that an allowed close sequence may be of class
OPEN is the model's choice, log 44); the version; the last 16 bytes equal to the tag the tag engine computes over the
bytes before them. An image that passes is authentic. Section 11.6: the tables an image gives hold, field by field, what
stands at the offsets of their layout; unused bits and bytes are ignored (R185; logs 11, 35 and 38). -/
def Obligations.VerificationEnds : Prop :=
  (∀ s : State, s.power = ⟨true, false⟩ → s.tables.engine = .verifying →
    (∀ w, s.verifyStaging = .ok w →
      s.tables.counter < w.version ∧
      exec .verificationEnd s =
        .next (s.withTables
          { s.tables with lastVerification := .passed, failureCount := 0, engine := .verified })) ∧
    (∀ r, s.verifyStaging = .error r →
      exec .verificationEnd s =
        .next (s.withTables
          { s.tables with
            lastVerification := .failed r
            failureCount := s.tables.failureCount + 1
            engine := if s.tables.failureCount + 1 < 3 then .idle else .locked .fails }))) ∧
  (∀ s : State, s.verifyStaging =
    checkImage s.tables.secret s.tables.array s.stagingSlot fun v => decide (s.tables.counter < v)) ∧
  (∀ (secret : List Byte) (mem : List Host.Cell) (slot : Slot) (versionOk : BitVec 32 → Bool),
    let start : Nat := match slot with
      | .zero => 0
      | .one => 57344
    let header := (List.range 16).map fun i => Memory.read mem (start + i)
    let version := BitVec.ofNat 32 (imageField header 4 4)
    let length := imageField header 8 4
    let n := imageField header 12 1 + 1
    let image := (List.range length).map fun i => Memory.read mem (start + i)
    let tagged := image.drop (length - 16) = (Config.computedTag secret (image.take (length - 16))).toList
    let result := checkImage secret mem slot versionOk
    let format : Prop := imageField header 0 4 = 0x7C20D1A5 ∧ 16 + 6 * n + 16 ≤ length ∧ length ≤ 57344
    (¬ format → result = .error .format) ∧
    (format →
      (¬ DirectorySound n image (imageDirectory image n) → result = .error .directory) ∧
      (DirectorySound n image (imageDirectory image n) →
        (readTables version image (imageDirectory image n) = none → result = .error .fields) ∧
        (∀ w, readTables version image (imageDirectory image n) = some w →
          w.Sound ∧ w.version = version ∧ w.LaidOut image (imageDirectory image n) ∧
          (versionOk version = false → result = .error .version) ∧
          (versionOk version = true → ¬ tagged → result = .error .tag) ∧
          (versionOk version = true → tagged → result = .ok w)))))

/-- R176, R177, R178: the checks of UPD_ACTIVATE, in order; what its taking begins (R144: a limit ENTER request not yet
taken is dropped with ENTRY_FAILED); the slot-pointer write and, behind it, the counter write with the version in the
new active slot; after an RST_N or RESTART the slot-pointer write still takes, and no counter write follows it (R179);
the reload, once neither an operation nor a transaction is in flight: the tables of the active slot, the load result
LOADED, the last verification NONE, every mark set, the chain [base], the lock UNLOCKED, the store and the ring emptied,
and ENUMERATE sent; with the tamper latch set the engine is LOCKED(TAMPER) and the tamper erase begins at block 0; the
sequencer keeps its state and trip cause, and a feedback debounce that runs is restarted with the new time (R102, R122);
nothing else changes (R184). -/
def Obligations.Activation : Prop :=
  (∀ (s : State) (c : Command), s.takeable .updActivate = some c → argNone c.payload.tail = some () →
    exec .updActivate s =
      (match s.tables.engine with
       | .erasing | .programming | .verifying | .activating => s.answered c .busy
       | .locked _ => s.answered c (.refused .locked)
       | .idle => s.answered c (.refused (if s.tables.tamperLatch = true then .locked else .state))
       | .verified =>
         if s.tables.tamperLatch = true then s.answered c (.refused .locked)
         else if s.sleep.power ≠ .active then s.answered c (.refused .state)
         else if s.seq.state ≠ .opened ∧ s.seq.state ≠ .tripped then s.answered c (.refused .state)
         else if s.activateForbidden = true then s.answered c (.refused .notAllowed)
         else .next (s.popCommand.beginActivation.reply c (.plain .accepted)))) ∧
  (∀ s : State, s.activateForbidden = true ↔ ∃ p, s.activeProfile = some p ∧ p.activateOk = false) ∧
  (∀ s : State,
    let t := s.beginActivation
    t.tables = { s.tables with engine := .activating, operation := some ⟨.pointerWrite s.stagingSlot, 5000⟩ } ∧
    t.sched = { s.sched with due := [], held := [], waiting := none, assembly := none } ∧
    t.current.alignWait = none ∧ t.chain = { s.chain with trims := List.replicate 20 none } ∧
    t.limits.enterRequests = [] ∧
    t.north.sticky.entryFailed = (s.north.sticky.entryFailed || !s.limits.enterRequests.isEmpty) ∧
    Touches [.north, .chain, .sched, .current, .limits, .tables] s t) ∧
  (∀ (s : State) (slot : Slot), s.power.powered = true → s.tables.engine = .activating →
    s.tables.operation = some ⟨.pointerWrite slot, 0⟩ →
    exec .slotPointerWriteComplete s =
      .next (s.withTables
        { s.tables with
          slotPointer := slot
          operation := some ⟨.counterWrite (readHeader s.tables.array slot).version false, 5000⟩ })) ∧
  (∀ (s : State) (slot : Slot), s.power.powered = true → s.tables.engine ≠ .activating →
    s.tables.operation = some ⟨.pointerWrite slot, 0⟩ →
    exec .slotPointerWriteComplete s =
      .next (s.withTables { s.tables with slotPointer := slot, operation := none })) ∧
  (∀ (s : State) (v : BitVec 32) (loading : Bool), s.power.powered = true →
    s.tables.operation = some ⟨.counterWrite v loading, 0⟩ →
    exec .counterWriteComplete s = .next (s.withTables { s.tables with counter := v, operation := none })) ∧
  (∀ (s : State) (w : WorkingTables) (p : ProfileRecord), s.power = ⟨true, false⟩ →
    s.tables.engine = .activating → s.tables.operation = none → s.chain.transaction = none → s.activeTables = some w →
    w.profiles.find? (·.base) = some p →
    ∃ t, exec .reload s = .next t ∧
      t.tables =
        { s.tables with
          working := some w
          loadResult := .loaded
          lastVerification := .none
          marks := allMarks
          engine := if s.tables.tamperLatch then .locked .tamper else .idle
          tamperErase := if s.tables.tamperLatch then some 0 else s.tables.tamperErase
          operation :=
            if s.tables.tamperLatch = true ∧ s.tables.startUp ≠ .waiting then
              some ⟨.erase s.stagingSlot.firstBlock true, 20000⟩
            else none } ∧
      t.profiles.chain = [⟨p.id, .start, none⟩] ∧ t.lock = ⟨.unlocked, none, p.lnom, 0, 0⟩ ∧
      t.store = { s.store with records := [], openMark := false } ∧
      t.current =
        { s.current with ring := [], stream := .absent, streamTimer := none, reference := none, alignWait := none } ∧
      t.limits = { s.limits with runStates := t.limitSet.map fun _ => ⟨.clear, 0, none⟩ } ∧
      t.sched = { s.sched with counters := t.activeSchedule.map fun _ => 0 } ∧
      (∀ c, t.seq.feedback.get c =
        { s.seq.feedback.get c with
          interval := (s.seq.feedback.get c).interval.map fun _ => 1000 * w.sequence.debounceTime }) ∧
      t.seq = { s.seq with feedback := t.seq.feedback } ∧
      t.chain = { s.chain with enumeration := .running none, transaction := some ⟨.enumerate, .sending⟩ } ∧
      Touches [.chain, .lock, .sched, .store, .current, .limits, .seq, .profiles, .tables] s t)

/-- R167, R171, R180, R181: TAMPER is debounced for 10 ms, with power and outside reset; an assertion sets the latch, is
a wake cause, and, outside ACTIVATING, locks the engine; behind an erase or a program of the engine the erase of the
staging slot begins when that has completed, and otherwise at once, as soon as the array is free; that no block erase
of it begins while start-up loading waits for the array is the model's choice (log 19); in ACTIVATING only the latch
is set. Each block erase of the tamper erase gives its 2,048 bytes the blank
value and clears the marks of its 32 rows, leaves every other byte and mark as it was, and is followed by the next, the
28th by none. An erase or a program that completes under LOCKED(TAMPER) has its effect and is followed by the erase of
block 0. A level TAMPER already has, and a debounce that has not run out, change nothing (log 2). -/
def Obligations.TamperLocksAndErases : Prop :=
  ((∀ (s : State) (active : Bool),
    (s.tables.tamper.raw = active → exec (.tamperInputChange active) s = .next s) ∧
    (s.tables.tamper.raw = !active →
      exec (.tamperInputChange active) s =
        .next (s.withTables
          { s.tables with
            tamper := ⟨active, s.tables.tamper.debounced,
              if s.power ≠ ⟨true, false⟩ ∨ active = s.tables.tamper.debounced then none else some 10000⟩ }))) ∧
  (∀ s : State, (s.power ≠ ⟨true, false⟩ ∨ s.tables.tamper.interval ≠ some 0) →
    exec .tamperDebounceExpiry s = .next s) ∧
  (∀ s : State, s.power = ⟨true, false⟩ → s.tables.tamper.interval = some 0 →
    let settled (t : TableStore) : TableStore := { t with tamper := ⟨s.tables.tamper.raw, s.tables.tamper.raw, none⟩ }
    (s.tables.tamper.raw = false → exec .tamperDebounceExpiry s = .next (s.withTables (settled s.tables))) ∧
    (s.tables.tamper.raw = true → (s.tables.engine = .activating ∨ s.tables.engine = .locked .tamper) →
      exec .tamperDebounceExpiry s =
        .next ((s.withTables (settled { s.tables with tamperLatch := true })).wakeCause .tamper)) ∧
    (s.tables.tamper.raw = true → (s.tables.engine = .erasing ∨ s.tables.engine = .programming) →
      exec .tamperDebounceExpiry s =
        .next ((s.withTables (settled
          { s.tables with tamperLatch := true, engine := .locked .tamper })).wakeCause .tamper)) ∧
    (s.tables.tamper.raw = true → s.tables.engine ≠ .activating → s.tables.engine ≠ .locked .tamper →
      s.tables.engine ≠ .erasing → s.tables.engine ≠ .programming →
      exec .tamperDebounceExpiry s =
        .next ((s.withTables (settled
          { s.tables with
            tamperLatch := true
            engine := .locked .tamper
            lastVerification := if s.tables.engine = .verifying then .abandoned else s.tables.lastVerification
            tamperErase := some 0
            operation := match s.tables.operation with
              | none =>
                if s.tables.startUp = .waiting then none else some ⟨.erase s.stagingSlot.firstBlock true, 20000⟩
              | some o => some o })).wakeCause .tamper)))) ∧
  (∀ (s : State) (block : Nat) (tamper : Bool), s.power.powered = true → ArraySafe s →
    s.tables.engine = .locked .tamper → s.tables.startUp ≠ .waiting → s.tables.marks.length = 896 →
    s.tables.operation = some ⟨.erase (s.stagingSlot.firstBlock + block) tamper, 0⟩ → block < 28 →
    ∃ t, exec .blockEraseComplete s = .next t ∧ t.tables.engine = .locked .tamper ∧
      (∀ a, Memory.read t.tables.array a =
        if (s.stagingSlot.firstBlock + block) * 2048 ≤ a ∧ a < (s.stagingSlot.firstBlock + block + 1) * 2048 then 0xFF
        else Memory.read s.tables.array a) ∧
      (∀ row, row < 896 → t.tables.marks.getD row true =
        if row / 32 = block then false else s.tables.marks.getD row true) ∧
      (tamper = false → t.tables.tamperErase = some 0 ∧
        t.tables.operation = some ⟨.erase s.stagingSlot.firstBlock true, 20000⟩) ∧
      (tamper = true → s.tables.tamperErase = some block → block < 27 →
        t.tables.tamperErase = some (block + 1) ∧
          t.tables.operation = some ⟨.erase (s.stagingSlot.firstBlock + (block + 1)) true, 20000⟩) ∧
      (tamper = true → s.tables.tamperErase = some block → block = 27 →
        t.tables.tamperErase = none ∧ t.tables.operation = none) ∧
      Touches [.tables] s t) ∧
  (∀ (s : State) (address : Nat) (bytes : List Byte), s.power.powered = true → ArraySafe s →
    s.tables.engine = .locked .tamper → s.tables.startUp ≠ .waiting →
    s.tables.operation = some ⟨.program address bytes, 0⟩ →
    ∃ t, exec .rowProgramComplete s = .next t ∧ t.tables.engine = .locked .tamper ∧
      (∀ a, Memory.read t.tables.array a =
        if address ≤ a ∧ a < address + bytes.length then bytes.getD (a - address) 0xFF
        else Memory.read s.tables.array a) ∧
      t.tables.marks = s.tables.marks ∧ t.tables.tamperErase = some 0 ∧
      t.tables.operation = some ⟨.erase s.stagingSlot.firstBlock true, 20000⟩ ∧ Touches [.tables] s t)

/-! ### What holds in every state -/

/-- R105, R106: every step keeps the coils safe: none is driven while MNEG is off or the sequencer is OPEN or TRIPPED,
and outside ACTIVE, without tables, in loading, in ACTIVATING, without power and in reset the sequencer is OPEN or
TRIPPED. -/
def Obligations.StepKeepsCoilsSafe : Prop :=
  ∀ s t : State, CoilsSafe s → step s = .next t → CoilsSafe t

/-- R167: every step keeps the array in its canonical form and its operations inside the slots. -/
def Obligations.StepKeepsArraySafe : Prop :=
  ∀ s t : State, ArraySafe s → step s = .next t → ArraySafe t

/-- R5, R6, R12, R18, R57, R66, R127, R129, R171: every step keeps the queues within their capacities, and the overflow
flag set only over a full event queue. -/
def Obligations.StepKeepsCapacities : Prop :=
  ∀ s t : State, CapacitiesHold s → OverflowMeansFull s → step s = .next t → CapacitiesHold t ∧ OverflowMeansFull t

/-- R66, R67: every step keeps the stamps of the ring rising, and the ring empty exactly while the stream is ABSENT. -/
def Obligations.StepKeepsRingSafe : Prop :=
  ∀ s t : State, RingSafe s → step s = .next t → RingSafe t

/-- R138, R142, R145: every step keeps the profile chain within its depth, its profiles distinct and defined, the watch
profile active exactly in deep sleep, at least one profile in it while tables are loaded, and a saved context in every
profile but the active one. -/
def Obligations.StepKeepsChainSafe : Prop :=
  ∀ s t : State, ChainSafe s → step s = .next t → ChainSafe t
end

