-- ==== Sys2Proof/Laws/State.lean ====
section
/-!
SUPPORT. What each update of one block leaves: one lemma per block per update, so that no proof unfolds a record
update.
-/

namespace Sys2Proof.Machine

@[simp] theorem State.withPower_power (s : State) (x : Power) : (s.withPower x).power = x := rfl
@[simp] theorem State.withPower_north (s : State) (x : Power) : (s.withPower x).north = s.north := rfl
@[simp] theorem State.withPower_chain (s : State) (x : Power) : (s.withPower x).chain = s.chain := rfl
@[simp] theorem State.withPower_timebase (s : State) (x : Power) : (s.withPower x).timebase = s.timebase := rfl
@[simp] theorem State.withPower_lock (s : State) (x : Power) : (s.withPower x).lock = s.lock := rfl
@[simp] theorem State.withPower_sched (s : State) (x : Power) : (s.withPower x).sched = s.sched := rfl
@[simp] theorem State.withPower_store (s : State) (x : Power) : (s.withPower x).store = s.store := rfl
@[simp] theorem State.withPower_current (s : State) (x : Power) : (s.withPower x).current = s.current := rfl
@[simp] theorem State.withPower_limits (s : State) (x : Power) : (s.withPower x).limits = s.limits := rfl
@[simp] theorem State.withPower_seq (s : State) (x : Power) : (s.withPower x).seq = s.seq := rfl
@[simp] theorem State.withPower_events (s : State) (x : Power) : (s.withPower x).events = s.events := rfl
@[simp] theorem State.withPower_profiles (s : State) (x : Power) : (s.withPower x).profiles = s.profiles := rfl
@[simp] theorem State.withPower_sleep (s : State) (x : Power) : (s.withPower x).sleep = s.sleep := rfl
@[simp] theorem State.withPower_tables (s : State) (x : Power) : (s.withPower x).tables = s.tables := rfl
@[simp] theorem State.withPower_freeIndex (s : State) (x : Power) : (s.withPower x).freeIndex = s.freeIndex := rfl
@[simp] theorem State.withPower_pending (s : State) (x : Power) : (s.withPower x).pending = s.pending := rfl
@[simp] theorem State.withPower_withPower (s : State) (x y : Power) : (s.withPower x).withPower y = s.withPower y := rfl
@[simp] theorem State.withPower_self (s : State) : s.withPower s.power = s := rfl

@[simp] theorem State.withNorth_power (s : State) (x : NorthPort) : (s.withNorth x).power = s.power := rfl
@[simp] theorem State.withNorth_north (s : State) (x : NorthPort) : (s.withNorth x).north = x := rfl
@[simp] theorem State.withNorth_chain (s : State) (x : NorthPort) : (s.withNorth x).chain = s.chain := rfl
@[simp] theorem State.withNorth_timebase (s : State) (x : NorthPort) : (s.withNorth x).timebase = s.timebase := rfl
@[simp] theorem State.withNorth_lock (s : State) (x : NorthPort) : (s.withNorth x).lock = s.lock := rfl
@[simp] theorem State.withNorth_sched (s : State) (x : NorthPort) : (s.withNorth x).sched = s.sched := rfl
@[simp] theorem State.withNorth_store (s : State) (x : NorthPort) : (s.withNorth x).store = s.store := rfl
@[simp] theorem State.withNorth_current (s : State) (x : NorthPort) : (s.withNorth x).current = s.current := rfl
@[simp] theorem State.withNorth_limits (s : State) (x : NorthPort) : (s.withNorth x).limits = s.limits := rfl
@[simp] theorem State.withNorth_seq (s : State) (x : NorthPort) : (s.withNorth x).seq = s.seq := rfl
@[simp] theorem State.withNorth_events (s : State) (x : NorthPort) : (s.withNorth x).events = s.events := rfl
@[simp] theorem State.withNorth_profiles (s : State) (x : NorthPort) : (s.withNorth x).profiles = s.profiles := rfl
@[simp] theorem State.withNorth_sleep (s : State) (x : NorthPort) : (s.withNorth x).sleep = s.sleep := rfl
@[simp] theorem State.withNorth_tables (s : State) (x : NorthPort) : (s.withNorth x).tables = s.tables := rfl
@[simp] theorem State.withNorth_freeIndex (s : State) (x : NorthPort) : (s.withNorth x).freeIndex = s.freeIndex := rfl
@[simp] theorem State.withNorth_pending (s : State) (x : NorthPort) : (s.withNorth x).pending = s.pending := rfl
@[simp] theorem State.withNorth_withNorth (s : State) (x y : NorthPort) : (s.withNorth x).withNorth y = s.withNorth y := rfl
@[simp] theorem State.withNorth_self (s : State) : s.withNorth s.north = s := rfl

@[simp] theorem State.withChain_power (s : State) (x : ChainPort) : (s.withChain x).power = s.power := rfl
@[simp] theorem State.withChain_north (s : State) (x : ChainPort) : (s.withChain x).north = s.north := rfl
@[simp] theorem State.withChain_chain (s : State) (x : ChainPort) : (s.withChain x).chain = x := rfl
@[simp] theorem State.withChain_timebase (s : State) (x : ChainPort) : (s.withChain x).timebase = s.timebase := rfl
@[simp] theorem State.withChain_lock (s : State) (x : ChainPort) : (s.withChain x).lock = s.lock := rfl
@[simp] theorem State.withChain_sched (s : State) (x : ChainPort) : (s.withChain x).sched = s.sched := rfl
@[simp] theorem State.withChain_store (s : State) (x : ChainPort) : (s.withChain x).store = s.store := rfl
@[simp] theorem State.withChain_current (s : State) (x : ChainPort) : (s.withChain x).current = s.current := rfl
@[simp] theorem State.withChain_limits (s : State) (x : ChainPort) : (s.withChain x).limits = s.limits := rfl
@[simp] theorem State.withChain_seq (s : State) (x : ChainPort) : (s.withChain x).seq = s.seq := rfl
@[simp] theorem State.withChain_events (s : State) (x : ChainPort) : (s.withChain x).events = s.events := rfl
@[simp] theorem State.withChain_profiles (s : State) (x : ChainPort) : (s.withChain x).profiles = s.profiles := rfl
@[simp] theorem State.withChain_sleep (s : State) (x : ChainPort) : (s.withChain x).sleep = s.sleep := rfl
@[simp] theorem State.withChain_tables (s : State) (x : ChainPort) : (s.withChain x).tables = s.tables := rfl
@[simp] theorem State.withChain_freeIndex (s : State) (x : ChainPort) : (s.withChain x).freeIndex = s.freeIndex := rfl
@[simp] theorem State.withChain_pending (s : State) (x : ChainPort) : (s.withChain x).pending = s.pending := rfl
@[simp] theorem State.withChain_withChain (s : State) (x y : ChainPort) : (s.withChain x).withChain y = s.withChain y := rfl
@[simp] theorem State.withChain_self (s : State) : s.withChain s.chain = s := rfl

@[simp] theorem State.withTimebase_power (s : State) (x : Timebase) : (s.withTimebase x).power = s.power := rfl
@[simp] theorem State.withTimebase_north (s : State) (x : Timebase) : (s.withTimebase x).north = s.north := rfl
@[simp] theorem State.withTimebase_chain (s : State) (x : Timebase) : (s.withTimebase x).chain = s.chain := rfl
@[simp] theorem State.withTimebase_timebase (s : State) (x : Timebase) : (s.withTimebase x).timebase = x := rfl
@[simp] theorem State.withTimebase_lock (s : State) (x : Timebase) : (s.withTimebase x).lock = s.lock := rfl
@[simp] theorem State.withTimebase_sched (s : State) (x : Timebase) : (s.withTimebase x).sched = s.sched := rfl
@[simp] theorem State.withTimebase_store (s : State) (x : Timebase) : (s.withTimebase x).store = s.store := rfl
@[simp] theorem State.withTimebase_current (s : State) (x : Timebase) : (s.withTimebase x).current = s.current := rfl
@[simp] theorem State.withTimebase_limits (s : State) (x : Timebase) : (s.withTimebase x).limits = s.limits := rfl
@[simp] theorem State.withTimebase_seq (s : State) (x : Timebase) : (s.withTimebase x).seq = s.seq := rfl
@[simp] theorem State.withTimebase_events (s : State) (x : Timebase) : (s.withTimebase x).events = s.events := rfl
@[simp] theorem State.withTimebase_profiles (s : State) (x : Timebase) : (s.withTimebase x).profiles = s.profiles := rfl
@[simp] theorem State.withTimebase_sleep (s : State) (x : Timebase) : (s.withTimebase x).sleep = s.sleep := rfl
@[simp] theorem State.withTimebase_tables (s : State) (x : Timebase) : (s.withTimebase x).tables = s.tables := rfl
@[simp] theorem State.withTimebase_freeIndex (s : State) (x : Timebase) : (s.withTimebase x).freeIndex = s.freeIndex := rfl
@[simp] theorem State.withTimebase_pending (s : State) (x : Timebase) : (s.withTimebase x).pending = s.pending := rfl
@[simp] theorem State.withTimebase_withTimebase (s : State) (x y : Timebase) : (s.withTimebase x).withTimebase y = s.withTimebase y := rfl
@[simp] theorem State.withTimebase_self (s : State) : s.withTimebase s.timebase = s := rfl

@[simp] theorem State.withLock_power (s : State) (x : SyncLock) : (s.withLock x).power = s.power := rfl
@[simp] theorem State.withLock_north (s : State) (x : SyncLock) : (s.withLock x).north = s.north := rfl
@[simp] theorem State.withLock_chain (s : State) (x : SyncLock) : (s.withLock x).chain = s.chain := rfl
@[simp] theorem State.withLock_timebase (s : State) (x : SyncLock) : (s.withLock x).timebase = s.timebase := rfl
@[simp] theorem State.withLock_lock (s : State) (x : SyncLock) : (s.withLock x).lock = x := rfl
@[simp] theorem State.withLock_sched (s : State) (x : SyncLock) : (s.withLock x).sched = s.sched := rfl
@[simp] theorem State.withLock_store (s : State) (x : SyncLock) : (s.withLock x).store = s.store := rfl
@[simp] theorem State.withLock_current (s : State) (x : SyncLock) : (s.withLock x).current = s.current := rfl
@[simp] theorem State.withLock_limits (s : State) (x : SyncLock) : (s.withLock x).limits = s.limits := rfl
@[simp] theorem State.withLock_seq (s : State) (x : SyncLock) : (s.withLock x).seq = s.seq := rfl
@[simp] theorem State.withLock_events (s : State) (x : SyncLock) : (s.withLock x).events = s.events := rfl
@[simp] theorem State.withLock_profiles (s : State) (x : SyncLock) : (s.withLock x).profiles = s.profiles := rfl
@[simp] theorem State.withLock_sleep (s : State) (x : SyncLock) : (s.withLock x).sleep = s.sleep := rfl
@[simp] theorem State.withLock_tables (s : State) (x : SyncLock) : (s.withLock x).tables = s.tables := rfl
@[simp] theorem State.withLock_freeIndex (s : State) (x : SyncLock) : (s.withLock x).freeIndex = s.freeIndex := rfl
@[simp] theorem State.withLock_pending (s : State) (x : SyncLock) : (s.withLock x).pending = s.pending := rfl
@[simp] theorem State.withLock_withLock (s : State) (x y : SyncLock) : (s.withLock x).withLock y = s.withLock y := rfl
@[simp] theorem State.withLock_self (s : State) : s.withLock s.lock = s := rfl

@[simp] theorem State.withSched_power (s : State) (x : ScheduleEngine) : (s.withSched x).power = s.power := rfl
@[simp] theorem State.withSched_north (s : State) (x : ScheduleEngine) : (s.withSched x).north = s.north := rfl
@[simp] theorem State.withSched_chain (s : State) (x : ScheduleEngine) : (s.withSched x).chain = s.chain := rfl
@[simp] theorem State.withSched_timebase (s : State) (x : ScheduleEngine) : (s.withSched x).timebase = s.timebase := rfl
@[simp] theorem State.withSched_lock (s : State) (x : ScheduleEngine) : (s.withSched x).lock = s.lock := rfl
@[simp] theorem State.withSched_sched (s : State) (x : ScheduleEngine) : (s.withSched x).sched = x := rfl
@[simp] theorem State.withSched_store (s : State) (x : ScheduleEngine) : (s.withSched x).store = s.store := rfl
@[simp] theorem State.withSched_current (s : State) (x : ScheduleEngine) : (s.withSched x).current = s.current := rfl
@[simp] theorem State.withSched_limits (s : State) (x : ScheduleEngine) : (s.withSched x).limits = s.limits := rfl
@[simp] theorem State.withSched_seq (s : State) (x : ScheduleEngine) : (s.withSched x).seq = s.seq := rfl
@[simp] theorem State.withSched_events (s : State) (x : ScheduleEngine) : (s.withSched x).events = s.events := rfl
@[simp] theorem State.withSched_profiles (s : State) (x : ScheduleEngine) : (s.withSched x).profiles = s.profiles := rfl
@[simp] theorem State.withSched_sleep (s : State) (x : ScheduleEngine) : (s.withSched x).sleep = s.sleep := rfl
@[simp] theorem State.withSched_tables (s : State) (x : ScheduleEngine) : (s.withSched x).tables = s.tables := rfl
@[simp] theorem State.withSched_freeIndex (s : State) (x : ScheduleEngine) : (s.withSched x).freeIndex = s.freeIndex := rfl
@[simp] theorem State.withSched_pending (s : State) (x : ScheduleEngine) : (s.withSched x).pending = s.pending := rfl
@[simp] theorem State.withSched_withSched (s : State) (x y : ScheduleEngine) : (s.withSched x).withSched y = s.withSched y := rfl
@[simp] theorem State.withSched_self (s : State) : s.withSched s.sched = s := rfl

@[simp] theorem State.withStore_power (s : State) (x : RoundStore) : (s.withStore x).power = s.power := rfl
@[simp] theorem State.withStore_north (s : State) (x : RoundStore) : (s.withStore x).north = s.north := rfl
@[simp] theorem State.withStore_chain (s : State) (x : RoundStore) : (s.withStore x).chain = s.chain := rfl
@[simp] theorem State.withStore_timebase (s : State) (x : RoundStore) : (s.withStore x).timebase = s.timebase := rfl
@[simp] theorem State.withStore_lock (s : State) (x : RoundStore) : (s.withStore x).lock = s.lock := rfl
@[simp] theorem State.withStore_sched (s : State) (x : RoundStore) : (s.withStore x).sched = s.sched := rfl
@[simp] theorem State.withStore_store (s : State) (x : RoundStore) : (s.withStore x).store = x := rfl
@[simp] theorem State.withStore_current (s : State) (x : RoundStore) : (s.withStore x).current = s.current := rfl
@[simp] theorem State.withStore_limits (s : State) (x : RoundStore) : (s.withStore x).limits = s.limits := rfl
@[simp] theorem State.withStore_seq (s : State) (x : RoundStore) : (s.withStore x).seq = s.seq := rfl
@[simp] theorem State.withStore_events (s : State) (x : RoundStore) : (s.withStore x).events = s.events := rfl
@[simp] theorem State.withStore_profiles (s : State) (x : RoundStore) : (s.withStore x).profiles = s.profiles := rfl
@[simp] theorem State.withStore_sleep (s : State) (x : RoundStore) : (s.withStore x).sleep = s.sleep := rfl
@[simp] theorem State.withStore_tables (s : State) (x : RoundStore) : (s.withStore x).tables = s.tables := rfl
@[simp] theorem State.withStore_freeIndex (s : State) (x : RoundStore) : (s.withStore x).freeIndex = s.freeIndex := rfl
@[simp] theorem State.withStore_pending (s : State) (x : RoundStore) : (s.withStore x).pending = s.pending := rfl
@[simp] theorem State.withStore_withStore (s : State) (x y : RoundStore) : (s.withStore x).withStore y = s.withStore y := rfl
@[simp] theorem State.withStore_self (s : State) : s.withStore s.store = s := rfl

@[simp] theorem State.withCurrent_power (s : State) (x : CurrentPort) : (s.withCurrent x).power = s.power := rfl
@[simp] theorem State.withCurrent_north (s : State) (x : CurrentPort) : (s.withCurrent x).north = s.north := rfl
@[simp] theorem State.withCurrent_chain (s : State) (x : CurrentPort) : (s.withCurrent x).chain = s.chain := rfl
@[simp] theorem State.withCurrent_timebase (s : State) (x : CurrentPort) : (s.withCurrent x).timebase = s.timebase := rfl
@[simp] theorem State.withCurrent_lock (s : State) (x : CurrentPort) : (s.withCurrent x).lock = s.lock := rfl
@[simp] theorem State.withCurrent_sched (s : State) (x : CurrentPort) : (s.withCurrent x).sched = s.sched := rfl
@[simp] theorem State.withCurrent_store (s : State) (x : CurrentPort) : (s.withCurrent x).store = s.store := rfl
@[simp] theorem State.withCurrent_current (s : State) (x : CurrentPort) : (s.withCurrent x).current = x := rfl
@[simp] theorem State.withCurrent_limits (s : State) (x : CurrentPort) : (s.withCurrent x).limits = s.limits := rfl
@[simp] theorem State.withCurrent_seq (s : State) (x : CurrentPort) : (s.withCurrent x).seq = s.seq := rfl
@[simp] theorem State.withCurrent_events (s : State) (x : CurrentPort) : (s.withCurrent x).events = s.events := rfl
@[simp] theorem State.withCurrent_profiles (s : State) (x : CurrentPort) : (s.withCurrent x).profiles = s.profiles := rfl
@[simp] theorem State.withCurrent_sleep (s : State) (x : CurrentPort) : (s.withCurrent x).sleep = s.sleep := rfl
@[simp] theorem State.withCurrent_tables (s : State) (x : CurrentPort) : (s.withCurrent x).tables = s.tables := rfl
@[simp] theorem State.withCurrent_freeIndex (s : State) (x : CurrentPort) : (s.withCurrent x).freeIndex = s.freeIndex := rfl
@[simp] theorem State.withCurrent_pending (s : State) (x : CurrentPort) : (s.withCurrent x).pending = s.pending := rfl
@[simp] theorem State.withCurrent_withCurrent (s : State) (x y : CurrentPort) : (s.withCurrent x).withCurrent y = s.withCurrent y := rfl
@[simp] theorem State.withCurrent_self (s : State) : s.withCurrent s.current = s := rfl

@[simp] theorem State.withLimits_power (s : State) (x : LimitMonitor) : (s.withLimits x).power = s.power := rfl
@[simp] theorem State.withLimits_north (s : State) (x : LimitMonitor) : (s.withLimits x).north = s.north := rfl
@[simp] theorem State.withLimits_chain (s : State) (x : LimitMonitor) : (s.withLimits x).chain = s.chain := rfl
@[simp] theorem State.withLimits_timebase (s : State) (x : LimitMonitor) : (s.withLimits x).timebase = s.timebase := rfl
@[simp] theorem State.withLimits_lock (s : State) (x : LimitMonitor) : (s.withLimits x).lock = s.lock := rfl
@[simp] theorem State.withLimits_sched (s : State) (x : LimitMonitor) : (s.withLimits x).sched = s.sched := rfl
@[simp] theorem State.withLimits_store (s : State) (x : LimitMonitor) : (s.withLimits x).store = s.store := rfl
@[simp] theorem State.withLimits_current (s : State) (x : LimitMonitor) : (s.withLimits x).current = s.current := rfl
@[simp] theorem State.withLimits_limits (s : State) (x : LimitMonitor) : (s.withLimits x).limits = x := rfl
@[simp] theorem State.withLimits_seq (s : State) (x : LimitMonitor) : (s.withLimits x).seq = s.seq := rfl
@[simp] theorem State.withLimits_events (s : State) (x : LimitMonitor) : (s.withLimits x).events = s.events := rfl
@[simp] theorem State.withLimits_profiles (s : State) (x : LimitMonitor) : (s.withLimits x).profiles = s.profiles := rfl
@[simp] theorem State.withLimits_sleep (s : State) (x : LimitMonitor) : (s.withLimits x).sleep = s.sleep := rfl
@[simp] theorem State.withLimits_tables (s : State) (x : LimitMonitor) : (s.withLimits x).tables = s.tables := rfl
@[simp] theorem State.withLimits_freeIndex (s : State) (x : LimitMonitor) : (s.withLimits x).freeIndex = s.freeIndex := rfl
@[simp] theorem State.withLimits_pending (s : State) (x : LimitMonitor) : (s.withLimits x).pending = s.pending := rfl
@[simp] theorem State.withLimits_withLimits (s : State) (x y : LimitMonitor) : (s.withLimits x).withLimits y = s.withLimits y := rfl
@[simp] theorem State.withLimits_self (s : State) : s.withLimits s.limits = s := rfl

@[simp] theorem State.withSeq_power (s : State) (x : Sequencer) : (s.withSeq x).power = s.power := rfl
@[simp] theorem State.withSeq_north (s : State) (x : Sequencer) : (s.withSeq x).north = s.north := rfl
@[simp] theorem State.withSeq_chain (s : State) (x : Sequencer) : (s.withSeq x).chain = s.chain := rfl
@[simp] theorem State.withSeq_timebase (s : State) (x : Sequencer) : (s.withSeq x).timebase = s.timebase := rfl
@[simp] theorem State.withSeq_lock (s : State) (x : Sequencer) : (s.withSeq x).lock = s.lock := rfl
@[simp] theorem State.withSeq_sched (s : State) (x : Sequencer) : (s.withSeq x).sched = s.sched := rfl
@[simp] theorem State.withSeq_store (s : State) (x : Sequencer) : (s.withSeq x).store = s.store := rfl
@[simp] theorem State.withSeq_current (s : State) (x : Sequencer) : (s.withSeq x).current = s.current := rfl
@[simp] theorem State.withSeq_limits (s : State) (x : Sequencer) : (s.withSeq x).limits = s.limits := rfl
@[simp] theorem State.withSeq_seq (s : State) (x : Sequencer) : (s.withSeq x).seq = x := rfl
@[simp] theorem State.withSeq_events (s : State) (x : Sequencer) : (s.withSeq x).events = s.events := rfl
@[simp] theorem State.withSeq_profiles (s : State) (x : Sequencer) : (s.withSeq x).profiles = s.profiles := rfl
@[simp] theorem State.withSeq_sleep (s : State) (x : Sequencer) : (s.withSeq x).sleep = s.sleep := rfl
@[simp] theorem State.withSeq_tables (s : State) (x : Sequencer) : (s.withSeq x).tables = s.tables := rfl
@[simp] theorem State.withSeq_freeIndex (s : State) (x : Sequencer) : (s.withSeq x).freeIndex = s.freeIndex := rfl
@[simp] theorem State.withSeq_pending (s : State) (x : Sequencer) : (s.withSeq x).pending = s.pending := rfl
@[simp] theorem State.withSeq_withSeq (s : State) (x y : Sequencer) : (s.withSeq x).withSeq y = s.withSeq y := rfl
@[simp] theorem State.withSeq_self (s : State) : s.withSeq s.seq = s := rfl

@[simp] theorem State.withEvents_power (s : State) (x : EventQueue) : (s.withEvents x).power = s.power := rfl
@[simp] theorem State.withEvents_north (s : State) (x : EventQueue) : (s.withEvents x).north = s.north := rfl
@[simp] theorem State.withEvents_chain (s : State) (x : EventQueue) : (s.withEvents x).chain = s.chain := rfl
@[simp] theorem State.withEvents_timebase (s : State) (x : EventQueue) : (s.withEvents x).timebase = s.timebase := rfl
@[simp] theorem State.withEvents_lock (s : State) (x : EventQueue) : (s.withEvents x).lock = s.lock := rfl
@[simp] theorem State.withEvents_sched (s : State) (x : EventQueue) : (s.withEvents x).sched = s.sched := rfl
@[simp] theorem State.withEvents_store (s : State) (x : EventQueue) : (s.withEvents x).store = s.store := rfl
@[simp] theorem State.withEvents_current (s : State) (x : EventQueue) : (s.withEvents x).current = s.current := rfl
@[simp] theorem State.withEvents_limits (s : State) (x : EventQueue) : (s.withEvents x).limits = s.limits := rfl
@[simp] theorem State.withEvents_seq (s : State) (x : EventQueue) : (s.withEvents x).seq = s.seq := rfl
@[simp] theorem State.withEvents_events (s : State) (x : EventQueue) : (s.withEvents x).events = x := rfl
@[simp] theorem State.withEvents_profiles (s : State) (x : EventQueue) : (s.withEvents x).profiles = s.profiles := rfl
@[simp] theorem State.withEvents_sleep (s : State) (x : EventQueue) : (s.withEvents x).sleep = s.sleep := rfl
@[simp] theorem State.withEvents_tables (s : State) (x : EventQueue) : (s.withEvents x).tables = s.tables := rfl
@[simp] theorem State.withEvents_freeIndex (s : State) (x : EventQueue) : (s.withEvents x).freeIndex = s.freeIndex := rfl
@[simp] theorem State.withEvents_pending (s : State) (x : EventQueue) : (s.withEvents x).pending = s.pending := rfl
@[simp] theorem State.withEvents_withEvents (s : State) (x y : EventQueue) : (s.withEvents x).withEvents y = s.withEvents y := rfl
@[simp] theorem State.withEvents_self (s : State) : s.withEvents s.events = s := rfl

@[simp] theorem State.withProfiles_power (s : State) (x : ProfileController) : (s.withProfiles x).power = s.power := rfl
@[simp] theorem State.withProfiles_north (s : State) (x : ProfileController) : (s.withProfiles x).north = s.north := rfl
@[simp] theorem State.withProfiles_chain (s : State) (x : ProfileController) : (s.withProfiles x).chain = s.chain := rfl
@[simp] theorem State.withProfiles_timebase (s : State) (x : ProfileController) : (s.withProfiles x).timebase = s.timebase := rfl
@[simp] theorem State.withProfiles_lock (s : State) (x : ProfileController) : (s.withProfiles x).lock = s.lock := rfl
@[simp] theorem State.withProfiles_sched (s : State) (x : ProfileController) : (s.withProfiles x).sched = s.sched := rfl
@[simp] theorem State.withProfiles_store (s : State) (x : ProfileController) : (s.withProfiles x).store = s.store := rfl
@[simp] theorem State.withProfiles_current (s : State) (x : ProfileController) : (s.withProfiles x).current = s.current := rfl
@[simp] theorem State.withProfiles_limits (s : State) (x : ProfileController) : (s.withProfiles x).limits = s.limits := rfl
@[simp] theorem State.withProfiles_seq (s : State) (x : ProfileController) : (s.withProfiles x).seq = s.seq := rfl
@[simp] theorem State.withProfiles_events (s : State) (x : ProfileController) : (s.withProfiles x).events = s.events := rfl
@[simp] theorem State.withProfiles_profiles (s : State) (x : ProfileController) : (s.withProfiles x).profiles = x := rfl
@[simp] theorem State.withProfiles_sleep (s : State) (x : ProfileController) : (s.withProfiles x).sleep = s.sleep := rfl
@[simp] theorem State.withProfiles_tables (s : State) (x : ProfileController) : (s.withProfiles x).tables = s.tables := rfl
@[simp] theorem State.withProfiles_freeIndex (s : State) (x : ProfileController) : (s.withProfiles x).freeIndex = s.freeIndex := rfl
@[simp] theorem State.withProfiles_pending (s : State) (x : ProfileController) : (s.withProfiles x).pending = s.pending := rfl
@[simp] theorem State.withProfiles_withProfiles (s : State) (x y : ProfileController) : (s.withProfiles x).withProfiles y = s.withProfiles y := rfl
@[simp] theorem State.withProfiles_self (s : State) : s.withProfiles s.profiles = s := rfl

@[simp] theorem State.withSleep_power (s : State) (x : SleepController) : (s.withSleep x).power = s.power := rfl
@[simp] theorem State.withSleep_north (s : State) (x : SleepController) : (s.withSleep x).north = s.north := rfl
@[simp] theorem State.withSleep_chain (s : State) (x : SleepController) : (s.withSleep x).chain = s.chain := rfl
@[simp] theorem State.withSleep_timebase (s : State) (x : SleepController) : (s.withSleep x).timebase = s.timebase := rfl
@[simp] theorem State.withSleep_lock (s : State) (x : SleepController) : (s.withSleep x).lock = s.lock := rfl
@[simp] theorem State.withSleep_sched (s : State) (x : SleepController) : (s.withSleep x).sched = s.sched := rfl
@[simp] theorem State.withSleep_store (s : State) (x : SleepController) : (s.withSleep x).store = s.store := rfl
@[simp] theorem State.withSleep_current (s : State) (x : SleepController) : (s.withSleep x).current = s.current := rfl
@[simp] theorem State.withSleep_limits (s : State) (x : SleepController) : (s.withSleep x).limits = s.limits := rfl
@[simp] theorem State.withSleep_seq (s : State) (x : SleepController) : (s.withSleep x).seq = s.seq := rfl
@[simp] theorem State.withSleep_events (s : State) (x : SleepController) : (s.withSleep x).events = s.events := rfl
@[simp] theorem State.withSleep_profiles (s : State) (x : SleepController) : (s.withSleep x).profiles = s.profiles := rfl
@[simp] theorem State.withSleep_sleep (s : State) (x : SleepController) : (s.withSleep x).sleep = x := rfl
@[simp] theorem State.withSleep_tables (s : State) (x : SleepController) : (s.withSleep x).tables = s.tables := rfl
@[simp] theorem State.withSleep_freeIndex (s : State) (x : SleepController) : (s.withSleep x).freeIndex = s.freeIndex := rfl
@[simp] theorem State.withSleep_pending (s : State) (x : SleepController) : (s.withSleep x).pending = s.pending := rfl
@[simp] theorem State.withSleep_withSleep (s : State) (x y : SleepController) : (s.withSleep x).withSleep y = s.withSleep y := rfl
@[simp] theorem State.withSleep_self (s : State) : s.withSleep s.sleep = s := rfl

@[simp] theorem State.withTables_power (s : State) (x : TableStore) : (s.withTables x).power = s.power := rfl
@[simp] theorem State.withTables_north (s : State) (x : TableStore) : (s.withTables x).north = s.north := rfl
@[simp] theorem State.withTables_chain (s : State) (x : TableStore) : (s.withTables x).chain = s.chain := rfl
@[simp] theorem State.withTables_timebase (s : State) (x : TableStore) : (s.withTables x).timebase = s.timebase := rfl
@[simp] theorem State.withTables_lock (s : State) (x : TableStore) : (s.withTables x).lock = s.lock := rfl
@[simp] theorem State.withTables_sched (s : State) (x : TableStore) : (s.withTables x).sched = s.sched := rfl
@[simp] theorem State.withTables_store (s : State) (x : TableStore) : (s.withTables x).store = s.store := rfl
@[simp] theorem State.withTables_current (s : State) (x : TableStore) : (s.withTables x).current = s.current := rfl
@[simp] theorem State.withTables_limits (s : State) (x : TableStore) : (s.withTables x).limits = s.limits := rfl
@[simp] theorem State.withTables_seq (s : State) (x : TableStore) : (s.withTables x).seq = s.seq := rfl
@[simp] theorem State.withTables_events (s : State) (x : TableStore) : (s.withTables x).events = s.events := rfl
@[simp] theorem State.withTables_profiles (s : State) (x : TableStore) : (s.withTables x).profiles = s.profiles := rfl
@[simp] theorem State.withTables_sleep (s : State) (x : TableStore) : (s.withTables x).sleep = s.sleep := rfl
@[simp] theorem State.withTables_tables (s : State) (x : TableStore) : (s.withTables x).tables = x := rfl
@[simp] theorem State.withTables_freeIndex (s : State) (x : TableStore) : (s.withTables x).freeIndex = s.freeIndex := rfl
@[simp] theorem State.withTables_pending (s : State) (x : TableStore) : (s.withTables x).pending = s.pending := rfl
@[simp] theorem State.withTables_withTables (s : State) (x y : TableStore) : (s.withTables x).withTables y = s.withTables y := rfl
@[simp] theorem State.withTables_self (s : State) : s.withTables s.tables = s := rfl

@[simp] theorem State.withFreeIndex_power (s : State) (x : Nat) : (s.withFreeIndex x).power = s.power := rfl
@[simp] theorem State.withFreeIndex_north (s : State) (x : Nat) : (s.withFreeIndex x).north = s.north := rfl
@[simp] theorem State.withFreeIndex_chain (s : State) (x : Nat) : (s.withFreeIndex x).chain = s.chain := rfl
@[simp] theorem State.withFreeIndex_timebase (s : State) (x : Nat) : (s.withFreeIndex x).timebase = s.timebase := rfl
@[simp] theorem State.withFreeIndex_lock (s : State) (x : Nat) : (s.withFreeIndex x).lock = s.lock := rfl
@[simp] theorem State.withFreeIndex_sched (s : State) (x : Nat) : (s.withFreeIndex x).sched = s.sched := rfl
@[simp] theorem State.withFreeIndex_store (s : State) (x : Nat) : (s.withFreeIndex x).store = s.store := rfl
@[simp] theorem State.withFreeIndex_current (s : State) (x : Nat) : (s.withFreeIndex x).current = s.current := rfl
@[simp] theorem State.withFreeIndex_limits (s : State) (x : Nat) : (s.withFreeIndex x).limits = s.limits := rfl
@[simp] theorem State.withFreeIndex_seq (s : State) (x : Nat) : (s.withFreeIndex x).seq = s.seq := rfl
@[simp] theorem State.withFreeIndex_events (s : State) (x : Nat) : (s.withFreeIndex x).events = s.events := rfl
@[simp] theorem State.withFreeIndex_profiles (s : State) (x : Nat) : (s.withFreeIndex x).profiles = s.profiles := rfl
@[simp] theorem State.withFreeIndex_sleep (s : State) (x : Nat) : (s.withFreeIndex x).sleep = s.sleep := rfl
@[simp] theorem State.withFreeIndex_tables (s : State) (x : Nat) : (s.withFreeIndex x).tables = s.tables := rfl
@[simp] theorem State.withFreeIndex_freeIndex (s : State) (x : Nat) : (s.withFreeIndex x).freeIndex = x := rfl
@[simp] theorem State.withFreeIndex_pending (s : State) (x : Nat) : (s.withFreeIndex x).pending = s.pending := rfl
@[simp] theorem State.withFreeIndex_withFreeIndex (s : State) (x y : Nat) : (s.withFreeIndex x).withFreeIndex y = s.withFreeIndex y := rfl
@[simp] theorem State.withFreeIndex_self (s : State) : s.withFreeIndex s.freeIndex = s := rfl

@[simp] theorem State.withPending_power (s : State) (x : List Instr) : (s.withPending x).power = s.power := rfl
@[simp] theorem State.withPending_north (s : State) (x : List Instr) : (s.withPending x).north = s.north := rfl
@[simp] theorem State.withPending_chain (s : State) (x : List Instr) : (s.withPending x).chain = s.chain := rfl
@[simp] theorem State.withPending_timebase (s : State) (x : List Instr) : (s.withPending x).timebase = s.timebase := rfl
@[simp] theorem State.withPending_lock (s : State) (x : List Instr) : (s.withPending x).lock = s.lock := rfl
@[simp] theorem State.withPending_sched (s : State) (x : List Instr) : (s.withPending x).sched = s.sched := rfl
@[simp] theorem State.withPending_store (s : State) (x : List Instr) : (s.withPending x).store = s.store := rfl
@[simp] theorem State.withPending_current (s : State) (x : List Instr) : (s.withPending x).current = s.current := rfl
@[simp] theorem State.withPending_limits (s : State) (x : List Instr) : (s.withPending x).limits = s.limits := rfl
@[simp] theorem State.withPending_seq (s : State) (x : List Instr) : (s.withPending x).seq = s.seq := rfl
@[simp] theorem State.withPending_events (s : State) (x : List Instr) : (s.withPending x).events = s.events := rfl
@[simp] theorem State.withPending_profiles (s : State) (x : List Instr) : (s.withPending x).profiles = s.profiles := rfl
@[simp] theorem State.withPending_sleep (s : State) (x : List Instr) : (s.withPending x).sleep = s.sleep := rfl
@[simp] theorem State.withPending_tables (s : State) (x : List Instr) : (s.withPending x).tables = s.tables := rfl
@[simp] theorem State.withPending_freeIndex (s : State) (x : List Instr) : (s.withPending x).freeIndex = s.freeIndex := rfl
@[simp] theorem State.withPending_pending (s : State) (x : List Instr) : (s.withPending x).pending = x := rfl
@[simp] theorem State.withPending_withPending (s : State) (x y : List Instr) : (s.withPending x).withPending y = s.withPending y := rfl
@[simp] theorem State.withPending_self (s : State) : s.withPending s.pending = s := rfl


end Sys2Proof.Machine
end

