-- ==== Sys2Proof/Laws/Touches.lean ====
section
/-!
SUPPORT. What each shared operation may touch: one lemma per operation.  All are rewriting rules: a chain of
operations touches only `bs` exactly when what it starts from does, as long as each link's blocks are among `bs`.
-/

namespace Sys2Proof.Machine

@[simp] theorem touches_refl (bs : List Block) (s : State) : Touches bs s s := by
  intro b _
  cases b <;> rfl

theorem Touches.mono {as bs : List Block} {s t : State} (h : Touches as s t) (hs : as ⊆ bs) : Touches bs s t :=
  fun b hb => h b fun hm => hb (hs hm)

theorem sameBlock_trans {b : Block} {s t u : State} (h : sameBlock b s t) (h' : sameBlock b t u) : sameBlock b s u := by
  cases b <;> exact h'.trans h

theorem sameBlock_symm {b : Block} {s t : State} (h : sameBlock b s t) : sameBlock b t s := by
  cases b <;> exact h.symm

theorem Touches.trans {bs : List Block} {s t u : State} (h : Touches bs s t) (h' : Touches bs t u) : Touches bs s u :=
  fun b hb => sameBlock_trans (h b hb) (h' b hb)

/-- A last operation that touches only blocks of `bs` can be left out. -/
theorem Touches.iff_of {as bs : List Block} {s t u : State} (h : Touches as t u) (hs : as ⊆ bs) :
    Touches bs s u ↔ Touches bs s t :=
  ⟨fun h' b hb => sameBlock_trans (h' b hb) (sameBlock_symm (h b fun hm => hb (hs hm))),
    fun h' => h'.trans (h.mono hs)⟩

/-- One condition of a branch. -/
theorem touches_ite {bs : List Block} {s t u : State} {p : Prop} [Decidable p] (ht : Touches bs s t)
    (hu : Touches bs s u) : Touches bs s (if p then t else u) := by
  split <;> assumption

@[simp] theorem touches_withPower {bs : List Block} {s t : State} (x : Power) (h : Block.power ∈ bs) :
    Touches bs s (t.withPower x) ↔ Touches bs s t := by
  refine Touches.iff_of (as := [.power]) (fun c hc => ?_) (by simpa using h)
  cases c <;> first | rfl | exact absurd (by simp) hc

@[simp] theorem touches_withNorth {bs : List Block} {s t : State} (x : NorthPort) (h : Block.north ∈ bs) :
    Touches bs s (t.withNorth x) ↔ Touches bs s t := by
  refine Touches.iff_of (as := [.north]) (fun c hc => ?_) (by simpa using h)
  cases c <;> first | rfl | exact absurd (by simp) hc

@[simp] theorem touches_withChain {bs : List Block} {s t : State} (x : ChainPort) (h : Block.chain ∈ bs) :
    Touches bs s (t.withChain x) ↔ Touches bs s t := by
  refine Touches.iff_of (as := [.chain]) (fun c hc => ?_) (by simpa using h)
  cases c <;> first | rfl | exact absurd (by simp) hc

@[simp] theorem touches_withTimebase {bs : List Block} {s t : State} (x : Timebase) (h : Block.timebase ∈ bs) :
    Touches bs s (t.withTimebase x) ↔ Touches bs s t := by
  refine Touches.iff_of (as := [.timebase]) (fun c hc => ?_) (by simpa using h)
  cases c <;> first | rfl | exact absurd (by simp) hc

@[simp] theorem touches_withLock {bs : List Block} {s t : State} (x : SyncLock) (h : Block.lock ∈ bs) :
    Touches bs s (t.withLock x) ↔ Touches bs s t := by
  refine Touches.iff_of (as := [.lock]) (fun c hc => ?_) (by simpa using h)
  cases c <;> first | rfl | exact absurd (by simp) hc

@[simp] theorem touches_withSched {bs : List Block} {s t : State} (x : ScheduleEngine) (h : Block.sched ∈ bs) :
    Touches bs s (t.withSched x) ↔ Touches bs s t := by
  refine Touches.iff_of (as := [.sched]) (fun c hc => ?_) (by simpa using h)
  cases c <;> first | rfl | exact absurd (by simp) hc

@[simp] theorem touches_withStore {bs : List Block} {s t : State} (x : RoundStore) (h : Block.store ∈ bs) :
    Touches bs s (t.withStore x) ↔ Touches bs s t := by
  refine Touches.iff_of (as := [.store]) (fun c hc => ?_) (by simpa using h)
  cases c <;> first | rfl | exact absurd (by simp) hc

@[simp] theorem touches_withCurrent {bs : List Block} {s t : State} (x : CurrentPort) (h : Block.current ∈ bs) :
    Touches bs s (t.withCurrent x) ↔ Touches bs s t := by
  refine Touches.iff_of (as := [.current]) (fun c hc => ?_) (by simpa using h)
  cases c <;> first | rfl | exact absurd (by simp) hc

@[simp] theorem touches_withLimits {bs : List Block} {s t : State} (x : LimitMonitor) (h : Block.limits ∈ bs) :
    Touches bs s (t.withLimits x) ↔ Touches bs s t := by
  refine Touches.iff_of (as := [.limits]) (fun c hc => ?_) (by simpa using h)
  cases c <;> first | rfl | exact absurd (by simp) hc

@[simp] theorem touches_withSeq {bs : List Block} {s t : State} (x : Sequencer) (h : Block.seq ∈ bs) :
    Touches bs s (t.withSeq x) ↔ Touches bs s t := by
  refine Touches.iff_of (as := [.seq]) (fun c hc => ?_) (by simpa using h)
  cases c <;> first | rfl | exact absurd (by simp) hc

@[simp] theorem touches_withEvents {bs : List Block} {s t : State} (x : EventQueue) (h : Block.events ∈ bs) :
    Touches bs s (t.withEvents x) ↔ Touches bs s t := by
  refine Touches.iff_of (as := [.events]) (fun c hc => ?_) (by simpa using h)
  cases c <;> first | rfl | exact absurd (by simp) hc

@[simp] theorem touches_withProfiles {bs : List Block} {s t : State} (x : ProfileController) (h : Block.profiles ∈ bs) :
    Touches bs s (t.withProfiles x) ↔ Touches bs s t := by
  refine Touches.iff_of (as := [.profiles]) (fun c hc => ?_) (by simpa using h)
  cases c <;> first | rfl | exact absurd (by simp) hc

@[simp] theorem touches_withSleep {bs : List Block} {s t : State} (x : SleepController) (h : Block.sleep ∈ bs) :
    Touches bs s (t.withSleep x) ↔ Touches bs s t := by
  refine Touches.iff_of (as := [.sleep]) (fun c hc => ?_) (by simpa using h)
  cases c <;> first | rfl | exact absurd (by simp) hc

@[simp] theorem touches_withTables {bs : List Block} {s t : State} (x : TableStore) (h : Block.tables ∈ bs) :
    Touches bs s (t.withTables x) ↔ Touches bs s t := by
  refine Touches.iff_of (as := [.tables]) (fun c hc => ?_) (by simpa using h)
  cases c <;> first | rfl | exact absurd (by simp) hc

@[simp] theorem touches_withFreeIndex {bs : List Block} {s t : State} (x : Nat) (h : Block.freeIndex ∈ bs) :
    Touches bs s (t.withFreeIndex x) ↔ Touches bs s t := by
  refine Touches.iff_of (as := [.freeIndex]) (fun c hc => ?_) (by simpa using h)
  cases c <;> first | rfl | exact absurd (by simp) hc

@[simp] theorem touches_withPending {bs : List Block} {s t : State} (x : List Instr) (h : Block.pending ∈ bs) :
    Touches bs s (t.withPending x) ↔ Touches bs s t := by
  refine Touches.iff_of (as := [.pending]) (fun c hc => ?_) (by simpa using h)
  cases c <;> first | rfl | exact absurd (by simp) hc

@[simp] theorem touches_setSticky {bs : List Block} {s t : State} (f : StickyFlags)
    (h : [.north] ⊆ bs) : Touches bs s (t.setSticky f) ↔ Touches bs s t := by
  refine Touches.iff_of (as := [.north]) ?_ h
  unfold State.setSticky
  dsimp only
  simp

@[simp] theorem touches_setLinkError {bs : List Block} {s t : State}
    (h : [.north] ⊆ bs) : Touches bs s (t.setLinkError) ↔ Touches bs s t := by
  refine Touches.iff_of (as := [.north]) ?_ h
  unfold State.setLinkError
  dsimp only
  simp

@[simp] theorem touches_setStraySync {bs : List Block} {s t : State}
    (h : [.north] ⊆ bs) : Touches bs s (t.setStraySync) ↔ Touches bs s t := by
  refine Touches.iff_of (as := [.north]) ?_ h
  unfold State.setStraySync
  dsimp only
  simp

@[simp] theorem touches_setOverrun {bs : List Block} {s t : State}
    (h : [.north] ⊆ bs) : Touches bs s (t.setOverrun) ↔ Touches bs s t := by
  refine Touches.iff_of (as := [.north]) ?_ h
  unfold State.setOverrun
  dsimp only
  simp

@[simp] theorem touches_setCurOrder {bs : List Block} {s t : State}
    (h : [.north] ⊆ bs) : Touches bs s (t.setCurOrder) ↔ Touches bs s t := by
  refine Touches.iff_of (as := [.north]) ?_ h
  unfold State.setCurOrder
  dsimp only
  simp

@[simp] theorem touches_setCurFault {bs : List Block} {s t : State}
    (h : [.north] ⊆ bs) : Touches bs s (t.setCurFault) ↔ Touches bs s t := by
  refine Touches.iff_of (as := [.north]) ?_ h
  unfold State.setCurFault
  dsimp only
  simp

@[simp] theorem touches_setChainMismatch {bs : List Block} {s t : State}
    (h : [.north] ⊆ bs) : Touches bs s (t.setChainMismatch) ↔ Touches bs s t := by
  refine Touches.iff_of (as := [.north]) ?_ h
  unfold State.setChainMismatch
  dsimp only
  simp

@[simp] theorem touches_setEntryFailed {bs : List Block} {s t : State}
    (h : [.north] ⊆ bs) : Touches bs s (t.setEntryFailed) ↔ Touches bs s t := by
  refine Touches.iff_of (as := [.north]) ?_ h
  unfold State.setEntryFailed
  dsimp only
  simp

@[simp] theorem touches_frameLeaves {bs : List Block} {s t : State}
    (h : [.north] ⊆ bs) : Touches bs s (t.frameLeaves) ↔ Touches bs s t := by
  refine Touches.iff_of (as := [.north]) ?_ h
  unfold State.frameLeaves
  simp

@[simp] theorem touches_enqueueTx {bs : List Block} {s t : State} (p : Producer) (f : NorthFrame)
    (h : [.north] ⊆ bs) : Touches bs s (t.enqueueTx p f) ↔ Touches bs s t := by
  refine Touches.iff_of (as := [.north]) ?_ h
  unfold State.enqueueTx
  dsimp only
  simp

@[simp] theorem touches_chainReply {bs : List Block} {s t : State} (f : NorthFrame)
    (h : [.north, .chain] ⊆ bs) : Touches bs s (t.chainReply f) ↔ Touches bs s t := by
  refine Touches.iff_of (as := [.north, .chain]) ?_ h
  unfold State.chainReply
  dsimp only
  repeat' split
  all_goals simp

@[simp] theorem touches_startTransaction {bs : List Block} {s t : State} (f : ChainFrame)
    (h : [.chain] ⊆ bs) : Touches bs s (t.startTransaction f) ↔ Touches bs s t := by
  refine Touches.iff_of (as := [.chain]) ?_ h
  unfold State.startTransaction
  dsimp only
  simp

@[simp] theorem touches_arbitrate {bs : List Block} {s t : State}
    (h : [.chain] ⊆ bs) : Touches bs s (t.arbitrate) ↔ Touches bs s t := by
  refine Touches.iff_of (as := [.chain]) ?_ h
  unfold State.arbitrate
  dsimp only
  repeat' split
  all_goals simp

@[simp] theorem touches_claimLink {bs : List Block} {s t : State} (f : SleepFrame)
    (h : [.chain] ⊆ bs) : Touches bs s (t.claimLink f) ↔ Touches bs s t := by
  refine Touches.iff_of (as := [.chain]) ?_ h
  unfold State.claimLink
  dsimp only
  simp

@[simp] theorem touches_endTransaction {bs : List Block} {s t : State}
    (h : [.chain] ⊆ bs) : Touches bs s (t.endTransaction) ↔ Touches bs s t := by
  refine Touches.iff_of (as := [.chain]) ?_ h
  unfold State.endTransaction
  dsimp only
  simp

@[simp] theorem touches_record {bs : List Block} {s t : State} (k : EventKind) (c : Option Contactor) (w : Cause) (q i : Option Nat)
    (h : [.events] ⊆ bs) : Touches bs s (t.record k c w q i) ↔ Touches bs s t := by
  refine Touches.iff_of (as := [.events]) ?_ h
  unfold State.record
  simp

@[simp] theorem touches_popCommand {bs : List Block} {s t : State}
    (h : [.north] ⊆ bs) : Touches bs s (t.popCommand) ↔ Touches bs s t := by
  refine Touches.iff_of (as := [.north]) ?_ h
  unfold State.popCommand
  dsimp only
  simp

@[simp] theorem touches_reply {bs : List Block} {s t : State} (c : Command) (r : Reply)
    (h : [.north] ⊆ bs) : Touches bs s (t.reply c r) ↔ Touches bs s t := by
  refine Touches.iff_of (as := [.north]) ?_ h
  unfold State.reply
  simp

@[simp] theorem touches_releaseAll {bs : List Block} {s t : State}
    (h : [.seq] ⊆ bs) : Touches bs s (t.releaseAll) ↔ Touches bs s t := by
  refine Touches.iff_of (as := [.seq]) ?_ h
  unfold State.releaseAll
  dsimp only
  simp

@[simp] theorem touches_releaseCoil {bs : List Block} {s t : State} (c : Contactor)
    (h : [.seq] ⊆ bs) : Touches bs s (t.releaseCoil c) ↔ Touches bs s t := by
  refine Touches.iff_of (as := [.seq]) ?_ h
  unfold State.releaseCoil
  dsimp only
  repeat' split
  all_goals simp

@[simp] theorem touches_driveCoil {bs : List Block} {s t : State} (c : Contactor)
    (h : [.seq] ⊆ bs) : Touches bs s (t.driveCoil c) ↔ Touches bs s t := by
  refine Touches.iff_of (as := [.seq]) ?_ h
  unfold State.driveCoil
  dsimp only
  simp

@[simp] theorem touches_waitAt {bs : List Block} {s t : State} (i n : Nat)
    (h : [.seq] ⊆ bs) : Touches bs s (t.waitAt i n) ↔ Touches bs s t := by
  refine Touches.iff_of (as := [.seq]) ?_ h
  unfold State.waitAt
  dsimp only
  simp

@[simp] theorem touches_openEnd {bs : List Block} {s t : State} (i : Nat)
    (h : [.seq, .events] ⊆ bs) : Touches bs s (t.openEnd i) ↔ Touches bs s t := by
  refine Touches.iff_of (as := [.seq, .events]) ?_ h
  unfold State.openEnd
  dsimp only
  repeat' split
  all_goals simp

@[simp] theorem touches_runOpening {bs : List Block} {s t : State} (steps : List SeqStep) (i : Nat)
    (h : [.seq, .events] ⊆ bs) : Touches bs s (runOpening steps i t) ↔ Touches bs s t := by
  refine Touches.iff_of (as := [.seq, .events]) ?_ h
  clear h
  induction steps generalizing i t with
  | nil => simp [runOpening]
  | cons st rest ih =>
    cases st <;> simp only [runOpening] <;> (repeat' split) <;>
      first
      | exact (Touches.iff_of (ih _) (List.Subset.refl _)).mpr (by simp)
      | simp

@[simp] theorem touches_startOpen {bs : List Block} {s t : State}
    (h : [.seq, .events] ⊆ bs) : Touches bs s (t.startOpen) ↔ Touches bs s t := by
  refine Touches.iff_of (as := [.seq, .events]) ?_ h
  unfold State.startOpen
  dsimp only
  simp

@[simp] theorem touches_closeFailed {bs : List Block} {s t : State} (id i : Nat) (c : Option Contactor) (w : Cause)
    (h : [.seq, .events] ⊆ bs) : Touches bs s (t.closeFailed id i c w) ↔ Touches bs s t := by
  refine Touches.iff_of (as := [.seq, .events]) ?_ h
  unfold State.closeFailed
  dsimp only
  simp

@[simp] theorem touches_closeDone {bs : List Block} {s t : State} (id i : Nat)
    (h : [.seq, .events] ⊆ bs) : Touches bs s (t.closeDone id i) ↔ Touches bs s t := by
  refine Touches.iff_of (as := [.seq, .events]) ?_ h
  unfold State.closeDone
  dsimp only
  simp

@[simp] theorem touches_runClosing {bs : List Block} {s t : State} (id : Nat) (cls : SeqClass) (steps : List SeqStep) (i : Nat)
    (h : [.seq, .events] ⊆ bs) : Touches bs s (runClosing id cls steps i t) ↔ Touches bs s t := by
  refine Touches.iff_of (as := [.seq, .events]) ?_ h
  clear h
  induction steps generalizing i t with
  | nil => simp [runClosing]
  | cons st rest ih =>
    cases st <;> simp only [runClosing] <;> (repeat' split) <;>
      first
      | exact (Touches.iff_of (ih _) (List.Subset.refl _)).mpr (by simp)
      | simp

@[simp] theorem touches_stepDone {bs : List Block} {s t : State} (r : Running)
    (h : [.seq, .events] ⊆ bs) : Touches bs s (t.stepDone r) ↔ Touches bs s t := by
  refine Touches.iff_of (as := [.seq, .events]) ?_ h
  unfold State.stepDone
  dsimp only
  repeat' split
  all_goals simp

@[simp] theorem touches_startClose {bs : List Block} {s t : State} (id : Nat) (q : Sequence)
    (h : [.seq, .events] ⊆ bs) : Touches bs s (t.startClose id q) ↔ Touches bs s t := by
  refine Touches.iff_of (as := [.seq, .events]) ?_ h
  unfold State.startClose
  dsimp only
  simp

@[simp] theorem touches_deferExpired {bs : List Block} {s t : State}
    (h : [.seq, .events] ⊆ bs) : Touches bs s (t.deferExpired) ↔ Touches bs s t := by
  refine Touches.iff_of (as := [.seq, .events]) ?_ h
  unfold State.deferExpired
  simp

@[simp] theorem touches_deferralTest {bs : List Block} {s t : State}
    (h : [.seq, .events] ⊆ bs) : Touches bs s (t.deferralTest) ↔ Touches bs s t := by
  refine Touches.iff_of (as := [.seq, .events]) ?_ h
  unfold State.deferralTest
  dsimp only
  repeat' split
  all_goals simp

@[simp] theorem touches_orderlyOpen {bs : List Block} {s t : State} (c : Cause)
    (h : [.seq, .events] ⊆ bs) : Touches bs s (t.orderlyOpen c) ↔ Touches bs s t := by
  refine Touches.iff_of (as := [.seq, .events]) ?_ h
  unfold State.orderlyOpen
  dsimp only
  repeat' split
  all_goals simp

@[simp] theorem touches_takeFastOpen {bs : List Block} {s t : State} (c : Cause)
    (h : [.seq, .events] ⊆ bs) : Touches bs s (t.takeFastOpen c) ↔ Touches bs s t := by
  refine Touches.iff_of (as := [.seq, .events]) ?_ h
  unfold State.takeFastOpen
  dsimp only
  repeat' split
  all_goals simp

@[simp] theorem touches_retestPrecharge {bs : List Block} {s t : State}
    (h : [.seq, .events] ⊆ bs) : Touches bs s (t.retestPrecharge) ↔ Touches bs s t := by
  refine Touches.iff_of (as := [.seq, .events]) ?_ h
  unfold State.retestPrecharge
  repeat' split
  all_goals simp

@[simp] theorem touches_sequencerRecord {bs : List Block} {s t : State}
    (h : [.seq, .events] ⊆ bs) : Touches bs s (t.sequencerRecord) ↔ Touches bs s t := by
  refine Touches.iff_of (as := [.seq, .events]) ?_ h
  unfold State.sequencerRecord
  repeat' split
  all_goals simp

@[simp] theorem touches_sequencerStreamAbsent {bs : List Block} {s t : State}
    (h : [.seq, .events] ⊆ bs) : Touches bs s (t.sequencerStreamAbsent) ↔ Touches bs s t := by
  refine Touches.iff_of (as := [.seq, .events]) ?_ h
  unfold State.sequencerStreamAbsent
  repeat' split
  all_goals simp

@[simp] theorem touches_sequencerFeedback {bs : List Block} {s t : State} (c : Contactor) (v : Bool)
    (h : [.seq, .events] ⊆ bs) : Touches bs s (t.sequencerFeedback c v) ↔ Touches bs s t := by
  refine Touches.iff_of (as := [.seq, .events]) ?_ h
  unfold State.sequencerFeedback
  repeat' split
  all_goals simp

@[simp] theorem touches_stepTimerExpired {bs : List Block} {s t : State} (r : Running)
    (h : [.seq, .events] ⊆ bs) : Touches bs s (t.stepTimerExpired r) ↔ Touches bs s t := by
  refine Touches.iff_of (as := [.seq, .events]) ?_ h
  unfold State.stepTimerExpired
  dsimp only
  repeat' split
  all_goals simp

@[simp] theorem touches_coilFault {bs : List Block} {s t : State} (c : Contactor)
    (h : [.seq, .events] ⊆ bs) : Touches bs s (t.coilFault c) ↔ Touches bs s t := by
  refine Touches.iff_of (as := [.seq, .events]) ?_ h
  unfold State.coilFault
  dsimp only
  repeat' split
  all_goals simp

@[simp] theorem touches_countRounds {bs : List Block} {s t : State} (n : Nat)
    (h : [.store] ⊆ bs) : Touches bs s (t.countRounds n) ↔ Touches bs s t := by
  refine Touches.iff_of (as := [.store]) ?_ h
  unfold State.countRounds
  dsimp only
  simp

@[simp] theorem touches_skipEntries {bs : List Block} {s t : State} (n : Nat)
    (h : [.store, .north] ⊆ bs) : Touches bs s (t.skipEntries n) ↔ Touches bs s t := by
  refine Touches.iff_of (as := [.store, .north]) ?_ h
  unfold State.skipEntries
  repeat' split
  all_goals simp

@[simp] theorem touches_closeFrame {bs : List Block} {s t : State}
    (h : [.store, .north, .sched] ⊆ bs) : Touches bs s (t.closeFrame) ↔ Touches bs s t := by
  refine Touches.iff_of (as := [.store, .north, .sched]) ?_ h
  unfold State.closeFrame
  dsimp only
  repeat' split
  all_goals simp

@[simp] theorem touches_openFrame {bs : List Block} {s t : State} (a : Stamp) (l : Nat)
    (h : [.sched] ⊆ bs) : Touches bs s (t.openFrame a l) ↔ Touches bs s t := by
  refine Touches.iff_of (as := [.sched]) ?_ h
  unfold State.openFrame
  dsimp only
  simp

@[simp] theorem touches_takeEntry {bs : List Block} {s t : State} (d : DueEntry)
    (h : [.sched, .store] ⊆ bs) : Touches bs s (t.takeEntry d) ↔ Touches bs s t := by
  refine Touches.iff_of (as := [.sched, .store]) ?_ h
  unfold State.takeEntry
  dsimp only
  simp

@[simp] theorem touches_decideGroup {bs : List Block} {s t : State}
    (h : [.store, .north, .sched] ⊆ bs) : Touches bs s (t.decideGroup) ↔ Touches bs s t := by
  refine Touches.iff_of (as := [.store, .north, .sched]) ?_ h
  unfold State.decideGroup
  dsimp only
  repeat' split
  all_goals simp

@[simp] theorem touches_decideGroups {bs : List Block} {s t : State} (n : Nat)
    (h : [.store, .north, .sched] ⊆ bs) : Touches bs s (decideGroups n t) ↔ Touches bs s t := by
  refine Touches.iff_of (as := [.store, .north, .sched]) ?_ h
  clear h
  induction n generalizing t with
  | zero => simp [decideGroups]
  | succ n ih =>
    rw [decideGroups]
    split
    · exact (Touches.iff_of (ih (t := t.decideGroup)) (List.Subset.refl _)).mpr (by simp)
    · simp

@[simp] theorem touches_frameStart {bs : List Block} {s t : State} (a : Stamp) (l : Nat)
    (h : [.store, .north, .sched] ⊆ bs) : Touches bs s (t.frameStart a l) ↔ Touches bs s t := by
  refine Touches.iff_of (as := [.store, .north, .sched]) ?_ h
  unfold State.frameStart
  dsimp only
  repeat' split
  all_goals simp

@[simp] theorem touches_takeHeld {bs : List Block} {s t : State}
    (h : [.sched, .store] ⊆ bs) : Touches bs s (t.takeHeld) ↔ Touches bs s t := by
  refine Touches.iff_of (as := [.sched, .store]) ?_ h
  unfold State.takeHeld
  dsimp only
  repeat' split
  all_goals simp

@[simp] theorem touches_cancelDue {bs : List Block} {s t : State}
    (h : [.sched] ⊆ bs) : Touches bs s (t.cancelDue) ↔ Touches bs s t := by
  refine Touches.iff_of (as := [.sched]) ?_ h
  unfold State.cancelDue
  dsimp only
  simp

@[simp] theorem touches_lockLoss {bs : List Block} {s t : State}
    (h : [.lock, .sched, .seq, .events] ⊆ bs) : Touches bs s (t.lockLoss) ↔ Touches bs s t := by
  refine Touches.iff_of (as := [.lock, .sched, .seq, .events]) ?_ h
  unfold State.lockLoss
  dsimp only
  simp

@[simp] theorem touches_acceptSync {bs : List Block} {s t : State} (a b : Stamp)
    (h : [.lock, .store, .north, .sched] ⊆ bs) : Touches bs s (t.acceptSync a b) ↔ Touches bs s t := by
  refine Touches.iff_of (as := [.lock, .store, .north, .sched]) ?_ h
  unfold State.acceptSync
  dsimp only
  simp

@[simp] theorem touches_virtualFrame {bs : List Block} {s t : State} (e : Stamp) (n : Nat)
    (h : [.lock, .store, .north, .sched] ⊆ bs) : Touches bs s (t.virtualFrame e n) ↔ Touches bs s t := by
  refine Touches.iff_of (as := [.lock, .store, .north, .sched]) ?_ h
  unfold State.virtualFrame
  dsimp only
  simp

@[simp] theorem touches_closeWindow {bs : List Block} {s t : State} (a : Stamp)
    (h : [.lock, .store, .north, .sched, .seq, .events] ⊆ bs) : Touches bs s (t.closeWindow a) ↔ Touches bs s t := by
  refine Touches.iff_of (as := [.lock, .store, .north, .sched, .seq, .events]) ?_ h
  unfold State.closeWindow
  repeat' split
  all_goals simp

@[simp] theorem touches_beginAcquire {bs : List Block} {s t : State} (a : Stamp)
    (h : [.lock] ⊆ bs) : Touches bs s (t.beginAcquire a) ↔ Touches bs s t := by
  refine Touches.iff_of (as := [.lock]) ?_ h
  unfold State.beginAcquire
  dsimp only
  simp

@[simp] theorem touches_acquire {bs : List Block} {s t : State} (a b : Stamp)
    (h : [.lock, .store, .north, .sched] ⊆ bs) : Touches bs s (t.acquire a b) ↔ Touches bs s t := by
  refine Touches.iff_of (as := [.lock, .store, .north, .sched]) ?_ h
  unfold State.acquire
  dsimp only
  repeat' split
  all_goals simp

@[simp] theorem touches_judgeSync {bs : List Block} {s t : State} (n : Nat) (a : Stamp)
    (h : [.lock, .store, .north, .sched, .seq, .events] ⊆ bs) : Touches bs s (judgeSync n a t) ↔ Touches bs s t := by
  refine Touches.iff_of (as := [.lock, .store, .north, .sched, .seq, .events]) ?_ h
  clear h
  induction n generalizing t with
  | zero =>
    unfold judgeSync
    dsimp only
    repeat' split
    all_goals simp
  | succ n ih =>
    unfold judgeSync
    dsimp only
    repeat' split
    all_goals first
      | exact (Touches.iff_of (ih (t := _)) (List.Subset.refl _)).mpr (by simp)
      | simp

@[simp] theorem touches_syncArrival {bs : List Block} {s t : State} (a : Stamp)
    (h : [.lock, .store, .north, .sched, .seq, .events] ⊆ bs) : Touches bs s (t.syncArrival a) ↔ Touches bs s t := by
  refine Touches.iff_of (as := [.lock, .store, .north, .sched, .seq, .events]) ?_ h
  unfold State.syncArrival
  repeat' split
  all_goals simp

@[simp] theorem touches_takePassedClose {bs : List Block} {s t : State}
    (h : [.lock, .sched, .seq, .events] ⊆ bs) : Touches bs s (t.takePassedClose) ↔ Touches bs s t := by
  refine Touches.iff_of (as := [.lock, .sched, .seq, .events]) ?_ h
  unfold State.takePassedClose
  repeat' split
  all_goals simp

@[simp] theorem touches_lockCommit {bs : List Block} {s t : State} (p : LockParams)
    (h : [.lock, .sched, .seq, .events] ⊆ bs) : Touches bs s (t.lockCommit p) ↔ Touches bs s t := by
  refine Touches.iff_of (as := [.lock, .sched, .seq, .events]) ?_ h
  unfold State.lockCommit
  dsimp only
  repeat' split
  all_goals simp

@[simp] theorem touches_lockSleep {bs : List Block} {s t : State}
    (h : [.lock] ⊆ bs) : Touches bs s (t.lockSleep) ↔ Touches bs s t := by
  refine Touches.iff_of (as := [.lock]) ?_ h
  unfold State.lockSleep
  dsimp only
  simp

@[simp] theorem touches_loadContext {bs : List Block} {s t : State} (c : SavedContext)
    (h : [.limits, .sched] ⊆ bs) : Touches bs s (t.loadContext c) ↔ Touches bs s t := by
  refine Touches.iff_of (as := [.limits, .sched]) ?_ h
  unfold State.loadContext
  dsimp only
  simp

@[simp] theorem touches_markRound {bs : List Block} {s t : State}
    (h : [.sched] ⊆ bs) : Touches bs s (t.markRound) ↔ Touches bs s t := by
  refine Touches.iff_of (as := [.sched]) ?_ h
  unfold State.markRound
  dsimp only
  simp

@[simp] theorem touches_postCommitOpen {bs : List Block} {s t : State}
    (h : [.seq, .events] ⊆ bs) : Touches bs s (t.postCommitOpen) ↔ Touches bs s t := by
  refine Touches.iff_of (as := [.seq, .events]) ?_ h
  unfold State.postCommitOpen
  repeat' split
  all_goals simp

@[simp] theorem touches_applyCommit {bs : List Block} {s t : State} (p : LockParams) (c : SavedContext)
    (h : [.limits, .sched, .lock, .seq, .events] ⊆ bs) : Touches bs s (t.applyCommit p c) ↔ Touches bs s t := by
  refine Touches.iff_of (as := [.limits, .sched, .lock, .seq, .events]) ?_ h
  unfold State.applyCommit
  simp

@[simp] theorem touches_withChainList {bs : List Block} {s t : State} (c : List ChainElement)
    (h : [.profiles] ⊆ bs) : Touches bs s (t.withChainList c) ↔ Touches bs s t := by
  refine Touches.iff_of (as := [.profiles]) ?_ h
  unfold State.withChainList
  simp

@[simp] theorem touches_switchCommit {bs : List Block} {s t : State} (p : Nat)
    (h : [.profiles, .limits, .sched, .lock, .seq, .events] ⊆ bs) : Touches bs s (t.switchCommit p) ↔ Touches bs s t := by
  refine Touches.iff_of (as := [.profiles, .limits, .sched, .lock, .seq, .events]) ?_ h
  unfold State.switchCommit
  dsimp only
  simp

@[simp] theorem touches_enterCommit {bs : List Block} {s t : State} (p : Nat) (c : Cause)
    (h : [.profiles, .limits, .sched, .lock, .seq, .events] ⊆ bs) : Touches bs s (t.enterCommit p c) ↔ Touches bs s t := by
  refine Touches.iff_of (as := [.profiles, .limits, .sched, .lock, .seq, .events]) ?_ h
  unfold State.enterCommit
  dsimp only
  simp

@[simp] theorem touches_returnCommit {bs : List Block} {s t : State}
    (h : [.profiles, .limits, .sched, .lock, .seq, .events] ⊆ bs) : Touches bs s (t.returnCommit) ↔ Touches bs s t := by
  refine Touches.iff_of (as := [.profiles, .limits, .sched, .lock, .seq, .events]) ?_ h
  unfold State.returnCommit
  dsimp only
  repeat' split
  all_goals simp

@[simp] theorem touches_takeEnterRequest {bs : List Block} {s t : State} (r : EnterRequest)
    (h : [.profiles, .limits, .sched, .lock, .seq, .events, .north] ⊆ bs) : Touches bs s (t.takeEnterRequest r) ↔ Touches bs s t := by
  refine Touches.iff_of (as := [.profiles, .limits, .sched, .lock, .seq, .events, .north]) ?_ h
  unfold State.takeEnterRequest
  repeat' split
  all_goals simp

@[simp] theorem touches_setReference {bs : List Block} {s t : State} (p : Option PackSum) (a : Stamp)
    (h : [.current] ⊆ bs) : Touches bs s (t.setReference p a) ↔ Touches bs s t := by
  refine Touches.iff_of (as := [.current]) ?_ h
  unfold State.setReference
  dsimp only
  repeat' split
  all_goals simp

@[simp] theorem touches_evaluate {bs : List Block} {s t : State} (es : List RoundEntry)
    (h : [.limits, .north] ⊆ bs) : Touches bs s (t.evaluate es) ↔ Touches bs s t := by
  refine Touches.iff_of (as := [.limits, .north]) ?_ h
  unfold State.evaluate
  dsimp only
  repeat' split
  all_goals simp

@[simp] theorem touches_noteCause {bs : List Block} {s t : State} (c : WakeCause) (b : Bool)
    (h : [.sleep] ⊆ bs) : Touches bs s (t.noteCause c b) ↔ Touches bs s t := by
  refine Touches.iff_of (as := [.sleep]) ?_ h
  unfold State.noteCause
  dsimp only
  repeat' split
  all_goals simp

@[simp] theorem touches_powerPort {bs : List Block} {s t : State}
    (h : [.current] ⊆ bs) : Touches bs s (t.powerPort) ↔ Touches bs s t := by
  refine Touches.iff_of (as := [.current]) ?_ h
  unfold State.powerPort
  dsimp only
  simp

@[simp] theorem touches_enterWaking {bs : List Block} {s t : State}
    (h : [.sleep, .current, .chain] ⊆ bs) : Touches bs s (t.enterWaking) ↔ Touches bs s t := by
  refine Touches.iff_of (as := [.sleep, .current, .chain]) ?_ h
  unfold State.enterWaking
  dsimp only
  repeat' split
  all_goals simp

@[simp] theorem touches_setWakePending {bs : List Block} {s t : State}
    (h : [.sleep] ⊆ bs) : Touches bs s (t.setWakePending) ↔ Touches bs s t := by
  refine Touches.iff_of (as := [.sleep]) ?_ h
  unfold State.setWakePending
  dsimp only
  simp

@[simp] theorem touches_wakeCause {bs : List Block} {s t : State} (c : WakeCause)
    (h : [.sleep, .current, .chain] ⊆ bs) : Touches bs s (t.wakeCause c) ↔ Touches bs s t := by
  refine Touches.iff_of (as := [.sleep, .current, .chain]) ?_ h
  unfold State.wakeCause
  dsimp only
  repeat' split
  all_goals simp

@[simp] theorem touches_countPass {bs : List Block} {s t : State}
    (h : [.sleep, .current, .chain] ⊆ bs) : Touches bs s (t.countPass) ↔ Touches bs s t := by
  refine Touches.iff_of (as := [.sleep, .current, .chain]) ?_ h
  unfold State.countPass
  dsimp only
  repeat' split
  all_goals simp

@[simp] theorem touches_completePass {bs : List Block} {s t : State}
    (h : [.sleep, .current, .chain] ⊆ bs) : Touches bs s (t.completePass) ↔ Touches bs s t := by
  refine Touches.iff_of (as := [.sleep, .current, .chain]) ?_ h
  unfold State.completePass
  dsimp only
  repeat' split
  all_goals simp

@[simp] theorem touches_watchPass {bs : List Block} {s t : State}
    (h : [.sleep, .current, .chain, .sched, .store] ⊆ bs) : Touches bs s (t.watchPass) ↔ Touches bs s t := by
  refine Touches.iff_of (as := [.sleep, .current, .chain, .sched, .store]) ?_ h
  unfold State.watchPass
  dsimp only
  repeat' split
  all_goals simp

@[simp] theorem touches_watchRoundOffered {bs : List Block} {s t : State} (w : Bool)
    (h : [.sleep, .current, .chain, .sched, .store] ⊆ bs) : Touches bs s (t.watchRoundOffered w) ↔ Touches bs s t := by
  refine Touches.iff_of (as := [.sleep, .current, .chain, .sched, .store]) ?_ h
  unfold State.watchRoundOffered
  dsimp only
  repeat' split
  all_goals simp

@[simp] theorem touches_answerQueueBusy {bs : List Block} {s t : State} (q : List FwdEntry)
    (h : [.north, .chain] ⊆ bs) : Touches bs s (t.answerQueueBusy q) ↔ Touches bs s t := by
  refine Touches.iff_of (as := [.north, .chain]) ?_ h
  clear h
  induction q generalizing t with
  | nil => simp [State.answerQueueBusy]
  | cons e rest ih =>
    rw [State.answerQueueBusy]
    exact (Touches.iff_of (ih (t := _)) (List.Subset.refl _)).mpr (by simp)

@[simp] theorem touches_armDetector {bs : List Block} {s t : State}
    (h : [.sleep] ⊆ bs) : Touches bs s (t.armDetector) ↔ Touches bs s t := by
  refine Touches.iff_of (as := [.sleep]) ?_ h
  unfold State.armDetector
  dsimp only
  repeat' split
  all_goals simp

@[simp] theorem touches_completeEntry {bs : List Block} {s t : State} (w : Nat)
    (h : [.profiles, .limits, .sched, .lock, .seq, .events, .current, .timebase, .sleep] ⊆ bs) : Touches bs s (t.completeEntry w) ↔ Touches bs s t := by
  refine Touches.iff_of (as := [.profiles, .limits, .sched, .lock, .seq, .events, .current, .timebase, .sleep]) ?_ h
  unfold State.completeEntry
  dsimp only
  simp

@[simp] theorem touches_detectChange {bs : List Block} {s t : State} (m : ModuleTable) (b : Bool)
    (h : [.sleep, .current, .chain] ⊆ bs) : Touches bs s (t.detectChange m b) ↔ Touches bs s t := by
  refine Touches.iff_of (as := [.sleep, .current, .chain]) ?_ h
  unfold State.detectChange
  dsimp only
  repeat' split
  all_goals simp

@[simp] theorem touches_refuseEnters {bs : List Block} {s t : State}
    (h : [.limits, .north] ⊆ bs) : Touches bs s (t.refuseEnters) ↔ Touches bs s t := by
  refine Touches.iff_of (as := [.limits, .north]) ?_ h
  unfold State.refuseEnters
  split
  all_goals simp

@[simp] theorem touches_endWaking {bs : List Block} {s t : State}
    (h : [.profiles, .limits, .sched, .lock, .seq, .events, .timebase, .sleep, .north] ⊆ bs) : Touches bs s (t.endWaking) ↔ Touches bs s t := by
  refine Touches.iff_of (as := [.profiles, .limits, .sched, .lock, .seq, .events, .timebase, .sleep, .north]) ?_ h
  unfold State.endWaking
  dsimp only
  simp

@[simp] theorem touches_leaveAssembly {bs : List Block} {s t : State} (r : Round) (w : Bool)
    (h : [.sched, .store, .sleep, .current, .chain] ⊆ bs) : Touches bs s (t.leaveAssembly r w) ↔ Touches bs s t := by
  refine Touches.iff_of (as := [.sched, .store, .sleep, .current, .chain]) ?_ h
  unfold State.leaveAssembly
  dsimp only
  repeat' split
  all_goals simp

@[simp] theorem touches_evaluateRound {bs : List Block} {s t : State} (r : Round)
    (h : [.sched, .store, .sleep, .current, .chain, .limits, .north] ⊆ bs) : Touches bs s (t.evaluateRound r) ↔ Touches bs s t := by
  refine Touches.iff_of (as := [.sched, .store, .sleep, .current, .chain, .limits, .north]) ?_ h
  unfold State.evaluateRound
  repeat' split
  all_goals simp

@[simp] theorem touches_finishAligning {bs : List Block} {s t : State} (r : Round) (es : List RoundEntry)
    (h : [.sched, .store, .sleep, .current, .chain, .limits, .north] ⊆ bs) : Touches bs s (t.finishAligning r es) ↔ Touches bs s t := by
  refine Touches.iff_of (as := [.sched, .store, .sleep, .current, .chain, .limits, .north]) ?_ h
  unfold State.finishAligning
  dsimp only
  simp

@[simp] theorem touches_keepAligning {bs : List Block} {s t : State} (r : Round) (es : List RoundEntry)
    (h : [.sched] ⊆ bs) : Touches bs s (t.keepAligning r es) ↔ Touches bs s t := by
  refine Touches.iff_of (as := [.sched]) ?_ h
  unfold State.keepAligning
  dsimp only
  simp

@[simp] theorem touches_enterAligning {bs : List Block} {s t : State} (r : Round)
    (h : [.sched, .store, .sleep, .current, .chain, .limits, .north] ⊆ bs) : Touches bs s (t.enterAligning r) ↔ Touches bs s t := by
  refine Touches.iff_of (as := [.sched, .store, .sleep, .current, .chain, .limits, .north]) ?_ h
  unfold State.enterAligning
  dsimp only
  repeat' split
  all_goals simp

@[simp] theorem touches_realign {bs : List Block} {s t : State}
    (h : [.sched, .store, .sleep, .current, .chain, .limits, .north] ⊆ bs) : Touches bs s (t.realign) ↔ Touches bs s t := by
  refine Touches.iff_of (as := [.sched, .store, .sleep, .current, .chain, .limits, .north]) ?_ h
  unfold State.realign
  dsimp only
  repeat' split
  all_goals simp

@[simp] theorem touches_continueCollecting {bs : List Block} {s t : State}
    (h : [.sched, .store, .sleep, .current, .chain, .limits, .north] ⊆ bs) : Touches bs s (t.continueCollecting) ↔ Touches bs s t := by
  refine Touches.iff_of (as := [.sched, .store, .sleep, .current, .chain, .limits, .north]) ?_ h
  unfold State.continueCollecting
  repeat' split
  all_goals simp

@[simp] theorem touches_readEnded {bs : List Block} {s t : State} (p : Nat) (o : ReadOutcome)
    (h : [.sched, .store, .sleep, .current, .chain, .limits, .north] ⊆ bs) : Touches bs s (t.readEnded p o) ↔ Touches bs s t := by
  refine Touches.iff_of (as := [.sched, .store, .sleep, .current, .chain, .limits, .north]) ?_ h
  unfold State.readEnded
  dsimp only
  repeat' split
  all_goals simp

@[simp] theorem touches_sendTrigger {bs : List Block} {s t : State} (w : TakenTrigger) (e : ScheduleEntry)
    (h : [.sched, .store, .sleep, .current, .chain, .limits, .north] ⊆ bs) : Touches bs s (t.sendTrigger w e) ↔ Touches bs s t := by
  refine Touches.iff_of (as := [.sched, .store, .sleep, .current, .chain, .limits, .north]) ?_ h
  unfold State.sendTrigger
  dsimp only
  repeat' split
  all_goals simp

@[simp] theorem touches_beginEnumeration {bs : List Block} {s t : State}
    (h : [.chain] ⊆ bs) : Touches bs s (t.beginEnumeration) ↔ Touches bs s t := by
  refine Touches.iff_of (as := [.chain]) ?_ h
  unfold State.beginEnumeration
  dsimp only
  simp

@[simp] theorem touches_sendEnumerate {bs : List Block} {s t : State}
    (h : [.chain] ⊆ bs) : Touches bs s (t.sendEnumerate) ↔ Touches bs s t := by
  refine Touches.iff_of (as := [.chain]) ?_ h
  unfold State.sendEnumerate
  dsimp only
  simp

@[simp] theorem touches_endEnumeration {bs : List Block} {s t : State} (n : Nat)
    (h : [.chain, .north] ⊆ bs) : Touches bs s (t.endEnumeration n) ↔ Touches bs s t := by
  refine Touches.iff_of (as := [.chain, .north]) ?_ h
  unfold State.endEnumeration
  dsimp only
  repeat' split
  all_goals simp

@[simp] theorem touches_awaitReply {bs : List Block} {s t : State} (f : ChainFrame)
    (h : [.chain] ⊆ bs) : Touches bs s (t.awaitReply f) ↔ Touches bs s t := by
  refine Touches.iff_of (as := [.chain]) ?_ h
  unfold State.awaitReply
  dsimp only
  simp

@[simp] theorem touches_setChainSleep {bs : List Block} {s t : State} (x : ChainSleep)
    (h : [.sleep] ⊆ bs) : Touches bs s (t.setChainSleep x) ↔ Touches bs s t := by
  refine Touches.iff_of (as := [.sleep]) ?_ h
  unfold State.setChainSleep
  dsimp only
  simp

@[simp] theorem touches_wakeSent {bs : List Block} {s t : State} (b : Bool)
    (h : [.sleep, .current, .chain] ⊆ bs) : Touches bs s (t.wakeSent b) ↔ Touches bs s t := by
  refine Touches.iff_of (as := [.sleep, .current, .chain]) ?_ h
  unfold State.wakeSent
  dsimp only
  repeat' split
  all_goals simp

@[simp] theorem touches_sleepSent {bs : List Block} {s t : State}
    (h : [.sleep, .current, .chain] ⊆ bs) : Touches bs s (t.sleepSent) ↔ Touches bs s t := by
  refine Touches.iff_of (as := [.sleep, .current, .chain]) ?_ h
  unfold State.sleepSent
  dsimp only
  repeat' split
  all_goals simp

@[simp] theorem touches_frameSent {bs : List Block} {s t : State} (f : ChainFrame)
    (h : [.sched, .store, .sleep, .current, .chain, .limits, .north] ⊆ bs) : Touches bs s (t.frameSent f) ↔ Touches bs s t := by
  refine Touches.iff_of (as := [.sched, .store, .sleep, .current, .chain, .limits, .north]) ?_ h
  unfold State.frameSent
  repeat' split
  all_goals simp

@[simp] theorem touches_transactionEnded {bs : List Block} {s t : State} (f : ChainFrame) (o : TxnOutcome)
    (h : [.sched, .store, .sleep, .current, .chain, .limits, .north] ⊆ bs) : Touches bs s (t.transactionEnded f o) ↔ Touches bs s t := by
  refine Touches.iff_of (as := [.sched, .store, .sleep, .current, .chain, .limits, .north]) ?_ h
  unfold State.transactionEnded
  repeat' split
  all_goals simp

@[simp] theorem touches_hearUnasked {bs : List Block} {s t : State}
    (h : [.chain] ⊆ bs) : Touches bs s t.hearUnasked ↔ Touches bs s t := by
  refine Touches.iff_of (as := [.chain]) ?_ h
  simp [State.hearUnasked]

@[simp] theorem touches_replyStarts {bs : List Block} {s t : State}
    (h : [.chain] ⊆ bs) : Touches bs s t.replyStarts ↔ Touches bs s t := by
  refine Touches.iff_of (as := [.chain]) ?_ h
  unfold State.replyStarts
  repeat' split
  all_goals simp

@[simp] theorem touches_dropUnasked {bs : List Block} {s t : State}
    (h : [.chain] ⊆ bs) : Touches bs s t.dropUnasked ↔ Touches bs s t := by
  refine Touches.iff_of (as := [.chain]) ?_ h
  simp [State.dropUnasked]

@[simp] theorem touches_frameEnds {bs : List Block} {s t : State} (rx : ChainRx)
    (h : [.sched, .store, .sleep, .current, .chain, .limits, .north] ⊆ bs) :
    Touches bs s (t.frameEnds rx) ↔ Touches bs s t := by
  refine Touches.iff_of (as := [.sched, .store, .sleep, .current, .chain, .limits, .north]) ?_ h
  unfold State.frameEnds
  repeat' split
  all_goals simp

@[simp] theorem touches_enterRecord {bs : List Block} {s t : State} (m : ModuleTable) (a : Stamp) (r : SortedRecord)
    (h : [.sched, .store, .sleep, .current, .chain, .limits, .north, .seq, .events] ⊆ bs) : Touches bs s (t.enterRecord m a r) ↔ Touches bs s t := by
  refine Touches.iff_of (as := [.sched, .store, .sleep, .current, .chain, .limits, .north, .seq, .events]) ?_ h
  unfold State.enterRecord
  dsimp only
  simp

@[simp] theorem touches_recordArrives {bs : List Block} {s t : State} (m : ModuleTable) (b : List Byte)
    (h : [.sched, .store, .sleep, .current, .chain, .limits, .north, .seq, .events] ⊆ bs) : Touches bs s (t.recordArrives m b) ↔ Touches bs s t := by
  refine Touches.iff_of (as := [.sched, .store, .sleep, .current, .chain, .limits, .north, .seq, .events]) ?_ h
  unfold State.recordArrives
  dsimp only
  repeat' split
  all_goals simp

@[simp] theorem touches_withCoil {bs : List Block} {s t : State} (c : Contactor) (d : CoilDriver)
    (h : [.seq] ⊆ bs) : Touches bs s (t.withCoil c d) ↔ Touches bs s t := by
  refine Touches.iff_of (as := [.seq]) ?_ h
  unfold State.withCoil
  dsimp only
  simp

@[simp] theorem touches_withFeedback {bs : List Block} {s t : State} (c : Contactor) (d : DebouncedInput)
    (h : [.seq] ⊆ bs) : Touches bs s (t.withFeedback c d) ↔ Touches bs s t := by
  refine Touches.iff_of (as := [.seq]) ?_ h
  unfold State.withFeedback
  dsimp only
  simp

@[simp] theorem touches_truncateFrame {bs : List Block} {s t : State}
    (h : [.north] ⊆ bs) : Touches bs s (t.truncateFrame) ↔ Touches bs s t := by
  refine Touches.iff_of (as := [.north]) ?_ h
  unfold State.truncateFrame
  repeat' split
  all_goals simp

@[simp] theorem touches_reportCommand {bs : List Block} {s t : State}
    (h : [.sleep] ⊆ bs) : Touches bs s (t.reportCommand) ↔ Touches bs s t := by
  refine Touches.iff_of (as := [.sleep]) ?_ h
  unfold State.reportCommand
  dsimp only
  repeat' split
  all_goals simp

@[simp] theorem touches_joinCommands {bs : List Block} {s t : State} (f : NorthFrame)
    (h : [.sleep, .north] ⊆ bs) : Touches bs s (t.joinCommands f) ↔ Touches bs s t := by
  refine Touches.iff_of (as := [.sleep, .north]) ?_ h
  unfold State.joinCommands
  dsimp only
  repeat' split
  all_goals simp

@[simp] theorem touches_refuseForward {bs : List Block} {s t : State} (f : NorthFrame)
    (h : [.north] ⊆ bs) : Touches bs s (t.refuseForward f) ↔ Touches bs s t := by
  refine Touches.iff_of (as := [.north]) ?_ h
  unfold State.refuseForward
  dsimp only
  repeat' split
  all_goals simp

@[simp] theorem touches_filterForward {bs : List Block} {s t : State} (f : NorthFrame)
    (h : [.north, .chain] ⊆ bs) : Touches bs s (t.filterForward f) ↔ Touches bs s t := by
  refine Touches.iff_of (as := [.north, .chain]) ?_ h
  unfold State.filterForward
  dsimp only
  repeat' split
  all_goals simp

@[simp] theorem touches_routeFrame {bs : List Block} {s t : State} (a : Stamp) (f : NorthFrame)
    (h : [.lock, .store, .north, .sched, .seq, .events, .sleep, .chain] ⊆ bs) : Touches bs s (t.routeFrame a f) ↔ Touches bs s t := by
  refine Touches.iff_of (as := [.lock, .store, .north, .sched, .seq, .events, .sleep, .chain]) ?_ h
  unfold State.routeFrame
  repeat' split
  all_goals simp

@[simp] theorem touches_frameComplete {bs : List Block} {s t : State} (a : Stamp) (b : List Byte)
    (h : [.lock, .store, .north, .sched, .seq, .events, .sleep, .chain] ⊆ bs) : Touches bs s (t.frameComplete a b) ↔ Touches bs s t := by
  refine Touches.iff_of (as := [.lock, .store, .north, .sched, .seq, .events, .sleep, .chain]) ?_ h
  unfold State.frameComplete
  repeat' split
  all_goals simp

@[simp] theorem touches_clearStatus {bs : List Block} {s t : State}
    (h : [.north, .store, .sleep] ⊆ bs) : Touches bs s (t.clearStatus) ↔ Touches bs s t := by
  refine Touches.iff_of (as := [.north, .store, .sleep]) ?_ h
  unfold State.clearStatus
  dsimp only
  simp

@[simp] theorem touches_setTrim {bs : List Block} {s t : State} (w : WorkingTables) (p : Nat) (v : Int)
    (h : [.chain, .tables] ⊆ bs) : Touches bs s (t.setTrim w p v) ↔ Touches bs s t := by
  refine Touches.iff_of (as := [.chain, .tables]) ?_ h
  unfold State.setTrim
  dsimp only
  simp

@[simp] theorem touches_beginOp {bs : List Block} {s t : State} (o : ArrayOp) (n : Nat)
    (h : [.tables] ⊆ bs) : Touches bs s (t.beginOp o n) ↔ Touches bs s t := by
  refine Touches.iff_of (as := [.tables]) ?_ h
  unfold State.beginOp
  dsimp only
  simp

@[simp] theorem touches_setEngine {bs : List Block} {s t : State} (e : EngineState)
    (h : [.tables] ⊆ bs) : Touches bs s (t.setEngine e) ↔ Touches bs s t := by
  refine Touches.iff_of (as := [.tables]) ?_ h
  unfold State.setEngine
  dsimp only
  simp

@[simp] theorem touches_kickTamper {bs : List Block} {s t : State}
    (h : [.tables] ⊆ bs) : Touches bs s (t.kickTamper) ↔ Touches bs s t := by
  refine Touches.iff_of (as := [.tables]) ?_ h
  unfold State.kickTamper
  repeat' split
  all_goals simp

@[simp] theorem touches_lockTamper {bs : List Block} {s t : State}
    (h : [.tables] ⊆ bs) : Touches bs s (t.lockTamper) ↔ Touches bs s t := by
  refine Touches.iff_of (as := [.tables]) ?_ h
  unfold State.lockTamper
  dsimp only
  simp

@[simp] theorem touches_tamperEngine {bs : List Block} {s t : State}
    (h : [.tables] ⊆ bs) : Touches bs s (t.tamperEngine) ↔ Touches bs s t := by
  refine Touches.iff_of (as := [.tables]) ?_ h
  unfold State.tamperEngine
  dsimp only
  repeat' split
  all_goals simp

@[simp] theorem touches_tamperAssertion {bs : List Block} {s t : State}
    (h : [.tables, .sleep, .current, .chain] ⊆ bs) : Touches bs s (t.tamperAssertion) ↔ Touches bs s t := by
  refine Touches.iff_of (as := [.tables, .sleep, .current, .chain]) ?_ h
  unfold State.tamperAssertion
  dsimp only
  simp

@[simp] theorem touches_eraseDone {bs : List Block} {s t : State} (b : Nat) (w : Bool)
    (h : [.tables] ⊆ bs) : Touches bs s (t.eraseDone b w) ↔ Touches bs s t := by
  refine Touches.iff_of (as := [.tables]) ?_ h
  unfold State.eraseDone
  dsimp only
  repeat' split
  all_goals simp

@[simp] theorem touches_programDone {bs : List Block} {s t : State} (a : Nat) (b : List Byte)
    (h : [.tables] ⊆ bs) : Touches bs s (t.programDone a b) ↔ Touches bs s t := by
  refine Touches.iff_of (as := [.tables]) ?_ h
  unfold State.programDone
  dsimp only
  simp

@[simp] theorem touches_verified {bs : List Block} {s t : State} (o : Except VerifyReason WorkingTables)
    (h : [.tables] ⊆ bs) : Touches bs s (t.verified o) ↔ Touches bs s t := by
  refine Touches.iff_of (as := [.tables]) ?_ h
  unfold State.verified
  dsimp only
  repeat' split
  all_goals simp

@[simp] theorem touches_beginActivation {bs : List Block} {s t : State}
    (h : [.tables, .sched, .current, .chain, .limits, .north] ⊆ bs) : Touches bs s (t.beginActivation) ↔ Touches bs s t := by
  refine Touches.iff_of (as := [.tables, .sched, .current, .chain, .limits, .north]) ?_ h
  unfold State.beginActivation
  dsimp only
  simp

@[simp] theorem touches_pointerDone {bs : List Block} {s t : State} (x : Slot)
    (h : [.tables] ⊆ bs) : Touches bs s (t.pointerDone x) ↔ Touches bs s t := by
  refine Touches.iff_of (as := [.tables]) ?_ h
  unfold State.pointerDone
  dsimp only
  repeat' split
  all_goals simp

@[simp] theorem touches_loadTables {bs : List Block} {s t : State} (w : WorkingTables)
    (h : [.tables, .profiles, .limits, .sched, .lock] ⊆ bs) : Touches bs s (t.loadTables w) ↔ Touches bs s t := by
  refine Touches.iff_of (as := [.tables, .profiles, .limits, .sched, .lock]) ?_ h
  unfold State.loadTables
  dsimp only
  simp

@[simp] theorem touches_reload {bs : List Block} {s t : State} (w : WorkingTables)
    (h : [.tables, .profiles, .limits, .sched, .lock, .store, .current, .seq, .chain] ⊆ bs) : Touches bs s (t.reload w) ↔ Touches bs s t := by
  refine Touches.iff_of (as := [.tables, .profiles, .limits, .sched, .lock, .store, .current, .seq, .chain]) ?_ h
  unfold State.reload
  dsimp only
  repeat' split
  all_goals simp

@[simp] theorem touches_resetBlocks {bs : List Block} {s t : State}
    (h : [.timebase, .lock, .sched, .store, .current, .limits, .profiles] ⊆ bs) : Touches bs s (t.resetBlocks) ↔ Touches bs s t := by
  refine Touches.iff_of (as := [.timebase, .lock, .sched, .store, .current, .limits, .profiles]) ?_ h
  unfold State.resetBlocks
  simp

@[simp] theorem touches_stopOp {bs : List Block} {s t : State}
    (h : [.tables, .freeIndex] ⊆ bs) : Touches bs s (t.stopOp) ↔ Touches bs s t := by
  refine Touches.iff_of (as := [.tables, .freeIndex]) ?_ h
  unfold State.stopOp
  dsimp only
  repeat' split
  all_goals simp

@[simp] theorem touches_clearVolatile {bs : List Block} {s t : State}
    (h : [.timebase, .lock, .sched, .store, .current, .limits, .profiles, .north, .chain, .seq, .events, .sleep, .tables] ⊆ bs) : Touches bs s (t.clearVolatile) ↔ Touches bs s t := by
  refine Touches.iff_of (as := [.timebase, .lock, .sched, .store, .current, .limits, .profiles, .north, .chain, .seq, .events, .sleep, .tables]) ?_ h
  unfold State.clearVolatile
  simp

@[simp] theorem touches_startDebounces {bs : List Block} {s t : State}
    (h : [.seq, .tables] ⊆ bs) : Touches bs s (t.startDebounces) ↔ Touches bs s t := by
  refine Touches.iff_of (as := [.seq, .tables]) ?_ h
  unfold State.startDebounces
  dsimp only
  simp

@[simp] theorem touches_losePower {bs : List Block} {s t : State}
    (h : [.power, .timebase, .lock, .sched, .store, .current, .limits, .profiles, .north, .chain, .seq, .events, .sleep, .tables, .freeIndex] ⊆ bs) : Touches bs s (t.losePower) ↔ Touches bs s t := by
  refine Touches.iff_of (as := [.power, .timebase, .lock, .sched, .store, .current, .limits, .profiles, .north, .chain, .seq, .events, .sleep, .tables, .freeIndex]) ?_ h
  unfold State.losePower
  dsimp only
  simp

@[simp] theorem touches_powerUp {bs : List Block} {s t : State} (x : Straps)
    (h : [.power, .timebase, .lock, .sched, .store, .current, .limits, .profiles, .north, .chain, .seq, .events, .sleep, .tables, .freeIndex] ⊆ bs) : Touches bs s (t.powerUp x) ↔ Touches bs s t := by
  refine Touches.iff_of (as := [.power, .timebase, .lock, .sched, .store, .current, .limits, .profiles, .north, .chain, .seq, .events, .sleep, .tables, .freeIndex]) ?_ h
  unfold State.powerUp
  dsimp only
  repeat' split
  all_goals simp

@[simp] theorem touches_holdReset {bs : List Block} {s t : State}
    (h : [.power, .timebase, .lock, .sched, .store, .current, .limits, .profiles, .north, .chain, .seq, .events, .sleep, .tables] ⊆ bs) : Touches bs s (t.holdReset) ↔ Touches bs s t := by
  refine Touches.iff_of (as := [.power, .timebase, .lock, .sched, .store, .current, .limits, .profiles, .north, .chain, .seq, .events, .sleep, .tables]) ?_ h
  unfold State.holdReset
  dsimp only
  simp

@[simp] theorem touches_beginRestart {bs : List Block} {s t : State}
    (h : [.timebase, .lock, .sched, .store, .current, .limits, .profiles, .north, .chain, .seq, .sleep, .tables] ⊆ bs) : Touches bs s (t.beginRestart) ↔ Touches bs s t := by
  refine Touches.iff_of (as := [.timebase, .lock, .sched, .store, .current, .limits, .profiles, .north, .chain, .seq, .sleep, .tables]) ?_ h
  unfold State.beginRestart
  dsimp only
  simp

@[simp] theorem touches_beginLoading {bs : List Block} {s t : State}
    (h : [.tables, .chain] ⊆ bs) : Touches bs s (t.beginLoading) ↔ Touches bs s t := by
  refine Touches.iff_of (as := [.tables, .chain]) ?_ h
  unfold State.beginLoading
  dsimp only
  repeat' split
  all_goals simp

@[simp] theorem touches_loadOutcome {bs : List Block} {s t : State} (o : Except VerifyReason WorkingTables)
    (h : [.tables, .profiles, .limits, .sched, .lock] ⊆ bs) : Touches bs s (t.loadOutcome o) ↔ Touches bs s t := by
  refine Touches.iff_of (as := [.tables, .profiles, .limits, .sched, .lock]) ?_ h
  unfold State.loadOutcome
  dsimp only
  repeat' split
  all_goals simp

@[simp] theorem touches_endLoading {bs : List Block} {s t : State}
    (h : [.tables, .profiles, .limits, .sched, .lock, .chain] ⊆ bs) : Touches bs s (t.endLoading) ↔ Touches bs s t := by
  refine Touches.iff_of (as := [.tables, .profiles, .limits, .sched, .lock, .chain]) ?_ h
  unfold State.endLoading
  dsimp only
  simp

@[simp] theorem touches_elapseArray {bs : List Block} {s t : State} (n : Nat)
    (h : [.tables] ⊆ bs) : Touches bs s (t.elapseArray n) ↔ Touches bs s t := by
  refine Touches.iff_of (as := [.tables]) ?_ h
  simp [State.elapseArray]

@[simp] theorem touches_elapseBlocks {bs : List Block} {s t : State} (n : Nat)
    (h : [.timebase, .chain, .current, .seq, .sleep, .tables] ⊆ bs) : Touches bs s (t.elapseBlocks n) ↔ Touches bs s t := by
  refine Touches.iff_of (as := [.timebase, .chain, .current, .seq, .sleep, .tables]) ?_ h
  simp [State.elapseBlocks]

@[simp] theorem touches_elapse {bs : List Block} {s t : State} (n : Nat)
    (h : [.timebase, .chain, .current, .seq, .sleep, .tables] ⊆ bs) : Touches bs s (elapse n t) ↔ Touches bs s t := by
  refine Touches.iff_of (as := [.timebase, .chain, .current, .seq, .sleep, .tables]) ?_ h
  unfold elapse
  repeat' split
  all_goals simp

end Sys2Proof.Machine
end

