-- ==== Sys2Proof/Laws/Commands.lean ====
section
/-!
SUPPORT. The taking of a command: what each body may touch, and the three things a decoder row can do.
-/

namespace Sys2Proof.Machine

@[simp] theorem doGetStatus_keeps (a : Nat) (t : State) : (State.doGetStatus a t).1 = t := by
  unfold State.doGetStatus
  rfl

@[simp] theorem touches_doGetStatusClear {bs : List Block} {s t : State} (a : Nat) (h : [.north, .store, .sleep] ⊆ bs) :
    Touches bs s (State.doGetStatusClear a t).1 ↔ Touches bs s t := by
  refine Touches.iff_of (as := [.north, .store, .sleep]) ?_ h
  unfold State.doGetStatusClear
  simp [State.clearStatus]

@[simp] theorem doReadTable_keeps (a : ReadTableArgs) (t : State) : (State.doReadTable a t).1 = t := by
  unfold State.doReadTable
  repeat' split
  all_goals rfl

@[simp] theorem touches_doSetTrim {bs : List Block} {s t : State} (a : SetTrimArgs) (h : [.chain, .tables] ⊆ bs) :
    Touches bs s (State.doSetTrim a t).1 ↔ Touches bs s t := by
  refine Touches.iff_of (as := [.chain, .tables]) ?_ h
  unfold State.doSetTrim
  repeat' split
  all_goals simp [answer, refuse]

@[simp] theorem touches_doRestart {bs : List Block} {s t : State} (a : Unit) (h : [.north, .sched] ⊆ bs) :
    Touches bs s (State.doRestart a t).1 ↔ Touches bs s t := by
  refine Touches.iff_of (as := [.north, .sched]) ?_ h
  unfold State.doRestart
  simp

@[simp] theorem touches_doReadRound {bs : List Block} {s t : State} (a : Nat) (h : [.store] ⊆ bs) :
    Touches bs s (State.doReadRound a t).1 ↔ Touches bs s t := by
  refine Touches.iff_of (as := [.store]) ?_ h
  unfold State.doReadRound
  repeat' split
  all_goals simp [answer, refuse]

@[simp] theorem touches_doReleaseRound {bs : List Block} {s t : State} (a : Unit) (h : [.store] ⊆ bs) :
    Touches bs s (State.doReleaseRound a t).1 ↔ Touches bs s t := by
  refine Touches.iff_of (as := [.store]) ?_ h
  unfold State.doReleaseRound
  repeat' split
  all_goals simp [answer]

@[simp] theorem doReadLimits_keeps (a : Unit) (t : State) : (State.doReadLimits a t).1 = t := by
  unfold State.doReadLimits
  repeat' split
  all_goals rfl

@[simp] theorem touches_doClearLimit {bs : List Block} {s t : State} (a : Nat) (h : [.limits] ⊆ bs) :
    Touches bs s (State.doClearLimit a t).1 ↔ Touches bs s t := by
  refine Touches.iff_of (as := [.limits]) ?_ h
  unfold State.doClearLimit
  repeat' split
  all_goals simp [answer, refuse]

@[simp] theorem touches_doClearAll {bs : List Block} {s t : State} (a : Unit) (h : [.limits] ⊆ bs) :
    Touches bs s (State.doClearAll a t).1 ↔ Touches bs s t := by
  refine Touches.iff_of (as := [.limits]) ?_ h
  unfold State.doClearAll
  repeat' split
  all_goals simp [answer]

@[simp] theorem touches_doClose {bs : List Block} {s t : State} (a : Nat) (h : [.seq, .events] ⊆ bs) :
    Touches bs s (State.doClose a t).1 ↔ Touches bs s t := by
  refine Touches.iff_of (as := [.seq, .events]) ?_ h
  unfold State.doClose
  repeat' split
  all_goals simp [answer, refuse]

@[simp] theorem touches_doOpen {bs : List Block} {s t : State} (a : Unit) (h : [.seq, .events] ⊆ bs) :
    Touches bs s (State.doOpen a t).1 ↔ Touches bs s t := by
  refine Touches.iff_of (as := [.seq, .events]) ?_ h
  unfold State.doOpen
  repeat' split
  all_goals simp [answer]

@[simp] theorem touches_doFastOpen {bs : List Block} {s t : State} (a : Unit) (h : [.seq, .events] ⊆ bs) :
    Touches bs s (State.doFastOpen a t).1 ↔ Touches bs s t := by
  refine Touches.iff_of (as := [.seq, .events]) ?_ h
  unfold State.doFastOpen
  simp

@[simp] theorem touches_doClearTrip {bs : List Block} {s t : State} (a : Unit) (h : [.seq] ⊆ bs) :
    Touches bs s (State.doClearTrip a t).1 ↔ Touches bs s t := by
  refine Touches.iff_of (as := [.seq]) ?_ h
  unfold State.doClearTrip
  repeat' split
  all_goals simp [answer, refuse]

@[simp] theorem touches_doReadEvents {bs : List Block} {s t : State} (a : Nat) (h : [.events] ⊆ bs) :
    Touches bs s (State.doReadEvents a t).1 ↔ Touches bs s t := by
  refine Touches.iff_of (as := [.events]) ?_ h
  unfold State.doReadEvents
  repeat' split
  all_goals simp [answer]

@[simp] theorem touches_doSwitch {bs : List Block} {s t : State} (a : Nat) (h : [.profiles, .limits, .sched, .lock, .seq, .events] ⊆ bs) :
    Touches bs s (State.doSwitch a t).1 ↔ Touches bs s t := by
  refine Touches.iff_of (as := [.profiles, .limits, .sched, .lock, .seq, .events]) ?_ h
  unfold State.doSwitch
  repeat' split
  all_goals simp [answer, State.chainReplyOk]

@[simp] theorem touches_doEnter {bs : List Block} {s t : State} (a : Nat) (h : [.profiles, .limits, .sched, .lock, .seq, .events] ⊆ bs) :
    Touches bs s (State.doEnter a t).1 ↔ Touches bs s t := by
  refine Touches.iff_of (as := [.profiles, .limits, .sched, .lock, .seq, .events]) ?_ h
  unfold State.doEnter
  repeat' split
  all_goals simp [answer, State.chainReplyOk]

@[simp] theorem touches_doReturn {bs : List Block} {s t : State} (a : Unit) (h : [.profiles, .limits, .sched, .lock, .seq, .events] ⊆ bs) :
    Touches bs s (State.doReturn a t).1 ↔ Touches bs s t := by
  refine Touches.iff_of (as := [.profiles, .limits, .sched, .lock, .seq, .events]) ?_ h
  unfold State.doReturn
  repeat' split
  all_goals simp [answer, refuse, State.chainReplyOk]

@[simp] theorem touches_doSleep {bs : List Block} {s t : State} (a : Unit) (h : [.sched, .sleep] ⊆ bs) :
    Touches bs s (State.doSleep a t).1 ↔ Touches bs s t := by
  refine Touches.iff_of (as := [.sched, .sleep]) ?_ h
  unfold State.doSleep
  repeat' split
  all_goals simp [answer, refuse]

@[simp] theorem touches_doUpdErase {bs : List Block} {s t : State} (a : Nat) (h : [.tables] ⊆ bs) :
    Touches bs s (State.doUpdErase a t).1 ↔ Touches bs s t := by
  refine Touches.iff_of (as := [.tables]) ?_ h
  unfold State.doUpdErase
  repeat' split
  all_goals simp [answer, refuse]

@[simp] theorem touches_doUpdWrite {bs : List Block} {s t : State} (a : UpdWriteArgs) (h : [.tables] ⊆ bs) :
    Touches bs s (State.doUpdWrite a t).1 ↔ Touches bs s t := by
  refine Touches.iff_of (as := [.tables]) ?_ h
  unfold State.doUpdWrite
  repeat' split
  all_goals simp [answer, refuse]

@[simp] theorem touches_doUpdVerify {bs : List Block} {s t : State} (a : Unit) (h : [.tables] ⊆ bs) :
    Touches bs s (State.doUpdVerify a t).1 ↔ Touches bs s t := by
  refine Touches.iff_of (as := [.tables]) ?_ h
  unfold State.doUpdVerify
  repeat' split
  all_goals simp [answer, refuse]

@[simp] theorem touches_doUpdActivate {bs : List Block} {s t : State} (a : Unit) (h : [.north, .chain, .sched, .current, .limits, .tables] ⊆ bs) :
    Touches bs s (State.doUpdActivate a t).1 ↔ Touches bs s t := by
  refine Touches.iff_of (as := [.north, .chain, .sched, .current, .limits, .tables]) ?_ h
  unfold State.doUpdActivate
  repeat' split
  all_goals simp [answer, refuse]

/-- A row that cannot take the oldest command changes nothing. -/
theorem takeCommand_none {α : Type} {row : Instr} {args : List Byte → Option α} {body : α → State → State × Reply}
    {s : State} (h : s.takeable row = none) : takeCommand row args body s = s := by
  simp [takeCommand, h]

/-- A command that is not of its form is answered BAD_ARG. -/
theorem takeCommand_badArg {α : Type} {row : Instr} {args : List Byte → Option α} {body : α → State → State × Reply}
    {s : State} {c : Command} (h : s.takeable row = some c) (ha : args c.payload.tail = none) :
    takeCommand row args body s = s.popCommand.reply c (.plain .badArg) := by
  simp [takeCommand, h, ha]

/-- A command of its form is carried out by its body and answered with the body's reply. -/
theorem takeCommand_body {α : Type} {row : Instr} {args : List Byte → Option α} {body : α → State → State × Reply}
    {s : State} {c : Command} {a : α} (h : s.takeable row = some c) (ha : args c.payload.tail = some a) :
    takeCommand row args body s = (body a s.popCommand).1.reply c (body a s.popCommand).2 := by
  simp [takeCommand, h, ha]

/-- What taking a command may touch. -/
theorem touches_takeCommand {α : Type} {row : Instr} {args : List Byte → Option α}
    {body : α → State → State × Reply} {s : State} {bs : List Block} (hn : Block.north ∈ bs)
    (h : ∀ a (t : State), Touches bs s t → Touches bs s (body a t).1) : Touches bs s (takeCommand row args body s) := by
  have hp : Touches bs s s.popCommand := by simp [State.popCommand, hn]
  unfold takeCommand
  repeat' split
  · exact touches_refl bs s
  · simp [State.reply, hn, hp]
  · simpa [State.reply, hn] using h _ _ hp

end Sys2Proof.Machine
end

