-- ==== Sys2Proof/Laws/Formats.lean ====
section
/-!
SUPPORT. The serialisers of the meanings against the layouts as R185 words them: fields of several bytes, code tables,
sets, absent fields.
-/

namespace Sys2Proof.Machine

theorem le_eq_littleEndian (n v : Nat) : le n v = littleEndian n v := by
  induction n generalizing v with
  | zero => rfl
  | succ n ih =>
    rw [le, ih, littleEndian, littleEndian, List.range_succ_eq_map, List.map_cons, List.map_map, pow_zero, Nat.div_one]
    congr 1
    refine List.map_congr_left fun i _ => ?_
    rw [Function.comp_apply, Nat.div_div_eq_div_mul, Nat.succ_eq_add_one, pow_succ, Nat.mul_comm]

theorem byteOfSigned {n i : Nat} (v : Int) (h : i < n) :
    BitVec.ofNat 8 ((v % (256 ^ n : Nat)).toNat / 256 ^ i) = BitVec.ofInt 8 (v / 256 ^ i) := by
  have hm : 0 ≤ v % (256 ^ n : Nat) := Int.emod_nonneg _ (by positivity)
  have hv : v / 256 ^ i = v % (256 ^ n : Nat) / 256 ^ i + 256 * (256 ^ (n - i - 1) * (v / (256 ^ n : Nat))) := by
    have hn : ((256 ^ n : Nat) : Int) = 256 ^ i * (256 * 256 ^ (n - i - 1)) := by
      rw [← pow_succ', ← pow_add, show i + (n - i - 1 + 1) = n by omega]
      norm_cast
    conv_lhs => rw [← Int.emod_add_mul_ediv v (256 ^ n : Nat)]
    nth_rw 2 [hn]
    rw [mul_assoc, Int.add_mul_ediv_left _ _ (by positivity), mul_assoc]
  apply BitVec.eq_of_toNat_eq
  rw [BitVec.toNat_ofNat, BitVec.toNat_ofInt, hv]
  have hc : (((v % (256 ^ n : Nat)).toNat / 256 ^ i : Nat) : Int) = v % (256 ^ n : Nat) / 256 ^ i := by
    push_cast
    rw [Int.toNat_of_nonneg (by exact_mod_cast hm)]
  rw [← hc]
  omega

theorem leInt_eq_littleEndianSigned (n : Nat) (v : Int) : leInt n v = littleEndianSigned n v := by
  rw [leInt, le_eq_littleEndian]
  exact List.map_congr_left fun i h => byteOfSigned v (List.mem_range.mp h)

theorem optByte_eq_orAbsent (o : Option Nat) : optByte o = orAbsent (o.map (BitVec.ofNat 8)) := by
  cases o <;> rfl

theorem PowerState.code_eq (x : PowerState) :
    x.code = listPlace [.active, .sleepPending, .asleep, .watchRound, .waking] x := by cases x <;> rfl

theorem LockState.code_eq (x : LockState) : x.code = listPlace [.unlocked, .acquiring, .locked, .holdover] x := by
  cases x <;> rfl

theorem SeqState.code_eq (x : SeqState) :
    x.code = listPlace [.opened, .closing, .closed, .deferred, .opening, .tripped] x := by cases x <;> rfl

theorem MeasKind.code_eq (x : MeasKind) : x.code = listPlace [.cells, .temps, .both] x := by cases x <;> rfl

theorem EntryStatus.code_eq {x : EntryStatus} (h : x ≠ .waiting) :
    x.code = listPlace [.ok, .missing, .crcError, .notPresent] x := by
  cases x <;> first | rfl | exact absurd rfl h

theorem AlignFlag.code_eq (x : AlignFlag) : byte x.code = listPlace [.ok, .gap, .held, .stale, .noCurrent] x := by
  cases x <;> rfl

theorem RunLevel.code_eq (x : RunLevel) : x.code = listPlace [.clear, .pending, .tripped] x := by cases x <;> rfl

theorem contactorByte_eq (x : Option Contactor) :
    contactorByte x = listPlace [some .mneg, some .mpos, some .pre, some .chg, none] x := by
  rcases x with _ | x
  · rfl
  · cases x <;> rfl

theorem EventKind.code_eq (x : EventKind) :
    x.code =
      listPlace [.closeCmd, .closeDone, .closeFailed, .openCmd, .openDeferred, .highCurrentBreak, .openDone, .fastOpen,
        .weldSuspect, .feedbackLost, .coilFault] x := by cases x <;> rfl

theorem Cause.code_eq (x : Cause) : x.code = causeByte x := by cases x <;> rfl

theorem optCause_eq (x : Option Cause) : optCause x = orAbsent (x.map causeByte) := by
  rcases x with _ | x
  · rfl
  · exact x.code_eq

theorem EngineState.code_eq (x : EngineState) :
    x.code =
      match x with
      | .locked _ => 6
      | e => listPlace [.idle, .erasing, .programming, .verifying, .verified, .activating] e := by cases x <;> rfl

/-! Marks that share a byte, and the alignment flag with its mark in bit 3. -/
theorem setByte_two (a b : Bool) : bitIf a 0 ||| bitIf b 1 = setByte [a, b] := by
  cases a <;> cases b <;> decide

theorem setByte_three (a b c : Bool) : bitIf a 0 ||| bitIf b 1 ||| bitIf c 2 = setByte [a, b, c] := by
  cases a <;> cases b <;> cases c <;> decide

theorem setByte_four (a b c d : Bool) : bitIf a 0 ||| bitIf b 1 ||| bitIf c 2 ||| bitIf d 3 = setByte [a, b, c, d] := by
  cases a <;> cases b <;> cases c <;> cases d <;> decide

theorem alignByte_eq (f : AlignFlag) (saturated : Bool) :
    byte f.code ||| bitIf saturated 3 =
      listPlace [.ok, .gap, .held, .stale, .noCurrent] f + if saturated then 8 else 0 := by
  cases f <;> cases saturated <;> decide

theorem StickyFlags.mask_eq (f : StickyFlags) :
    f.mask =
      setByte [f.linkError, f.straySync, f.overrun, f.curOrder, f.curFault, f.chainMismatch, f.entryFailed] := by
  rcases f with ⟨_ | _, _ | _, _ | _, _ | _, _ | _, _ | _, _ | _⟩ <;> rfl

theorem LastVerification.code_eq (x : LastVerification) :
    x.code =
      match x with
      | .none => 0
      | .passed => 1
      | .abandoned => 2
      | .failed reason => 0x10 + listPlace verifyReasons reason := by
  rcases x with _ | _ | _ | r
  iterate 3 rfl
  cases r <;> rfl

theorem LoadResult.code_eq (x : LoadResult) :
    x.code =
      match x with
      | .loaded => 0
      | .noTables reason => 1 + listPlace verifyReasons reason := by
  rcases x with _ | r
  · rfl
  · cases r <;> rfl

theorem EngineState.lockCauseByte_eq (x : EngineState) :
    x.lockCauseByte =
      match x with
      | .locked cause => listPlace [.tamper, .fails] cause
      | _ => 0xFF := by
  rcases x with _ | _ | _ | _ | _ | _ | c
  iterate 6 rfl
  cases c <;> rfl

/-- The first `n` places of the chain, newest first, as the status block shows them. -/
theorem chainElementBytes_eq (n : Nat) (chain : List ChainElement) :
    chainElementBytes n chain =
      (List.range n).flatMap fun i =>
        match chain[i]? with
        | some e => [BitVec.ofNat 8 e.profile, causeByte e.cause]
        | none => [0xFF, 0xFF] := by
  induction n generalizing chain with
  | zero => rfl
  | succ n ih =>
    rw [List.range_succ_eq_map, List.flatMap_cons, List.flatMap_map]
    cases chain with
    | nil =>
      rw [chainElementBytes, ih]
      rfl
    | cons e rest =>
      rw [chainElementBytes, ih, e.cause.code_eq]
      rfl

theorem WakeCauses.mask_eq (w : WakeCauses) : w.mask = setByte [w.limit, w.wakeIn, w.link, w.tamper, w.report] := by
  rcases w with ⟨_ | _, _ | _, _ | _, _ | _, _ | _⟩ <;> rfl

end Sys2Proof.Machine
end

