-- ==== Sys2Proof/Laws/Memory.lean ====
section
/-!
SUPPORT. The nonvolatile array: every operation keeps the canonical form, and what each byte reads as afterwards.
-/

namespace Sys2Proof.Machine

theorem Memory.wfFrom_weaken {lo lo' : Nat} (h : lo' ≤ lo) {mem : List Host.Cell} (w : Memory.wfFrom lo mem = true) :
    Memory.wfFrom lo' mem = true := by
  cases mem with
  | nil => rfl
  | cons c rest =>
    obtain ⟨k, v⟩ := c
    simp only [Memory.wfFrom, Bool.and_eq_true, decide_eq_true_eq] at w ⊢
    exact ⟨⟨⟨Nat.le_trans h w.1.1.1, w.1.1.2⟩, w.1.2⟩, w.2⟩

theorem Memory.read_below {lo a : Nat} (h : a < lo) {mem : List Host.Cell} (w : Memory.wfFrom lo mem = true) :
    Memory.read mem a = blankByte := by
  induction mem generalizing lo with
  | nil => rfl
  | cons c rest ih =>
    obtain ⟨k, v⟩ := c
    simp only [Memory.wfFrom, Bool.and_eq_true, decide_eq_true_eq] at w
    have hk : a ≠ k := by omega
    rw [Memory.read, if_neg hk]
    exact ih (by omega) w.2

theorem Memory.write_wfFrom {lo a : Nat} (hlo : lo ≤ a) (ha : a < arraySize) (v : Byte) {mem : List Host.Cell}
    (w : Memory.wfFrom lo mem = true) : Memory.wfFrom lo (Memory.write mem a v) = true := by
  induction mem generalizing lo with
  | nil =>
    unfold Memory.write
    split
    · rfl
    · simp [Memory.wfFrom, *]
  | cons c rest ih =>
    obtain ⟨k, x⟩ := c
    simp only [Memory.wfFrom, Bool.and_eq_true, decide_eq_true_eq] at w
    unfold Memory.write
    split
    · split
      · simp only [Memory.wfFrom, Bool.and_eq_true, decide_eq_true_eq]; exact w
      · simp only [Memory.wfFrom, Bool.and_eq_true, decide_eq_true_eq]
        exact ⟨⟨⟨hlo, ha⟩, by simp [*]⟩, ⟨⟨by omega, w.1.1.2⟩, w.1.2⟩, w.2⟩
    · split
      · split
        · exact Memory.wfFrom_weaken (by omega) w.2
        · simp only [Memory.wfFrom, Bool.and_eq_true, decide_eq_true_eq]
          rename_i hk _
          exact ⟨⟨⟨hlo, ha⟩, by simp [*]⟩, hk ▸ w.2⟩
      · simp only [Memory.wfFrom, Bool.and_eq_true, decide_eq_true_eq]
        exact ⟨w.1, ih (by omega) w.2⟩

/-- Storing a byte keeps the canonical form. -/
theorem Memory.write_wf {a : Nat} (ha : a < arraySize) (v : Byte) {mem : List Host.Cell}
    (w : Memory.wf mem = true) : Memory.wf (Memory.write mem a v) = true :=
  Memory.write_wfFrom (Nat.zero_le a) ha v w

/-- Storing bytes keeps the canonical form. -/
theorem Memory.writeBytes_wf {a : Nat} {bytes : List Byte} (h : a + bytes.length ≤ arraySize) {mem : List Host.Cell}
    (w : Memory.wf mem = true) : Memory.wf (Memory.writeBytes mem a bytes) = true := by
  induction bytes generalizing a mem with
  | nil => exact w
  | cons v rest ih =>
    simp only [List.length_cons] at h
    exact ih (by omega) (Memory.write_wf (by omega) v w)

theorem Memory.erase_wfFrom {lo : Nat} (a n : Nat) {mem : List Host.Cell} (w : Memory.wfFrom lo mem = true) :
    Memory.wfFrom lo (Memory.erase mem a n) = true := by
  unfold Memory.erase
  induction mem generalizing lo with
  | nil => rfl
  | cons c rest ih =>
    obtain ⟨k, v⟩ := c
    simp only [Memory.wfFrom, Bool.and_eq_true, decide_eq_true_eq] at w
    rw [List.filter_cons]
    split
    · simp only [Memory.wfFrom, Bool.and_eq_true, decide_eq_true_eq]
      exact ⟨w.1, ih w.2⟩
    · exact Memory.wfFrom_weaken (by omega) (ih w.2)

/-- Erasing keeps the canonical form. -/
theorem Memory.erase_wf (a n : Nat) {mem : List Host.Cell} (w : Memory.wf mem = true) :
    Memory.wf (Memory.erase mem a n) = true := Memory.erase_wfFrom a n w

theorem Memory.read_write_from {lo a : Nat} (v : Byte) {mem : List Host.Cell} (w : Memory.wfFrom lo mem = true)
    (b : Nat) : Memory.read (Memory.write mem a v) b = if b = a then v else Memory.read mem b := by
  induction mem generalizing lo with
  | nil =>
    unfold Memory.write
    by_cases hv : v = blankByte <;> simp [hv, Memory.read]
  | cons c rest ih =>
    obtain ⟨k, x⟩ := c
    simp only [Memory.wfFrom, Bool.and_eq_true, decide_eq_true_eq] at w
    unfold Memory.write
    by_cases hlt : a < k
    · rw [if_pos hlt]
      by_cases hv : v = blankByte
      · rw [if_pos hv]
        by_cases hb : b = a
        · subst hb
          have : b ≠ k := by omega
          rw [if_pos rfl, Memory.read, if_neg this, Memory.read_below (by omega : b < k + 1) w.2, hv]
        · rw [if_neg hb]
      · rw [if_neg hv, Memory.read]
    · rw [if_neg hlt]
      by_cases hk : a = k
      · subst hk
        rw [if_pos rfl]
        by_cases hv : v = blankByte
        · rw [if_pos hv]
          by_cases hb : b = a
          · subst hb
            rw [if_pos rfl, Memory.read_below (by omega : b < b + 1) w.2, hv]
          · rw [if_neg hb, Memory.read, if_neg hb]
        · rw [if_neg hv, Memory.read]
          by_cases hb : b = a
          · simp [hb]
          · simp [hb, Memory.read]
      · rw [if_neg hk, Memory.read, ih w.2, Memory.read]
        by_cases hb : b = k
        · subst hb
          have : b ≠ a := fun h => hk h.symm
          simp [this]
        · simp [hb]

/-- A byte after one byte is stored. -/
theorem Memory.read_write {a : Nat} (v : Byte) {mem : List Host.Cell} (w : Memory.wf mem = true) (b : Nat) :
    Memory.read (Memory.write mem a v) b = if b = a then v else Memory.read mem b :=
  Memory.read_write_from v w b

/-- A byte outside those stored reads as before. -/
theorem Memory.read_writeBytes_outside {a : Nat} {bytes : List Byte} (h : a + bytes.length ≤ arraySize)
    {mem : List Host.Cell} (w : Memory.wf mem = true) {b : Nat} (hb : b < a ∨ a + bytes.length ≤ b) :
    Memory.read (Memory.writeBytes mem a bytes) b = Memory.read mem b := by
  induction bytes generalizing a mem with
  | nil => rfl
  | cons v rest ih =>
    simp only [List.length_cons] at h hb
    rw [Memory.writeBytes, ih (by omega) (Memory.write_wf (by omega) v w) (by omega), Memory.read_write v w b,
      if_neg (by omega)]

/-- Each of the bytes stored reads as stored. -/
theorem Memory.read_writeBytes_inside {a : Nat} {bytes : List Byte} (h : a + bytes.length ≤ arraySize)
    {mem : List Host.Cell} (w : Memory.wf mem = true) {i : Nat} (hi : i < bytes.length) :
    Memory.read (Memory.writeBytes mem a bytes) (a + i) = bytes[i] := by
  induction bytes generalizing a mem i with
  | nil => simp at hi
  | cons v rest ih =>
    simp only [List.length_cons] at h hi
    cases i with
    | zero =>
      rw [Memory.writeBytes,
        Memory.read_writeBytes_outside (by omega) (Memory.write_wf (by omega) v w) (Or.inl (by omega)),
        Memory.read_write v w, if_pos (by omega)]
      rfl
    | succ j =>
      rw [Memory.writeBytes, show a + (j + 1) = a + 1 + j by omega,
        ih (by omega) (Memory.write_wf (by omega) v w) (by omega)]
      rfl

/-- A byte after an erase. -/
theorem Memory.read_erase (a n : Nat) (mem : List Host.Cell) (b : Nat) :
    Memory.read (Memory.erase mem a n) b = if a ≤ b ∧ b < a + n then blankByte else Memory.read mem b := by
  unfold Memory.erase
  induction mem with
  | nil => simp [Memory.read]
  | cons c rest ih =>
    obtain ⟨k, v⟩ := c
    rw [List.filter_cons]
    by_cases hk : a ≤ k ∧ k < a + n
    · rw [if_neg (by simp [hk]), ih, Memory.read]
      by_cases hb : b = k
      · subst hb; simp [hk]
      · simp [hb]
    · rw [if_pos (by simp; omega), Memory.read, Memory.read, ih]
      by_cases hb : b = k
      · subst hb; rw [if_pos rfl, if_pos rfl, if_neg hk]
      · simp [hb]

theorem Memory.slice_length (mem : List Host.Cell) (a n : Nat) : (Memory.slice mem a n).length = n := by
  induction n generalizing a with
  | zero => rfl
  | succ n ih => simp [Memory.slice, ih]

theorem Memory.slice_getElem? (mem : List Host.Cell) (a n i : Nat) (h : i < n) :
    (Memory.slice mem a n)[i]? = some (Memory.read mem (a + i)) := by
  induction n generalizing a i with
  | zero => omega
  | succ n ih =>
    cases i with
    | zero => rfl
    | succ i =>
      rw [Memory.slice, List.getElem?_cons_succ, ih (a + 1) i (by omega)]
      congr 2
      omega

/-- Bytes read back from among the bytes stored. -/
theorem Memory.slice_writeBytes {a : Nat} {bytes : List Byte} (h : a + bytes.length ≤ arraySize)
    {mem : List Host.Cell} (w : Memory.wf mem = true) {k n : Nat} (hk : k + n ≤ bytes.length) :
    Memory.slice (Memory.writeBytes mem a bytes) (a + k) n = (bytes.drop k).take n := by
  apply List.ext_getElem?
  intro i
  by_cases hi : i < n
  · rw [Memory.slice_getElem? _ _ _ _ hi, List.getElem?_take_of_lt hi, List.getElem?_drop, Nat.add_assoc,
      List.getElem?_eq_getElem (by omega), Memory.read_writeBytes_inside h w (by omega)]
  · rw [List.getElem?_eq_none (by rw [Memory.slice_length]; omega),
      List.getElem?_eq_none (by simp; omega)]

theorem Memory.ext_from {lo : Nat} {m₁ m₂ : List Host.Cell} (w₁ : Memory.wfFrom lo m₁ = true)
    (w₂ : Memory.wfFrom lo m₂ = true) (h : ∀ a, lo ≤ a → Memory.read m₁ a = Memory.read m₂ a) : m₁ = m₂ := by
  induction m₁ generalizing lo m₂ with
  | nil =>
    cases m₂ with
    | nil => rfl
    | cons d rest₂ =>
      obtain ⟨k, v⟩ := d
      simp only [Memory.wfFrom, Bool.and_eq_true, decide_eq_true_eq] at w₂
      have := h k w₂.1.1.1
      simp [Memory.read] at this
      simp [← this] at w₂
  | cons c rest₁ ih =>
    obtain ⟨k₁, v₁⟩ := c
    simp only [Memory.wfFrom, Bool.and_eq_true, decide_eq_true_eq] at w₁
    have n₁ : v₁ ≠ blankByte := by simpa using w₁.1.2
    cases m₂ with
    | nil =>
      have := h k₁ w₁.1.1.1
      simp [Memory.read] at this
      exact absurd this n₁
    | cons d rest₂ =>
      obtain ⟨k₂, v₂⟩ := d
      simp only [Memory.wfFrom, Bool.and_eq_true, decide_eq_true_eq] at w₂
      have n₂ : v₂ ≠ blankByte := by simpa using w₂.1.2
      have hk : k₁ = k₂ := by
        rcases Nat.lt_trichotomy k₁ k₂ with hlt | heq | hgt
        · have := h k₁ w₁.1.1.1
          rw [Memory.read, if_pos rfl, Memory.read, if_neg (by omega),
            Memory.read_below (by omega : k₁ < k₂ + 1) w₂.2] at this
          exact absurd this n₁
        · exact heq
        · have := h k₂ w₂.1.1.1
          rw [Memory.read, if_neg (by omega), Memory.read_below (by omega : k₂ < k₁ + 1) w₁.2, Memory.read,
            if_pos rfl] at this
          exact absurd this.symm n₂
      subst hk
      have hv := h k₁ w₁.1.1.1
      simp [Memory.read] at hv
      have hrest := ih w₁.2 w₂.2 (fun a ha => by
        have := h a (by omega)
        rw [Memory.read, if_neg (by omega), Memory.read, if_neg (by omega)] at this
        exact this)
      rw [hv, hrest]

/-- Two arrays in canonical form that read alike are equal data. -/
theorem Memory.ext {m₁ m₂ : List Host.Cell} (w₁ : Memory.wf m₁ = true) (w₂ : Memory.wf m₂ = true)
    (h : ∀ a, Memory.read m₁ a = Memory.read m₂ a) : m₁ = m₂ :=
  Memory.ext_from w₁ w₂ fun a _ => h a

/-- The array after reset has the canonical form. -/
theorem Memory.wf_reset : Memory.wf State.reset.tables.array = true := rfl

end Sys2Proof.Machine
end

