-- ==== Sys2Proof/Laws/Images.lean ====
section
/-!
SUPPORT. The readers of an image against R169 and R174: fields by their offsets, the directory, the check DIRECTORY, and
what the tables that read are sure to satisfy and hold by the layouts of section 11.6.
-/

namespace Sys2Proof.Machine

/-! ### Fields by their offsets -/

theorem imageField_succ (image : List Byte) (offset n : Nat) :
    imageField image offset (n + 1) = (image.getD offset 0).toNat + 256 * imageField image (offset + 1) n := by
  simp only [imageField, List.range_succ_eq_map, List.map_cons, List.map_map, List.sum_cons, pow_zero, mul_one,
    Nat.add_zero, ← List.sum_map_mul_left]
  congr 2
  refine List.map_congr_left fun i _ => ?_
  simp only [Function.comp_apply, Nat.succ_eq_add_one, Nat.add_right_comm offset 1 i, ← Nat.add_assoc, pow_succ]
  ring

theorem field_eq_imageField (image : List Byte) (offset n : Nat) : field image offset n = imageField image offset n := by
  induction n generalizing offset with
  | zero => rfl
  | succ n ih =>
    rw [imageField_succ, ← ih, field, field]
    by_cases h : offset < image.length
    · rw [List.drop_eq_getElem_cons h, List.take_succ_cons, fromLe, List.getD_eq_getElem _ _ h]
    · have hd : image.drop offset = [] := List.drop_eq_nil_of_le (by omega)
      have hd1 : image.drop (offset + 1) = [] := List.drop_eq_nil_of_le (by omega)
      rw [hd, hd1, List.take_nil, List.take_nil, List.getD_eq_default _ _ (by omega)]
      rfl

theorem u8_eq_imageField (image : List Byte) (offset : Nat) : u8 image offset = imageField image offset 1 := by
  rw [imageField_succ]
  rfl

theorem imageField_take_drop (image : List Byte) (start size offset n : Nat) (h : offset + n ≤ size) :
    imageField ((image.drop start).take size) offset n = imageField image (start + offset) n := by
  simp only [imageField]
  congr 1
  refine List.map_congr_left fun i hi => ?_
  have hi := List.mem_range.mp hi
  rw [List.getD_eq_getElem?_getD, List.getD_eq_getElem?_getD, List.getElem?_take_of_lt (by omega), List.getElem?_drop,
    Nat.add_assoc]

theorem slice_eq_map (mem : List Host.Cell) (a n : Nat) :
    Memory.slice mem a n = (List.range n).map fun i => Memory.read mem (a + i) := by
  induction n generalizing a with
  | zero => rfl
  | succ n ih =>
    rw [Memory.slice, ih, List.range_succ_eq_map, List.map_cons, List.map_map]
    congr 1
    refine List.map_congr_left fun i _ => ?_
    rw [Function.comp_apply, Nat.succ_eq_add_one, Nat.add_right_comm, Nat.add_assoc]

/-! ### The directory -/

/-- Records read from the right number of bytes by a reader that never fails. -/
theorem parseRecords_total {α : Type} {size : Nat} {parse : List Byte → Option α} {f : List Byte → α}
    (hf : ∀ bs : List Byte, bs.length = size → parse bs = some (f bs)) :
    ∀ (n : Nat) (bs : List Byte), bs.length = size * n →
      parseRecords size parse n bs = some ((List.range n).map fun i => f ((bs.drop (size * i)).take size)) := by
  intro n
  induction n with
  | zero =>
    intro bs h
    have hb : bs = [] := List.length_eq_zero_iff.mp (by simpa using h)
    rw [hb]
    rfl
  | succ n ih =>
    intro bs h
    have h' : bs.length = size * n + size := by rw [h, Nat.mul_succ]
    rw [parseRecords, hf _ (by rw [List.length_take]; omega), ih _ (by rw [List.length_drop]; omega)]
    simp only [List.range_succ_eq_map, List.map_cons, List.map_map, Nat.mul_zero, List.drop_zero]
    congr 2
    refine List.map_congr_left fun i _ => ?_
    rw [Function.comp_apply, List.drop_drop, Nat.succ_eq_add_one, Nat.mul_succ, Nat.add_comm]

/-- The directory of an image that has room for it (R169). -/
theorem parseDirectory (image : List Byte) (n : Nat) (h : 16 + 6 * n ≤ image.length) :
    parseRecords 6 parseDirEntry n ((image.drop 16).take (6 * n)) = some (imageDirectory image n) := by
  rw [parseRecords_total (f := fun bs => ⟨u8 bs 0, u8 bs 1 + 1, field bs 2 2, field bs 4 2⟩)
    (fun bs hb => by rw [parseDirEntry, if_pos hb]) n _
    (by rw [List.length_take, List.length_drop]; omega)]
  rw [imageDirectory]
  congr 1
  refine List.map_congr_left fun i hi => ?_
  have hi := List.mem_range.mp hi
  have hb : (((image.drop 16).take (6 * n)).drop (6 * i)).take 6 = (image.drop (16 + 6 * i)).take 6 := by
    rw [List.drop_take, List.drop_drop, List.take_take, min_eq_left (by omega)]
  simp only [hb, u8_eq_imageField, field_eq_imageField]
  rw [imageField_take_drop _ _ _ _ _ (by omega), imageField_take_drop _ _ _ _ _ (by omega),
    imageField_take_drop _ _ _ _ _ (by omega), imageField_take_drop _ _ _ _ _ (by omega)]
  rw [show 16 + 6 * i + 1 = 17 + 6 * i by omega, show 16 + 6 * i + 2 = 18 + 6 * i by omega,
    show 16 + 6 * i + 4 = 20 + 6 * i by omega, Nat.add_zero]

theorem noOverlap_iff (dir : List DirEntry) :
    noOverlap dir = true ↔ dir.Pairwise (fun a b =>
      ¬ ∃ x, a.offset ≤ x ∧ x < a.offset + a.length ∧ b.offset ≤ x ∧ x < b.offset + b.length) := by
  induction dir with
  | nil => simp [noOverlap]
  | cons e rest ih =>
    rw [noOverlap, Bool.and_eq_true, List.pairwise_cons, ih, List.all_eq_true]
    refine and_congr_left fun _ => forall₂_congr fun f _ => ?_
    rw [Bool.not_eq_true', DirEntry.overlaps, decide_eq_false_iff_not]
    refine not_congr ⟨fun h => ⟨max e.offset f.offset, by omega⟩, ?_⟩
    rintro ⟨x, h⟩
    omega

theorem sequencesLength_iff (n : Nat) (bs : List Byte) :
    sequencesLength n bs = some bs.length ↔
      ∃ parts : List (List Byte), parts.length = n ∧ bs = parts.flatten ∧
        ∀ part ∈ parts, ∃ cls count steps, part = cls :: count :: steps ∧ steps.length = 4 * (count.toNat + 1) := by
  induction n generalizing bs with
  | zero =>
    constructor
    · intro h
      refine ⟨[], rfl, List.length_eq_zero_iff.mp ?_, by simp⟩
      rw [sequencesLength] at h
      exact (Option.some.inj h).symm
    · rintro ⟨parts, hl, rfl, -⟩
      rw [List.length_eq_zero_iff.mp hl]
      rfl
  | succ n ih =>
    constructor
    · intro h
      match bs, h with
      | cls :: c :: rest, h =>
        rw [sequencesLength] at h
        split at h
        · rename_i hk
          obtain ⟨m, hm, he⟩ := Option.map_eq_some_iff.mp h
          have hd : sequencesLength n (rest.drop (4 * (c.toNat + 1))) = some (rest.drop (4 * (c.toNat + 1))).length := by
            rw [hm, List.length_drop]
            simp only [List.length_cons] at he
            congr 1
            omega
          obtain ⟨parts, hl, hf, hp⟩ := (ih _).mp hd
          refine ⟨(cls :: c :: rest.take (4 * (c.toNat + 1))) :: parts, by simp [hl], ?_, ?_⟩
          · rw [List.flatten_cons, ← hf, List.cons_append, List.cons_append, List.take_append_drop]
          · intro part hpart
            rcases List.mem_cons.mp hpart with rfl | hpart
            · exact ⟨cls, c, _, rfl, by rw [List.length_take]; omega⟩
            · exact hp part hpart
        · cases h
      | [], h => simp [sequencesLength] at h
      | [_], h => simp [sequencesLength] at h
    · rintro ⟨parts, hl, rfl, hp⟩
      match parts, hl with
      | part :: rest, hl =>
        obtain ⟨cls, c, steps, rfl, hs⟩ := hp part List.mem_cons_self
        have hr := (ih rest.flatten).mpr
          ⟨rest, by simpa using hl, rfl, fun p h => hp p (List.mem_cons_of_mem _ h)⟩
        rw [List.flatten_cons, List.cons_append, List.cons_append, sequencesLength]
        rw [if_pos (by rw [List.length_append]; omega), List.drop_left' hs, hr]
        simp only [Option.map_some, List.length_cons, List.length_append]
        congr 1
        omega

/-- The agreement of count and length, for a table inside the image. -/
theorem countAgrees_iff (e : DirEntry) (image : List Byte) (h : e.offset + e.length ≤ image.length) :
    e.countAgrees image = true ↔ e.CountAgrees image := by
  have hlen : (e.table image).length = e.length := by
    rw [DirEntry.table, List.length_take, List.length_drop]
    omega
  rw [DirEntry.countAgrees, DirEntry.CountAgrees]
  rcases hk : e.kind with _ | _ | _ | _ | _ | k
  · simp
  · simp
  · simp
  · have hd : ((e.table image).drop 14).length = e.length - 14 := by rw [List.length_drop, hlen]
    suffices (decide (14 ≤ e.length) && sequencesLength e.count ((e.table image).drop 14) == some (e.length - 14)) = true ↔
        ∃ (header : List Byte) (parts : List (List Byte)), header.length = 14 ∧ parts.length = e.count ∧
          e.table image = header ++ parts.flatten ∧
          ∀ part ∈ parts, ∃ cls count steps, part = cls :: count :: steps ∧ steps.length = 4 * (count.toNat + 1) by
      simpa [DirEntry.table] using this
    rw [Bool.and_eq_true, decide_eq_true_eq, beq_iff_eq, ← hd, sequencesLength_iff]
    constructor
    · rintro ⟨h14, parts, hl, hf, hp⟩
      exact ⟨(e.table image).take 14, parts, by rw [List.length_take, hlen]; omega, hl,
        by rw [← hf, List.take_append_drop], hp⟩
    · rintro ⟨header, parts, hh, hl, hf, hp⟩
      exact ⟨by rw [← hlen, hf, List.length_append]; omega, parts, hl, by rw [hf, List.drop_left' hh], hp⟩
  · simp
  · simp

/-- The check DIRECTORY of R174. -/
theorem directoryOk_iff (n : Nat) (image : List Byte) (dir : List DirEntry) (h : 16 ≤ image.length) :
    directoryOk n image dir = true ↔ DirectorySound n image dir := by
  have hk : ∀ k, (ofKind k dir).length = tablesOfKind dir k := fun k => by
    rw [ofKind, tablesOfKind]
    congr 1
  simp only [directoryOk, DirectorySound, inRange, Bool.and_eq_true, decide_eq_true_eq, List.all_eq_true, beq_iff_eq,
    noOverlap_iff, hk]
  constructor
  · rintro ⟨⟨⟨⟨⟨⟨⟨⟨⟨h1, h2⟩, hb⟩, ho⟩, k0⟩, k3⟩, k4⟩, k1⟩, k2⟩, ha⟩
    exact ⟨h1, h2, fun e he => ⟨(hb e he).1, by have := (hb e he).2; omega⟩, ho, k0, k3, k4, k1.1, k1.2, k2.1, k2.2,
      fun e he => (countAgrees_iff e image (by have := (hb e he).2; omega)).mp (ha e he)⟩
  · rintro ⟨h1, h2, hb, ho, k0, k3, k4, k1, k1', k2, k2', ha⟩
    exact ⟨⟨⟨⟨⟨⟨⟨⟨⟨h1, h2⟩, fun e he => ⟨(hb e he).1, by have := (hb e he).2; omega⟩⟩, ho⟩, k0⟩, k3⟩, k4⟩, k1, k1'⟩,
      k2, k2'⟩, fun e he => (countAgrees_iff e image (by have := (hb e he).2; omega)).mpr (ha e he)⟩

/-! ### What the tables that read satisfy (check FIELDS of R174) -/

theorem u8_le (bs : List Byte) (offset : Nat) : u8 bs offset ≤ 255 := Nat.le_of_lt_succ (bs.getD offset 0).isLt

theorem fromLe_lt (bs : List Byte) : fromLe bs < 256 ^ bs.length := by
  induction bs with
  | nil => exact Nat.one_pos
  | cons b bs ih =>
    rw [fromLe, List.length_cons, pow_succ]
    have := b.isLt
    omega

theorem field_lt (bs : List Byte) (offset n : Nat) : field bs offset n < 256 ^ n :=
  (fromLe_lt _).trans_le (Nat.pow_le_pow_right (by decide) (by rw [List.length_take]; exact min_le_left ..))

theorem maskMembers_bounds {v n first x : Nat} (h : x ∈ maskMembers v n first) : first ≤ x ∧ x < first + n := by
  induction n generalizing v first with
  | zero => cases h
  | succ n ih =>
    rw [maskMembers] at h
    split at h
    · rcases List.mem_cons.mp h with rfl | h
      · omega
      · have := ih h
        omega
    · have := ih h
      omega

theorem mem_maskMembers {v n first i : Nat} (hi : i < n) (h : v.testBit i = true) :
    first + i ∈ maskMembers v n first := by
  induction n generalizing v first i with
  | zero => omega
  | succ n ih =>
    rw [maskMembers]
    cases i with
    | zero =>
      rw [if_pos (by simpa [Nat.testBit_zero] using h)]
      exact List.mem_cons_self
    | succ i =>
      have hm : first + (i + 1) ∈ maskMembers (v / 2) n (first + 1) := by
        rw [show first + (i + 1) = first + 1 + i by omega]
        exact ih (by omega) (by rwa [Nat.testBit_succ] at h)
      split
      · exact List.mem_cons_of_mem _ hm
      · exact hm

theorem parseRecords_spec {α : Type} {size : Nat} {parse : List Byte → Option α} {n : Nat} {bs : List Byte}
    {xs : List α} (h : parseRecords size parse n bs = some xs) :
    xs.length = n ∧ ∀ x ∈ xs, ∃ b, parse b = some x := by
  induction n generalizing bs xs with
  | zero =>
    cases bs with
    | nil =>
      cases h
      exact ⟨rfl, nofun⟩
    | cons b bs => cases h
  | succ n ih =>
    rw [parseRecords] at h
    split at h
    · rename_i x xs' hx hxs
      cases h
      obtain ⟨hl, hm⟩ := ih hxs
      refine ⟨by rw [List.length_cons, hl], fun y hy => ?_⟩
      rcases List.mem_cons.mp hy with rfl | hy
      · exact ⟨_, hx⟩
      · exact hm y hy
    · cases h

theorem readAll_spec {α β : Type} {f : α → Option β} {l : List α} {xs : List β} (h : readAll f l = some xs) :
    ∀ x ∈ xs, ∃ a ∈ l, f a = some x := by
  induction l generalizing xs with
  | nil =>
    cases h
    exact nofun
  | cons a l ih =>
    rw [readAll] at h
    split at h
    · rename_i b bs hb hbs
      cases h
      intro x hx
      rcases List.mem_cons.mp hx with rfl | hx
      · exact ⟨a, List.mem_cons_self, hb⟩
      · obtain ⟨a', ha', hf⟩ := ih hbs x hx
        exact ⟨a', List.mem_cons_of_mem _ ha', hf⟩
    · cases h

theorem fineAdjustOf_range {b : Byte} {v : Int} (h : fineAdjustOf b = some v) : -7 ≤ v ∧ v ≤ 7 := by
  rw [fineAdjustOf] at h
  split at h
  · cases h
  · split at h <;> cases h <;> omega

theorem parseModuleEntry_sound {bs : List Byte} {e : ModuleEntry} (h : parseModuleEntry bs = some e) :
    e.population ≠ [] ∧ (∀ i ∈ e.population, 1 ≤ i ∧ i ≤ 12) ∧ e.temperatureCount ≤ 4 ∧ e.resistance ≤ 65535 ∧
      -7 ≤ e.fineAdjust ∧ e.fineAdjust ≤ 7 := by
  rw [parseModuleEntry] at h
  split at h
  · cases h
  · rename_i v hv
    dsimp only at h
    split at h
    · rename_i hc
      cases h
      simp only [Bool.and_eq_true, Bool.not_eq_true', decide_eq_true_eq] at hc
      refine ⟨by simpa using hc.1.2, fun i hi => ?_, hc.2, Nat.le_of_lt_succ (field_lt bs 3 2), fineAdjustOf_range hv⟩
      have := maskMembers_bounds hi
      omega
    · cases h

theorem parseModuleTable_sound {count : Nat} {bs : List Byte} {m : ModuleTable}
    (h : parseModuleTable count bs = some m) : m.Sound := by
  rw [parseModuleTable] at h
  split at h
  · rename_i mode mods _ hmods
    dsimp only at h
    split at h
    · rename_i hc
      cases h
      obtain ⟨hl, hm⟩ := parseRecords_spec hmods
      simp only [inRange, Bool.and_eq_true, decide_eq_true_eq] at hc
      have := field_lt bs 4 2
      have := u8_le bs 0
      have := u8_le bs 6
      unfold ModuleTable.Sound
      dsimp only
      refine ⟨by omega, by omega, by omega, by omega, by omega, by omega, by omega, by omega, by omega, by omega,
        by omega, by omega, by omega, by omega, by omega, fun e he => ?_⟩
      obtain ⟨b, hb⟩ := hm e he
      exact parseModuleEntry_sound hb
    · cases h
  · cases h

theorem parseSchedule_sound {modules count : Nat} {bs : List Byte} {x : List ScheduleEntry}
    (h : parseSchedule modules count bs = some x) : scheduleSound modules x := by
  rw [parseSchedule] at h
  split at h
  · rename_i hc
    obtain ⟨hl, hm⟩ := parseRecords_spec h
    simp only [inRange, Bool.and_eq_true, decide_eq_true_eq] at hc
    refine ⟨by omega, by omega, fun e he => ?_⟩
    obtain ⟨b, hb⟩ := hm e he
    rw [parseScheduleEntry] at hb
    split at hb
    · cases hb
    · dsimp only at hb
      split at hb
      · rename_i hk
        cases hb
        simp only [inRange, Bool.and_eq_true, decide_eq_true_eq, Bool.not_eq_true', List.all_eq_true] at hk
        refine ⟨hk.1.1.1.2.2, by simpa using hk.1.2, fun p hp => ⟨(maskMembers_bounds hp).1, hk.2 p hp⟩, by simp, ?_⟩
        have := hk.1.1.2
        dsimp only
        omega
      · cases hb
  · cases h

theorem parseLimitEntry_sound {bs : List Byte} {e : LimitEntry} (h : parseLimitEntry bs = some e) : e.Sound := by
  rw [parseLimitEntry] at h
  split at h
  · cases h
  · dsimp only at h
    split at h
    · rename_i hc
      cases h
      rename_i cls _
      simp only [LimitEntry.inRanges, inRange, inRangeInt, Bool.and_eq_true, decide_eq_true_eq] at hc
      obtain ⟨-, ⟨⟨⟨h1, h2⟩, h3⟩, h4⟩, h5⟩ := hc
      unfold LimitEntry.Sound
      dsimp only
      refine ⟨h1.1, h3, h2.2, h4.1, h4.2, ?_, ?_, ?_, ?_⟩
      · rintro (rfl | rfl) <;> simp only [Bool.and_eq_true, decide_eq_true_eq] at h5 <;> omega
      · rintro rfl
        simp only [Bool.and_eq_true, decide_eq_true_eq] at h5
        omega
      · rintro rfl
        simp only [Bool.and_eq_true, decide_eq_true_eq] at h5
        omega
      · rintro rfl
        simpa using h5
    · cases h

theorem parseLimitSet_sound {count : Nat} {bs : List Byte} {x : List LimitEntry} (h : parseLimitSet count bs = some x) :
    1 ≤ x.length ∧ x.length ≤ 24 ∧ ∀ e ∈ x, e.Sound := by
  rw [parseLimitSet] at h
  split at h
  · rename_i hc
    obtain ⟨hl, hm⟩ := parseRecords_spec h
    simp only [inRange, Bool.and_eq_true, decide_eq_true_eq] at hc
    refine ⟨by omega, by omega, fun e he => ?_⟩
    obtain ⟨b, hb⟩ := hm e he
    exact parseLimitEntry_sound hb
  · cases h

theorem endsOnce_iff (steps : List SeqStep) :
    endsOnce steps = true ↔ ∃ before, steps = before ++ [.endStep] ∧ .endStep ∉ before := by
  induction steps with
  | nil => simp [endsOnce]
  | cons x rest ih =>
    cases rest with
    | nil =>
      rw [endsOnce, beq_iff_eq]
      constructor
      · rintro rfl
        exact ⟨[], rfl, nofun⟩
      · rintro ⟨before, hb, -⟩
        cases before with
        | nil => exact (List.cons.inj hb).1
        | cons a before => simp at hb
    | cons y rest =>
      rw [endsOnce, Bool.and_eq_true, ih, Bool.not_eq_true', beq_eq_false_iff_ne]
      · constructor
        · rintro ⟨hx, before, hb, hn⟩
          exact ⟨x :: before, by rw [hb, List.cons_append], by
            rw [List.mem_cons, not_or]
            exact ⟨fun h => hx h.symm, hn⟩⟩
        · rintro ⟨before, hb, hn⟩
          cases before with
          | nil => simp at hb
          | cons a before =>
            rw [List.cons_append, List.cons.injEq] at hb
            obtain ⟨rfl, hb⟩ := hb
            rw [List.mem_cons, not_or] at hn
            exact ⟨fun h => hn.1 h.symm, before, hb, hn.2⟩
      · exact nofun

theorem parseStep_sound {bs : List Byte} {x : SeqStep} (h : parseStep bs = some x) :
    (∀ t, x = .wait t → 1 ≤ t ∧ t ≤ 65535) ∧ (∀ c closed t, x = .awaitFb c closed t → 1 ≤ t ∧ t ≤ 65535) ∧
      (∀ ratio t, x = .awaitPrecharge ratio t → 128 ≤ ratio ∧ ratio ≤ 255 ∧ 1 ≤ t ∧ t ≤ 65535) := by
  have hf : field bs 2 2 ≤ 65535 := Nat.le_of_lt_succ (field_lt bs 2 2)
  have hu := u8_le bs 1
  rw [parseStep] at h
  split at h
  · split at h
    · cases h
      exact ⟨nofun, nofun, nofun⟩
    · cases h
      exact ⟨nofun, nofun, nofun⟩
    · split at h
      · rename_i ht
        cases h
        refine ⟨?_, nofun, nofun⟩
        rintro t ⟨rfl⟩
        exact ⟨ht, hf⟩
      · cases h
    · split at h
      · rename_i ht
        cases h
        refine ⟨nofun, ?_, nofun⟩
        rintro c closed t ⟨rfl⟩
        exact ⟨ht, hf⟩
      · cases h
    · split at h
      · rename_i ht
        cases h
        refine ⟨nofun, nofun, ?_⟩
        rintro ratio t ⟨rfl⟩
        exact ⟨ht.1, hu, ht.2, hf⟩
      · cases h
    · cases h
      exact ⟨nofun, nofun, nofun⟩
    · cases h
  · cases h

theorem parseSequences_sound {n : Nat} {bs : List Byte} {qs : List Sequence} (h : parseSequences n bs = some qs) :
    qs.length = n ∧ ∀ q ∈ qs, q.Sound := by
  induction n generalizing bs qs with
  | zero =>
    cases bs with
    | nil =>
      cases h
      exact ⟨rfl, nofun⟩
    | cons b bs => cases h
  | succ n ih =>
    match bs, h with
    | [], h => cases h
    | [_], h => cases h
    | cl :: c :: rest, h =>
      rw [parseSequences] at h
      split at h
      · rename_i cls steps more _ hs hm
        split at h
        · rename_i hw
          cases h
          obtain ⟨hl, hq⟩ := ih hm
          refine ⟨by rw [List.length_cons, hl], fun q hq' => ?_⟩
          rcases List.mem_cons.mp hq' with rfl | hq'
          · simp only [Sequence.wellBuilt, inRange, Bool.and_eq_true, decide_eq_true_eq, endsOnce_iff] at hw
            obtain ⟨⟨hlen, hend⟩, hopen⟩ := hw
            refine ⟨hlen.2, hend, fun x hx => ?_⟩
            obtain ⟨b, hb⟩ := (parseRecords_spec hs).2 x hx
            obtain ⟨h1, h2, h3⟩ := parseStep_sound hb
            have ha : cls = .openSeq → x.allowedInOpen = true := by
              rintro rfl
              exact List.all_eq_true.mp (by simpa using hopen) x hx
            refine ⟨h1, fun k closed t he => ?_, fun ratio t he => ?_, fun k he hc => ?_⟩
            · refine ⟨(h2 k closed t he).1, (h2 k closed t he).2, fun hc => ?_⟩
              have := ha hc
              rw [he] at this
              simpa [SeqStep.allowedInOpen] using this
            · obtain ⟨a, b, c', d⟩ := h3 ratio t he
              refine ⟨a, b, c', d, fun hc => ?_⟩
              have := ha hc
              rw [he] at this
              cases this
            · have := ha hc
              rw [he] at this
              cases this
          · exact hq q hq'
        · cases h
      · cases h

theorem parseSequenceTable_sound {count : Nat} {bs : List Byte} {t : SequenceTable}
    (h : parseSequenceTable count bs = some t) : t.Sound := by
  rw [parseSequenceTable] at h
  split at h
  · rename_i q qs hq
    dsimp only at h
    split at h
    · rename_i hc
      cases h
      obtain ⟨hl, hs⟩ := parseSequences_sound hq
      simp only [inRange, PerContactor.allRange, Bool.and_eq_true, decide_eq_true_eq, beq_iff_eq] at hc
      unfold SequenceTable.Sound
      dsimp only
      refine ⟨fun c => ?_, by omega, by omega, by omega, by omega, ?_, ⟨q, qs, rfl, hc.2⟩, hs⟩
      · cases c <;> simp only [PerContactor.get] <;> omega
      · rw [hl]
        omega
    · cases h
  · cases h

/-- The fields of one profile record in their ranges (R135). -/
theorem parseProfile_sound {bs : List Byte} {p : ProfileRecord} (h : parseProfile bs = some p) :
    p.id ≤ 7 ∧ 1000 ≤ p.lnom ∧ p.lnom ≤ 100000 ∧ 1 ≤ p.tol ∧ p.tol ≤ 4095 ∧ 8 * p.tol ≤ p.lnom ∧
      1 ≤ p.holdoverLimit ∧ p.holdoverLimit ≤ 7 ∧ (p.base = true → p.watch = false) ∧
      (p.watch = true →
        1 ≤ p.watchInterval ∧ p.watchInterval ≤ 65535 ∧ 1 ≤ p.chainWakeTime ∧ p.chainWakeTime ≤ 255) := by
  simp only [parseProfile, Option.ite_none_right_eq_some, Option.some.injEq] at h
  obtain ⟨hc, rfl⟩ := h
  simp only [inRange, Bool.and_eq_true, decide_eq_true_eq] at hc
  obtain ⟨⟨⟨⟨⟨⟨-, h1⟩, h2⟩, h3⟩, h4⟩, h5⟩, h6⟩ := hc
  refine ⟨h1.2, h2.1, h2.2, h3.1, h3.2, h4, h5.1, h5.2, fun hb => ?_, fun hw => ?_⟩
  · dsimp only at hb ⊢
    by_contra hw
    rw [Bool.not_eq_false] at hw
    rw [if_pos hw, hb] at h6
    simp at h6
  · dsimp only at hw ⊢
    rw [if_pos hw] at h6
    simp only [Bool.and_eq_true, decide_eq_true_eq] at h6
    omega

theorem distinctIds_iff (ids : List Nat) : distinctIds ids = true ↔ ids.Nodup := by
  induction ids with
  | nil => simp [distinctIds]
  | cons i rest ih => simp [distinctIds, ih]

theorem definedAs_iff (profiles : List ProfileRecord) (id : Nat) (watch : Bool) :
    definedAs profiles id watch = true ↔ ∃ p ∈ profiles, p.id = id ∧ p.watch = watch := by
  simp [definedAs]

/-- The tables that read (check FIELDS of R174) are in their ranges, and carry the image's version. -/
theorem readTables_sound {version : BitVec 32} {image : List Byte} {dir : List DirEntry} {w : WorkingTables}
    (h : readTables version image dir = some w) : w.Sound ∧ w.version = version := by
  rw [readTables] at h
  split at h
  · split at h
    · split at h
      · cases h
      · rename_i mt hmt
        split at h
        · rename_i ss ls st ps hss hls hst hps
          dsimp only at h
          split at h
          · rename_i hr
            cases h
            simp only [WorkingTables.resolve, Bool.and_eq_true, List.all_eq_true, Bool.or_eq_true, Bool.not_eq_true',
              definedAs_iff, distinctIds_iff, beq_iff_eq] at hr
            obtain ⟨⟨⟨hen, hpr⟩, hid⟩, hbase⟩ := hr
            rw [parseProfiles] at hps
            split at hps
            · rename_i hn
              simp only [inRange, Bool.and_eq_true, decide_eq_true_eq] at hn
              obtain ⟨hl, hp⟩ := parseRecords_spec hps
              refine ⟨⟨parseModuleTable_sound hmt, fun x hx => ?_, fun x hx => ?_, parseSequenceTable_sound hst,
                by simp only [hl]; omega, hid, hbase, fun p hpm => ?_⟩, rfl⟩
              · obtain ⟨e, -, he⟩ := readAll_spec hss x hx
                exact parseSchedule_sound he
              · obtain ⟨e, -, he⟩ := readAll_spec hls x hx
                obtain ⟨h1, h2, h3⟩ := parseLimitSet_sound he
                refine ⟨h1, h2, fun y hy => ⟨h3 y hy, fun hen' => ?_⟩⟩
                rcases hen x hx y hy with hf | ht
                · rw [hf] at hen'
                  cases hen'
                · exact ht
              · obtain ⟨b, hb⟩ := hp p hpm
                obtain ⟨a1, a2, a3, a4, a5, a6, a7, a8, a9, a10⟩ := parseProfile_sound hb
                have hres := hpr p hpm
                simp only [ProfileRecord.resolves, Bool.and_eq_true, decide_eq_true_eq, List.all_eq_true] at hres
                obtain ⟨⟨⟨r1, r2⟩, r3⟩, r4⟩ := hres
                refine ⟨a1, a2, a3, a4, a5, a6, a7, a8, a9, a10, r1, r2, fun id hid => ?_, fun id hid => ?_, fun hs hn => ?_⟩
                · have hlt : id < 8 := BitVec.lt_of_getLsbD hid
                  have := mem_maskMembers (first := 0) hlt (v := p.allowedClose.toNat) hid
                  rw [Nat.zero_add] at this
                  exact r3 id this
                · rw [hid] at r4
                  exact (definedAs_iff _ _ _).mp r4
                · rw [hn] at r4
                  rw [hs] at r4
                  cases r4
            · cases hps
          · cases h
        · cases h
    · cases h
  · cases h

/-! ### What the tables that read hold, by the layouts of section 11.6 -/

theorem testBit_of_mem_maskMembers {v n first x : Nat} (h : x ∈ maskMembers v n first) : v.testBit (x - first) = true := by
  induction n generalizing v first with
  | zero => cases h
  | succ n ih =>
    have hr : x ∈ maskMembers (v / 2) n (first + 1) → v.testBit (x - first) = true := fun h => by
      have hb := maskMembers_bounds h
      have := ih h
      rwa [← Nat.testBit_succ, show (x - (first + 1)).succ = x - first by omega] at this
    rw [maskMembers] at h
    split at h
    · rcases List.mem_cons.mp h with rfl | h
      · simpa [Nat.testBit_zero] using ‹v % 2 = 1›
      · exact hr h
    · exact hr h

theorem maskMembers_ascending (v n first : Nat) : (maskMembers v n first).Pairwise (· < ·) := by
  induction n generalizing v first with
  | zero => exact .nil
  | succ n ih =>
    rw [maskMembers]
    split
    · exact List.pairwise_cons.mpr ⟨fun x hx => (maskMembers_bounds hx).1, ih _ _⟩
    · exact ih _ _

/-- A field of bytes that stand in an image from an offset. -/
theorem imageField_of_prefix {bs image : List Byte} {o : Nat} (hp : bs <+: image.drop o) (k m : Nat)
    (h : k + m ≤ bs.length) : imageField bs k m = imageField image (o + k) m := by
  conv_lhs => rw [List.prefix_iff_eq_take.mp hp]
  exact imageField_take_drop _ _ _ _ _ h

theorem prefix_drop {bs image : List Byte} {o : Nat} (hp : bs <+: image.drop o) (a : Nat) :
    bs.drop a <+: image.drop (o + a) := by
  rw [← List.drop_drop]
  exact hp.drop a

theorem DirEntry.table_prefix (e : DirEntry) (image : List Byte) : e.table image <+: image.drop e.offset :=
  List.take_prefix _ _

theorem imageEnum_of_prefix {α : Type} {bs image : List Byte} {o : Nat} (values : List α) (hp : bs <+: image.drop o)
    (k : Nat) (h : k + 1 ≤ bs.length) : imageEnum values bs k = imageEnum values image (o + k) := by
  rw [imageEnum, imageEnum, imageField_of_prefix hp k 1 h]

theorem imageBit_of_prefix {bs image : List Byte} {o : Nat} (hp : bs <+: image.drop o) (k m i : Nat)
    (h : k + m ≤ bs.length) : imageBit bs k m i = imageBit image (o + k) m i := by
  rw [imageBit, imageBit, imageField_of_prefix hp k m h]

theorem getLsbD_eq_imageBit (bs : List Byte) (k i : Nat) : (bs.getD k 0).getLsbD i = imageBit bs k 1 i := by
  rw [imageBit, ← u8_eq_imageField]
  rfl

theorem toNat_getD (bs : List Byte) (k : Nat) : (bs.getD k 0).toNat = imageField bs k 1 := u8_eq_imageField bs k

theorem signedFromLe_eq_imageSigned (bs : List Byte) (k n : Nat) (h : k + n ≤ bs.length) :
    signedFromLe ((bs.drop k).take n) = imageSigned bs k n := by
  rw [signedFromLe, imageSigned, ← field_eq_imageField, field, List.length_take, List.length_drop,
    min_eq_left (by omega)]

theorem imageSet_maskMembers (bs : List Byte) (k n count : Nat) :
    imageSet (maskMembers (field bs k n) count 1) bs k n count := by
  rw [field_eq_imageField]
  refine ⟨maskMembers_ascending _ _ _, fun p => ⟨fun h => ?_, fun ⟨h1, h2, hb⟩ => ?_⟩⟩
  · have := maskMembers_bounds h
    exact ⟨this.1, by omega, testBit_of_mem_maskMembers h⟩
  · have := mem_maskMembers (first := 1) (by omega : p - 1 < count) hb
    rwa [show 1 + (p - 1) = p by omega] at this


theorem imageSet_of_prefix {bs image : List Byte} {o : Nat} {members : List Nat} (hp : bs <+: image.drop o)
    (k n count : Nat) (h : k + n ≤ bs.length) (hm : imageSet members bs k n count) :
    imageSet members image (o + k) n count :=
  ⟨hm.1, fun p => by rw [hm.2, imageBit_of_prefix hp k n (p - 1) h]⟩

/-- Records read one behind the other stand `size` bytes apart. -/
theorem parseRecords_laidOut {α : Type} {size : Nat} {parse : List Byte → Option α} {image : List Byte}
    {P : α → Nat → Prop} (hP : ∀ b o x, b <+: image.drop o → parse b = some x → P x o) {n : Nat} {bs : List Byte}
    {xs : List α} (h : parseRecords size parse n bs = some xs) {o : Nat} (hp : bs <+: image.drop o) (i : Nat) (x : α)
    (hx : xs[i]? = some x) : P x (o + size * i) := by
  induction n generalizing bs xs o i with
  | zero =>
    cases bs with
    | nil =>
      cases h
      cases hx
    | cons b bs => cases h
  | succ n ih =>
    rw [parseRecords] at h
    split at h
    · rename_i x0 xs' hx0 hxs
      cases h
      cases i with
      | zero =>
        cases hx
        exact hP _ _ _ ((List.take_prefix _ _).trans hp) hx0
      | succ i =>
        have := ih hxs (prefix_drop hp size) i hx
        rwa [Nat.add_assoc, Nat.add_comm size, ← Nat.mul_succ] at this
    · cases h

theorem fineAdjustOf_eq {bs : List Byte} {k : Nat} {v : Int} (h : fineAdjustOf (bs.getD k 0) = some v) :
    v = (if imageBit bs k 1 7 then -1 else 1) * ((imageField bs k 1 % 16 : Nat) : Int) := by
  rw [fineAdjustOf, getLsbD_eq_imageBit, toNat_getD] at h
  split at h
  · cases h
  · split at h <;> cases h <;> rename_i hb
    · rw [if_pos hb, neg_one_mul]
    · rw [if_neg hb, one_mul]

theorem parseModuleEntry_laidOut {bs image : List Byte} {o : Nat} {e : ModuleEntry} (hp : bs <+: image.drop o)
    (h : parseModuleEntry bs = some e) : e.LaidOut image o := by
  rw [parseModuleEntry] at h
  split at h
  · cases h
  · rename_i v hv
    dsimp only at h
    split at h
    · rename_i hc
      cases h
      simp only [Bool.and_eq_true, beq_iff_eq] at hc
      have hl := hc.1.1
      refine ⟨?_, ?_, ?_, ?_⟩
      · exact imageSet_of_prefix hp 0 2 12 (by omega) (imageSet_maskMembers bs 0 2 12)
      · exact (u8_eq_imageField bs 2).trans (imageField_of_prefix hp 2 1 (by omega))
      · exact (field_eq_imageField bs 3 2).trans (imageField_of_prefix hp 3 2 (by omega))
      · rw [fineAdjustOf_eq hv, imageBit_of_prefix hp 5 1 7 (by omega), imageField_of_prefix hp 5 1 (by omega)]
    · cases h

theorem wakeModeOf_eq (n : Nat) : wakeModeOf n = [WakeInMode.high, .low, .rising, .falling][n]? := by
  rcases n with _ | _ | _ | _ | n <;> rfl

theorem measKindOf_eq (n : Nat) : measKindOf n = [MeasKind.cells, .temps, .both][n]? := by
  rcases n with _ | _ | _ | n <;> rfl

theorem signalClassOf_eq (n : Nat) :
    signalClassOf n = [SignalClass.cellRaw, .cellComp, .temp, .current, .moduleFlag, .moduleMissing][n]? := by
  rcases n with _ | _ | _ | _ | _ | _ | n <;> rfl

theorem seqClassOf_eq (n : Nat) : seqClassOf n = [SeqClass.closeDrive, .closeCharge, .openSeq][n]? := by
  rcases n with _ | _ | _ | n <;> rfl

theorem contactorOf_eq (n : Nat) :
    some (contactorOf n) = [Contactor.mneg, .mpos, .pre, .chg][n % 4]? := by
  rw [contactorOf]
  have : n % 4 < 4 := Nat.mod_lt _ (by decide)
  generalize n % 4 = m at this
  interval_cases m <;> rfl

theorem parseModuleTable_laidOut {count : Nat} {bs image : List Byte} {o : Nat} {m : ModuleTable}
    (hp : bs <+: image.drop o) (h : parseModuleTable count bs = some m) :
    m.modules.length = count ∧ m.LaidOut image o := by
  rw [parseModuleTable] at h
  split at h
  · rename_i mode mods hmode hmods
    dsimp only at h
    split at h
    · rename_i hc
      cases h
      simp only [Bool.and_eq_true, decide_eq_true_eq] at hc
      have hl : 16 ≤ bs.length := by tauto
      have hu (k : Nat) (hk : k + 1 ≤ 16) : u8 bs k = imageField image (o + k) 1 :=
        (u8_eq_imageField bs k).trans (imageField_of_prefix hp k 1 (by omega))
      have hf (k n : Nat) (hk : k + n ≤ 16) : field bs k n = imageField image (o + k) n :=
        (field_eq_imageField bs k n).trans (imageField_of_prefix hp k n (by omega))
      refine ⟨(parseRecords_spec hmods).1, hu 0 (by decide), hu 1 (by decide), hf 2 2 (by decide), hf 4 2 (by decide),
        hu 6 (by decide), hf 7 2 (by decide), hf 9 2 (by decide), hf 11 2 (by decide), ?_, hu 14 (by decide), ?_⟩
      · rw [imageEnum, ← hu 13 (by decide), ← wakeModeOf_eq, hmode]
      · exact parseRecords_laidOut (P := fun e o => e.LaidOut image o)
          (fun _ _ _ => parseModuleEntry_laidOut) hmods (prefix_drop hp 16)
    · cases h
  · cases h

theorem parseScheduleEntry_laidOut {modules : Nat} {bs image : List Byte} {o : Nat} {e : ScheduleEntry}
    (hp : bs <+: image.drop o) (h : parseScheduleEntry modules bs = some e) : e.LaidOut image o := by
  rw [parseScheduleEntry] at h
  split at h
  · cases h
  · rename_i kind hk
    dsimp only at h
    split at h
    · rename_i hc
      cases h
      simp only [Bool.and_eq_true, beq_iff_eq] at hc
      have hl : bs.length = 7 := by tauto
      refine ⟨(field_eq_imageField bs 0 2).trans (imageField_of_prefix hp 0 2 (by omega)), ?_, ?_,
        imageSet_of_prefix hp 4 3 20 (by omega) (imageSet_maskMembers bs 4 3 20)⟩
      · rw [imageEnum, ← imageField_of_prefix hp 2 1 (by omega), ← u8_eq_imageField, ← measKindOf_eq, hk]
      · dsimp only
        rw [u8_eq_imageField, imageField_of_prefix hp 3 1 (by omega)]
    · cases h

theorem parseLimitEntry_laidOut {bs image : List Byte} {o : Nat} {e : LimitEntry} (hp : bs <+: image.drop o)
    (h : parseLimitEntry bs = some e) : e.LaidOut image o := by
  rw [parseLimitEntry] at h
  split at h
  · cases h
  · rename_i cls hk
    dsimp only at h
    split at h
    · rename_i hc
      cases h
      simp only [Bool.and_eq_true, beq_iff_eq] at hc
      have hl : bs.length = 17 := hc.1
      have hu (k : Nat) (hk : k + 1 ≤ 17) : u8 bs k = imageField image (o + k) 1 :=
        (u8_eq_imageField bs k).trans (imageField_of_prefix hp k 1 (by omega))
      have hb (k i : Nat) (hk : k + 1 ≤ 17) : (bs.getD k 0).getLsbD i = imageBit image (o + k) 1 i :=
        (getLsbD_eq_imageBit bs k i).trans (imageBit_of_prefix hp k 1 i (by omega))
      refine ⟨?_, hu 1 (by decide), hu 2 (by decide), hu 3 (by decide), hu 4 (by decide), hu 5 (by decide), ?_,
        (field_eq_imageField bs 10 4).trans (imageField_of_prefix hp 10 4 (by omega)), hb 14 0 (by decide),
        hb 14 1 (by decide), ?_, hb 15 0 (by decide), hb 15 1 (by decide), hb 15 2 (by decide), hb 15 3 (by decide),
        hb 15 4 (by decide), hu 16 (by decide)⟩
      · have := hu 0 (by decide)
        rw [Nat.add_zero] at this
        rw [imageEnum, ← this, ← signalClassOf_eq, hk]
      · dsimp only
        rw [signedFromLe_eq_imageSigned bs 6 4 (by omega), imageSigned, imageSigned, imageField_of_prefix hp 6 4 (by omega)]
      · dsimp only
        rw [← hu 14 (by decide), BitVec.extractLsb'_toNat, Nat.shiftRight_eq_div_pow]
        rfl
    · cases h

theorem parseStep_laidOut {bs image : List Byte} {o : Nat} {x : SeqStep} (hp : bs <+: image.drop o)
    (h : parseStep bs = some x) : x.LaidOut image o := by
  rw [parseStep] at h
  split at h
  · rename_i hl
    have hu (k : Nat) (hk : k + 1 ≤ 4) : u8 bs k = imageField image (o + k) 1 :=
      (u8_eq_imageField bs k).trans (imageField_of_prefix hp k 1 (by omega))
    have hf : field bs 2 2 = imageField image (o + 2) 2 :=
      (field_eq_imageField bs 2 2).trans (imageField_of_prefix hp 2 2 (by omega))
    have h0 := hu 0 (by decide)
    rw [Nat.add_zero] at h0
    have hc : some (contactorOf (u8 bs 1)) = _ := contactorOf_eq (u8 bs 1)
    rw [hu 1 (by decide)] at h hc
    rw [hf, h0] at h
    have hb : decide (128 ≤ imageField image (o + 1) 1) = imageBit image (o + 1) 1 7 := by
      rw [imageBit]
      have : imageField image (o + 1) 1 < 256 := by
        rw [← u8_eq_imageField]
        exact Nat.lt_succ_of_le (u8_le _ _)
      rw [Nat.testBit_eq_decide_div_mod_eq, decide_eq_decide]
      omega
    split at h
    · cases h
      exact ⟨‹_›, hc.symm⟩
    · cases h
      exact ⟨‹_›, hc.symm⟩
    · split at h <;> cases h
      exact ⟨‹_›, rfl⟩
    · split at h <;> cases h
      exact ⟨‹_›, hc.symm, hb, rfl⟩
    · split at h <;> cases h
      exact ⟨‹_›, rfl, rfl⟩
    · cases h
      exact ‹_›
    · cases h
  · cases h

theorem parseSequences_laidOut {image : List Byte} {n : Nat} {bs : List Byte} {qs : List Sequence} {o : Nat}
    (hp : bs <+: image.drop o) (h : parseSequences n bs = some qs) : sequencesLaidOut image qs o := by
  induction n generalizing bs qs o with
  | zero =>
    cases bs with
    | nil =>
      cases h
      trivial
    | cons b bs => cases h
  | succ n ih =>
    match bs, h, hp with
    | [], h, _ => cases h
    | [_], h, _ => cases h
    | cl :: c :: rest, h, hp =>
      rw [parseSequences] at h
      split at h
      · rename_i cls steps more hcls hs hm
        split at h
        · cases h
          have h0 : imageField image o 1 = cl.toNat := by
            have := imageField_of_prefix hp 0 1 (by simp)
            rw [← u8_eq_imageField] at this
            exact this.symm
          have h1 : imageField image (o + 1) 1 = c.toNat := by
            have := imageField_of_prefix hp 1 1 (by simp)
            rw [← u8_eq_imageField] at this
            exact this.symm
          have hr : rest <+: image.drop (o + 2) := prefix_drop hp 2
          have hn := (parseRecords_spec hs).1
          refine ⟨?_, ?_, ?_, ?_⟩
          · rw [imageEnum, h0, ← seqClassOf_eq, hcls]
          · rw [h1]
            exact hn
          · exact parseRecords_laidOut (P := fun x o => x.LaidOut image o) (fun _ _ _ => parseStep_laidOut) hs
              ((List.take_prefix _ _).trans hr)
          · have := ih (prefix_drop hr (4 * (c.toNat + 1))) hm
            dsimp only
            rwa [hn]
        · cases h
      · cases h

theorem parseSequenceTable_laidOut {count : Nat} {bs image : List Byte} {o : Nat} {t : SequenceTable}
    (hp : bs <+: image.drop o) (h : parseSequenceTable count bs = some t) :
    t.sequences.length = count ∧ t.LaidOut image o := by
  rw [parseSequenceTable] at h
  split at h
  · rename_i q qs hq
    dsimp only at h
    split at h
    · rename_i hc
      cases h
      simp only [Bool.and_eq_true, decide_eq_true_eq] at hc
      have hl : 14 ≤ bs.length := by tauto
      have hu (k : Nat) (hk : k + 1 ≤ 14) : u8 bs k = imageField image (o + k) 1 :=
        (u8_eq_imageField bs k).trans (imageField_of_prefix hp k 1 (by omega))
      have hf (k n : Nat) (hk : k + n ≤ 14) : field bs k n = imageField image (o + k) n :=
        (field_eq_imageField bs k n).trans (imageField_of_prefix hp k n (by omega))
      exact ⟨(parseSequences_sound hq).1,
        ⟨hu 0 (by decide), hu 1 (by decide), hu 2 (by decide), hu 3 (by decide)⟩,
        ⟨hu 4 (by decide), hu 5 (by decide), hu 6 (by decide), hu 7 (by decide)⟩,
        hu 8 (by decide), hf 9 3 (by decide), hf 12 2 (by decide), parseSequences_laidOut (prefix_drop hp 14) hq⟩
    · cases h
  · cases h

theorem parseProfile_laidOut {bs image : List Byte} {o : Nat} {p : ProfileRecord} (hp : bs <+: image.drop o)
    (h : parseProfile bs = some p) : p.LaidOut image o := by
  simp only [parseProfile, Option.ite_none_right_eq_some, Option.some.injEq] at h
  obtain ⟨hc, rfl⟩ := h
  simp only [Bool.and_eq_true, beq_iff_eq] at hc
  have hl : bs.length = 18 := by tauto
  have hu (k : Nat) (hk : k + 1 ≤ 18) : u8 bs k = imageField image (o + k) 1 :=
    (u8_eq_imageField bs k).trans (imageField_of_prefix hp k 1 (by omega))
  have hf (k n : Nat) (hk : k + n ≤ 18) : field bs k n = imageField image (o + k) n :=
    (field_eq_imageField bs k n).trans (imageField_of_prefix hp k n (by omega))
  have hb (i : Nat) : (bs.getD 0 0).getLsbD i = imageBit image o 1 i :=
    (getLsbD_eq_imageBit bs 0 i).trans (imageBit_of_prefix hp 0 1 i (by omega))
  refine ⟨hb 0, hb 1, hb 2, hb 3, hb 4, hb 5, hu 1 (by decide), hu 2 (by decide), hu 3 (by decide), hf 4 4 (by decide),
    hf 8 2 (by decide), hu 10 (by decide), hu 11 (by decide), ?_, ?_, hf 14 2 (by decide), hu 16 (by decide),
    hu 17 (by decide)⟩
  · dsimp only
    rw [← hu 12 (by decide), BitVec.toNat_setWidth]
    rfl
  · dsimp only
    rw [hu 13 (by decide)]

theorem readAll_forall₂ {α β : Type} {f : α → Option β} {R : α → β → Prop} (hR : ∀ a b, f a = some b → R a b)
    {l : List α} {xs : List β} (h : readAll f l = some xs) : List.Forall₂ R l xs := by
  induction l generalizing xs with
  | nil =>
    cases h
    exact .nil
  | cons a l ih =>
    rw [readAll] at h
    split at h
    · rename_i b bs hb hbs
      cases h
      exact .cons (hR a b hb) (ih hbs)
    · cases h

theorem mem_ofKind {k : Nat} {dir : List DirEntry} {e m : DirEntry} (h : ofKind k dir = [m]) (he : e ∈ dir)
    (hk : e.kind = k) : e = m := by
  have : e ∈ ofKind k dir := List.mem_filter.mpr ⟨he, by rw [hk, beq_self_eq_true]⟩
  rw [h] at this
  exact List.mem_singleton.mp this

/-- The tables that read hold, field by field, what the image holds at the offsets of their layouts. -/
theorem readTables_laidOut {version : BitVec 32} {image : List Byte} {dir : List DirEntry} {w : WorkingTables}
    (h : readTables version image dir = some w) : w.LaidOut image dir := by
  rw [readTables] at h
  split at h
  · split at h
    · rename_i m q p hm hq hpk
      split at h
      · cases h
      · rename_i mt hmt
        split at h
        · rename_i ss ls st ps hss hls hst hps
          dsimp only at h
          split at h
          · cases h
            refine ⟨fun e he hk => ?_, readAll_forall₂ (fun e x hx => ?_) hss, readAll_forall₂ (fun e x hx => ?_) hls,
              fun e he hk => ?_, fun e he hk => ?_⟩
            · cases mem_ofKind hm he hk
              exact parseModuleTable_laidOut (m.table_prefix image) hmt
            · rw [parseSchedule, Option.ite_none_right_eq_some] at hx
              exact ⟨(parseRecords_spec hx.2).1, parseRecords_laidOut (P := fun y o => ScheduleEntry.LaidOut y image o)
                (fun _ _ _ => parseScheduleEntry_laidOut) hx.2 (e.table_prefix image)⟩
            · rw [parseLimitSet, Option.ite_none_right_eq_some] at hx
              exact ⟨(parseRecords_spec hx.2).1, parseRecords_laidOut (P := fun y o => LimitEntry.LaidOut y image o)
                (fun _ _ _ => parseLimitEntry_laidOut) hx.2 (e.table_prefix image)⟩
            · cases mem_ofKind hq he hk
              exact parseSequenceTable_laidOut (q.table_prefix image) hst
            · cases mem_ofKind hpk he hk
              rw [parseProfiles, Option.ite_none_right_eq_some] at hps
              exact ⟨(parseRecords_spec hps.2).1, parseRecords_laidOut (P := fun y o => ProfileRecord.LaidOut y image o)
                (fun _ _ _ => parseProfile_laidOut) hps.2 (p.table_prefix image)⟩
          · cases h
        · cases h
    · cases h
  · cases h

end Sys2Proof.Machine
end

