-- ==== Sys2Proof/Laws/Limits.lean ====
section
/-!
SUPPORT. What an evaluation computes (R84 to R92): the run states, the entries that trip, and the held conditions.
-/

namespace Sys2Proof.Machine

/-- R84: every entry of the limit set has its run state after the round, and no other run state is made. -/
theorem evaluateAll_spec (s : State) (entries : List RoundEntry) {es : List LimitEntry} :
    ∀ {rs : List RunState}, rs.length = es.length →
      (s.evaluateAll entries es rs).length = es.length ∧
        ∀ (i : Nat) (e : LimitEntry) (r : RunState), es[i]? = some e → rs[i]? = some r →
          (s.evaluateAll entries es rs)[i]? = some (e.evaluate (s.channelsWithData e entries) r) := by
  induction es with
  | nil =>
    intro rs h
    rw [List.length_eq_zero_iff.1 h]
    exact ⟨rfl, fun i e r he _ => by simp at he⟩
  | cons e es ih =>
    intro rs h
    cases rs with
    | nil => simp at h
    | cons r rs =>
      obtain ⟨hl, hg⟩ := ih (Nat.succ.inj h)
      refine ⟨congrArg Nat.succ hl, ?_⟩
      intro i e' r' he hr
      cases i with
      | zero =>
        cases he
        cases hr
        rfl
      | succ i => exact hg i e' r' he hr

/-- R88: the entries that trip are those that were not TRIPPED and are now, each under its index. -/
theorem mem_tripped {es : List LimitEntry} {x : Nat × LimitEntry} :
    ∀ {k : Nat} {as bs : List RunState}, as.length = es.length → bs.length = es.length →
      (x ∈ tripped k es as bs ↔ ∃ i e a b, es[i]? = some e ∧ as[i]? = some a ∧ bs[i]? = some b ∧
        a.level ≠ .tripped ∧ b.level = .tripped ∧ x = (k + i, e)) := by
  induction es with
  | nil => simp [tripped]
  | cons e es ih =>
    intro k as bs ha hb
    cases as with
    | nil => simp at ha
    | cons a as =>
      cases bs with
      | nil => simp at hb
      | cons b bs =>
        have hm : x ∈ tripped k (e :: es) (a :: as) (b :: bs) ↔
            (a.level ≠ .tripped ∧ b.level = .tripped ∧ x = (k, e)) ∨ x ∈ tripped (k + 1) es as bs := by
          rw [tripped]
          split
          · next h =>
            simp only [Bool.and_eq_true, Bool.not_eq_true', beq_eq_false_iff_ne, beq_iff_eq] at h
            simp [h]
          · next h =>
            simp only [Bool.and_eq_true, Bool.not_eq_true', beq_eq_false_iff_ne, beq_iff_eq] at h
            refine ⟨.inr, ?_⟩
            rintro (h' | h')
            · exact absurd ⟨h'.1, h'.2.1⟩ h
            · exact h'
        rw [hm, ih (Nat.succ.inj ha) (Nat.succ.inj hb)]
        constructor
        · rintro (h | ⟨i, e', a', b', he, ha', hb', h1, h2, hx⟩)
          · exact ⟨0, e, a, b, rfl, rfl, rfl, h⟩
          · exact ⟨i + 1, e', a', b', he, ha', hb', h1, h2, by rw [hx, Nat.add_right_comm, Nat.add_assoc]⟩
        · rintro ⟨i, e', a', b', he, ha', hb', h1, h2, hx⟩
          cases i with
          | zero =>
            cases he
            cases ha'
            cases hb'
            exact .inl ⟨h1, h2, hx⟩
          | succ i => exact .inr ⟨i, e', a', b', he, ha', hb', h1, h2, by rw [hx, Nat.add_right_comm, Nat.add_assoc]⟩

/-- R88: the entries that trip stand in index order. -/
theorem tripped_ordered {es : List LimitEntry} : ∀ {k : Nat} {as bs : List RunState},
    as.length = es.length → bs.length = es.length →
      (tripped k es as bs).Pairwise (fun x y => x.1 < y.1) := by
  induction es with
  | nil => simp [tripped]
  | cons e es ih =>
    intro k as bs ha hb
    cases as with
    | nil => simp at ha
    | cons a as =>
      cases bs with
      | nil => simp at hb
      | cons b bs =>
        have hl := ih (k := k + 1) (Nat.succ.inj ha) (Nat.succ.inj hb)
        rw [tripped]
        split
        · refine List.pairwise_cons.2 ⟨?_, hl⟩
          intro x hx
          obtain ⟨i, _, _, _, _, _, _, _, _, rfl⟩ := (mem_tripped (Nat.succ.inj ha) (Nat.succ.inj hb)).1 hx
          dsimp only
          omega
        · exact hl

/-- R92: a held condition is true exactly while an entry that has it is TRIPPED. -/
theorem heldCondition_iff {has : LimitEntry → Bool} {es : List LimitEntry} : ∀ {rs : List RunState},
    heldCondition has es rs = true ↔ ∃ (i : Nat) (e : LimitEntry) (r : RunState),
      es[i]? = some e ∧ rs[i]? = some r ∧ has e = true ∧ r.level = .tripped := by
  induction es with
  | nil => simp [heldCondition]
  | cons e es ih =>
    intro rs
    cases rs with
    | nil => simp [heldCondition]
    | cons r rs =>
      simp only [heldCondition, Bool.or_eq_true, Bool.and_eq_true, ih, beq_iff_eq]
      constructor
      · rintro (h | ⟨i, e', r', h⟩)
        · exact ⟨0, e, r, rfl, rfl, h⟩
        · exact ⟨i + 1, e', r', h⟩
      · rintro ⟨i, e', r', he, hr, h⟩
        cases i with
        | zero =>
          cases he
          cases hr
          exact .inl h
        | succ i => exact .inr ⟨i, e', r', he, hr, h⟩

/-- R69, R71: an entry that waits for its aligned current. -/
theorem unsettled_iff {e : RoundEntry} : e.unsettled = true ↔ e.status = .ok ∧ e.aligned = none := by
  simp [RoundEntry.unsettled]

theorem anyUnsettled_iff {entries : List RoundEntry} :
    anyUnsettled entries = true ↔ ∃ e ∈ entries, e.status = .ok ∧ e.aligned = none := by
  simp only [anyUnsettled, List.any_eq_true, unsettled_iff]

end Sys2Proof.Machine
end

