-- ==== Sys2Proof/Laws/Operations.lean ====
section
/-!
SUPPORT. What the shared operations can do: operating, the places of the transmit queue (R5), the staging marks
(R171), the tamper erase (R181), and an array operation broken off by a power loss (R167, R179).
-/

namespace Sys2Proof.Machine

theorem operating_iff {s : State} : s.operating = true ↔ s.power = ⟨true, false⟩ := by
  obtain ⟨⟨p, r⟩⟩ := s
  cases p <;> cases r <;> simp [State.operating]

/-- R5: a producer may add a frame when a place is free and is not another's. -/
theorem mayAdd_iff {s : State} {p : Producer} :
    s.mayAdd p = true ↔ s.north.tx.length < 8 ∧
      ((∀ q ∈ s.north.claims, s.waits q = false) ∨ p ∈ s.north.claims ∧ s.waits p = true) := by
  simp [State.mayAdd, State.txFull, State.claimants, List.filter_eq_nil_iff]

/-- R171: the marks after an erase of a block. -/
theorem clearMarks_getD {marks : List Bool} {block row : Nat} (hm : marks.length = 896) (hb : block < 28) :
    (clearMarks marks block).getD row true = if row / 32 = block then false else marks.getD row true := by
  have ht : (marks.take (32 * block)).length = 32 * block := by
    rw [List.length_take, hm]
    omega
  rw [clearMarks, List.append_assoc, List.getD_eq_getElem?_getD, List.getD_eq_getElem?_getD, List.getElem?_append, ht,
    List.getElem?_append, List.length_replicate]
  by_cases hrow : row / 32 = block
  · rw [if_neg (by omega), if_pos (by omega), if_pos hrow, List.getElem?_eq_getElem (by rw [List.length_replicate]; omega),
      List.getElem_replicate]
    rfl
  · rw [if_neg hrow]
    split
    · next h => rw [List.getElem?_take, if_pos h]
    · rw [if_neg (by omega), List.getElem?_drop]
      congr 2
      omega

/-- R181: under LOCKED(TAMPER), with the array free and start-up loading not waiting for it, the next block erase of the
tamper erase begins. -/
theorem kickTamper_begins {s : State} {block : Nat} (he : s.tables.engine = .locked .tamper)
    (hs : s.tables.startUp ≠ .waiting) (ho : s.tables.operation = none) (hb : s.tables.tamperErase = some block) :
    s.kickTamper =
      s.withTables
        { s.tables with operation := some ⟨.erase (s.stagingSlot.firstBlock + block) true, 20000⟩ } := by
  simp [State.kickTamper, hb, ho, he, hs, State.beginOp, eraseTime, ms]

/-- R181: in every other case nothing begins. -/
theorem kickTamper_rests {s : State} (h : s.tables.engine ≠ .locked .tamper ∨ s.tables.startUp = .waiting ∨
    s.tables.operation ≠ none ∨ s.tables.tamperErase = none) : s.kickTamper = s := by
  unfold State.kickTamper
  split
  · next b hb ho =>
    rw [if_neg]
    rintro ⟨he, hs⟩
    rcases h with h | h | h | h
    · exact h he
    · exact hs h
    · exact h ho
    · rw [hb] at h
      cases h
  · rfl

/-- R179: a power loss keeps the slot pointer. -/
theorem stopOp_pointer {s : State} : s.stopOp.tables.slotPointer = s.tables.slotPointer := by
  rcases h : s.tables.operation with _ | ⟨_ | _ | _ | ⟨v, _ | _⟩, left⟩ <;>
    simp [State.stopOp, h]

/-- R167, R179: a power loss changes the counter only in the counter write of start-up loading. -/
theorem stopOp_counter {s : State}
    (h : ∀ v left, s.tables.operation ≠ some ⟨.counterWrite v true, left⟩) :
    s.stopOp.tables.counter = s.tables.counter := by
  rcases ho : s.tables.operation with _ | ⟨_ | _ | _ | ⟨v, _ | _⟩, left⟩
  case some.counterWrite.true => exact absurd ho (h v left)
  all_goals simp [State.stopOp, ho]

end Sys2Proof.Machine
end

