-- ==== Sys2Proof/Laws/Schedule.lean ====
section
/-!
SUPPORT. What a frame start computes (R42, R44): the counters, the due entries and their order, and the groups it
decides.
-/

namespace Sys2Proof.Machine

/-- R42: every counter advances modulo d, and none is added. -/
theorem advanceCounters_spec {es : List ScheduleEntry} : ∀ {cs : List Nat}, cs.length = es.length →
    (advanceCounters es cs).length = cs.length ∧
      ∀ (i : Nat) (e : ScheduleEntry) (c : Nat), es[i]? = some e → cs[i]? = some c →
        (advanceCounters es cs)[i]? = some ((c + 1) % e.decimation) := by
  induction es with
  | nil =>
    intro cs h
    rw [List.length_eq_zero_iff.1 h]
    exact ⟨rfl, fun i e c he _ => by simp at he⟩
  | cons e es ih =>
    intro cs h
    cases cs with
    | nil => simp at h
    | cons c cs =>
      obtain ⟨hl, hg⟩ := ih (Nat.succ.inj h)
      refine ⟨congrArg Nat.succ hl, ?_⟩
      intro i e' c' he hc
      cases i with
      | zero =>
        cases he
        cases hc
        rfl
      | succ i => exact hg i e' c' he hc

theorem mem_insertDue {d x : DueEntry} {l : List DueEntry} : x ∈ insertDue d l ↔ x = d ∨ x ∈ l := by
  induction l with
  | nil => simp [insertDue]
  | cons e l ih =>
    rw [insertDue]
    split
    · exact List.mem_cons
    · rw [List.mem_cons, ih, List.mem_cons]
      exact or_left_comm

/-- R44: due entries are in order of phase, and of one phase in order of index. -/
def DueEntry.before (a b : DueEntry) : Prop := a.phase < b.phase ∨ a.phase = b.phase ∧ a.index < b.index

/-- An entry behind all others of its phase joins an ordered list in its place. -/
theorem insertDue_ordered {d : DueEntry} {l : List DueEntry} (hl : l.Pairwise DueEntry.before)
    (hd : ∀ e ∈ l, e.index < d.index) : (insertDue d l).Pairwise DueEntry.before := by
  induction l with
  | nil => exact List.pairwise_singleton _ _
  | cons e l ih =>
    obtain ⟨he, hl'⟩ := List.pairwise_cons.1 hl
    rw [insertDue]
    split
    · next hp =>
      refine List.pairwise_cons.2 ⟨?_, hl⟩
      intro x hx
      rcases List.mem_cons.1 hx with rfl | hx
      · exact .inl hp
      · rcases he x hx with h | h
        · exact .inl (Nat.lt_trans hp h)
        · exact .inl (h.1 ▸ hp)
    · next hp =>
      refine List.pairwise_cons.2 ⟨?_, ih hl' fun x hx => hd x (List.mem_cons_of_mem _ hx)⟩
      intro x hx
      rcases mem_insertDue.1 hx with rfl | hx
      · rcases Nat.lt_or_eq_of_le (Nat.le_of_not_lt hp) with h | h
        · exact .inl h
        · exact .inr ⟨h, hd e List.mem_cons_self⟩
      · exact he x hx

/-- R42, R44: the due entries are those whose counter is 0, with their instants. -/
theorem mem_dueEntries {instant : ScheduleEntry → Stamp} {x : DueEntry} {es : List ScheduleEntry} :
    ∀ {cs : List Nat} {i : Nat} {acc : List DueEntry}, x ∈ dueEntries instant i es cs acc ↔
      x ∈ acc ∨ ∃ k e, es[k]? = some e ∧ cs[k]? = some 0 ∧ x = ⟨i + k, e.phase, instant e⟩ := by
  induction es with
  | nil => simp [dueEntries]
  | cons e es ih =>
    intro cs i acc
    cases cs with
    | nil => simp [dueEntries]
    | cons c cs =>
      have hacc : x ∈ (if c = 0 then insertDue ⟨i, e.phase, instant e⟩ acc else acc) ↔
          x ∈ acc ∨ c = 0 ∧ x = ⟨i, e.phase, instant e⟩ := by
        split
        · next h => simp [mem_insertDue, h, or_comm]
        · next h => simp [h]
      rw [dueEntries, ih, hacc]
      constructor
      · rintro ((h | h) | ⟨k, e', he, hc, hx⟩)
        · exact .inl h
        · exact .inr ⟨0, e, rfl, congrArg some h.1, h.2⟩
        · exact .inr ⟨k + 1, e', he, hc, by rw [hx, Nat.add_right_comm, Nat.add_assoc]⟩
      · rintro (h | ⟨k, e', he, hc, hx⟩)
        · exact .inl (.inl h)
        · cases k with
          | zero =>
            cases he
            exact .inl (.inr ⟨Option.some.inj hc, hx⟩)
          | succ k => exact .inr ⟨k, e', he, hc, by rw [hx, Nat.add_right_comm, Nat.add_assoc]⟩

/-- R44: the due entries are in order. -/
theorem dueEntries_ordered {instant : ScheduleEntry → Stamp} {es : List ScheduleEntry} :
    ∀ {cs : List Nat} {i : Nat} {acc : List DueEntry}, acc.Pairwise DueEntry.before → (∀ e ∈ acc, e.index < i) →
      (dueEntries instant i es cs acc).Pairwise DueEntry.before := by
  induction es with
  | nil =>
    intro cs i acc h _
    simpa [dueEntries] using h
  | cons e es ih =>
    intro cs i acc h hi
    cases cs with
    | nil => simpa [dueEntries] using h
    | cons c cs =>
      rw [dueEntries]
      split
      · refine ih (insertDue_ordered h hi) ?_
        intro x hx
        rcases mem_insertDue.1 hx with rfl | hx
        · exact Nat.lt_succ_self _
        · exact Nat.lt_succ_of_lt (hi x hx)
      · exact ih h fun x hx => Nat.lt_succ_of_lt (hi x hx)

/-- A group that is decided is due no longer. -/
theorem decideGroup_due_lt {s : State} (h : s.instantCome = true) :
    s.decideGroup.sched.due.length < s.sched.due.length := by
  unfold State.instantCome at h
  unfold State.decideGroup
  split
  · next hd => simp [hd] at h
  · next d rest hd =>
    have hl : (rest.dropWhile fun e => e.phase == d.phase).length ≤ rest.length :=
      (List.dropWhile_suffix _).length_le
    dsimp only
    split <;> simp [hd, State.takeEntry, State.countRounds, State.withSched, State.withStore] <;> omega

/-- R44: the groups whose instants have come are decided one by one, up to the first whose instant has not. -/
theorem decideGroups_spec : ∀ (m : Nat) (s : State), s.sched.due.length ≤ m →
    ∃ n, decideGroups m s = Nat.repeat State.decideGroup n s ∧
      (∀ k, k < n → (Nat.repeat State.decideGroup k s).instantCome = true) ∧
      (decideGroups m s).instantCome = false := by
  have shift : ∀ (n : Nat) (s : State),
      Nat.repeat State.decideGroup n s.decideGroup = Nat.repeat State.decideGroup (n + 1) s := by
    intro n
    induction n with
    | zero => exact fun _ => rfl
    | succ n ih => exact fun s => congrArg State.decideGroup (ih s)
  intro m
  induction m with
  | zero =>
    intro s h
    refine ⟨0, rfl, fun k hk => absurd hk (Nat.not_lt_zero k), ?_⟩
    simp [decideGroups, State.instantCome, List.length_eq_zero_iff.1 (Nat.le_zero.1 h)]
  | succ m ih =>
    intro s h
    cases hc : s.instantCome
    · exact ⟨0, by simp [decideGroups, hc, Nat.repeat], fun k hk => absurd hk (Nat.not_lt_zero k),
        by simp [decideGroups, hc]⟩
    · obtain ⟨n, hn, hk, he⟩ := ih s.decideGroup (Nat.le_of_lt_succ (Nat.lt_of_lt_of_le (decideGroup_due_lt hc) h))
      refine ⟨n + 1, by simp only [decideGroups, hc, if_true, hn, shift], ?_, by simpa [decideGroups, hc] using he⟩
      intro k hkn
      cases k with
      | zero => exact hc
      | succ k => exact shift k s ▸ hk k (Nat.lt_of_succ_lt_succ hkn)

end Sys2Proof.Machine
end

