-- ==== Sys2Proof/Tests/Slice0.lean ====
section
/-!
SUPPORT. Tests: the smoke tests of `WellFormed`, worked figures of the manual, and for every statement with
hypotheses concrete states and operands that meet them, clause by clause.
-/

namespace Sys2Proof.Tests

set_option Elab.async false

open Sys2Proof Sys2Proof.Machine

/-! ### Well-formedness: one ill-formed term for each check -/

theorem test_short_north_frame_is_ill_formed : Instr.wellFormed (.northFrameComplete [0, 1, 0]) = false := by decide
theorem test_long_north_frame_is_ill_formed : Instr.wellFormed (.northFrameComplete [0, 1, 0, 0, 1, 2, 3]) = false := by
  decide
theorem test_seven_byte_record_is_ill_formed :
    Instr.wellFormed (.currentRecordArrival [0, 0, 0, 0, 0, 0, 0]) = false := by decide
theorem test_position_above_a_byte_is_ill_formed :
    Instr.wellFormed (.chainFrameReceived ⟨[1, 2], .result 256 [] [] 0, false⟩) = false := by decide
theorem test_thirteen_voltages_are_ill_formed :
    Instr.wellFormed (.chainFrameReceived ⟨[1, 2], .result 1 (List.replicate 13 0) [] 0, false⟩) = false := by decide
theorem test_five_temperatures_are_ill_formed :
    Instr.wellFormed (.chainFrameReceived ⟨[1, 2], .result 1 [] (List.replicate 5 0) 0, false⟩) = false := by decide
theorem test_count_above_a_byte_is_ill_formed :
    Instr.wellFormed (.chainFrameReceived ⟨[1, 2], .count 256, false⟩) = false := by decide
theorem test_long_module_reply_is_ill_formed :
    Instr.wellFormed (.chainFrameReceived ⟨[1, 2], .moduleReply (List.replicate 255 0), false⟩) = false := by
  decide +kernel
theorem test_whole_chain_frame_without_crc_is_ill_formed :
    Instr.wellFormed (.chainFrameReceived ⟨[1], .other, false⟩) = false := by decide
theorem test_broken_off_chain_frame_is_well_formed :
    Instr.wellFormed (.chainFrameReceived ⟨[], .other, true⟩) = true := by decide

/-! ### Small tables and states -/

def moduleEntry (adjust : Int) : ModuleEntry := ⟨[1, 2, 4], 2, 850, adjust⟩

def modules (mode : WakeInMode) : ModuleTable :=
  { syncDelay := 20, hopDelay := 3, replyTimeout := 200, forwardWindow := 400, converterLatency := 30
    streamTimeout := 5000, gapLimit := 200, alignWaitLimit := 500, wakeInMode := mode, holdTime := 5
    modules := [moduleEntry 2, moduleEntry (-7)] }

def cellLimit : LimitEntry :=
  { cls := .cellRaw, firstPosition := 1, lastPosition := 20, firstChannel := 1, lastChannel := 12, flagMask := 0
    threshold := 42000, hysteresis := 300, below := false, latch := false, persistence := 3, alert := true
    fastOpen := true, blockClose := true, wake := false, enter := true, enterTarget := 3 }

def missingLimit : LimitEntry := { cellLimit with cls := .moduleMissing, latch := true, persistence := 1, enter := false }

def sequenceTable : SequenceTable :=
  { pullInTime := ⟨40, 40, 30, 40⟩, holdLevel := ⟨2, 2, 3, 2⟩, debounceTime := 4, breakLimit := 50000
    deferTimeout := 1500
    sequences :=
      [⟨.openSeq, [.release .mpos, .awaitFb .mpos false 100, .release .mneg, .endStep]⟩,
       ⟨.closeDrive, [.drive .mneg, .awaitFb .mneg true 100, .awaitPrecharge 243 500, .drive .mpos, .endStep]⟩,
       ⟨.closeCharge, [.drive .mneg, .wait 20, .drive .chg, .endStep]⟩] }

def baseProfile : ProfileRecord :=
  { id := 0, watch := false, base := true, sleepOk := true, activateOk := true, openOnEntry := false
    keepNewest := true, scheduleId := 0, limitSetId := 0, lnom := 10000, tol := 200, holdoverLimit := 2
    allowedClose := 0x06, forwardSet := 0x7, watchProfile := some 6, watchInterval := 0, chainWakeTime := 0
    reportEvery := 0 }

def driveProfile : ProfileRecord :=
  { baseProfile with id := 3, base := false, sleepOk := false, activateOk := false, watchProfile := none }

def watchProfile : ProfileRecord :=
  { baseProfile with
    id := 6, watch := true, base := false, sleepOk := false, activateOk := false, scheduleId := 1, allowedClose := 0
    forwardSet := 0, watchProfile := none, watchInterval := 600, chainWakeTime := 20 }

def tables (mode : WakeInMode) : WorkingTables :=
  { version := 7, modules := modules mode
    schedules := [[⟨205, .both, [1, 2], 1⟩, ⟨205, .cells, [1], 1⟩, ⟨600, .temps, [1, 2], 4⟩], [⟨0, .cells, [1, 2], 1⟩]]
    limitSets := [[cellLimit, missingLimit]], sequence := sequenceTable
    profiles := [baseProfile, driveProfile, watchProfile] }

/-- Loaded, enumerated, ACTIVE, the sequencer OPEN, the lock UNLOCKED. -/
def ready : State :=
  let s := State.reset.loadTables (tables .falling)
  (s.withTables { s.tables with startUp := .ended }).withChain { s.chain with enumeration := .ended, foundCount := 2 }

/-- Without tables, loading ended. -/
def bare : State := State.reset.withTables { State.reset.tables with startUp := .ended }

/-- A state with one command waiting, under tag 5. -/
def withCommand (s : State) (payload : List Byte) : State :=
  s.withNorth { s.north with commands := [⟨5, payload⟩] }

/-- A state in which a frame begun at a count is in assembly. -/
def assembling (s : State) (delimiter : Stamp) : State :=
  s.withNorth { s.north with receiver := .assembling delimiter false }

def inEngine (s : State) (e : EngineState) : State := s.withTables { s.tables with engine := e }
def inSequencer (s : State) (x : SeqState) : State := s.withSeq { s.seq with state := x }
def inPower (s : State) (x : PowerState) : State := s.withSleep { s.sleep with power := x }
def withTransaction (s : State) (f : ChainFrame) (p : TxnPhase) : State :=
  s.withChain { s.chain with transaction := some ⟨f, p⟩ }
def withOperation (s : State) (o : ArrayOp) : State := s.withTables { s.tables with operation := some ⟨o, 0⟩ }
def atCount (s : State) (n : Stamp) : State := s.withTimebase { s.timebase with microtick := n }

def locked (x : LockState) : State := ready.withLock ⟨x, some 1020070, 10040, 0, 0⟩

/-- Before start-up loading has ended. -/
def checking : State := State.reset.withTables { State.reset.tables with startUp := .checking }

def latched : State := ready.withTables { ready.tables with tamperLatch := true }

/-- The feedback input of MNEG reads away from its debounced state. -/
def moving : State :=
  ready.withSeq { ready.seq with feedback := { ready.seq.feedback with mneg := ⟨true, false, none⟩ } }

def fwdReply9 : NorthFrame := ⟨2, .fwdReply, 9, [1]⟩

/-- A transmit queue of so many frames. -/
def withTx (n : Nat) : State := ready.withNorth { ready.north with tx := List.replicate n fwdReply9 }

/-- A command list of so many commands. -/
def withCommands (n : Nat) : State :=
  ready.withNorth { ready.north with commands := List.replicate n ⟨5, [0x31]⟩ }

/-- The transmit queue is full, and the filter and the chain port wait on it. -/
def bothWait : State :=
  ((withTx 8).withNorth { (withTx 8).north with holding := some fwdReply9 }).withChain
    { ready.chain with keptReplies := [fwdReply9] }

/-- The next place of the transmit queue is the filter's. -/
def claimed : State := ready.withNorth { ready.north with holding := some fwdReply9, claims := [.filter] }

def entry31 : FwdEntry := ⟨31, 4, .read, [0x01]⟩

/-- A frame with a group of two at phase 205 and one more entry. -/
def framed : State :=
  ready.withSched { ready.sched with due := [⟨0, 205, 502⟩, ⟨1, 205, 502⟩, ⟨2, 600, 1470⟩] }

def waitingEntry (p : Nat) : RoundEntry := ⟨p, .waiting, 600, none, none, none, none, none⟩

/-- An entry read OK whose current is not aligned yet. -/
def sampled (p : Nat) (instant : Stamp) : RoundEntry :=
  ⟨p, .ok, instant, some [41999, 42001, 41502], some [250, 251], some 5, none, none⟩

def aRound : Round :=
  ⟨1, 0, 0, 0, .both, 502, 600, 98, false, .collecting, [waitingEntry 1, waitingEntry 2], none⟩

/-- Position 2 is the last to be read. -/
def lastRead : Round := { aRound with entries := [sampled 1 500, waitingEntry 2] }

/-- Both positions are read; with records at 500 and 700 the first is bracketed and the second waits. -/
def aligning : Round := { aRound with phase := .aligning, entries := [sampled 1 500, sampled 2 700] }

def inAssembly (r : Round) : State := ready.withSched { ready.sched with assembly := some r }
def collecting : State := inAssembly aRound

def syncFrame : List Byte := NorthFrame.bytes ⟨0, .sync, 0, []⟩
def commandFrame : List Byte := NorthFrame.bytes ⟨0, .cmd, 5, [0x01, 0x00]⟩
def forwardFrame (code : Byte) : List Byte := NorthFrame.bytes ⟨2, .fwd, 9, [code, 1]⟩
def withCrc (bytes : List Byte) : List Byte := bytes ++ crc16Bytes bytes

/-! ### Figures of the manual -/

/-- R186: the two codes over the nine digits give the check values known for these generators (the manual gives none). -/
theorem test_crc_check_values :
    crc16 [0x31, 0x32, 0x33, 0x34, 0x35, 0x36, 0x37, 0x38, 0x39] = 0x29B1 ∧
      crc8 [0x31, 0x32, 0x33, 0x34, 0x35, 0x36, 0x37, 0x38, 0x39] = 0xF4 := by decide +kernel

/-- Section 4.6. -/
theorem test_interpolation_and_rounding :
    bracketed 200 ⟨1000200, 240000, 0, false⟩ ⟨1000325, 252000, 0, false⟩ 1000250 = ⟨244800, .ok, false⟩ ∧
      (1000 + roundDiv 3 2 = 1002) ∧ (1000 + roundDiv (-3) 2 = 998) ∧ roundDiv 4 3 = 1 := by decide +kernel

/-- R44: the largest product, and the offset of phase 205 in 10,040 µs. -/
theorem test_phase_offsets : phaseOffset 205 10040 = 502 ∧ phaseOffset 4095 104095 = 104069 := by decide +kernel

/-- Section 2.8: acquisition at 2 Mbit/s with stamps 1,000,000, 1,010,030 and 1,020,070. -/
theorem test_acquisition :
    let s := ready.withNorth { ready.north with rate := .mbit2 }
    let t := judgeSync 9 1020070 (judgeSync 9 1010030 (judgeSync 9 1000000 s))
    s.lag = 44 ∧ (judgeSync 9 1010030 (judgeSync 9 1000000 s)).lock = ⟨.acquiring, some 1010030, 10030, 1, 0⟩ ∧
      t.lock = ⟨.locked, some 1020070, 10040, 0, 0⟩ ∧ t.windowCloseAt 1020070 = 1030354 := by decide +kernel

/-- Section 6.15, its first step: MNEG is in pull-in, the sequence waits for its feedback, CLOSE_CMD is recorded. -/
theorem test_close_drives_mneg_first :
    let t := ready.startClose 1 ⟨.closeDrive, [.drive .mneg, .awaitFb .mneg true 100, .drive .mpos, .endStep]⟩
    t.seq.coils.mneg = ⟨.pullIn, some 40000, false, some 5000, false⟩ ∧ t.seq.coils.mpos.state = .off ∧
      t.seq.state = .closing ∧ t.seq.step = some 1 ∧ t.seq.stepTimer = some 100000 ∧
      t.events.records.map (·.kind) = [.closeCmd] := by decide +kernel

/-- R105: with MNEG off a close sequence that drives MPOS fails and ends OPEN, with no coil driven. -/
theorem test_interlock_fails_the_close :
    let t := ready.startClose 1 ⟨.closeDrive, [.drive .mpos, .endStep]⟩
    t.noCoilDriven = true ∧ t.events.records.map (·.kind) = [.closeCmd, .closeFailed, .openDone] ∧
      t.seq.state = .opened := by decide +kernel

/-- R135: the watch profile id of a WATCH record names a defined WATCH record too, or is absent. -/
theorem test_watch_record_names_a_watch_record :
    (ProfileRecord.resolves (tables .falling) { watchProfile with watchProfile := some 7 } = false) ∧
      ProfileRecord.resolves (tables .falling) { watchProfile with watchProfile := some 6 } = true ∧
      ProfileRecord.resolves (tables .falling) watchProfile = true := by decide +kernel

/-- R90, R159: an ENTER request not yet taken when WAKING ends is refused. -/
theorem test_waking_end_refuses_enters :
    let s := (inPower ready .waking).withLimits { ready.limits with enterRequests := [⟨3, 0⟩] }
    s.wakingEndDue = true ∧ s.endWaking.limits.enterRequests = [] ∧ s.endWaking.north.sticky.entryFailed = true ∧
      s.endWaking.sleep.power = .active := by decide +kernel

/-- R167: a counter write of loading that RST_N has outlived is still one whose outcome a power loss leaves open. -/
theorem test_power_loss_after_reset_in_loading :
    let s := withOperation checking (.counterWrite 8 true)
    s.holdReset.tables.startUp = .waiting ∧ s.holdReset.stopOp.freeIndex = s.freeIndex + 1 ∧
      (withOperation checking (.counterWrite 8 false)).holdReset.stopOp.freeIndex = s.freeIndex := by decide +kernel

/-- R185: absent module flags are sent as 0xFF, and so is the channel of an absent last offending record. -/
theorem test_absent_fields :
    ({ waitingEntry 3 with status := .missing } : RoundEntry).piece =
        [3, 1, 0x58, 2, 0, 0, 0xFF, 0, 0, 0, 0xFF, 0, 0, 0] ∧
      (⟨.clear, 0, none⟩ : RunState).bytes = [0, 0, 0, 0xFF, 0, 0, 0, 0] ∧
      (⟨.tripped, 1, some ⟨1, 0, -2⟩⟩ : RunState).bytes = [2, 1, 1, 0, 0xFE, 0xFF, 0xFF, 0xFF] := by decide +kernel

/-! ### Witnesses: states and operands that meet the hypotheses of each statement, clause by clause -/

theorem witness_WaitingPassesTime :
    State.reset.pending = [] ∧ State.reset.power = ⟨true, false⟩ ∧
      (State.reset.withPower ⟨true, true⟩).power = ⟨true, true⟩ ∧
      (State.reset.withPower ⟨false, false⟩).pending = [] := by decide +kernel

theorem witness_LinkRateFollowsTheStraps :
    (State.reset.withPower ⟨true, true⟩).power = ⟨true, true⟩ ∧ ∃ t, exec .rstNLow State.reset = .next t :=
  ⟨by decide +kernel, _, rfl⟩

theorem arraySafe_withOperation (o : ArrayOp) (h : o.inSlots = true) : ArraySafe (withOperation ready o) := by
  refine ⟨rfl, ?_, ?_⟩
  · intro x hx
    cases hx
    exact h
  · intro b hb
    cases hb

theorem witness_PowerOnAndPowerLoss :
    State.reset.tables.operation = none ∧ ready.power.powered = true ∧
      (∀ v left, (withOperation ready (.counterWrite 8 false)).tables.operation ≠ some ⟨.counterWrite v true, left⟩) ∧
      ArraySafe (withOperation ready (.counterWrite 8 true)) ∧
      ArraySafe (withOperation ready (.erase 55 false)) ∧ ArraySafe (withOperation ready (.erase 0 true)) ∧
      ArraySafe (withOperation ready (.program 114624 (List.replicate 64 1))) ∧
      ArraySafe (withOperation ready (.pointerWrite .one)) ∧ ArraySafe (withOperation ready (.counterWrite 8 false)) :=
  ⟨by decide +kernel, by decide +kernel, nofun, arraySafe_withOperation _ rfl,
    arraySafe_withOperation _ (by decide +kernel), arraySafe_withOperation _ (by decide +kernel),
    arraySafe_withOperation _ (by decide +kernel), arraySafe_withOperation _ rfl, arraySafe_withOperation _ rfl⟩

theorem witness_ResetLineClears :
    ready.power = ⟨true, false⟩ ∧ (inEngine ready (.locked .fails)).tables.engine = .locked .fails ∧
      (inEngine latched .activating).tables.engine = .activating ∧
      (inEngine latched .activating).tables.tamperLatch = true ∧
      (ready.withPower ⟨true, true⟩).power = ⟨true, true⟩ ∧ (ready.withPower ⟨true, true⟩).power.rstNLow = true ∧
      ready.power.rstNLow = false ∧ (ready.withPower ⟨false, false⟩).power = ⟨false, false⟩ ∧
      (ready.withPower ⟨false, true⟩).power = ⟨false, true⟩ ∧
      (moving.seq.feedback.get .mneg).raw ≠ (moving.seq.feedback.get .mneg).debounced := by decide +kernel

/-- RESTART has been taken and its reply has gone out. -/
def restarting : State := ready.withNorth { ready.north with restartTaken := true }

theorem witness_RestartIsTakenAndBegins :
    restarting.power = ⟨true, false⟩ ∧ restarting.north.restartTaken = true ∧ restarting.chain.transaction = none ∧
      restarting.north.holding = none ∧ restarting.chain.keptReplies = [] ∧ restarting.north.tx = [] ∧
      (withCommand bare [0x04]).takeable .restart = some ⟨5, [0x04]⟩ ∧ argNone [] = some () := by decide +kernel

theorem witness_StartUpLoading :
    State.reset.power = ⟨true, false⟩ ∧ State.reset.tables.startUp = .waiting ∧ State.reset.tables.operation = none ∧
      (State.reset.withTables { State.reset.tables with startUp := .checking }).tables.startUp = .checking ∧
      State.reset.counterWriting = false := by decide +kernel

theorem witness_StartUpLoading_blank : State.reset.checkActive = .error .format := by rfl

theorem witness_Enumeration :
    ready.power = ⟨true, false⟩ ∧ ready.chain.sleepClaim = none ∧
      (ready.withChain { ready.chain with enumeration := .running (some 0) }).chain.enumeration = .running (some 0) ∧
      (withTransaction ready .enumerate .receiving).chain.transaction = some ⟨.enumerate, .receiving⟩ ∧
      (withTransaction ready .enumerate (.awaiting 0)).chain.transaction = some ⟨.enumerate, .awaiting 0⟩ ∧
      crcRight (withCrc [31]) = true ∧ crcRight [31, 0, 0] = false := by decide +kernel

theorem witness_AcceptedFrames :
    ([] : List Byte).length = (0 : Byte).toNat ∧ (List.replicate 255 (7 : Byte)).length = (255 : Byte).toNat ∧
      ([0, 0] : List Byte) ≠ crc16Bytes [0, 0, 0, 0] := by decide +kernel

theorem witness_NorthFrameRoundTrip :
    NorthFrame.permitted ⟨31, .sync, 15, []⟩ = true ∧ NorthFrame.permitted ⟨0, .cmd, 0, List.replicate 255 1⟩ = true ∧
      NorthFrame.permitted ⟨20, .fwd, 3, [0]⟩ = true ∧ NorthFrame.permitted ⟨31, .fwd, 3, [0]⟩ = true ∧
      NorthFrame.permitted ⟨21, .fwd, 3, [0]⟩ = false ∧ NorthFrame.permitted ⟨30, .fwd, 3, [0]⟩ = false := by
  decide +kernel

theorem witness_FramesAreDiscardedOrJoinTheList :
    ready.power = ⟨true, false⟩ ∧ ready.deepSleep = false ∧
      (assembling ready 7).north.receiver = .assembling 7 false ∧ acceptNorthFrame [0, 1, 1] = none ∧
      acceptNorthFrame [] = none ∧
      (ready.withNorth { ready.north with receiver := .assembling 7 true }).north.receiver = .assembling 7 true ∧
      acceptNorthFrame commandFrame = some ⟨0, .cmd, 5, [0x01, 0x00]⟩ ∧
      (assembling (withCommands 3) 7).north.commands.length < 4 ∧
      ¬ (assembling (withCommands 4) 7).north.commands.length < 4 ∧
      (assembling (withCommands 4) 7).north.receiver = .assembling 7 false := by decide +kernel

theorem witness_ForwardFilterDecides :
    acceptNorthFrame (forwardFrame 0xC0) = some ⟨2, .fwd, 9, [0xC0, 1]⟩ ∧ ready.north.holding = none ∧
      (ready.withNorth { ready.north with holding := some fwdReply9 }).north.holding ≠ none ∧
      restarting.north.restartTaken = true ∧ bare.tablesLoaded = false ∧ ready.permits (fwdClassOf 0xC0) = false ∧
      ready.permits (fwdClassOf 0xBF) = true ∧ ready.permits (fwdClassOf 0x3F) = true ∧
      ready.mayAdd .filter = true ∧ (withTx 8).mayAdd .filter = false ∧ (withTx 8).north.holding = none ∧
      4 ≤ (ready.withChain { ready.chain with forwardQueue := List.replicate 4 entry31 }).chain.forwardQueue.length ∧
      (inPower ready .sleepPending).sleep.power = .sleepPending := by decide +kernel

/-- R5: the filter and the chain port wait on a full queue; when a frame has gone the two may each take the place; once
the filter has, the next place is the chain port's. -/
theorem witness_TransmitQueueIsFirstInFirstOut :
    exec .northFrameSent bothWait = .next bothWait.frameLeaves ∧ bothWait.north.holding = some fwdReply9 ∧ bothWait.chain.keptReplies = fwdReply9 :: [] ∧
      bothWait.north.tx.length = 8 ∧ bothWait.north.claims = [] ∧ bothWait.waits .filter = true ∧
      bothWait.waits .chainPort = true ∧ bothWait.waits .decoder = false ∧
      (let u := (bothWait.frameLeaves.enqueueTx .filter fwdReply9).frameLeaves
       u.north.claims = (bothWait.frameLeaves.enqueueTx .filter fwdReply9).north.claims ∧ u.north.tx.length < 8 ∧
         u.waits .chainPort = true ∧ u.mayAdd .chainPort = true ∧ u.mayAdd .filter = false) :=
  ⟨rfl, by decide +kernel⟩

theorem witness_CommandsNotTakenAndMalformed :
    .close ∈ decoderRows ∧ State.reset.tables.startUp ≠ .ended ∧ ready.north.commands = [] ∧
      (ready.withPower ⟨false, false⟩).power ≠ ⟨true, false⟩ ∧ restarting.north.restartTaken = true ∧
      8 ≤ (withTx 8).north.tx.length ∧ claimed.north.tx.length < 8 ∧ claimed.mayAdd .decoder = false ∧
      commandRow [0x30, 1] ≠ .openCmd ∧ (withCommand ready [0x30, 8]).takeable .close = some ⟨5, [0x30, 8]⟩ ∧
      formRight .close [8] = false ∧ (withCommand ready [0x30]).takeable .close = some ⟨5, [0x30]⟩ ∧
      formRight .close [] = false ∧
      (withCommand ready [0x7F]).takeable .unknownCommandCode = some ⟨5, [0x7F]⟩ ∧
      formRight .unknownCommandCode [] = false ∧ ready.power = ⟨true, false⟩ ∧ ready.tables.startUp = .ended ∧
      ready.north.restartTaken = false ∧ (withCommand ready [0x30, 8]).mayAdd .decoder = true ∧
      commandRow [0x30, 8] = .close := by decide +kernel

/-- The argument readers at the ends of their ranges. -/
theorem witness_CommandsNotTakenAndMalformed_arguments :
    argReadTable [4, 7, 0xFF, 0xFF, 127] = some ⟨4, 7, 65535, 128⟩ ∧ argReadTable [5, 0, 0, 0, 0] = none ∧
      argReadTable [0, 8, 0, 0, 0] = none ∧ argReadTable [0, 0, 0, 0, 128] = none ∧
      argSetTrim [255, 0xF7] = some ⟨255, -7⟩ ∧ argSetTrim [1, 0x08] = none ∧
      argUpdWrite (0xFF :: 0xFF :: List.replicate 48 1) = some ⟨65535, List.replicate 48 1⟩ ∧
      argUpdWrite (0 :: 0 :: List.replicate 49 1) = none ∧ argUpdWrite [0, 0] = none ∧ argClear [1] = some 1 ∧
      argClear [2] = none ∧ argPiece [20] = some 20 ∧ argPiece [21] = none ∧ argEntry [23] = some 23 ∧
      argEntry [24] = none ∧ argAll [0xFF] = some () ∧ argBelow8 [7] = some 7 ∧ argBelow8 [8] = none ∧
      argBlock [255] = some 255 ∧ commandRow [0x01, 1] = .getStatusClear ∧ commandRow [0x01, 1, 0] = .getStatus ∧
      commandRow [0x21, 0xFF] = .clearLimitAll ∧ commandRow [0x21, 24] = .clearLimit ∧
      commandRow [0x54] = .unknownCommandCode := by decide +kernel

/-- Every command of the table, in its form, is taken by its row. -/
theorem witness_EveryCommandTakenIsAnsweredOnce :
    [(Instr.getStatus, ([0x01, 0] : List Byte)), (.getStatusClear, [0x01, 1]), (.readTable, [0x02, 4, 7, 0, 0, 127]),
      (.setTrim, [0x03, 1, 0x87]), (.restart, [0x04]), (.readRound, [0x10, 20]), (.releaseRound, [0x11]),
      (.readLimits, [0x20]), (.clearLimit, [0x21, 23]), (.clearLimitAll, [0x21, 0xFF]), (.close, [0x30, 7]),
      (.openCmd, [0x31]), (.fastOpen, [0x32]), (.clearTrip, [0x33]), (.readEvents, [0x38, 7]),
      (.switchProfile, [0x40, 7]), (.enterProfile, [0x41, 0]), (.returnProfile, [0x42]), (.sleep, [0x48]),
      (.updErase, [0x50, 255]), (.updWrite, [0x51, 0, 0, 1]), (.updVerify, [0x52]), (.updActivate, [0x53])].all
        (fun x => (withCommand ready x.2).takeable x.1 == some ⟨5, x.2⟩ && formRight x.1 x.2.tail &&
          decoderRows.contains x.1) = true := by decide +kernel

/-- A FWD_REPLY with status CRC_ERROR and a REPLY refused for NOT_ERASED, byte by byte. -/
theorem test_frame_bytes :
    (fwdReply 31 9 .crcError [0xAB]).bytes.take 6 = [31, 0x94, 2, 0, 6, 0xAB] ∧
      (Reply.frame ⟨.refused .notErased, [7]⟩ 15 0x51).bytes.take 8 = [0, 0xF2, 4, 0, 0x51, 5, 10, 7] := by
  decide +kernel

theorem witness_GetStatusReadsAndClears :
    (withCommand ready [0x01, 0]).takeable .getStatus = some ⟨5, [0x01, 0]⟩ ∧ argClear [0] = some 0 ∧
      (withCommand ready [0x01, 1]).takeable .getStatusClear = some ⟨5, [0x01, 1]⟩ := by decide +kernel

theorem witness_WorkingTableCommands :
    (withCommand ready [0x02, 1, 0, 20, 0, 127]).takeable .readTable = some ⟨5, [0x02, 1, 0, 20, 0, 127]⟩ ∧
      argReadTable [1, 0, 20, 0, 127] = some ⟨1, 0, 20, 128⟩ ∧ bare.tables.working = none ∧
      ready.tables.working = some (tables .falling) ∧ (inEngine ready .activating).tables.engine = .activating ∧
      ready.tables.engine ≠ .activating ∧ (tables .falling).table 1 2 = none ∧
      ((tables .falling).table 1 0).map List.length = some 21 ∧
      (withCommand ready [0x03, 2, 0x80]).takeable .setTrim = some ⟨5, [0x03, 2, 0x80]⟩ ∧
      argSetTrim [2, 0x80] = some ⟨2, 0⟩ ∧ argSetTrim [3, 0x87] = some ⟨3, -7⟩ ∧ argSetTrim [0, 7] = some ⟨0, 7⟩ ∧
      (tables .falling).modules.modules.length = 2 := by decide +kernel

theorem witness_ChainTransactions :
    (ready.moduleTable = some (modules .falling) ∧ ready.chain.sleepClaim = none ∧ ready.chain.keptReplies = [] ∧
      (withTransaction ready (.readResult 1) .sending).chain.transaction = some ⟨.readResult 1, .sending⟩ ∧
      (withTransaction ready .enumerate .sending).chain.transaction = some ⟨.enumerate, .sending⟩ ∧
      (withTransaction ready .enumerate (.awaiting 3)).chain.transaction = some ⟨.enumerate, .awaiting 3⟩ ∧
      ready.chain.transaction = none ∧
      (ready.withChain { ready.chain with forwardQueue := [entry31] }).headStartable = true ∧
      restarting.headStartable = false ∧ ready.permits .read = true ∧ ready.permits .diag = false ∧
      (withTransaction ready (.forwarded entry31) .sending).chain.transaction = some ⟨.forwarded entry31, .sending⟩ ∧
      (withTransaction ready (.forwarded entry31) .receiving).chain.transaction =
        some ⟨.forwarded entry31, .receiving⟩ ∧
      (withTransaction ready (.forwarded entry31) (.awaiting 0)).chain.transaction =
        some ⟨.forwarded entry31, .awaiting 0⟩ ∧ entry31.dest = 31 ∧ ({ entry31 with dest := 2 } : FwdEntry).dest ≠ 31 ∧
      ready.mayAdd .chainPort = true ∧ (withTx 8).mayAdd .chainPort = false) ∧
      (∀ n, ChainContent.moduleReply [1] ≠ .count n) ∧ ∀ payload, ChainContent.count 2 ≠ .moduleReply payload :=
  by
  refine ⟨by decide +kernel, ?_, ?_⟩ <;> intro x h <;> cases h

/-- The part with a transaction, or none, and an unasked frame in reception. -/
def late (t : Option Transaction) : State := ready.withChain { ready.chain with transaction := t, unasked := true }

/-- R15: a late reply begins while nothing waits, and ends when the next transaction waits: that one goes on. -/
theorem witness_ChainTransactions_unasked :
    ready.chain.transaction = none ∧ exec .chainReplyStart ready = .next (late none) ∧
      (late (some ⟨.readResult 2, .awaiting 3⟩)).chain.transaction = some ⟨.readResult 2, .awaiting 3⟩ ∧
      exec (.chainFrameReceived ⟨withCrc [1, 2], .count 9, false⟩) (late (some ⟨.readResult 2, .awaiting 3⟩)) =
        .next (withTransaction ready (.readResult 2) (.awaiting 3)) ∧
      (withTransaction ready (.readResult 2) (.awaiting 3)).chain.unasked = false ∧
      (withTransaction ready (.readResult 2) .receiving).chain.transaction = some ⟨.readResult 2, .receiving⟩ ∧
      (withTransaction ready (.trigger .both [1]) .sending).chain.transaction = some ⟨.trigger .both [1], .sending⟩ ∧
      (ready.withPower ⟨true, true⟩).power ≠ ⟨true, false⟩ :=
  ⟨rfl, rfl, rfl, rfl, rfl, rfl, rfl, by decide⟩

/-- The part after RST_N has cut a read short in the middle of its reply. -/
def cutShort : State := (withTransaction ready (.readResult 2) .receiving).holdReset

/-- R21: the reply of an abandoned transaction that ends while the start-up ENUMERATE waits does not end it; one that
begins and ends while RST_N is low leaves nothing. -/
theorem test_abandoned_reply :
    cutShort.chain.unasked = true ∧
      exec (.chainFrameReceived ⟨withCrc [9], .count 9, false⟩)
          (withTransaction (cutShort.withPower ⟨true, false⟩) .enumerate (.awaiting 700)) =
        .next ((withTransaction (cutShort.withPower ⟨true, false⟩) .enumerate (.awaiting 700)).dropUnasked) ∧
      exec (.chainFrameReceived ⟨withCrc [9], .count 9, false⟩) cutShort = .next cutShort.dropUnasked ∧
      exec .chainReplyStart ready.holdReset = .next ready.holdReset.hearUnasked ∧
      (withTransaction ready (.readResult 2) .receiving).losePower.chain.unasked = true ∧
      (withTransaction ready (.readResult 2) (.awaiting 3)).losePower.chain.unasked = false :=
  ⟨rfl, rfl, rfl, rfl, rfl, rfl⟩

/-- The frames without a reply: CHAIN_WAKE of either kind, CHAIN_SLEEP, TRIGGER with and without a round to read. -/
theorem witness_ChainTransactions_sent :
    (withTransaction ready (.chainWake true) .sending).chain.transaction = some ⟨.chainWake true, .sending⟩ ∧
      (withTransaction ready (.chainWake false) .sending).sleep.power ≠ .watchRound ∧
      (withTransaction ready .chainSleep .sending).sleep.power ≠ .watchRound ∧
      (withTransaction ready (.trigger .both [1, 2]) .sending).sched.assembly = none ∧
      (withTransaction collecting (.trigger .both [1, 2]) .sending).sched.assembly = some aRound ∧
      aRound.phase = .collecting ∧ (aRound.entries.find? fun e => e.status == .waiting).map (·.position) = some 1 ∧
      ready.linkFree = true ∧ (withTransaction ready .enumerate .sending).linkFree = false ∧
      (ready.withChain { ready.chain with sleepClaim := some .sleep }).chain.sleepClaim = some .sleep := by
  decide +kernel

/-- R49: a waiting trigger, a held entry, a due entry and the coming frame each give the next trigger instant; at 98
microticks before it the forward window of 400 does not end in time. -/
theorem witness_ChainTransactions_instant :
    ready.scheduleRuns = false ∧ (locked .holdover).scheduleRuns = true ∧ (locked .locked).scheduleRuns = true ∧
      (locked .locked).nextTriggerInstant = some (1020070 + 10040 + 502) ∧
      ((locked .locked).withSched { ready.sched with due := [⟨2, 600, 9⟩] }).nextTriggerInstant = some 9 ∧
      ((locked .locked).withSched { ready.sched with due := [⟨2, 600, 9⟩], held := [⟨1, 205, 8⟩] }).nextTriggerInstant =
        some 8 ∧
      ((locked .locked).withSched { ready.sched with waiting := some ⟨0, 7, 1⟩ }).nextTriggerInstant = some 7 ∧
      ⟨205, .both, [1, 2], 1⟩ ∈ (locked .locked).activeSchedule ∧
      ((locked .locked).activeSchedule.all fun x => decide (205 ≤ x.phase)) = true ∧
      (atCount (locked .locked) 1030212).headStartable = true ∧
      (atCount (locked .locked) 1030213).headStartable = false := by decide +kernel

/-- A SYNC that completes in `s` with stamp `t`. -/
theorem syncArrives_assembling (s : State) (t : Stamp) (hp : s.power = ⟨true, false⟩) (hl : s.tablesLoaded = true)
    (hd : s.syncDelay = 20) : (assembling s (t + 20)).syncArrives syncFrame t := by
  refine ⟨hp, hl, t + 20, ⟨0, .sync, 0, []⟩, rfl, by decide +kernel, rfl, ?_⟩
  have : (assembling s (t + 20)).syncDelay = 20 := hd
  rw [this]
  simp

theorem witness_SyncInUnlockedBeginsAcquisition :
    (assembling ready (1000000 + 20)).syncArrives syncFrame 1000000 ∧ ready.lock.state = .unlocked ∧
      ready.activeProfile = some baseProfile :=
  ⟨syncArrives_assembling ready 1000000 (by decide +kernel) (by decide +kernel) (by decide +kernel),
    by decide +kernel, by decide +kernel⟩

def acquiring (count : Nat) : State := ready.withLock ⟨.acquiring, some 1000000, 10000, count, 0⟩

theorem witness_SyncInAcquiringIsJudgedOnItsInterval :
    (assembling (acquiring 0) (1009800 + 20)).syncArrives syncFrame 1009800 ∧
      (assembling (acquiring 1) (1010200 + 20)).syncArrives syncFrame 1010200 ∧
      (assembling (acquiring 1) (1010201 + 20)).syncArrives syncFrame 1010201 ∧
      (acquiring 1).lock.tLast = some 1000000 ∧ (acquiring 1).activeProfile = some baseProfile ∧
      (1009800 - 1000000 : Stamp).toInt = (baseProfile.lnom : Int) - baseProfile.tol ∧
      (1010200 - 1000000 : Stamp).toInt = (baseProfile.lnom : Int) + baseProfile.tol :=
  ⟨syncArrives_assembling _ _ (by decide +kernel) (by decide +kernel) (by decide +kernel),
    syncArrives_assembling _ _ (by decide +kernel) (by decide +kernel) (by decide +kernel),
    syncArrives_assembling _ _ (by decide +kernel) (by decide +kernel) (by decide +kernel),
    by decide +kernel, by decide +kernel, by decide +kernel, by decide +kernel⟩

theorem witness_SyncInTheWindowIsAccepted :
    (assembling (locked .locked) (1030310 + 20)).syncArrives syncFrame 1030310 ∧
      (assembling (locked .holdover) (1029910 + 20)).syncArrives syncFrame 1029910 ∧
      (assembling (locked .locked) (1029909 + 20)).syncArrives syncFrame 1029909 ∧
      (locked .locked).lock.tLast = some 1020070 ∧ (locked .locked).activeProfile = some baseProfile ∧
      (1030310 - (1020070 + 10040) : Stamp).toInt = baseProfile.tol ∧
      (1029909 - (1020070 + 10040) : Stamp).toInt < -(baseProfile.tol : Int) ∧ baseProfile.tol ≤ baseProfile.lnom :=
  ⟨syncArrives_assembling _ _ (by decide +kernel) (by decide +kernel) (by decide +kernel),
    syncArrives_assembling _ _ (by decide +kernel) (by decide +kernel) (by decide +kernel),
    syncArrives_assembling _ _ (by decide +kernel) (by decide +kernel) (by decide +kernel),
    by decide +kernel, by decide +kernel, by decide +kernel, by decide +kernel, by decide +kernel⟩

/-- At 1 Mbit/s the decision lag is 68 µs: the window of `locked` closes at 1,030,378. -/
theorem witness_WindowsClose :
    ready.moduleTable = some (modules .falling) ∧
      (atCount (locked .locked) 1030378).power = ⟨true, false⟩ ∧ (locked .locked).lag = 68 ∧
      (1020070 + 10040 + (200 + 68) - 1030378 : Stamp).toInt ≤ 0 ∧
      ¬ (1020070 + 10040 + (200 + 68) - 1030377 : Stamp).toInt ≤ 0 ∧
      ((locked .holdover).withLock ⟨.holdover, some 1020070, 10040, 0, 1⟩).lock.missCount + 1 ≤
        baseProfile.holdoverLimit ∧
      baseProfile.holdoverLimit < ((locked .holdover).withLock ⟨.holdover, some 1020070, 10040, 0, 2⟩).lock.missCount + 1 ∧
      (acquiring 0).lock.state = .acquiring ∧ (1000000 + (10000 + 200 + 68) - 1010268 : Stamp).toInt ≤ 0 ∧
      ¬ (1000000 + (10000 + 200 + 68) - 1010267 : Stamp).toInt ≤ 0 := by decide +kernel

/-- No instant has come at count 0; at count 502 those of the group at phase 205 have. -/
theorem witness_FrameStartOpensTheFrame :
    ready.actsOnFrames = true ∧ bare.actsOnFrames = false ∧
      ready.sched.counters.length = ready.activeSchedule.length ∧
      (ready.activeSchedule.all fun e => later (0 + BitVec.ofNat 32 (e.phase * 10040 / 4096)) ready.now) = true ∧
      (atCount framed 501).instantCome = false ∧ (atCount framed 502).instantCome = true ∧
      ((atCount ready 502).frameStart 0 10040).sched.waiting = some ⟨0, 502, 1⟩ ∧
      ((atCount ready 502).frameStart 0 10040).sched.due.map (·.index) = [2] := by decide +kernel

theorem witness_TriggerInstantTakesOrSkips :
    framed.sched.due = ⟨0, 205, 502⟩ :: ([⟨1, 205, 502⟩] ++ [⟨2, 600, 1470⟩]) ∧
      (502 - (atCount framed 502).now : Stamp).toInt ≤ 0 ∧ ¬ (502 - (atCount framed 501).now : Stamp).toInt ≤ 0 ∧
      framed.sched.assembly = none ∧ framed.sched.waiting = none ∧ framed.sched.held = [] ∧
      (framed.withSched { framed.sched with waiting := some ⟨2, 9, 9⟩ }).sched.waiting ≠ none := by decide +kernel

def triggered : State := ready.withSched { ready.sched with waiting := some ⟨0, 502, 1⟩ }

theorem witness_TriggerSendOpensTheRound :
    triggered.power = ⟨true, false⟩ ∧ triggered.chain.transaction = none ∧ triggered.enumerating = false ∧
      triggered.sched.assembly = none ∧ triggered.sched.waiting = some ⟨0, 502, 1⟩ ∧
      triggered.activeSchedule[0]? = some ⟨205, .both, [1, 2], 1⟩ ∧ triggered.moduleTable = some (modules .falling) ∧
      triggered.activeProfile = some baseProfile ∧ (∃ p ∈ [1, 2], p ≤ triggered.chain.foundCount) ∧
      (∀ p ∈ [1, 2], (triggered.withChain { triggered.chain with foundCount := 0 }).chain.foundCount < p) := by
  decide +kernel

theorem witness_ReadsFillTheRound :
    collecting.sched.assembly = some aRound ∧ aRound.phase = .collecting ∧
      collecting.moduleAt 1 = some (moduleEntry 2) ∧ collecting.moduleAt 2 = some (moduleEntry (-7)) ∧
      (aRound.entries.find? fun e => e.status == .waiting && !(e.position == 1)).map (·.position) = some 2 ∧
      (lastRead.entries.find? fun e => e.status == .waiting && !(e.position == 2)).map (·.position) = none ∧
      (withTransaction collecting (.readResult 1) .receiving).chain.transaction = some ⟨.readResult 1, .receiving⟩ ∧
      (withTransaction collecting (.readResult 1) (.awaiting 0)).chain.transaction =
        some ⟨.readResult 1, .awaiting 0⟩ ∧
      crcRight (withCrc [1]) = true ∧ ([1, 2, 3] : List (BitVec 16)).length = (moduleEntry 2).population.length ∧
      ([1, 2] : List (BitVec 16)).length = (moduleEntry 2).temperatureCount ∧
      ([1, 2] : List (BitVec 16)).length ≠ (moduleEntry 2).population.length ∧
      ([1, 2, 3] : List (BitVec 16)).length ≠ (moduleEntry 2).temperatureCount ∧
      (inAssembly lastRead).sched.assembly = some lastRead ∧ lastRead.phase = .collecting := by decide +kernel

def aRecord (n : Stamp) : RoundRecord :=
  ⟨n, 0, 0, 0, .cells, 600, 98, false, true, some ⟨0, false⟩, [{ waitingEntry 1 with status := .missing }]⟩

def withRecords (n : Nat) : State :=
  ready.withStore { ready.store with records := (List.range n).map fun i => aRecord (BitVec.ofNat 32 i) }

theorem witness_RoundStoreKeepsAndShows :
    (withRecords 7).store.records.length < 8 ∧ (withRecords 8).store.records.length = 8 ∧
      (withRecords 8).store.records = aRecord 0 :: aRecord 1 :: ((withRecords 8).store.records.drop 2) ∧
      (withCommand ready [0x10, 0]).takeable .readRound = some ⟨5, [0x10, 0]⟩ ∧ argPiece [0] = some 0 ∧
      argPiece [20] = some 20 ∧ ready.store.records = [] ∧ (aRecord 0).entries.length = 1 ∧
      (withRecords 1).store.records = aRecord 0 :: [] ∧
      ({ waitingEntry 1 with status := .missing } : RoundEntry).status ≠ .waiting := by decide +kernel

theorem witness_ReleaseRoundRemovesTheOldest :
    (withCommand (withRecords 1) [0x11]).takeable .releaseRound = some ⟨5, [0x11]⟩ ∧ argNone [] = some () ∧
      (withCommand (inEngine ready .activating) [0x11]).takeable .releaseRound = some ⟨5, [0x11]⟩ ∧
      ready.store.records = [] ∧ (withRecords 1).store.records = aRecord 0 :: [] := by decide +kernel

/-! ### A small image -/

/-- The tables of an image of 146 bytes. -/
def smallTables : WorkingTables :=
  { version := 1, modules := { modules .falling with modules := [moduleEntry (-7)] }
    schedules := [[⟨205, .both, [1], 1⟩]], limitSets := [[{ cellLimit with enter := false }]]
    sequence := { sequenceTable with sequences := [⟨.openSeq, [.endStep]⟩] }
    profiles := [{ baseProfile with sleepOk := false, watchProfile := none, allowedClose := 0 }] }

def dirEntry (kind offset length : Nat) : List Byte := [byte kind, 0] ++ le 2 offset ++ le 2 length

/-- The image's bytes before its tag. -/
def imageBody : List Byte :=
  le 4 formatWord ++ le 4 1 ++ le 4 146 ++ [4, 0, 0, 0] ++ dirEntry 0 46 22 ++ dirEntry 1 68 7 ++ dirEntry 2 75 17 ++
    dirEntry 3 92 20 ++ dirEntry 4 112 18 ++ smallTables.modules.bytes ++
    (smallTables.schedules.headD []).flatMap ScheduleEntry.bytes ++
    (smallTables.limitSets.headD []).flatMap LimitEntry.bytes ++ smallTables.sequence.bytes ++
    smallTables.profiles.flatMap ProfileRecord.bytes

def smallDirectory : List DirEntry := [⟨0, 1, 46, 22⟩, ⟨1, 1, 68, 7⟩, ⟨2, 1, 75, 17⟩, ⟨3, 1, 92, 20⟩, ⟨4, 1, 112, 18⟩]

/-- The whole image with a tag. -/
def smallImage (tag : Vector Byte 16) : List Byte := imageBody ++ tag.toList

theorem imageBody_length : imageBody.length = 130 := by decide +kernel

theorem smallImage_length (tag : Vector Byte 16) : (smallImage tag).length = 146 := by
  simp [smallImage, imageBody_length]

theorem smallImage_part (tag : Vector Byte 16) {k n : Nat} (h : k + n ≤ 130) :
    ((smallImage tag).drop k).take n = (imageBody.drop k).take n := by
  rw [smallImage, List.drop_append_of_le_length (by rw [imageBody_length]; omega),
    List.take_append_of_le_length (by rw [List.length_drop, imageBody_length]; omega)]

theorem smallImage_table (tag : Vector Byte 16) (e : DirEntry) (h : e.offset + e.length ≤ 130) :
    e.table (smallImage tag) = e.table imageBody := smallImage_part tag h

theorem smallDirectory_read : parseRecords 6 parseDirEntry 5 ((imageBody.drop 16).take 30) = some smallDirectory := by
  decide +kernel

theorem smallImage_directoryOk (tag : Vector Byte 16) : directoryOk 5 (smallImage tag) smallDirectory = true := by
  have h : (⟨3, 1, 92, 20⟩ : DirEntry).table (smallImage tag) = (⟨3, 1, 92, 20⟩ : DirEntry).table imageBody :=
    smallImage_table tag _ (by decide)
  simp only [directoryOk, smallDirectory, List.all, smallImage_length, DirEntry.countAgrees, h]
  decide +kernel

theorem smallImage_reads (tag : Vector Byte 16) : readTables 1 (smallImage tag) smallDirectory = some smallTables := by
  have h0 : (⟨0, 1, 46, 22⟩ : DirEntry).table (smallImage tag) = _ := smallImage_table tag _ (by decide)
  have h1 : (⟨1, 1, 68, 7⟩ : DirEntry).table (smallImage tag) = _ := smallImage_table tag _ (by decide)
  have h2 : (⟨2, 1, 75, 17⟩ : DirEntry).table (smallImage tag) = _ := smallImage_table tag _ (by decide)
  have h3 : (⟨3, 1, 92, 20⟩ : DirEntry).table (smallImage tag) = _ := smallImage_table tag _ (by decide)
  have h4 : (⟨4, 1, 112, 18⟩ : DirEntry).table (smallImage tag) = _ := smallImage_table tag _ (by decide)
  have o0 : ofKind 0 smallDirectory = [⟨0, 1, 46, 22⟩] := by decide
  have o1 : ofKind 1 smallDirectory = [⟨1, 1, 68, 7⟩] := by decide
  have o2 : ofKind 2 smallDirectory = [⟨2, 1, 75, 17⟩] := by decide
  have o3 : ofKind 3 smallDirectory = [⟨3, 1, 92, 20⟩] := by decide
  have o4 : ofKind 4 smallDirectory = [⟨4, 1, 112, 18⟩] := by decide
  simp only [readTables, o0, o1, o2, o3, o4, readAll, h0, h1, h2, h3, h4]
  decide +kernel

theorem smallImage_tagged (tag : Vector Byte 16) :
    (smallImage tag).take 130 = imageBody ∧ (smallImage tag).drop 130 = tag.toList := by
  rw [smallImage, ← imageBody_length, List.take_left, List.drop_left]
  exact ⟨rfl, rfl⟩

theorem smallImage_authentic (secret : List Byte) :
    authentic secret (smallImage (Config.computedTag secret imageBody)) = true := by
  rw [authentic, beq_iff_eq, smallImage_length, (smallImage_tagged _).1, (smallImage_tagged _).2]

/-- An array that holds the small image in a slot and nothing else. -/
@[irreducible] def arrayWith (slot : Slot) (tag : Vector Byte 16) : List Host.Cell :=
  Memory.writeBytes [] slot.base (smallImage tag)

theorem arrayWith_slice (slot : Slot) (tag : Vector Byte 16) {k n : Nat} (h : k + n ≤ 146) :
    Memory.slice (arrayWith slot tag) (slot.base + k) n = ((smallImage tag).drop k).take n := by
  rw [arrayWith]
  exact Memory.slice_writeBytes (by rw [smallImage_length]; cases slot <;> decide) rfl (by rw [smallImage_length]; exact h)

theorem arrayWith_header (slot : Slot) (tag : Vector Byte 16) :
    readHeader (arrayWith slot tag) slot = ⟨formatWord, 1, 146, 5⟩ := by
  have h12 : [Memory.read (arrayWith slot tag) (slot.base + 12)] = [4] :=
    ((arrayWith_slice slot tag (k := 12) (n := 1) (by decide)).trans (smallImage_part tag (by decide))).trans
      (by decide +kernel)
  have part (k : Nat) (hk : k + 4 ≤ 130) :
      Memory.slice (arrayWith slot tag) (slot.base + k) 4 = (imageBody.drop k).take 4 :=
    (arrayWith_slice slot tag (by omega)).trans (smallImage_part tag hk)
  have h0 : Memory.slice (arrayWith slot tag) slot.base 4 = imageBody.take 4 := part 0 (by decide)
  rw [readHeader, (List.cons.inj h12).1, h0, part 4 (by decide), part 8 (by decide)]
  decide +kernel

theorem arrayWith_whole (slot : Slot) (tag : Vector Byte 16) :
    Memory.slice (arrayWith slot tag) slot.base 146 = smallImage tag := by
  have := arrayWith_slice slot tag (k := 0) (n := 146) (by decide)
  rwa [Nat.add_zero, List.drop_zero, List.take_of_length_le (by rw [smallImage_length])] at this

theorem smallImage_directory (tag : Vector Byte 16) :
    ((smallImage tag).drop 16).take (6 * 5) = (imageBody.drop 16).take 30 := smallImage_part tag (by decide)

/-- The image passes the checks wherever its version does, whatever the part's tag engine computes. -/
theorem arrayWith_checks (slot : Slot) (secret : List Byte) (versionOk : BitVec 32 → Bool) (h : versionOk 1 = true) :
    checkImage secret (arrayWith slot (Config.computedTag secret imageBody)) slot versionOk = .ok smallTables := by
  have hf : (ImageHeader.mk formatWord 1 146 5).formatOk = true := by decide
  simp only [checkImage, arrayWith_header, arrayWith_whole, smallImage_directory, smallDirectory_read,
    smallImage_directoryOk, smallImage_reads, smallImage_authentic, hf, h, ↓reduceIte]

/-- The part with the small image in a slot, the slot pointer 0, and a counter. -/
def withImage (slot : Slot) (counter : BitVec 32) : State :=
  State.reset.withTables
    { State.reset.tables with
      array := arrayWith slot (Config.computedTag State.reset.tables.secret imageBody), counter := counter }

theorem withImage_array (slot : Slot) (counter : BitVec 32) :
    (withImage slot counter).tables.array =
      arrayWith slot (Config.computedTag (withImage slot counter).tables.secret imageBody) := rfl

theorem withImage_checkActive (counter : BitVec 32) (h : counter ≤ 1) :
    (withImage .zero counter).checkActive = .ok smallTables := by
  rw [State.checkActive, withImage_array]
  exact arrayWith_checks .zero _ _ (decide_eq_true h)

theorem withImage_verifyStaging (counter : BitVec 32) (h : counter < 1) :
    (withImage .one counter).verifyStaging = .ok smallTables := by
  rw [State.verifyStaging, withImage_array]
  exact arrayWith_checks .one _ _ (decide_eq_true h)

theorem withImage_activeTables (counter : BitVec 32) : (withImage .zero counter).activeTables = some smallTables := by
  rw [State.activeTables, withImage_array, show (withImage .zero counter).tables.slotPointer = .zero from rfl]
  simp only [arrayWith_header, show min 146 slotSize = 146 from rfl, arrayWith_whole, smallImage_directory,
    smallDirectory_read, smallImage_reads]

/-- StartUpLoading: a version above the counter, one equal to it, and a blank slot. -/
theorem witness_StartUpLoading_image :
    (withImage .zero 0).checkActive = .ok smallTables ∧ (withImage .zero 0).tables.counter < smallTables.version ∧
      (withImage .zero 1).checkActive = .ok smallTables ∧
      ¬ (withImage .zero 1).tables.counter < smallTables.version ∧ (withImage .zero 0).power = ⟨true, false⟩ ∧
      (withImage .zero 0).tables.startUp = .waiting ∧ (withImage .zero 0).tables.operation = none ∧
      smallTables.profiles.find? (·.base) = some { baseProfile with
        sleepOk := false, watchProfile := none, allowedClose := 0 } :=
  ⟨withImage_checkActive 0 (by decide), by decide, withImage_checkActive 1 (by decide), by decide, rfl, rfl, rfl, rfl⟩

/-! ### Witnesses, continued -/

/-- A current record with its check byte. -/
def checked (bytes : List Byte) : List Byte := bytes ++ [crc8 bytes]

def ringRecord (stamp : Stamp) : RingRecord := ⟨stamp, 240000, 9500, false⟩

def withRing (s : State) : State :=
  s.withCurrent { s.current with ring := [ringRecord 500, ringRecord 700], stream := .present }

/-- The sequencer stands at a step with its timer run out. -/
def atStep (x : SeqState) (id step : Nat) : State :=
  ready.withSeq { ready.seq with state := x, running := some id, step := some step, stepTimer := some 0 }

/-- The feedback of MNEG has read CLOSED for the debounce time. -/
def settling (s : State) : State :=
  s.withSeq { s.seq with feedback := { s.seq.feedback with mneg := ⟨true, false, some 0⟩ } }

/-- A current above the break limit. -/
def underCurrent (s : State) : State :=
  s.withCurrent { s.current with ring := [⟨500, 50001, 95000, false⟩], stream := .present }

/-- A defer timeout of 0. -/
def neverDefers (s : State) : State :=
  s.withTables
    { s.tables with working := some { tables .falling with sequence := { sequenceTable with deferTimeout := 0 } } }

/-- The default open sequence runs, and a contactor may be suspected of a weld. -/
def opening (suspect : Option Contactor) : State :=
  ready.withSeq
    { ready.seq with
      state := .opening, running := some 0, step := some 3, openCause := some .command
      weldSuspects := match suspect with
        | none => ⟨false, false, false, false⟩
        | some c => (⟨false, false, false, false⟩ : PerContactor Bool).set c true }

theorem witness_CurrentRecordsEnterTheRing :
    ready.current.portOn = true ∧ ready.moduleTable = some (modules .falling) ∧
      (5 : Byte) ≠ crc8 [0, 0, 0, 0, 0, 0, 0] ∧ (2 : Byte).toNat = 2 ∧
      ((0x1E : Byte) ++ (0x84 : Byte) ++ (0x80 : Byte) : BitVec 24).toInt = 2000000 ∧
      ((0x1E : Byte) ++ (0x84 : Byte) ++ (0x81 : Byte) : BitVec 24).toInt = 2000001 ∧
      ((0xE1 : Byte) ++ (0x7B : Byte) ++ (0x80 : Byte) : BitVec 24).toInt = -2000000 ∧
      ((0xE1 : Byte) ++ (0x7B : Byte) ++ (0x7F : Byte) : BitVec 24).toInt = -2000001 ∧
      ((0 : Byte) ++ (0 : Byte) ++ (0 : Byte) : BitVec 24).toInt = 0 ∧
      ((0xFF : Byte) ++ (0xFF : Byte) ++ (0xFF : Byte) : BitVec 24).toInt = -1 ∧
      (ready.withCurrent { ready.current with portOn := false }).current.portOn = false ∧ bare.tablesLoaded = false ∧
      bare.current.portOn = true ∧
      (ready.withCurrent { ready.current with streamTimer := some 0 }).current.streamTimer = some 0 := by
  decide +kernel

/-- A round that waits in ALIGNING with an entry after the newest record, and the sequencer states that act on a record
and on the loss of the stream. -/
theorem witness_CurrentRecordsEnterTheRing_acts :
    (inAssembly aligning).sched.assembly = some aligning ∧ aligning.phase = .aligning ∧
      ((withRing (inAssembly aligning)).realign.sched.assembly.map (·.entries.map (·.aligned))) =
        some [some ⟨240000, .ok, false⟩, none] ∧
      ((withRing (inAssembly aligning)).realign.sched.assembly.map (·.phase)) = some .aligning ∧
      (inAssembly aligning).current.stream = .absent ∧ (inAssembly aligning).realign.sched.assembly = none ∧
      ready.seq.state ≠ .closing ∧ ready.seq.state ≠ .deferred ∧
      (inSequencer (underCurrent ready) .deferred).highCurrent = true ∧
      (inSequencer (withRing ready) .deferred).highCurrent = true ∧ (inSequencer ready .deferred).highCurrent = false ∧
      ((atStep .closing 1 2).runningStep.map (·.step)) = some (.awaitPrecharge 243 500) ∧
      ((atStep .closing 1 1).runningStep.map (·.step)) = some (.awaitFb .mneg true 100) := by decide +kernel

theorem witness_AlignmentArithmetic :
    0 < 2 ∧ 0 ≤ (1000 - 1000 : Stamp).toInt ∧ 0 < (1200 - 1000 : Stamp).toInt ∧
      (1200 - 1000 : Stamp).toInt = (1000 - 1000 : Stamp).toInt + (1200 - 1000 : Stamp).toInt ∧
      (1200 - 1000 : Stamp).toInt ≤ (200 : Nat) ∧ ((199 : Nat) : Int) < (1200 - 1000 : Stamp).toInt := by decide +kernel

/-- An align wait limit of 0. -/
def noWait (s : State) : State :=
  s.withTables
    { s.tables with working := some { tables .falling with modules := { modules .falling with alignWaitLimit := 0 } } }

theorem witness_AlignmentCasesAndWait :
    (withRing ready).current.ring = ringRecord 500 :: [ringRecord 700] ∧
      ([ringRecord 500, ringRecord 700].all fun r => later r.stamp 499) = true ∧
      ([ringRecord 500, ringRecord 700].all fun r => !later r.stamp 700) = true ∧
      [ringRecord 500, ringRecord 700] = [] ++ ringRecord 500 :: ringRecord 700 :: [] ∧
      later (ringRecord 500).stamp 500 = false ∧ later (ringRecord 700).stamp 500 = true ∧
      ((withRing collecting).withCurrent { (withRing collecting).current with alignWait := some 0 }).current.alignWait =
        some 0 ∧
      collecting.sched.assembly = some aRound ∧ collecting.sched.held = [] ∧ collecting.sleep.power = .active ∧
      (withRing collecting).newestRecord = some (ringRecord 700) ∧ aRound.commitMark = false ∧
      ({ aRound with commitMark := true } : Round).commitMark = true ∧ ready.limitSet[1]? = some missingLimit ∧
      ready.limits.runStates[1]? = some ⟨.clear, 0, none⟩ := by decide +kernel

/-- R53, R71, R74 to R76: a round with an entry that waits goes on in ALIGNING with the align wait running; with an
align wait limit of 0 it is settled HELD at once, leaves assembly and gives a COMPLETE pack sum, which is the reference
but not in deep sleep. -/
theorem witness_AlignmentCasesAndWait_enters :
    (withRing ready).newestRecord = some (ringRecord 700) ∧
      ((withRing ready).settle aligning.entries).map (·.aligned) = [some ⟨240000, .ok, false⟩, none] ∧
      ((withRing ready).settle (aligning.entries.take 1)).map (·.aligned) = [some ⟨240000, .ok, false⟩] ∧
      (withRing ready).alignWaitLimit = 500 ∧ (noWait (withRing ready)).alignWaitLimit = 0 ∧
      (inPower ready .watchRound).newestRecord = none ∧
      ((inPower ready .watchRound).settle aligning.entries).map (·.aligned) =
        [some ⟨0, .noCurrent, false⟩, some ⟨0, .noCurrent, false⟩] ∧
      ((withRing ready).enterAligning aligning).current.alignWait = some 500 ∧
      ((noWait (withRing ready)).enterAligning aligning).store.records.map (·.packSum) = [some ⟨251004, true⟩] ∧
      ((noWait (withRing ready)).enterAligning aligning).current.reference = some ⟨251004, 600, 0⟩ ∧
      ((noWait (inPower (withRing ready) .asleep)).enterAligning aligning).current.reference = none ∧
      (withRing ready).packSumOf .both (aligning.entries.take 1) = some ⟨125502, false⟩ ∧
      (withRing ready).packSumOf .temps aligning.entries = none ∧
      (sampled 1 500).status = .ok ∧ (sampled 1 500).raw = some [41999, 42001, 41502] ∧
      ready.moduleAt 1 = some (moduleEntry 2) ∧ (waitingEntry 1).status ≠ .ok ∧ (sampled 1 500).aligned = none := by
  decide +kernel

/-- R46, R160: nothing held, an entry held, and a round of a watch pass. -/
theorem witness_AlignmentCasesAndWait_leaves :
    ready.sched.held = [] ∧ ready.sleep.power ≠ .watchRound ∧
      (ready.withSched { ready.sched with held := [⟨1, 205, 502⟩] }).sched.held = ⟨1, 205, 502⟩ :: [] ∧
      (inPower ready .watchRound).sleep.power = .watchRound ∧ aligning.record.isPartial = false ∧
      aRound.record.isPartial = true := by decide +kernel

/-- A pack reference of a given age in microticks. -/
def withReference (s : State) (elapsed : Nat) : State :=
  s.withCurrent { s.current with reference := some ⟨972345, 100, elapsed⟩ }

theorem witness_PrechargeTest :
    ready.current.reference = none ∧ 1000 ≤ 1000000 / 1000 ∧ 999999 / 1000 < 1000 ∧
      (withReference ready 999999).current.stream = .absent ∧
      (withReference (withRing ready) 999999).current.ring.getLast? = some (ringRecord 700) ∧
      (withReference (withRing ready) 999999).current.stream = .present ∧
      (withReference (withRing ready) 999999).precharge 243 = .reached ∧
      (withReference (withRing ready) 999999).precharge 255 = .notReached ∧
      (withReference (withRing ready) 1000000).precharge 243 = .noReference := by decide +kernel

def flagLimit : LimitEntry := { cellLimit with cls := .moduleFlag, flagMask := 0x85 }

/-- A limit that trips at once and has every action. -/
def eagerLimit : LimitEntry := { missingLimit with enter := true, wake := true }

/-- Two such limits, the second entering another profile. -/
def eager : State :=
  ready.withTables
    { ready.tables with
      working := some { tables .falling with
        limitSets := [[eagerLimit, { eagerLimit with enterTarget := 0, wake := false }]] } }

def missed : List RoundEntry := [{ waitingEntry 1 with status := .missing }]

theorem witness_EvaluationCountsAndReleases :
    cellLimit.cls ≠ .moduleFlag ∧ cellLimit.cls ≠ .moduleMissing ∧ cellLimit.below = false ∧
      ({ cellLimit with below := true } : LimitEntry).below = true ∧
      cellLimit.mostOffending [⟨1, 1, 42000⟩, ⟨1, 2, 42001⟩, ⟨2, 1, 42001⟩] = some ⟨1, 2, 42001⟩ ∧
      1 ≤ cellLimit.persistence ∧ cellLimit.offends ⟨1, 1, 42001⟩ = true ∧ cellLimit.offends ⟨1, 1, 42000⟩ = false ∧
      cellLimit.safe ⟨1, 1, 41699⟩ = true ∧ cellLimit.safe ⟨1, 1, 41700⟩ = false ∧ cellLimit.latch = false ∧
      missingLimit.latch = true ∧ missingLimit.offends ⟨1, 0, 1⟩ = true ∧ missingLimit.offends ⟨1, 0, 0⟩ = false ∧
      flagLimit.cls = .moduleFlag ∧ (⟨1, 0, 0x85⟩ : Offence).value = (0x85 : Byte).toNat ∧
      flagLimit.offends ⟨1, 0, 0x85⟩ = true ∧ flagLimit.offends ⟨1, 0, 0x7A⟩ = false ∧
      flagLimit.mostOffending ([⟨1, 0, 0x7A⟩] ++ ⟨2, 0, 0x8F⟩ :: []) = some ⟨2, 0, 0x85⟩ := by decide +kernel

/-- R81, R82: the channels of an OK entry by class, compensated voltages in place of raw ones, raw ones where there are
none, no current under NO_CURRENT, and an entry that is not OK. -/
theorem witness_EvaluationCountsAndReleases_channels :
    (sampled 1 500).status = .ok ∧ (waitingEntry 1).status ≠ .ok ∧ ready.moduleAt 1 = some (moduleEntry 2) ∧
      ready.entryChannels { cellLimit with firstChannel := 2 } (sampled 1 500) = [⟨1, 2, 42001⟩, ⟨1, 4, 41502⟩] ∧
      ready.entryChannels { cellLimit with cls := .cellComp } (sampled 1 500) =
        [⟨1, 1, 41999⟩, ⟨1, 2, 42001⟩, ⟨1, 4, 41502⟩] ∧
      ready.entryChannels { cellLimit with cls := .cellComp }
        { sampled 1 500 with compensated := some [1, 2, 3] } = [⟨1, 1, 1⟩, ⟨1, 2, 2⟩, ⟨1, 4, 3⟩] ∧
      ready.entryChannels { cellLimit with cls := .temp, lastChannel := 1 } (sampled 1 500) = [⟨1, 1, 250⟩] ∧
      ready.entryChannels { cellLimit with cls := .current }
        { sampled 1 500 with aligned := some ⟨0, .noCurrent, false⟩ } = [] ∧
      ready.entryChannels { cellLimit with cls := .current }
        { sampled 1 500 with aligned := some ⟨-3, .gap, false⟩ } = [⟨1, 0, -3⟩] ∧
      ready.entryChannels flagLimit (sampled 1 500) = [⟨1, 0, 5⟩] ∧
      ready.entryChannels missingLimit { waitingEntry 2 with status := .notPresent } = [⟨2, 0, 3⟩] ∧
      (waitingEntry 1).raw = none ∧ (waitingEntry 1).compensated = none := by decide +kernel

/-- R88 to R91: both entries trip in one round; the request of the lower index is handed out, the other fails. -/
theorem witness_EvaluationCountsAndReleases_trips :
    eager.limits.runStates.length = eager.limitSet.length ∧ eager.tripsIn missed 0 eagerLimit ∧
      eager.tripsIn missed 1 { eagerLimit with enterTarget := 0, wake := false } ∧ eagerLimit.enter = true ∧
      eagerLimit.fastOpen = true ∧ eagerLimit.wake = true ∧
      (eager.evaluate missed).limits.enterRequests = [⟨3, 0⟩] ∧
      (eager.evaluate missed).limits.fastOpenRequests = [0, 1] ∧
      (eager.evaluate missed).north.sticky.entryFailed = true ∧
      ((eager.evaluate missed).evaluate missed).limits.fastOpenRequests = [0, 1] := by
  refine ⟨by decide +kernel, ?_, ?_, by decide +kernel, by decide +kernel, by decide +kernel, by decide +kernel,
    by decide +kernel, by decide +kernel, by decide +kernel⟩ <;>
    exact ⟨⟨.clear, 0, none⟩, by decide +kernel, by decide +kernel, by decide +kernel, by decide +kernel⟩

theorem witness_LimitCommands :
    (withCommand ready [0x20]).takeable .readLimits = some ⟨5, [0x20]⟩ ∧ formRight .readLimits [] = true ∧
      (withCommand bare [0x20]).takeable .readLimits = some ⟨5, [0x20]⟩ ∧ bare.tablesLoaded = false ∧
      (withCommand ready [0x21, 2]).takeable .clearLimit = some ⟨5, [0x21, 2]⟩ ∧ argEntry [2] = some 2 ∧
      ready.limitSet.length ≤ 2 ∧ argEntry [0] = some 0 ∧ argEntry [1] = some 1 ∧ ready.limitSet[0]? = some cellLimit ∧
      ready.limitSet[1]? = some missingLimit ∧ ready.limits.runStates[1]? = some ⟨.clear, 0, none⟩ ∧
      (withCommand ready [0x21, 0xFF]).takeable .clearLimitAll = some ⟨5, [0x21, 0xFF]⟩ ∧
      ready.limits.runStates.length = ready.limitSet.length ∧ ready.activeProfile = some baseProfile ∧
      ready.alertHeld = false ∧
      (eager.evaluate missed).alertHeld = true ∧ (eager.evaluate missed).closeBlocked = true ∧
      (eager.evaluate missed).tripHeld = true := by decide +kernel

/-- CLOSED on sequence 1 with MNEG and MPOS in HOLD and their feedback CLOSED. -/
def closedState : State :=
  ready.withSeq
    { ready.seq with
      state := .closed, running := some 1
      coils := { ready.seq.coils with
        mneg := ⟨.hold, none, true, none, false⟩, mpos := ⟨.pullIn, some 0, false, some 0, false⟩ }
      feedback := { ready.seq.feedback with mneg := ⟨false, true, some 0⟩, mpos := ⟨true, true, none⟩ } }

theorem witness_CoilDriverEvents :
    (closedState.seq.coils.get .mpos).pullInTimer = some 0 ∧ (closedState.seq.coils.get .mneg).pullInTimer ≠ some 0 ∧
      (closedState.seq.coils.get .mpos).sense = false ∧ (closedState.seq.coils.get .mneg).sense = true ∧
      (closedState.seq.coils.get .mpos).noCurrent = some 0 := by decide +kernel

/-- OPENED with the debounce run out; CLOSING at the AWAIT_FB step that waits for the reading, and at a WAIT step. -/
theorem witness_FeedbackIsDebounced :
    (closedState.seq.feedback.get .mpos).raw = !false ∧ (closedState.seq.feedback.get .mpos).raw = true ∧
      closedState.debounceTime = 4000 ∧ closedState.tables.working ≠ none ∧ bare.debounceTime = 15000 ∧
      bare.tables.working = none ∧
      (closedState.seq.feedback.get .mneg).interval = some 0 ∧ closedState.seq.state = .closed ∧
      ((ready.withSeq { closedState.seq with state := .opened }).seq.feedback.get .mneg).interval = some 0 ∧
      (settling (atStep .closing 1 1)).seq.state = .closing ∧
      ((settling (atStep .closing 1 1)).seq.feedback.get .mneg).interval = some 0 ∧
      ((settling (atStep .closing 1 1)).runningStep.map (·.step)) =
        some (.awaitFb .mneg ((settling (atStep .closing 1 1)).seq.feedback.get .mneg).raw 100) ∧
      ((settling (atStep .closing 2 1)).runningStep.map (·.step)) = some (.wait 20) ∧
      (settling (atStep .opening 0 1)).seq.state = .opening ∧
      ((settling (atStep .opening 0 1)).runningStep.map (·.step)) = some (.awaitFb .mpos false 100) := by decide +kernel

theorem witness_CloseChecks :
    (withCommand (locked .locked) [0x30, 1]).takeable .close = some ⟨5, [0x30, 1]⟩ ∧ argBelow8 [1] = some 1 ∧
      argBelow8 [7] = some 7 ∧ ready.sequence 7 = none ∧ ready.sequence 1 ≠ none ∧
      (locked .locked).closeBlocked = false ∧
      exec .close (withCommand (locked .locked) [0x30, 0]) =
        (withCommand (locked .locked) [0x30, 0]).answered ⟨5, [0x30, 0]⟩ (.refused .notAllowed) :=
  ⟨by decide +kernel, by decide +kernel, by decide +kernel, by decide +kernel, by decide +kernel, by decide +kernel, rfl⟩

theorem witness_CloseSequenceSteps :
    ready.seq.coils.mneg.state = .off ∧ closedState.seq.coils.mneg.state ≠ .off ∧
      ready.tables.working = some (tables .falling) ∧ (ready.seq.coils.get .mneg).state = .off ∧
      (closedState.seq.coils.get .mpos).state ≠ .off ∧ (closedState.seq.coils.get .pre).state = .off ∧
      Contactor.chg ≠ .mneg ∧ SeqClass.closeCharge ≠ .closeDrive := by decide +kernel

theorem witness_StepTimerExpires :
    ((atStep .closing 2 1).runningStep.map (·.step)) = some (.wait 20) ∧
      ((atStep .closing 1 1).runningStep.map (·.step)) = some (.awaitFb .mneg true 100) ∧
      ((atStep .closing 1 2).runningStep.map (·.step)) = some (.awaitPrecharge 243 500) ∧
      ((atStep .opening 0 1).runningStep.map (·.step)) = some (.awaitFb .mpos false 100) ∧
      (atStep .closing 2 1).seq.stepTimer = some 0 ∧ (atStep .closing 2 1).seq.state = .closing ∧
      (atStep .opening 0 1).seq.state = .opening := by decide +kernel

theorem witness_OrderlyOpenDefersUnderCurrent :
    closedState.seq.state = .closed ∧ closedState.highCurrent = false ∧ (underCurrent closedState).highCurrent = true ∧
      (underCurrent closedState).deferTimeout ≠ 0 ∧ (underCurrent (atStep .closing 1 1)).highCurrent = true ∧
      (underCurrent (atStep .closing 1 1)).seq.state = .closing ∧
      (neverDefers (underCurrent closedState)).highCurrent = true ∧
      (neverDefers (underCurrent closedState)).deferTimeout = 0 ∧ closedState.seq.running = some 1 ∧
      closedState.endStepIndex = some 4 ∧ ready.sequence 0 ≠ none ∧
      (ready.withSeq { ready.seq with state := .deferred, deferTimer := some 0 }).seq.deferTimer = some 0 := by
  decide +kernel

/-- R115: the end of the default open sequence with a cause and nothing suspected, and with a weld suspected. -/
theorem witness_OrderlyOpenDefersUnderCurrent_ends :
    (opening none).seq.openCause = some .command ∧
      (opening none).seq.weldSuspects = ⟨false, false, false, false⟩ ∧
      (opening (some .mpos)).seq.weldSuspects ≠ ⟨false, false, false, false⟩ ∧
      (runOpening [.endStep] 3 (opening none)).seq.state = .opened ∧
      ((runOpening [.endStep] 3 (opening none)).events.records.map fun r => (r.kind, r.cause, r.step)) =
        [(.openDone, .command, some 3)] ∧
      (runOpening [.endStep] 3 (opening (some .mpos))).seq.state = .tripped ∧
      (runOpening [.endStep] 3 (opening (some .mpos))).events.records = [] := by decide +kernel

theorem witness_OpenFastOpenAndClearTrip :
    (withCommand closedState [0x31]).takeable .openCmd = some ⟨5, [0x31]⟩ ∧ closedState.seq.state = .closed ∧
      (withCommand ready [0x31]).takeable .openCmd = some ⟨5, [0x31]⟩ ∧ ready.seq.state ≠ .closing ∧
      ready.seq.state ≠ .closed ∧ (withCommand ready [0x32]).takeable .fastOpen = some ⟨5, [0x32]⟩ ∧
      (ready.withLimits { ready.limits with fastOpenRequests := [0, 1] }).limits.fastOpenRequests = 0 :: [1] ∧
      (withCommand (inSequencer ready .tripped) [0x33]).takeable .clearTrip = some ⟨5, [0x33]⟩ ∧
      (inSequencer ready .tripped).tripHeld = false := by decide +kernel

def anEvent (k : EventKind) : EventRecord := ⟨7, 0, none, k, .command, none, some 1, none⟩

theorem witness_EventQueueKeepsFastOpens :
    (List.replicate 31 (anEvent .openCmd)).length < 32 ∧
      32 ≤ (anEvent .fastOpen :: anEvent .openCmd :: List.replicate 30 (anEvent .openDone)).length ∧
      (anEvent .openCmd).kind ≠ .fastOpen ∧ 32 ≤ (List.replicate 32 (anEvent .fastOpen)).length ∧
      (withCommand ready [0x38, 7]).takeable .readEvents = some ⟨5, [0x38, 7]⟩ ∧ argBelow8 [7] = some 7 ∧
      ready.events.records = [] ∧ (ready.withEvents ⟨[anEvent .openCmd], false⟩).events.records ≠ [] ∧
      ready.current.stream = .absent ∧ (withRing ready).current.stream = .present ∧
      (withRing ready).current.ring.getLast? = some (ringRecord 700) ∧ ready.alertLine = false ∧
      (ready.withEvents ⟨[anEvent .openCmd], false⟩).alertLine = true ∧
      ((ready.withEvents ⟨[anEvent .openCmd], false⟩).withPower ⟨true, true⟩).alertLine = false := by
  decide +kernel

/-- The profile chain [6, 3, 0] less its head: profile 3 entered above the base. -/
def entered : State :=
  ready.withProfiles
    ⟨[⟨3, .command, none⟩, ⟨0, .start, some ⟨[⟨.clear, 0, none⟩, ⟨.clear, 0, none⟩], [0, 0, 0]⟩⟩]⟩

/-- A chain of four. -/
def deep : State :=
  ready.withProfiles ⟨⟨1, .command, none⟩ :: List.replicate 3 ⟨2, .command, some ⟨[], []⟩⟩⟩

theorem witness_ProfileChecks :
    (withCommand ready [0x41, 3]).takeable .enterProfile = some ⟨5, [0x41, 3]⟩ ∧
      (withCommand ready [0x40, 3]).takeable .switchProfile = some ⟨5, [0x40, 3]⟩ ∧
      (withCommand ready [0x42]).takeable .returnProfile = some ⟨5, [0x42]⟩ ∧ formRight .enterProfile [3] = true ∧
      bare.tablesLoaded = false ∧ ready.profileRecord 7 = none ∧ ready.profileRecord 6 = some watchProfile ∧
      watchProfile.watch = true ∧ ready.profileRecord 3 = some driveProfile ∧ driveProfile.watch = false ∧
      ready.busy 3 = false ∧ entered.busy 3 = true ∧ deep.busy 3 = false ∧ 4 ≤ deep.depth ∧ ready.depth ≤ 1 ∧
      (ready.withLimits { ready.limits with enterRequests := [⟨3, 0⟩, ⟨6, 1⟩] }).limits.enterRequests =
        ⟨3, 0⟩ :: [⟨6, 1⟩] := by decide +kernel

/-- LOCKED with an estimate. -/
def estimated (lEst : Nat) : State := ready.withLock ⟨.locked, some 1020070, lEst, 0, 0⟩

theorem witness_ProfileCommits :
    ready.profileCheck 3 true false = none ∧ ready.profileCheck 3 true true = none ∧
      ready.profiles.chain = ⟨0, .start, none⟩ :: [] ∧ entered.profileGate = none ∧
      (withCommand entered [0x42]).takeable .returnProfile = some ⟨5, [0x42]⟩ ∧
      (ready.enterCommit 3 (.limit 1)).profiles.chain = ⟨3, .limit 1, none⟩ ::
        ⟨0, .start, some ⟨[⟨.clear, 0, none⟩, ⟨.clear, 0, none⟩], [0, 0, 0]⟩⟩ :: [] ∧
      entered.profiles.chain = ⟨3, .command, none⟩ ::
        ⟨0, .start, some ⟨[⟨.clear, 0, none⟩, ⟨.clear, 0, none⟩], [0, 0, 0]⟩⟩ :: [] := by decide +kernel

/-- R37, R148, R149: other parameters with L_est at the edge of the band and beyond it, the acquire window closed and not
yet, and a CLOSED sequence that the active profile allows or not. -/
theorem witness_ProfileCommits_lock :
    (atCount (acquiring 0) 1010269).lockCommit ⟨10000, 200, 3⟩ = (atCount (acquiring 0) 1010269).unlocked ∧
      (atCount (acquiring 0) 1010268).lockCommit ⟨10000, 200, 3⟩ = atCount (acquiring 0) 1010268 ∧
      closedState.postCommitOpen = closedState ∧ (locked .locked).activeProfile = some baseProfile ∧ (⟨10000, 200, 3⟩ : LockParams) ≠ ⟨10000, 200, 2⟩ ∧
      ((estimated 10200).lock.lEst - 10000 : Int).natAbs ≤ baseProfile.tol ∧
      ¬ ((estimated 10201).lock.lEst - 10000 : Int).natAbs ≤ baseProfile.tol ∧
      ((atCount (estimated 10201) 1030339).lockCommit ⟨10000, 200, 3⟩).lock.state = .unlocked ∧
      ((atCount (estimated 10201) 1030338).lockCommit ⟨10000, 200, 3⟩).lock.state = .acquiring ∧
      ((atCount (estimated 10200) 1030339).lockCommit ⟨10000, 200, 3⟩).lock.state = .locked ∧
      (closedState.withProfiles ⟨[⟨6, .sleep, none⟩]⟩).postCommitOpen.seq.state = .opening ∧
      closedState.seq.running = some 1 ∧ watchProfile.allowedClose.getLsbD 1 = false :=
  ⟨rfl, rfl, rfl, by decide +kernel⟩

theorem witness_SleepChecks :
    (withCommand ready [0x48]).takeable .sleep = some ⟨5, [0x48]⟩ ∧ argNone [] = some () ∧
      bare.activeProfile = none ∧ ready.activeProfile = some baseProfile ∧ baseProfile.sleepOk = true ∧
      ready.depth < 4 := by decide +kernel

theorem witness_SleepEntry :
    (inPower ready .sleepPending).power = ⟨true, false⟩ ∧ (inPower ready .sleepPending).sleep.entryStarted = false ∧
      ready.sched.assembly = none ∧ ready.chain.transaction = none ∧ ready.north.restartTaken = false ∧
      ready.enumerating = false ∧ ready.chain.keptReplies = [] ∧ ready.north.claims = [] ∧
      ready.north.tx.length + [entry31, entry31, entry31, entry31].length ≤ 8 ∧
      (withTx 8).north.tx.length + [entry31].length = 9 ∧ (withTx 4).north.tx.length + 4 = 8 ∧
      (ready.withSleep { ready.sleep with power := .sleepPending, entryStarted := true }).sleep.chainSleep = .asleep ∧
      ready.chain.sleepClaim = none ∧ ready.north.holding = none ∧ ready.north.commands = [] ∧
      ready.north.tx = [] ∧ ready.north.receiver = .idle ∧ ready.tables.engine = .idle ∧
      baseProfile.watchProfile = some watchProfile.id ∧ ready.profileRecord watchProfile.id = some watchProfile ∧
      ready.seq.state = .opened ∧ (inSequencer ready .tripped).seq.state = .tripped := by decide +kernel

/-- In the watch profile, asleep. -/
def sleeping : State :=
  (inPower ready .asleep).withProfiles
    ⟨[⟨6, .sleep, none⟩, ⟨0, .start, some ⟨[⟨.clear, 0, none⟩, ⟨.clear, 0, none⟩], [0, 0, 0]⟩⟩]⟩

def watching (counters : List Nat) : State :=
  ((inPower sleeping .watchRound).withSleep
    { sleeping.sleep with power := .watchRound, chainWakeTimer := some 0 }).withSched
    { sleeping.sched with counters := counters }

def passMade (s : State) : State := s.withSleep { s.sleep with passMade := true }
def chainAwake (s : State) : State := s.withSleep { s.sleep with chainSleep := .awake }

theorem witness_WatchCycle :
    (sleeping.withSleep { sleeping.sleep with watchTimer := some 0 }).sleep.watchTimer = some 0 ∧
      sleeping.linkFree = true ∧ (watching [0]).sleep.passMade = false ∧
      (passMade (watching [0])).sleep.passMade = true ∧
      (inPower (watching [0]) .waking).sleep.chainWakeTimer = some 0 ∧
      (watching [0]).activeSchedule = [⟨0, .cells, [1, 2], 1⟩] ∧
      dueEntries (fun _ => (watching [0]).now) 0 (watching [0]).activeSchedule (watching [0]).sched.counters [] =
        ⟨0, 0, 0⟩ :: [] ∧
      dueEntries (fun _ => (watching [1]).now) 0 (watching [1]).activeSchedule (watching [1]).sched.counters [] = [] ∧
      (watching [1]).reportEvery = 0 ∧ (watching [1]).sleep.wakePending = false ∧ (watching [1]).linkFree = true ∧
      (watching [1]).activeProfile = some watchProfile := by
  decide +kernel

/-- R159, R160: a round of the pass that asks for a wake and one that does not, with an entry held and with none; the
completion of a pass with the link free and taken; CHAIN_SLEEP and CHAIN_WAKE sent with and without a wake pending. -/
theorem witness_WatchCycle_pass :
    ((passMade (watching [1])).wakeCause .limit).sleep.wakePending = true ∧
      (passMade (watching [1])).sleep.wakePending = false ∧ (passMade (watching [1])).sched.held = [] ∧
      ((watching [1]).withSched { (watching [1]).sched with held := [⟨0, 0, 0⟩] }).sched.held = ⟨0, 0, 0⟩ :: [] ∧
      (withTransaction (watching [1]) (.trigger .cells [1]) .sending).linkFree = false ∧
      (withTransaction (watching [1]) .chainSleep .sending).sleep.power = .watchRound ∧
      (withTransaction (watching [1]) .chainSleep .sending).enumerating = false ∧
      (withTransaction (watching [1]) .chainSleep .sending).chain.sleepClaim = none ∧
      ((watching [1]).withSleep { (watching [1]).sleep with wakePending := true }).sleep.wakePending = true ∧
      (withTransaction (watching [1]) (.chainWake false) .sending).chain.transaction =
        some ⟨.chainWake false, .sending⟩ := by decide +kernel

def detecting (mode : WakeInMode) (level : Bool) : State :=
  (sleeping.withTables { sleeping.tables with working := some (tables mode) }).withSleep
    { sleeping.sleep with detectorArmed := true, wakeInHigh := level, holdInterval := some 0 }

theorem witness_WakeCausesAndWaking :
    sleeping.sleep.power = .asleep ∧ sleeping.sleep.chainSleep = .asleep ∧ sleeping.linkFree = true ∧
      sleeping.deepSleep = true ∧ (watching [1]).deepSleep = true ∧
      (detecting .high true).sleep.detectorArmed = true ∧ (detecting .high true).sleep.holdInterval = some 0 ∧
      sleeping.sleep.detectorArmed = false ∧
      ([(WakeInMode.high, true), (.high, false), (.low, true), (.low, false), (.rising, true), (.rising, false),
        (.falling, true), (.falling, false)].all fun x =>
          (detecting x.1 !x.2).moduleTable == some (modules x.1) && (detecting x.1 !x.2).sleep.wakeInHigh == !x.2 &&
            (detecting x.1 !x.2).linkFree) = true ∧
      (inPower sleeping .waking).sleep.chainWakeTimer = none ∧ (inPower sleeping .waking).chain.transaction = none ∧
      (inPower sleeping .waking).profiles.chain = ⟨6, .sleep, none⟩ ::
        ⟨0, .start, some ⟨[⟨.clear, 0, none⟩, ⟨.clear, 0, none⟩], [0, 0, 0]⟩⟩ :: [] := by decide +kernel

/-- R163: a cause in each power state; before the pass with the chain asleep and awake, and after it. -/
theorem witness_WakeCausesAndWaking_causes :
    [PowerState.active, .sleepPending, .asleep, .waking, .watchRound].map (fun p =>
        ((inPower sleeping p).wakeCause .tamper).sleep.power) =
      [.active, .sleepPending, .waking, .waking, .watchRound] ∧
      (inPower sleeping .watchRound).sleep.passMade = false ∧
      (inPower sleeping .watchRound).sleep.chainSleep = .asleep ∧
      ((inPower sleeping .watchRound).wakeCause .tamper).sleep.wakePending = true ∧
      (chainAwake (inPower sleeping .watchRound)).sleep.chainSleep = .awake ∧
      ((chainAwake (inPower sleeping .watchRound)).wakeCause .tamper).sleep.power = .waking ∧
      ((passMade (chainAwake (inPower sleeping .watchRound))).wakeCause .report).sleep.wakePending = true := by
  decide +kernel

theorem witness_UpdateCommands :
    (withCommand ready [0x50, 27]).takeable .updErase = some ⟨5, [0x50, 27]⟩ ∧ argBlock [27] = some 27 ∧
      argBlock [28] = some 28 ∧ ready.tables.engine = .idle ∧ (inEngine ready .verified).tables.engine = .verified ∧
      (inEngine ready (.locked .fails)).tables.engine = .locked .fails ∧ formRight .updErase [27] = true ∧
      (withCommand ready [0x51, 0xFF, 0xDF, 1]).takeable .updWrite = some ⟨5, [0x51, 0xFF, 0xDF, 1]⟩ ∧
      argUpdWrite [0xFF, 0xDF, 1] = some ⟨57343, [1]⟩ ∧ argUpdWrite [0, 0xE0, 1] = some ⟨57344, [1]⟩ ∧
      ready.tables.marks.getD 895 true = true ∧
      ((ready.withTables { ready.tables with marks := ready.tables.marks.set 895 false }).tables.marks.getD 895 true =
        false) ∧
      (withCommand ready [0x52]).takeable .updVerify = some ⟨5, [0x52]⟩ := by decide +kernel

/-- The engine at work, and the engine IDLE after an RST_N or RESTART with the operation still going. -/
theorem witness_ArrayOperationsEnd :
    ArraySafe (withOperation (inEngine ready .erasing) (.erase (28 + 27) false)) ∧
      ready.stagingSlot.firstBlock = 28 ∧ ready.tables.marks.length = 896 ∧
      ArraySafe (withOperation (inEngine ready .programming) (.program 114624 (List.replicate 64 1))) ∧
      ArraySafe (withOperation ready (.erase (28 + 27) false)) ∧
      ArraySafe (withOperation ready (.program 114624 (List.replicate 64 1))) ∧ ready.tables.engine = .idle := by
  refine ⟨⟨rfl, ?_, ?_⟩, by decide +kernel, by decide +kernel, ⟨rfl, ?_, ?_⟩, arraySafe_withOperation _ (by decide +kernel),
    arraySafe_withOperation _ (by decide +kernel), rfl⟩ <;> intro x hx <;> cases hx <;> decide +kernel

theorem witness_VerificationEnds :
    ((withImage .one 0).withTables { (withImage .one 0).tables with engine := .verifying }).verifyStaging =
        .ok smallTables ∧
      (withImage .one 0).power = ⟨true, false⟩ ∧ (inEngine ready .verifying).verifyStaging = .error .format := by
  refine ⟨withImage_verifyStaging 0 (by decide), rfl, rfl⟩

/-- The first 16 bytes of slot 0, and its first `n`. -/
def slotStart (mem : List Host.Cell) (n : Nat) : List Byte := (List.range n).map fun i => Memory.read mem (0 + i)

/-- A sound header over a directory of one entry that is blank, and a sound image but for a hop delay of 255. -/
def badDirectory : List Host.Cell :=
  Memory.writeBytes [] 0 (le 4 formatWord ++ le 4 1 ++ le 4 38 ++ [0, 0, 0, 0])
def badField : List Host.Cell := Memory.writeBytes [] 0 (imageBody.set 47 0xFF)

/-- R174: an image that fails FORMAT, one that fails DIRECTORY and one that fails FIELDS. -/
theorem witness_VerificationEnds_fails :
    imageField (slotStart [] 16) 0 4 ≠ 0x7C20D1A5 ∧
      (imageField (slotStart badDirectory 16) 0 4 = 0x7C20D1A5 ∧ imageField (slotStart badDirectory 16) 8 4 = 38 ∧
        imageField (slotStart badDirectory 16) 12 1 + 1 = 1 ∧
        ¬ DirectorySound 1 (slotStart badDirectory 38) (imageDirectory (slotStart badDirectory 38) 1)) ∧
      imageField (slotStart badField 16) 0 4 = 0x7C20D1A5 ∧ imageField (slotStart badField 16) 8 4 = 146 ∧
      imageField (slotStart badField 16) 12 1 + 1 = 5 ∧ imageField (slotStart badField 16) 4 4 = 1 ∧
      DirectorySound 5 (slotStart badField 146) (imageDirectory (slotStart badField 146) 5) ∧
      readTables 1 (slotStart badField 146) (imageDirectory (slotStart badField 146) 5) = none :=
  ⟨by decide +kernel,
    ⟨by decide +kernel, by decide +kernel, by decide +kernel, fun h => absurd h.2.2.2.2.1 (by decide +kernel)⟩,
    by decide +kernel, by decide +kernel, by decide +kernel, by decide +kernel,
    (directoryOk_iff 5 _ _ (by decide +kernel)).mp (by decide +kernel), by decide +kernel⟩

/-- R169, R174: an image that passes FORMAT, DIRECTORY and FIELDS, with the tag the tag engine computes and with
another. -/
theorem witness_VerificationEnds_image (secret : List Byte) (tag : Vector Byte 16) :
    let image := slotStart (arrayWith .zero tag) 146
    slotStart (arrayWith .zero tag) 16 = imageBody.take 16 ∧ imageField (imageBody.take 16) 0 4 = 0x7C20D1A5 ∧
      imageField (imageBody.take 16) 8 4 = 146 ∧ imageField (imageBody.take 16) 12 1 + 1 = 5 ∧
      imageField (imageBody.take 16) 4 4 = 1 ∧ DirectorySound 5 image (imageDirectory image 5) ∧
      readTables 1 image (imageDirectory image 5) = some smallTables ∧
      (image.drop 130 = (Config.computedTag secret (image.take 130)).toList ↔
        tag = Config.computedTag secret imageBody) ∧
      (tag = (Config.computedTag secret imageBody).map (· + 1) → tag ≠ Config.computedTag secret imageBody) := by
  have hw : slotStart (arrayWith .zero tag) 146 = smallImage tag :=
    (slice_eq_map _ _ _).symm.trans (arrayWith_whole .zero tag)
  have hh : slotStart (arrayWith .zero tag) 16 = imageBody.take 16 :=
    ((slice_eq_map _ _ _).symm.trans (arrayWith_slice .zero tag (k := 0) (n := 16) (by decide))).trans
      (smallImage_part tag (by decide))
  have hd : imageDirectory (smallImage tag) 5 = smallDirectory := by
    have h := parseDirectory (smallImage tag) 5 (by rw [smallImage_length]; decide)
    rw [smallImage_directory, smallDirectory_read] at h
    exact (Option.some.inj h).symm
  intro image
  simp only [image, hw, hh, hd]
  refine ⟨trivial, by decide +kernel, by decide +kernel, by decide +kernel, by decide +kernel,
    (directoryOk_iff 5 _ _ (by rw [smallImage_length]; decide)).mp (smallImage_directoryOk tag), smallImage_reads tag, ?_,
    ?_⟩
  · rw [(smallImage_tagged tag).1, (smallImage_tagged tag).2, Vector.toList_inj]
  · rintro rfl h
    have h0 := congrArg (fun v => v[0]) h
    simp at h0

theorem witness_Activation :
    (withCommand (inEngine ready .verified) [0x53]).takeable .updActivate = some ⟨5, [0x53]⟩ ∧ argNone [] = some () ∧
      (inEngine ready .verified).activateForbidden = false ∧
      (withOperation (inEngine ready .activating) (.pointerWrite .one)).tables.operation =
        some ⟨.pointerWrite .one, 0⟩ ∧
      (withOperation ready (.pointerWrite .one)).tables.engine ≠ .activating ∧
      (withOperation ready (.pointerWrite .one)).tables.operation = some ⟨.pointerWrite .one, 0⟩ ∧
      (inEngine latched .activating).tables.tamperLatch = true ∧
      (withOperation ready (.counterWrite 8 false)).tables.operation = some ⟨.counterWrite 8 false, 0⟩ := by
  decide +kernel

theorem witness_Activation_reload :
    let s := inEngine (withImage .zero 1) .activating
    s.power = ⟨true, false⟩ ∧ s.tables.engine = .activating ∧ s.tables.operation = none ∧
      s.chain.transaction = none ∧ s.activeTables = some smallTables ∧
      smallTables.profiles.find? (·.base) = smallTables.profiles.head? :=
  ⟨rfl, rfl, rfl, rfl, withImage_activeTables 1, rfl⟩

def tampered (e : EngineState) (raw : Bool) : State :=
  ready.withTables { ready.tables with engine := e, tamper := ⟨raw, !raw, some 0⟩ }

/-- LOCKED(TAMPER), at a block of the tamper erase. -/
def erasingFor (block : Nat) : State :=
  (inEngine ready (.locked .tamper)).withTables
    { ready.tables with engine := .locked .tamper, tamperErase := some block }

theorem witness_TamperLocksAndErases :
    (tampered .idle true).tables.tamper.raw = !false ∧ (tampered .idle true).tables.tamper.raw = true ∧
      (tampered .idle true).tables.tamper.interval = some 0 ∧ ready.tables.tamper.interval ≠ some 0 ∧
      ((tampered .idle true).withPower ⟨true, true⟩).power ≠ ⟨true, false⟩ ∧
      (tampered .idle true).sleep.power = .active ∧ (tampered .idle true).tables.startUp = .ended ∧
      (tampered .idle false).tables.tamper.raw = false ∧ (tampered .activating true).tables.engine = .activating ∧
      (tampered (.locked .tamper) true).tables.engine = .locked .tamper ∧
      (tampered .erasing true).tables.engine = .erasing ∧ (tampered .programming true).tables.engine = .programming ∧
      (tampered .verifying true).tables.engine = .verifying ∧
      (tampered (.locked .fails) true).tables.engine = .locked .fails ∧
      (withOperation (tampered .verifying true) (.counterWrite 8 false)).tables.operation = some ⟨.counterWrite 8 false, 0⟩ ∧
      ((tampered .idle true).withTables { (tampered .idle true).tables with startUp := .waiting }).tables.startUp =
        .waiting ∧
      (tampered .idle true).tables.operation = none := by decide +kernel

theorem witness_TamperLocksAndErases_blocks :
    ArraySafe (withOperation (erasingFor 0) (.erase (28 + 27) false)) ∧
      ArraySafe (withOperation (erasingFor 26) (.erase (28 + 26) true)) ∧
      ArraySafe (withOperation (erasingFor 27) (.erase (28 + 27) true)) ∧
      ArraySafe (withOperation (erasingFor 0) (.program 114624 (List.replicate 64 1))) ∧
      (erasingFor 27).tables.engine = .locked .tamper ∧ (erasingFor 27).tables.startUp ≠ .waiting ∧
      (erasingFor 27).tables.marks.length = 896 ∧ (erasingFor 27).stagingSlot.firstBlock = 28 ∧
      (erasingFor 27).power.powered = true ∧ (erasingFor 26).tables.tamperErase = some 26 := by
  refine ⟨⟨rfl, ?_, ?_⟩, ⟨rfl, ?_, ?_⟩, ⟨rfl, ?_, ?_⟩, ⟨rfl, ?_, ?_⟩, ?_⟩
  case refine_9 => decide +kernel
  all_goals
    intro x hx
    cases hx
    decide +kernel

/-! ### The invariants hold in a state from which a step goes on -/

theorem witness_StepKeepsCoilsSafe : CoilsSafe State.reset ∧ ∃ t, step State.reset = .next t :=
  ⟨by unfold CoilsSafe; decide +kernel, _, rfl⟩

theorem witness_StepKeepsArraySafe : ArraySafe State.reset ∧ ∃ t, step State.reset = .next t :=
  ⟨⟨rfl, fun _ h => (by cases h), fun _ h => (by cases h)⟩, _, rfl⟩

theorem witness_StepKeepsCapacities :
    CapacitiesHold State.reset ∧ OverflowMeansFull State.reset ∧ ∃ t, step State.reset = .next t :=
  ⟨by unfold CapacitiesHold; decide +kernel, fun h => (by cases h), _, rfl⟩

theorem witness_StepKeepsRingSafe : RingSafe (withRing ready) ∧ ∃ t, step (withRing ready) = .next t :=
  ⟨by unfold RingSafe; decide +kernel, _, rfl⟩

/-- The part of `ChainSafe` about the tables, for a loaded part that requests nothing. -/
theorem steady (s : State) (hw : s.tables.working = some (tables .falling)) (hs : s.tables.startUp = .ended)
    (he : s.tables.engine = .idle) (hr : s.limits.enterRequests = []) : TablesSteady s := by
  refine ⟨?_, ?_, ?_, ?_, ?_⟩
  · intro t h
    rw [hw] at h
    cases h
    decide +kernel
  · rw [hr]
    intro r h
    cases h
  · intro h
    rw [hw] at h
    cases h
  · exact fun h => absurd hs h
  · intro h
    rw [he] at h
    cases h

theorem witness_StepKeepsChainSafe :
    (ChainSafe entered ∧ ChainSafe sleeping) ∧ ∃ t, step entered = .next t := by
  have saved : ∀ e ∈ entered.profiles.chain.tail, e.saved.isSome = true := by decide +kernel
  refine ⟨⟨⟨by decide +kernel, by decide +kernel, fun h => absurd h (by decide +kernel), by decide +kernel, by decide +kernel, ?_, ?_,
    saved, steady entered rfl rfl rfl rfl⟩, ⟨by decide +kernel, by decide +kernel, ?_, by decide +kernel,
    by decide +kernel, ?_, ?_, saved, steady sleeping rfl rfl rfl rfl⟩⟩, _, rfl⟩
  · intro e h
    cases h with
    | head => exact ⟨driveProfile, by decide +kernel, rfl⟩
    | tail _ h =>
      cases h with
      | head => exact ⟨baseProfile, by decide +kernel, rfl⟩
      | tail _ h => cases h
  · intro e h
    cases h
    rfl
  · refine fun _ => ⟨by decide +kernel, ?_⟩
    intro e h
    cases h
    exact ⟨watchProfile, by decide +kernel, rfl⟩
  · intro e h
    cases h with
    | head => exact ⟨baseProfile, by decide +kernel, rfl⟩
    | tail _ h => cases h
  · intro e h
    cases h
    rfl
end Sys2Proof.Tests
end

section
/-! ### Capacities and the link rate: what the operations keep -/

namespace Sys2Proof.Machine

set_option Elab.async false

/-- Every queue and list within its capacity (R5, R6, R12, R18, R57, R66, R127, R171), and the overflow flag set only
over a full event queue (R129). -/
structure Fits (s : State) : Prop where
  commands : s.north.commands.length ≤ 4
  tx : s.north.tx.length ≤ 8
  forwardQueue : s.chain.forwardQueue.length ≤ 4
  trims : s.chain.trims.length = 20
  records : s.store.records.length ≤ 8
  ring : s.current.ring.length ≤ 64
  events : s.events.records.length ≤ 32
  overflow : s.events.overflow = true → s.events.records.length = 32
  marks : s.tables.marks.length = 896

theorem fits_iff {s : State} : Fits s ↔ CapacitiesHold s ∧ OverflowMeansFull s := by
  constructor
  · rintro ⟨hc, ht, hf, htr, hst, hri, hev, hov, hm⟩
    exact ⟨⟨hc, ht, hf, hst, hri, hev, htr, hm⟩, hov⟩
  · rintro ⟨⟨hc, ht, hf, hst, hri, hev, htr, hm⟩, hov⟩
    exact ⟨hc, ht, hf, htr, hst, hri, hev, hov, hm⟩

/-- From `s` to `t` the link rate is kept, and so are the capacities if `s` is within them. -/
structure Kept (s t : State) : Prop where
  rate : t.north.rate = s.north.rate
  fits : Fits s → Fits t

theorem Kept.refl (s : State) : Kept s s := ⟨rfl, id⟩

namespace Kept

section Blocks
variable {s t : State}

/-- The blocks that hold no bounded queue may change. -/
theorem of_touches {u : State} (h : Kept s t)
    (ht : Touches [.power, .timebase, .lock, .sched, .limits, .seq, .profiles, .sleep, .freeIndex, .pending] t u) :
    Kept s u := by
  have hn : u.north = t.north := ht .north (by decide)
  have hc : u.chain = t.chain := ht .chain (by decide)
  have hst : u.store = t.store := ht .store (by decide)
  have hcu : u.current = t.current := ht .current (by decide)
  have hev : u.events = t.events := ht .events (by decide)
  have hta : u.tables = t.tables := ht .tables (by decide)
  refine ⟨hn ▸ h.rate, fun hs => ?_⟩
  obtain ⟨h1, h2, h3, h4, h5, h6, h7, h8, h9⟩ := h.fits hs
  constructor <;> simpa only [hn, hc, hst, hcu, hev, hta]

theorem withPower (h : Kept s t) {x : Power} : Kept s (t.withPower x) := h.of_touches (by simp)
theorem withTimebase (h : Kept s t) {x : Timebase} : Kept s (t.withTimebase x) := h.of_touches (by simp)
theorem withLock (h : Kept s t) {x : SyncLock} : Kept s (t.withLock x) := h.of_touches (by simp)
theorem withSched (h : Kept s t) {x : ScheduleEngine} : Kept s (t.withSched x) := h.of_touches (by simp)
theorem withLimits (h : Kept s t) {x : LimitMonitor} : Kept s (t.withLimits x) := h.of_touches (by simp)
theorem withSeq (h : Kept s t) {x : Sequencer} : Kept s (t.withSeq x) := h.of_touches (by simp)
theorem withProfiles (h : Kept s t) {x : ProfileController} : Kept s (t.withProfiles x) := h.of_touches (by simp)
theorem withSleep (h : Kept s t) {x : SleepController} : Kept s (t.withSleep x) := h.of_touches (by simp)
theorem withFreeIndex (h : Kept s t) {x : Nat} : Kept s (t.withFreeIndex x) := h.of_touches (by simp)

/-- The north port may change if its rate stays and its two queues stay within their capacities. -/
theorem withNorth_of (h : Kept s t) {x : NorthPort} (hr : x.rate = t.north.rate)
    (hc : Fits t → x.commands.length ≤ 4) (ht : Fits t → x.tx.length ≤ 8) : Kept s (t.withNorth x) :=
  ⟨hr.trans h.rate, fun hs => { h.fits hs with commands := hc (h.fits hs), tx := ht (h.fits hs) }⟩

/-- The chain port may change if its forward queue and its trim list stay within theirs. -/
theorem withChain_of (h : Kept s t) {x : ChainPort} (hq : Fits t → x.forwardQueue.length ≤ 4)
    (ht : Fits t → x.trims.length = 20) : Kept s (t.withChain x) :=
  ⟨h.rate, fun hs => { h.fits hs with forwardQueue := hq (h.fits hs), trims := ht (h.fits hs) }⟩

/-- The round store may change if it stays within its capacity. -/
theorem withStore_of (h : Kept s t) {x : RoundStore} (hr : Fits t → x.records.length ≤ 8) : Kept s (t.withStore x) :=
  ⟨h.rate, fun hs => { h.fits hs with records := hr (h.fits hs) }⟩

/-- The current port may change if its ring stays within its capacity. -/
theorem withCurrent_of (h : Kept s t) {x : CurrentPort} (hr : Fits t → x.ring.length ≤ 64) :
    Kept s (t.withCurrent x) :=
  ⟨h.rate, fun hs => { h.fits hs with ring := hr (h.fits hs) }⟩

/-- The event queue may change if it stays within its capacity and its flag stays right. -/
theorem withEvents_of (h : Kept s t) {x : EventQueue} (hr : Fits t → x.records.length ≤ 32)
    (ho : Fits t → x.overflow = true → x.records.length = 32) : Kept s (t.withEvents x) :=
  ⟨h.rate, fun hs => { h.fits hs with events := hr (h.fits hs), overflow := ho (h.fits hs) }⟩

/-- The table store may change if it keeps its 896 marks. -/
theorem withTables_of (h : Kept s t) {x : TableStore} (hm : Fits t → x.marks.length = 896) : Kept s (t.withTables x) :=
  ⟨h.rate, fun hs => { h.fits hs with marks := hm (h.fits hs) }⟩

/-! The changes that leave the queues of a block as they are, or empty them. -/

theorem withNorth (h : Kept s t) {x : NorthPort} (hr : x.rate = t.north.rate := by rfl)
    (hc : x.commands = t.north.commands := by rfl) (ht : x.tx = t.north.tx := by rfl) : Kept s (t.withNorth x) :=
  h.withNorth_of hr (fun hf => hc ▸ hf.commands) (fun hf => ht ▸ hf.tx)

theorem withChain (h : Kept s t) {x : ChainPort} (hq : x.forwardQueue = t.chain.forwardQueue := by rfl)
    (ht : x.trims = t.chain.trims := by rfl) : Kept s (t.withChain x) :=
  h.withChain_of (fun hf => hq ▸ hf.forwardQueue) (fun hf => ht ▸ hf.trims)

theorem withStore (h : Kept s t) {x : RoundStore} (hr : x.records = t.store.records := by rfl) :
    Kept s (t.withStore x) := h.withStore_of fun hf => hr ▸ hf.records

theorem withCurrent (h : Kept s t) {x : CurrentPort} (hr : x.ring = t.current.ring := by rfl) :
    Kept s (t.withCurrent x) := h.withCurrent_of fun hf => hr ▸ hf.ring

theorem withTables (h : Kept s t) {x : TableStore} (hm : x.marks = t.tables.marks := by rfl) :
    Kept s (t.withTables x) := h.withTables_of fun hf => hm ▸ hf.marks

theorem northEmptied (h : Kept s t) {x : NorthPort} (hr : x.rate = t.north.rate := by rfl)
    (hc : x.commands = [] := by rfl) (ht : x.tx = [] := by rfl) : Kept s (t.withNorth x) :=
  h.withNorth_of hr (fun _ => by simp [hc]) (fun _ => by simp [ht])

theorem trimsEmptied (h : Kept s t) {x : ChainPort}
    (hq : x.forwardQueue = t.chain.forwardQueue ∨ x.forwardQueue = [] := by first | exact .inl rfl | exact .inr rfl)
    (ht : x.trims = List.replicate 20 none := by rfl) : Kept s (t.withChain x) := by
  refine h.withChain_of (fun hf => ?_) (fun _ => by rw [ht, List.length_replicate])
  rcases hq with hq | hq <;> simp [hq, hf.forwardQueue]

theorem storeEmptied (h : Kept s t) {x : RoundStore} (hr : x.records = [] := by rfl) : Kept s (t.withStore x) :=
  h.withStore_of fun _ => by simp [hr]

theorem ringEmptied (h : Kept s t) {x : CurrentPort} (hr : x.ring = [] := by rfl) : Kept s (t.withCurrent x) :=
  h.withCurrent_of fun _ => by simp [hr]

theorem eventsEmptied (h : Kept s t) : Kept s (t.withEvents ⟨[], false⟩) :=
  h.withEvents_of (fun _ => Nat.zero_le _) (fun _ ho => by cases ho)

theorem marksSet (h : Kept s t) {x : TableStore} (hm : x.marks = allMarks := by rfl) : Kept s (t.withTables x) :=
  h.withTables_of fun _ => by rw [hm, allMarks, List.length_replicate]

end Blocks

end Kept

/-! #### The queues whose lengths change -/

theorem removeOldestOther_length {q rest : List EventRecord} (h : removeOldestOther q = some rest) :
    rest.length + 1 = q.length := by
  induction q generalizing rest with
  | nil => simp [removeOldestOther] at h
  | cons r q ih =>
    rw [removeOldestOther] at h
    split at h
    · obtain ⟨l, hl, rfl⟩ := Option.map_eq_some_iff.mp h
      simp [ih hl]
    · cases h
      rfl

/-- R127, R128: a record that is handed to the queue leaves it within its 32 places. -/
theorem hand_length_le {q : EventQueue} (r : EventRecord) (h : q.records.length ≤ 32) :
    (q.hand r).records.length ≤ 32 := by
  unfold EventQueue.hand
  split
  · simp only [List.length_append, List.length_singleton]
    omega
  · split
    · next hrest =>
      have := removeOldestOther_length hrest
      simp only [List.length_append, List.length_singleton]
      omega
    · exact h

/-- R129: when a record that is handed to the queue leaves the overflow flag set, the queue is full. -/
theorem hand_overflow {q : EventQueue} (r : EventRecord) (h : q.records.length ≤ 32)
    (ho : q.overflow = true → q.records.length = 32) : (q.hand r).overflow = true → (q.hand r).records.length = 32 := by
  unfold EventQueue.hand
  split
  · next hl =>
    intro h'
    have := ho h'
    omega
  · split
    · next hrest =>
      have := removeOldestOther_length hrest
      simp only [List.length_append, List.length_singleton]
      omega
    · dsimp only
      omega

theorem makeRoom_length_lt {st : RoundStore} (h : st.records ≠ []) : st.makeRoom.length < st.records.length := by
  unfold RoundStore.makeRoom
  split
  · next heq => simp [heq]
  · have := List.length_pos_iff.mpr h
    rw [List.length_tail]
    omega

/-- R57, R58: a round that is offered leaves the store within its 8 places. -/
theorem offer_length_le {st : RoundStore} (r : RoundRecord) (keep : Bool) (h : st.records.length ≤ 8) :
    (st.offer r keep).records.length ≤ 8 := by
  unfold RoundStore.offer
  split
  · simp only [List.length_append, List.length_singleton]
    omega
  · dsimp only
    split
    · next hl _ =>
      have := makeRoom_length_lt (st := st) (by rintro h0; simp [h0] at hl)
      simp only [List.length_append, List.length_singleton]
      omega
    · exact h

theorem newest64_length_le (ring : List RingRecord) : (newest64 ring).length ≤ 64 := by
  rw [newest64, List.length_drop]
  omega

theorem clearMarks_length {marks : List Bool} {block : Nat} (h : marks.length = 896) (hb : block < 28) :
    (clearMarks marks block).length = 896 := by
  simp only [clearMarks, List.length_append, List.length_take, List.length_replicate, List.length_drop]
  omega

theorem stagingBlock_lt {s : State} {block b : Nat} (h : s.stagingBlock block = some b) : b < 28 := by
  unfold State.stagingBlock at h
  split at h
  · next hr =>
    cases h
    omega
  · cases h

/-- R18: a frame that the filter does not refuse finds a place in the forward queue. -/
theorem forwardQueue_lt_of_filterRefusal {t : State} {c : FwdClass} (h : t.filterRefusal c = none) :
    t.chain.forwardQueue.length < 4 := by
  unfold State.filterRefusal at h
  repeat' split at h
  iterate 4 cases h
  omega

namespace Kept

section Operations
variable {s t : State}

/-! #### Links and the event queue -/

theorem ite {u : State} {p : Prop} [Decidable p] (ht : Kept s t) (hu : Kept s u) : Kept s (if p then t else u) := by
  split <;> assumption

theorem enqueueTx (h : Kept s t) {p : Producer} {f : NorthFrame} (hl : t.north.tx.length < 8) :
    Kept s (t.enqueueTx p f) :=
  h.withNorth_of rfl (fun hf => hf.commands) fun _ => by simpa using hl

theorem frameLeaves (h : Kept s t) : Kept s t.frameLeaves :=
  h.withNorth_of rfl (fun hf => hf.commands) fun hf => by
    rw [List.length_tail]
    exact (Nat.sub_le _ _).trans hf.tx

theorem chainReply (h : Kept s t) {f : NorthFrame} : Kept s (t.chainReply f) := by
  unfold State.chainReply
  split
  · exact h.withChain
  · next hp =>
    simp only [Bool.or_eq_true, Bool.not_eq_true', not_or, Bool.not_eq_false] at hp
    exact h.enqueueTx (mayAdd_iff.mp hp.1).1

theorem startTransaction (h : Kept s t) {f : ChainFrame} : Kept s (t.startTransaction f) := h.withChain

theorem endTransaction (h : Kept s t) : Kept s t.endTransaction := h.withChain

theorem arbitrate (h : Kept s t) : Kept s t.arbitrate := by
  unfold State.arbitrate
  split
  · exact h
  · exact h.withChain.startTransaction.ite h

theorem claimLink (h : Kept s t) {f : SleepFrame} : Kept s (t.claimLink f) := h.withChain.arbitrate

theorem record (h : Kept s t) {k : EventKind} {c : Option Contactor} {w : Cause} {q i : Option Nat} :
    Kept s (t.record k c w q i) :=
  h.withEvents_of (fun hf => hand_length_le _ hf.events) (fun hf => hand_overflow _ hf.events hf.overflow)

theorem setSticky (h : Kept s t) {f : StickyFlags} : Kept s (t.setSticky f) := h.withNorth
theorem setLinkError (h : Kept s t) : Kept s t.setLinkError := h.setSticky
theorem setStraySync (h : Kept s t) : Kept s t.setStraySync := h.setSticky
theorem setOverrun (h : Kept s t) : Kept s t.setOverrun := h.setSticky
theorem setCurOrder (h : Kept s t) : Kept s t.setCurOrder := h.setSticky
theorem setCurFault (h : Kept s t) : Kept s t.setCurFault := h.setSticky
theorem setChainMismatch (h : Kept s t) : Kept s t.setChainMismatch := h.setSticky
theorem setEntryFailed (h : Kept s t) : Kept s t.setEntryFailed := h.setSticky

/-! #### The contactor sequencer -/

theorem releaseAll (h : Kept s t) : Kept s t.releaseAll := h.withSeq
theorem releaseCoil (h : Kept s t) {c : Contactor} : Kept s (t.releaseCoil c) := h.of_touches (by simp)
theorem driveCoil (h : Kept s t) {c : Contactor} : Kept s (t.driveCoil c) := h.withSeq
theorem waitAt (h : Kept s t) {i n : Nat} : Kept s (t.waitAt i n) := h.withSeq
theorem withCoil (h : Kept s t) {c : Contactor} {d : CoilDriver} : Kept s (t.withCoil c d) := h.withSeq
theorem withFeedback (h : Kept s t) {c : Contactor} {d : DebouncedInput} : Kept s (t.withFeedback c d) := h.withSeq

theorem openEnd (h : Kept s t) {i : Nat} : Kept s (t.openEnd i) :=
  h.releaseAll.record.withSeq.ite h.releaseAll.withSeq

theorem runOpening (h : Kept s t) {steps : List SeqStep} {i : Nat} : Kept s (runOpening steps i t) := by
  induction steps generalizing i t with
  | nil => exact h.openEnd
  | cons st rest ih =>
    cases st with
    | drive c => exact ih h
    | release c => exact ih h.releaseCoil
    | wait n => exact h.waitAt
    | awaitFb c closed n =>
      rw [Machine.runOpening]
      split
      · exact ih h
      · exact h.waitAt
    | awaitPrecharge ratio n => exact ih h
    | endStep => exact h.openEnd

theorem startOpen (h : Kept s t) : Kept s t.startOpen := h.withSeq.runOpening

theorem closeFailed (h : Kept s t) {id i : Nat} {c : Option Contactor} {w : Cause} :
    Kept s (t.closeFailed id i c w) := h.record.withSeq.startOpen

theorem closeDone (h : Kept s t) {id i : Nat} : Kept s (t.closeDone id i) := h.record.withSeq

theorem runClosing (h : Kept s t) {id : Nat} {cls : SeqClass} {steps : List SeqStep} {i : Nat} :
    Kept s (runClosing id cls steps i t) := by
  induction steps generalizing i t with
  | nil => exact h.closeDone
  | cons st rest ih =>
    cases st with
    | drive c =>
      rw [Machine.runClosing]
      split
      · exact h.closeFailed
      · exact ih h.driveCoil
    | release c => exact ih h.releaseCoil
    | wait n => exact h.waitAt
    | awaitFb c closed n =>
      rw [Machine.runClosing]
      split
      · exact ih h
      · exact h.waitAt
    | awaitPrecharge ratio n =>
      rw [Machine.runClosing]
      split
      · exact ih h
      · exact h.waitAt
      · exact h.closeFailed
    | endStep => exact h.closeDone

theorem stepDone (h : Kept s t) {r : Running} : Kept s (t.stepDone r) := by
  unfold State.stepDone
  dsimp only
  split
  · exact h.withSeq.runClosing
  · exact h.withSeq.runOpening
  all_goals exact h

theorem startClose (h : Kept s t) {id : Nat} {q : Sequence} : Kept s (t.startClose id q) := h.record.withSeq.runClosing

theorem deferExpired (h : Kept s t) : Kept s t.deferExpired := h.record.startOpen

theorem deferralTest (h : Kept s t) : Kept s t.deferralTest :=
  (h.record.withSeq.deferExpired.ite h.record.withSeq).ite h.startOpen

theorem orderlyOpen (h : Kept s t) {c : Cause} : Kept s (t.orderlyOpen c) := by
  unfold State.orderlyOpen
  split
  iterate 2 exact h.record.withSeq.deferralTest
  all_goals exact h

theorem takeFastOpen (h : Kept s t) {c : Cause} : Kept s (t.takeFastOpen c) := by
  unfold State.takeFastOpen
  split
  · exact h.record
  all_goals exact h.releaseAll.record.withSeq

theorem retestPrecharge (h : Kept s t) : Kept s t.retestPrecharge := by
  unfold State.retestPrecharge
  split
  · split
    · split
      · exact h.stepDone
      · exact h
      · exact h.closeFailed
    all_goals exact h
  · exact h

theorem sequencerRecord (h : Kept s t) : Kept s t.sequencerRecord := by
  unfold State.sequencerRecord
  split
  · exact h.retestPrecharge
  · exact h.ite h.startOpen
  all_goals exact h

theorem sequencerStreamAbsent (h : Kept s t) : Kept s t.sequencerStreamAbsent := by
  unfold State.sequencerStreamAbsent
  split
  · exact h.retestPrecharge
  · exact h.startOpen
  all_goals exact h

theorem sequencerFeedback (h : Kept s t) {c : Contactor} {v : Bool} : Kept s (t.sequencerFeedback c v) := by
  unfold State.sequencerFeedback
  split
  iterate 2
    split
    · exact h.stepDone.ite h
    · exact h
  · exact h.record.orderlyOpen.ite h
  all_goals exact h

theorem stepTimerExpired (h : Kept s t) {r : Running} : Kept s (t.stepTimerExpired r) := by
  unfold State.stepTimerExpired
  split
  · exact h.stepDone
  · split
    · exact h.record.withSeq.stepDone
    · exact h.closeFailed
    all_goals exact h
  · split
    · exact h.stepDone
    all_goals exact h.closeFailed
  all_goals exact h

theorem coilFault (h : Kept s t) {c : Contactor} : Kept s (t.coilFault c) := by
  unfold State.coilFault
  dsimp only
  split
  · exact h.record.orderlyOpen
  all_goals exact h.record

/-! #### The schedule and the sync lock -/

theorem cancelDue (h : Kept s t) : Kept s t.cancelDue := h.withSched
theorem openFrame (h : Kept s t) {a : Stamp} {l : Nat} : Kept s (t.openFrame a l) := h.withSched
theorem beginAcquire (h : Kept s t) {a : Stamp} : Kept s (t.beginAcquire a) := h.withLock
theorem lockSleep (h : Kept s t) : Kept s t.lockSleep := h.withLock
theorem countRounds (h : Kept s t) {n : Nat} : Kept s (t.countRounds n) := h.withStore
theorem takeEntry (h : Kept s t) {d : DueEntry} : Kept s (t.takeEntry d) := h.countRounds.withSched

theorem skipEntries (h : Kept s t) {n : Nat} : Kept s (t.skipEntries n) := h.ite h.countRounds.setOverrun

theorem closeFrame (h : Kept s t) : Kept s t.closeFrame :=
  (h.skipEntries.setOverrun.ite h.skipEntries).withSched

theorem decideGroup (h : Kept s t) : Kept s t.decideGroup := by
  unfold State.decideGroup
  dsimp only
  split
  · exact h
  · split
    · exact h.withSched.takeEntry
    · exact h.skipEntries.withSched

theorem decideGroups (h : Kept s t) {n : Nat} : Kept s (decideGroups n t) := by
  induction n generalizing t with
  | zero => exact h
  | succ n ih =>
    rw [Machine.decideGroups]
    split
    · exact ih h.decideGroup
    · exact h

theorem frameStart (h : Kept s t) {a : Stamp} {l : Nat} : Kept s (t.frameStart a l) :=
  h.closeFrame.openFrame.decideGroups.ite h

theorem takeHeld (h : Kept s t) : Kept s t.takeHeld := by
  unfold State.takeHeld
  split
  · exact h
  · exact h.withSched.takeEntry

theorem lockLoss (h : Kept s t) : Kept s t.lockLoss := h.withLock.cancelDue.orderlyOpen

theorem acceptSync (h : Kept s t) {a b : Stamp} : Kept s (t.acceptSync a b) := h.withLock.frameStart

theorem virtualFrame (h : Kept s t) {e : Stamp} {n : Nat} : Kept s (t.virtualFrame e n) := h.withLock.frameStart

theorem closeWindow (h : Kept s t) {a : Stamp} : Kept s (t.closeWindow a) := by
  unfold State.closeWindow
  split
  · exact h.virtualFrame
  · exact h.virtualFrame.ite h.lockLoss
  all_goals exact h

theorem acquire (h : Kept s t) {a b : Stamp} : Kept s (t.acquire a b) :=
  (h.withLock.frameStart.ite h.withLock).ite h.withLock

theorem judgeSync (h : Kept s t) {n : Nat} {a : Stamp} : Kept s (judgeSync n a t) := by
  induction n generalizing t with
  | zero =>
    unfold Machine.judgeSync
    dsimp only
    repeat' split
    all_goals first | exact h.beginAcquire | exact h.acquire | exact h.setStraySync | exact h.acceptSync | exact h
  | succ n ih =>
    unfold Machine.judgeSync
    dsimp only
    repeat' split
    all_goals first
      | exact h.beginAcquire | exact h.acquire | exact h.setStraySync | exact h.acceptSync | exact ih h.closeWindow

theorem syncArrival (h : Kept s t) {a : Stamp} : Kept s (t.syncArrival a) := h.judgeSync.ite h

theorem takePassedClose (h : Kept s t) : Kept s t.takePassedClose := h.lockLoss.ite h

theorem lockCommit (h : Kept s t) {p : LockParams} : Kept s (t.lockCommit p) := by
  unfold State.lockCommit
  split
  · exact h
  · split
    · exact h
    · exact h.takePassedClose
    all_goals exact h.withLock.cancelDue.takePassedClose.ite h

/-! #### Profiles -/

theorem loadContext (h : Kept s t) {c : SavedContext} : Kept s (t.loadContext c) := h.withLimits.withSched
theorem markRound (h : Kept s t) : Kept s t.markRound := h.withSched
theorem withChainList (h : Kept s t) {c : List ChainElement} : Kept s (t.withChainList c) := h.withProfiles

theorem postCommitOpen (h : Kept s t) : Kept s t.postCommitOpen := by
  unfold State.postCommitOpen
  split
  · exact h
  · exact h.orderlyOpen.ite h

theorem applyCommit (h : Kept s t) {p : LockParams} {c : SavedContext} : Kept s (t.applyCommit p c) :=
  h.cancelDue.loadContext.markRound.lockCommit.postCommitOpen

theorem switchCommit (h : Kept s t) {p : Nat} : Kept s (t.switchCommit p) := h.withChainList.applyCommit

theorem enterCommit (h : Kept s t) {p : Nat} {c : Cause} : Kept s (t.enterCommit p c) := h.withChainList.applyCommit

theorem returnCommit (h : Kept s t) : Kept s t.returnCommit := by
  unfold State.returnCommit
  split
  · exact h.withChainList.applyCommit
  · exact h

theorem takeEnterRequest (h : Kept s t) {r : EnterRequest} : Kept s (t.takeEnterRequest r) := by
  unfold State.takeEnterRequest
  split
  · exact h.setEntryFailed
  · exact h.enterCommit

theorem refuseEnters (h : Kept s t) : Kept s t.refuseEnters := h.ite h.withLimits.setEntryFailed

/-! #### Waking and sleeping -/

theorem noteCause (h : Kept s t) {c : WakeCause} {b : Bool} : Kept s (t.noteCause c b) := h.withSleep
theorem setWakePending (h : Kept s t) : Kept s t.setWakePending := h.withSleep
theorem armDetector (h : Kept s t) : Kept s t.armDetector := h.of_touches (by simp)
theorem setChainSleep (h : Kept s t) {x : ChainSleep} : Kept s (t.setChainSleep x) := h.withSleep
theorem reportCommand (h : Kept s t) : Kept s t.reportCommand := h.of_touches (by simp)
theorem powerPort (h : Kept s t) : Kept s t.powerPort := h.ringEmptied

theorem enterWaking (h : Kept s t) : Kept s t.enterWaking := by
  unfold State.enterWaking
  dsimp only
  split
  · exact h.withSleep.powerPort.claimLink
  · exact h.withSleep.powerPort

theorem wakeCause (h : Kept s t) {c : WakeCause} : Kept s (t.wakeCause c) := by
  unfold State.wakeCause
  split
  iterate 2 exact h
  · exact h.noteCause.enterWaking
  · exact h.noteCause
  · dsimp only
    split
    · exact h.noteCause.setWakePending
    · split
      · exact h.noteCause.enterWaking
      · exact h.noteCause.setWakePending

theorem countPass (h : Kept s t) : Kept s t.countPass := h.ite (h.withSleep.wakeCause.ite h.withSleep)

theorem completePass (h : Kept s t) : Kept s t.completePass := h.countPass.enterWaking.ite h.countPass.claimLink

theorem watchPass (h : Kept s t) : Kept s t.watchPass := by
  unfold State.watchPass
  dsimp only
  split
  · exact h.withSleep.withSched.completePass
  · exact h.withSleep.withSched.takeHeld

theorem watchRoundOffered (h : Kept s t) {w : Bool} : Kept s (t.watchRoundOffered w) := by
  have hw : Kept s (if w then t.wakeCause .limit else t) := h.wakeCause.ite h
  unfold State.watchRoundOffered
  extract_lets s1
  split
  · exact hw.cancelDue.completePass
  · split
    · exact hw.completePass
    · exact hw.takeHeld

theorem answerQueueBusy (h : Kept s t) {q : List FwdEntry} : Kept s (t.answerQueueBusy q) := by
  induction q generalizing t with
  | nil => exact h
  | cons e rest ih => exact ih h.chainReply

theorem completeEntry (h : Kept s t) {w : Nat} : Kept s (t.completeEntry w) :=
  h.enterCommit.lockSleep.ringEmptied.withTimebase.withSleep.armDetector.withSleep

theorem detectChange (h : Kept s t) {m : ModuleTable} {b : Bool} : Kept s (t.detectChange m b) := by
  unfold State.detectChange
  split
  · exact h.withSleep
  · exact h.wakeCause.ite h

theorem endWaking (h : Kept s t) : Kept s t.endWaking := h.refuseEnters.returnCommit.withTimebase.withSleep

/-! #### Rounds, alignment and evaluation -/

theorem setReference (h : Kept s t) {p : Option PackSum} {a : Stamp} : Kept s (t.setReference p a) := by
  unfold State.setReference
  split
  · exact h.withCurrent.ite h
  · exact h

theorem evaluate (h : Kept s t) {es : List RoundEntry} : Kept s (t.evaluate es) :=
  h.withLimits.setEntryFailed.ite h.withLimits

theorem withOffer (h : Kept s t) {r : RoundRecord} {keep : Bool} : Kept s (t.withStore (t.store.offer r keep)) :=
  h.withStore_of fun hf => offer_length_le r keep hf.records

theorem leaveAssembly (h : Kept s t) {r : Round} {w : Bool} : Kept s (t.leaveAssembly r w) := by
  unfold State.leaveAssembly
  dsimp only
  split
  · exact h.withSched.withOffer.watchRoundOffered
  all_goals exact h.withSched.withOffer.takeHeld

theorem evaluateRound (h : Kept s t) {r : Round} : Kept s (t.evaluateRound r) :=
  h.leaveAssembly.ite h.evaluate.leaveAssembly

theorem finishAligning (h : Kept s t) {r : Round} {es : List RoundEntry} : Kept s (t.finishAligning r es) :=
  h.withCurrent.setReference.evaluateRound

theorem keepAligning (h : Kept s t) {r : Round} {es : List RoundEntry} : Kept s (t.keepAligning r es) := h.withSched

theorem enterAligning (h : Kept s t) {r : Round} : Kept s (t.enterAligning r) :=
  (h.finishAligning.ite h.keepAligning.withCurrent).ite h.finishAligning

theorem realign (h : Kept s t) : Kept s t.realign := by
  unfold State.realign
  split
  · exact h
  · split
    · exact h.keepAligning.ite h.finishAligning
    all_goals exact h

theorem continueCollecting (h : Kept s t) : Kept s t.continueCollecting := by
  unfold State.continueCollecting
  split
  · exact h
  · split
    · split
      · exact h.startTransaction
      · exact h.enterAligning
    all_goals exact h

theorem readEnded (h : Kept s t) {p : Nat} {o : ReadOutcome} : Kept s (t.readEnded p o) := by
  unfold State.readEnded
  split
  · exact h
  · split
    · exact h.withSched.continueCollecting
    all_goals exact h

theorem sendTrigger (h : Kept s t) {w : TakenTrigger} {e : ScheduleEntry} : Kept s (t.sendTrigger w e) := by
  unfold State.sendTrigger
  extract_lets r s1
  split
  · exact h.withSched.startTransaction
  · exact h.withSched.startTransaction.enterAligning

theorem enterRecord (h : Kept s t) {m : ModuleTable} {a : Stamp} {r : SortedRecord} : Kept s (t.enterRecord m a r) :=
  (h.withCurrent_of fun _ => newest64_length_le _).realign.sequencerRecord

theorem recordArrives (h : Kept s t) {m : ModuleTable} {b : List Byte} : Kept s (t.recordArrives m b) := by
  unfold State.recordArrives
  split
  · exact h.setCurFault
  · exact h.enterRecord.ite h.setCurOrder

/-! #### The chain link -/

theorem beginEnumeration (h : Kept s t) : Kept s t.beginEnumeration := h.withChain.startTransaction

theorem sendEnumerate (h : Kept s t) : Kept s t.sendEnumerate := h.withChain.startTransaction

theorem endEnumeration (h : Kept s t) {n : Nat} : Kept s (t.endEnumeration n) :=
  h.withChain.setChainMismatch.ite h.withChain

theorem awaitReply (h : Kept s t) {f : ChainFrame} : Kept s (t.awaitReply f) := h.withChain

theorem wakeSent (h : Kept s t) {b : Bool} : Kept s (t.wakeSent b) :=
  h.setChainSleep.withChain.ite (h.setChainSleep.withSleep.enterWaking.ite h.setChainSleep.withSleep)

theorem sleepSent (h : Kept s t) : Kept s t.sleepSent := by
  unfold State.sleepSent
  dsimp only
  split
  · exact h.setChainSleep.enterWaking.ite h.setChainSleep.withSleep
  all_goals exact h.setChainSleep

theorem frameSent (h : Kept s t) {f : ChainFrame} : Kept s (t.frameSent f) := by
  unfold State.frameSent
  split
  · exact h.endTransaction.wakeSent
  · exact h.endTransaction.sleepSent
  · exact h.endTransaction.continueCollecting
  iterate 2 exact h.awaitReply
  · exact h.endTransaction.chainReply.ite h.awaitReply

theorem transactionEnded (h : Kept s t) {f : ChainFrame} {o : TxnOutcome} : Kept s (t.transactionEnded f o) := by
  unfold State.transactionEnded
  split
  · exact h.endTransaction.endEnumeration
  · exact h.endTransaction.readEnded
  · exact h.endTransaction.chainReply
  all_goals exact h

theorem hearUnasked (h : Kept s t) : Kept s t.hearUnasked := h.withChain
theorem dropUnasked (h : Kept s t) : Kept s t.dropUnasked := h.withChain

theorem replyStarts (h : Kept s t) : Kept s t.replyStarts := by
  unfold State.replyStarts
  split
  · exact h.withChain
  · exact h
  all_goals exact h.hearUnasked

theorem frameEnds (h : Kept s t) {rx : ChainRx} : Kept s (t.frameEnds rx) := by
  unfold State.frameEnds
  split
  · exact h.transactionEnded.arbitrate
  · exact h.dropUnasked.ite h.transactionEnded.arbitrate
  all_goals exact h.dropUnasked

/-! #### The north link port -/

theorem truncateFrame (h : Kept s t) : Kept s t.truncateFrame := by
  unfold State.truncateFrame
  split
  · exact h.setLinkError
  all_goals exact h

theorem joinCommands (h : Kept s t) {f : NorthFrame} : Kept s (t.joinCommands f) := by
  unfold State.joinCommands
  dsimp only
  split
  · next hl => exact h.reportCommand.withNorth_of rfl (fun _ => by simpa using hl) (fun hf => hf.tx)
  · exact h.reportCommand.setLinkError

theorem refuseForward (h : Kept s t) {f : NorthFrame} : Kept s (t.refuseForward f) := by
  unfold State.refuseForward
  split
  · next hp => exact h.enqueueTx (mayAdd_iff.mp hp).1
  · exact h.withNorth

theorem filterForward (h : Kept s t) {f : NorthFrame} : Kept s (t.filterForward f) := by
  unfold State.filterForward
  split
  · exact h.setLinkError
  · split
    · exact h.refuseForward
    · next hr =>
      exact h.withChain_of (fun _ => by simpa using forwardQueue_lt_of_filterRefusal hr) (fun hf => hf.trims)

theorem routeFrame (h : Kept s t) {a : Stamp} {f : NorthFrame} : Kept s (t.routeFrame a f) := by
  unfold State.routeFrame
  split
  · exact h.syncArrival
  · exact h.joinCommands
  · exact h.filterForward
  all_goals exact h

theorem frameComplete (h : Kept s t) {a : Stamp} {b : List Byte} : Kept s (t.frameComplete a b) := by
  unfold State.frameComplete
  split
  · exact h.setLinkError
  · exact h.routeFrame

theorem clearStatus (h : Kept s t) : Kept s t.clearStatus := h.setSticky.withStore.withSleep

theorem setTrim (h : Kept s t) {w : WorkingTables} {p : Nat} {v : Int} : Kept s (t.setTrim w p v) :=
  (h.withChain_of (x := { t.chain with trims := t.chain.trims.set p (some v) }) (fun hf => hf.forwardQueue)
    fun hf => by simpa using hf.trims).withTables

/-! #### The table store -/

theorem beginOp (h : Kept s t) {o : ArrayOp} {n : Nat} : Kept s (t.beginOp o n) := h.withTables
theorem setEngine (h : Kept s t) {e : EngineState} : Kept s (t.setEngine e) := h.withTables

theorem kickTamper (h : Kept s t) : Kept s t.kickTamper := by
  unfold State.kickTamper
  split
  · exact h.beginOp.ite h
  · exact h

theorem lockTamper (h : Kept s t) : Kept s t.lockTamper := h.withTables.kickTamper

theorem tamperEngine (h : Kept s t) : Kept s t.tamperEngine := by
  unfold State.tamperEngine
  split
  iterate 2 exact h.setEngine
  iterate 3 exact h.lockTamper
  · exact h.withTables.lockTamper
  all_goals exact h

theorem tamperAssertion (h : Kept s t) : Kept s t.tamperAssertion := h.withTables.tamperEngine.wakeCause

theorem eraseDone (h : Kept s t) {b : Nat} {w : Bool} : Kept s (t.eraseDone b w) := by
  refine kickTamper (h.withTables_of fun hf => ?_)
  dsimp only
  split
  · next hb => exact clearMarks_length hf.marks (stagingBlock_lt hb)
  · exact hf.marks

theorem programDone (h : Kept s t) {a : Nat} {b : List Byte} : Kept s (t.programDone a b) := h.withTables.kickTamper

theorem verified (h : Kept s t) {o : Except VerifyReason WorkingTables} : Kept s (t.verified o) := by
  unfold State.verified
  split <;> exact h.withTables

theorem pointerDone (h : Kept s t) {x : Slot} : Kept s (t.pointerDone x) := h.withTables.beginOp.ite h.withTables

theorem beginActivation (h : Kept s t) : Kept s t.beginActivation :=
  h.setEngine.cancelDue.withSched.withCurrent.trimsEmptied.refuseEnters.beginOp

theorem loadTables (h : Kept s t) {w : WorkingTables} : Kept s (t.loadTables w) :=
  h.withTables.withProfiles.loadContext.withLock

theorem reload (h : Kept s t) {w : WorkingTables} : Kept s (t.reload w) :=
  h.loadTables.storeEmptied.ringEmptied.withSeq.marksSet.kickTamper.sendEnumerate

/-! #### Resets, power and start-up loading -/

theorem resetBlocks (h : Kept s t) : Kept s t.resetBlocks :=
  h.withTimebase.withLock.withSched.storeEmptied.ringEmptied.withLimits.withProfiles

theorem stopOp (h : Kept s t) : Kept s t.stopOp := by
  unfold State.stopOp
  split
  · exact h
  · split
    iterate 2 exact h.withTables.withFreeIndex
    · exact h.withTables
    · exact h.withTables.withFreeIndex.ite h.withTables

theorem clearVolatile (h : Kept s t) : Kept s t.clearVolatile :=
  h.resetBlocks.northEmptied.trimsEmptied.withSeq.eventsEmptied.withSleep.marksSet

theorem startDebounces (h : Kept s t) : Kept s t.startDebounces := h.withSeq.withTables

theorem losePower (h : Kept s t) : Kept s t.losePower := h.stopOp.clearVolatile.withPower

theorem holdReset (h : Kept s t) : Kept s t.holdReset :=
  h.resetBlocks.northEmptied.trimsEmptied.withSeq.eventsEmptied.withSleep.marksSet.withPower

theorem beginRestart (h : Kept s t) : Kept s t.beginRestart := by
  have hn : Kept s (t.resetBlocks.withNorth (.powerOn t.north.rate)) := h.resetBlocks.northEmptied
  have hc := hn.withChain_of
    (x := { t.chain.abandoned with foundCount := t.chain.foundCount, trims := t.chain.trims })
    (fun _ => Nat.zero_le _) fun hf => hf.trims
  exact hc.withSeq.withSleep.marksSet

theorem beginLoading (h : Kept s t) : Kept s t.beginLoading := by
  unfold State.beginLoading
  dsimp only
  split
  · exact h.marksSet
  · exact h.marksSet.trimsEmptied.beginOp.ite h.marksSet

theorem loadOutcome (h : Kept s t) {o : Except VerifyReason WorkingTables} : Kept s (t.loadOutcome o) := by
  unfold State.loadOutcome
  split
  · exact h.loadTables
  · exact h.withTables

theorem endLoading (h : Kept s t) : Kept s t.endLoading := h.loadOutcome.withTables.kickTamper.beginEnumeration

theorem elapse (h : Kept s t) {n : Nat} : Kept s (elapse n t) :=
  (h.withTables.ite h.withTables.withTimebase.withChain.withCurrent.withSeq.withSleep.withTables).ite h

end Operations

end Kept

end Sys2Proof.Machine
end

section
/-! ### The decoder's rows -/

namespace Sys2Proof.Machine

set_option Elab.async false

/-- A decoder row takes a command as `takeCommand` says: it reads its arguments by `args`, whose form is that of section
11.3, and carries the command out by `body`, which leaves the transmit queue to the reply and keeps the link rate and
the capacities.  RESTART alone empties the command list. -/
structure IsRow (row : Instr) {α : Type} (args : List Byte → Option α) (body : α → State → State × Reply) : Prop where
  exec_eq : ∀ s, exec row s = .next (takeCommand row args body s)
  form : ∀ bytes, formRight row bytes = (args bytes).isSome
  tx : ∀ a t, (body a t).1.north.tx = t.north.tx
  commands : row ≠ .restart → ∀ a t, (body a t).1.north.commands = t.north.commands
  kept : ∀ {s t : State} (a : α), Kept s t → Kept s (body a t).1

/-- A row whose body leaves the north port as it is; its body is known to touch only `bs`. -/
theorem IsRow.of_touches {row : Instr} {α : Type} {args : List Byte → Option α} {body : α → State → State × Reply}
    (bs : List Block) (hk : ∀ {s t : State} (a : α), Kept s t → Kept s (body a t).1)
    (he : ∀ s, exec row s = .next (takeCommand row args body s) := by intro _; rfl)
    (hf : ∀ bytes, formRight row bytes = (args bytes).isSome := by intro _; rfl)
    (ht : ∀ a t, Touches bs t (body a t).1 := by simp) (hn : Block.north ∉ bs := by decide) : IsRow row args body where
  exec_eq := he
  form := hf
  tx a t := congrArg NorthPort.tx (ht a t .north hn)
  commands _ a t := congrArg NorthPort.commands (ht a t .north hn)
  kept := hk

namespace Kept

section Bodies
variable {s t : State}

theorem doSetTrim (h : Kept s t) {a : SetTrimArgs} : Kept s (State.doSetTrim a t).1 := by
  unfold State.doSetTrim
  repeat' split
  all_goals first | exact h | exact h.setTrim

theorem doReadRound (h : Kept s t) {a : Nat} : Kept s (State.doReadRound a t).1 := by
  unfold State.doReadRound
  repeat' split
  all_goals first | exact h | exact h.withStore

theorem doReleaseRound (h : Kept s t) {a : Unit} : Kept s (State.doReleaseRound a t).1 := by
  unfold State.doReleaseRound
  split
  · exact h
  · split
    · exact h
    · next heq =>
      refine h.withStore_of fun hf => ?_
      have := hf.records
      rw [heq, List.length_cons] at this
      exact Nat.le_of_succ_le this

theorem doClearLimit (h : Kept s t) {a : Nat} : Kept s (State.doClearLimit a t).1 := h.of_touches (by simp)

theorem doClearAll (h : Kept s t) {a : Unit} : Kept s (State.doClearAll a t).1 := h.of_touches (by simp)

theorem doClose (h : Kept s t) {a : Nat} : Kept s (State.doClose a t).1 := by
  unfold State.doClose
  repeat' split
  all_goals first | exact h | exact h.startClose

theorem doOpen (h : Kept s t) {a : Unit} : Kept s (State.doOpen a t).1 := by
  unfold State.doOpen
  split
  iterate 2 exact h.orderlyOpen
  all_goals exact h

theorem doFastOpen (h : Kept s t) {a : Unit} : Kept s (State.doFastOpen a t).1 := h.takeFastOpen

theorem doClearTrip (h : Kept s t) {a : Unit} : Kept s (State.doClearTrip a t).1 := h.of_touches (by simp)

theorem doReadEvents (h : Kept s t) {a : Nat} : Kept s (State.doReadEvents a t).1 := by
  unfold State.doReadEvents
  split
  · exact h
  · refine h.withEvents_of (fun hf => ?_) (fun _ ho => by cases ho)
    rw [List.length_drop]
    exact (Nat.sub_le _ _).trans hf.events

theorem doSwitch (h : Kept s t) {a : Nat} : Kept s (State.doSwitch a t).1 := by
  unfold State.doSwitch
  split
  · exact h
  · exact h.switchCommit

theorem doEnter (h : Kept s t) {a : Nat} : Kept s (State.doEnter a t).1 := by
  unfold State.doEnter
  split
  · exact h
  · exact h.enterCommit

theorem doReturn (h : Kept s t) {a : Unit} : Kept s (State.doReturn a t).1 := by
  unfold State.doReturn
  split
  · exact h
  · split
    · exact h
    · exact h.returnCommit

theorem doSleep (h : Kept s t) {a : Unit} : Kept s (State.doSleep a t).1 := h.of_touches (by simp)

theorem doUpdErase (h : Kept s t) {a : Nat} : Kept s (State.doUpdErase a t).1 := by
  unfold State.doUpdErase
  repeat' split
  all_goals first | exact h | exact h.setEngine.beginOp

theorem doUpdWrite (h : Kept s t) {a : UpdWriteArgs} : Kept s (State.doUpdWrite a t).1 := by
  unfold State.doUpdWrite
  dsimp only
  repeat' split
  all_goals first | exact h | exact (h.withTables_of fun hf => by simpa using hf.marks).beginOp

theorem doUpdVerify (h : Kept s t) {a : Unit} : Kept s (State.doUpdVerify a t).1 := by
  unfold State.doUpdVerify
  split
  · exact h.setEngine
  all_goals exact h

theorem doUpdActivate (h : Kept s t) {a : Unit} : Kept s (State.doUpdActivate a t).1 := by
  unfold State.doUpdActivate
  repeat' split
  all_goals first | exact h | exact h.beginActivation

theorem doRestart (h : Kept s t) {a : Unit} : Kept s (State.doRestart a t).1 :=
  (h.withNorth_of (x := { t.north with commands := [], restartTaken := true }) rfl (fun _ => Nat.zero_le _)
    fun hf => hf.tx).cancelDue

end Bodies

end Kept

theorem doUpdActivate_lists (a : Unit) (t : State) :
    (State.doUpdActivate a t).1.north.tx = t.north.tx ∧
      (State.doUpdActivate a t).1.north.commands = t.north.commands := by
  have hb : t.beginActivation.north.tx = t.north.tx ∧ t.beginActivation.north.commands = t.north.commands := by
    simp only [State.beginActivation, State.beginOp, State.refuseEnters, State.withTables_north]
    split <;> exact ⟨rfl, rfl⟩
  unfold State.doUpdActivate
  repeat' split
  all_goals first | exact ⟨rfl, rfl⟩ | exact hb

/-- R6, R7: each decoder row takes a command in the one way. -/
theorem exists_isRow {row : Instr} (h : row ∈ decoderRows) :
    ∃ (α : Type) (args : List Byte → Option α) (body : α → State → State × Reply), IsRow row args body := by
  cases row with
  | getStatus => exact ⟨_, _, State.doGetStatus, .of_touches [] fun _ h => by simpa using h⟩
  | getStatusClear =>
    exact ⟨_, _, _, fun _ => rfl, fun _ => rfl, fun _ _ => rfl, fun _ _ _ => rfl, fun _ h => h.clearStatus⟩
  | readTable => exact ⟨_, _, State.doReadTable, .of_touches [] fun _ h => by simpa using h⟩
  | setTrim => exact ⟨_, _, _, .of_touches [.chain, .tables] fun _ h => h.doSetTrim⟩
  | restart => exact ⟨_, _, _, fun _ => rfl, fun _ => rfl, fun _ _ => rfl, fun h => absurd rfl h, fun _ h => h.doRestart⟩
  | readRound => exact ⟨_, _, _, .of_touches [.store] fun _ h => h.doReadRound⟩
  | releaseRound => exact ⟨_, _, _, .of_touches [.store] fun _ h => h.doReleaseRound⟩
  | readLimits => exact ⟨_, _, State.doReadLimits, .of_touches [] fun _ h => by simpa using h⟩
  | clearLimit => exact ⟨_, _, _, .of_touches [.limits] fun _ h => h.doClearLimit⟩
  | clearLimitAll => exact ⟨_, _, _, .of_touches [.limits] fun _ h => h.doClearAll⟩
  | close => exact ⟨_, _, _, .of_touches [.seq, .events] fun _ h => h.doClose⟩
  | openCmd => exact ⟨_, _, _, .of_touches [.seq, .events] fun _ h => h.doOpen⟩
  | fastOpen => exact ⟨_, _, _, .of_touches [.seq, .events] fun _ h => h.doFastOpen⟩
  | clearTrip => exact ⟨_, _, _, .of_touches [.seq] fun _ h => h.doClearTrip⟩
  | readEvents => exact ⟨_, _, _, .of_touches [.events] fun _ h => h.doReadEvents⟩
  | switchProfile => exact ⟨_, _, _, .of_touches [.profiles, .limits, .sched, .lock, .seq, .events] fun _ h => h.doSwitch⟩
  | enterProfile => exact ⟨_, _, _, .of_touches [.profiles, .limits, .sched, .lock, .seq, .events] fun _ h => h.doEnter⟩
  | returnProfile => exact ⟨_, _, _, .of_touches [.profiles, .limits, .sched, .lock, .seq, .events] fun _ h => h.doReturn⟩
  | sleep => exact ⟨_, _, _, .of_touches [.sched, .sleep] fun _ h => h.doSleep⟩
  | updErase => exact ⟨_, _, _, .of_touches [.tables] fun _ h => h.doUpdErase⟩
  | updWrite => exact ⟨_, _, _, .of_touches [.tables] fun _ h => h.doUpdWrite⟩
  | updVerify => exact ⟨_, _, _, .of_touches [.tables] fun _ h => h.doUpdVerify⟩
  | updActivate =>
    exact ⟨_, _, _, fun _ => rfl, fun _ => rfl, fun a t => (doUpdActivate_lists a t).1,
      fun _ a t => (doUpdActivate_lists a t).2, fun _ h => h.doUpdActivate⟩
  | unknownCommandCode => exact ⟨_, _, _, .of_touches [] (fun _ h => h) (ht := fun _ t => touches_refl [] t)⟩
  | _ => simp [decoderRows] at h

/-- R6: with a command to take, the place in the transmit queue is there. -/
theorem tx_lt_of_takeable {row : Instr} {s : State} {c : Command} (h : s.takeable row = some c) :
    s.north.tx.length < 8 := by
  unfold State.takeable State.decoderReady at h
  split at h
  · cases h
  · split at h
    · next hr =>
      simp only [Bool.and_eq_true] at hr
      exact (mayAdd_iff.mp hr.1.2).1
    · cases h

theorem popCommand_kept {s t : State} (h : Kept s t) : Kept s t.popCommand := by
  refine h.withNorth_of rfl (fun hf => ?_) (fun hf => hf.tx)
  rw [List.length_tail]
  exact (Nat.sub_le _ _).trans hf.commands

/-- Every decoder row keeps the link rate and the capacities: a command leaves the list, and its reply finds its
place. -/
theorem IsRow.takeCommand_kept {row : Instr} {α : Type} {args : List Byte → Option α} {body : α → State → State × Reply}
    (hr : IsRow row args body) (s : State) : Kept s (takeCommand row args body s) := by
  unfold takeCommand
  have hp := popCommand_kept (.refl s)
  split
  · exact .refl s
  · next htake =>
    have hl : s.popCommand.north.tx.length < 8 := tx_lt_of_takeable (s := s) htake
    split
    · exact hp.enqueueTx hl
    · next a _ => exact (hr.kept a hp).enqueueTx (by rwa [hr.tx])

/-! ### Every command keeps the link rate and the capacities -/

/-- The command `i`, carried out in `s`, keeps the link rate and the capacities. -/
def KeptBy (i : Instr) (s : State) : Prop := ∃ t, exec i s = .next t ∧ Kept s t

theorem keptBy_of_row {row : Instr} (h : row ∈ decoderRows) (s : State) : KeptBy row s := by
  obtain ⟨α, args, body, hr⟩ := exists_isRow h
  exact ⟨_, hr.exec_eq s, hr.takeCommand_kept s⟩

/-- Every command but the two that read the straps keeps the link rate and the capacities. -/
theorem keptBy_of_ne {i : Instr} (s : State) (hp : ∀ straps, i ≠ .powerOnReset straps)
    (hh : ∀ straps, i ≠ .rstNHigh straps) : KeptBy i s := by
  have h : Kept s s := .refl s
  cases i with
  | powerOnReset straps => exact absurd rfl (hp straps)
  | rstNHigh straps => exact absurd rfl (hh straps)
  | powerLoss => exact ⟨_, rfl, h.losePower.ite h⟩
  | rstNLow => exact ⟨_, rfl, h.ite (h.holdReset.ite h.withPower)⟩
  | startUpLoading => exact ⟨_, rfl, h.beginLoading.ite h⟩
  | startUpLoadingEnd => exact ⟨_, rfl, h.endLoading.ite h⟩
  | chainWakeWaitExpiry => exact ⟨_, rfl, h.sendEnumerate.ite h⟩
  | startDelimiter => exact ⟨_, rfl, (h.truncateFrame.withNorth.wakeCause.ite h.truncateFrame.withNorth).ite h⟩
  | receiveIdleTimeout => exact ⟨_, rfl, h.truncateFrame.withNorth.ite h⟩
  | northFrameComplete bytes =>
    refine ⟨_, rfl, ?_⟩
    split
    · exact h.withNorth.ite h.withNorth.frameComplete
    · exact h
  | northFrameSent => exact ⟨_, rfl, h.frameLeaves.ite h⟩
  | holdingPlaceReplyEnqueue =>
    refine ⟨_, rfl, ?_⟩
    split
    · next hm _ =>
      simp only [Bool.and_eq_true] at hm
      exact h.withNorth.enqueueTx (mayAdd_iff.mp hm.2).1
    · exact h
  | chainPortReplyEnqueue =>
    refine ⟨_, rfl, ?_⟩
    split
    · next hm _ =>
      simp only [Bool.and_eq_true] at hm
      exact h.withChain.enqueueTx (mayAdd_iff.mp hm.2).1
    · exact h
  | restartBegin => exact ⟨_, rfl, h.beginRestart.ite h⟩
  | windowClose =>
    refine ⟨_, rfl, ?_⟩
    split
    · exact h.closeWindow
    · exact h
  | acquireWindowClose => exact ⟨_, rfl, h.lockLoss.ite h⟩
  | triggerInstant => exact ⟨_, rfl, h.decideGroup.ite h⟩
  | triggerSend =>
    refine ⟨_, rfl, ?_⟩
    split
    · exact h
    · split
      · exact h
      · exact h.sendTrigger
  | forwardHeadStart =>
    refine ⟨_, rfl, ?_⟩
    split
    · next e rest _ hq =>
      have hc : Kept s (s.withChain { s.chain with forwardQueue := rest }) := by
        refine h.withChain_of (fun hf => ?_) fun hf => hf.trims
        have := hf.forwardQueue
        rw [hq, List.length_cons] at this
        exact Nat.le_of_succ_le this
      exact hc.startTransaction.ite hc.chainReply
    · exact h
  | chainFrameSent =>
    refine ⟨_, rfl, ?_⟩
    split
    · exact h.frameSent.arbitrate
    · exact h
  | chainFrameReceived frame => exact ⟨_, rfl, h.frameEnds.ite h.dropUnasked⟩
  | chainReplyTimeout =>
    refine ⟨_, rfl, ?_⟩
    split
    · exact h.transactionEnded.arbitrate
    · exact h
  | currentRecordArrival record =>
    refine ⟨_, rfl, ?_⟩
    split
    · exact h
    · exact h.recordArrives
  | currentRecordIdleTimeout =>
    refine ⟨_, rfl, ?_⟩
    split
    · exact h
    · exact h.setCurFault
  | streamTimerExpiry => exact ⟨_, rfl, h.ringEmptied.realign.sequencerStreamAbsent.ite h⟩
  | alignWaitExpiry =>
    refine ⟨_, rfl, ?_⟩
    split
    · split
      · exact h
      · exact h.finishAligning
    · exact h
  | limitFastOpenRequest =>
    refine ⟨_, rfl, ?_⟩
    split
    · exact h.withLimits.takeFastOpen
    · exact h
  | limitEnterRequest =>
    refine ⟨_, rfl, ?_⟩
    split
    · exact h.withLimits.takeEnterRequest
    · exact h
  | pullInTimerExpiry coil => exact ⟨_, rfl, h.withCoil.ite h⟩
  | coilSenseChange coil current => exact ⟨_, rfl, h.withCoil⟩
  | openCoilIntervalExpiry coil => exact ⟨_, rfl, h.withCoil.coilFault.ite h⟩
  | feedbackInputChange contactor closed => exact ⟨_, rfl, h.withFeedback⟩
  | feedbackDebounceExpiry contactor => exact ⟨_, rfl, h.withFeedback.sequencerFeedback.ite h⟩
  | stepTimerExpiry =>
    refine ⟨_, rfl, ?_⟩
    split
    · split
      · exact h
      · exact h.stepTimerExpired
    · exact h
  | deferTimerExpiry => exact ⟨_, rfl, h.deferExpired.ite h⟩
  | entryStart =>
    have hq : Kept s (s.withChain { s.chain with forwardQueue := [] }) :=
      h.withChain_of (fun _ => Nat.zero_le _) fun hf => hf.trims
    exact ⟨_, rfl, hq.answerQueueBusy.withSleep.claimLink.ite h⟩
  | entryCompletion =>
    refine ⟨_, rfl, ?_⟩
    split
    · split
      · exact h
      · split
        · exact h
        · exact h.completeEntry
    · exact h
  | watchTimerExpiry => exact ⟨_, rfl, h.withSleep.claimLink.ite h⟩
  | chainWakeTimerExpiry =>
    refine ⟨_, rfl, ?_⟩
    split
    · dsimp only
      split
      · exact h.withSleep.ite h.withSleep.watchPass
      all_goals exact h.withSleep
    · exact h
  | wakeInChange high =>
    refine ⟨_, rfl, ?_⟩
    split
    · exact h
    · dsimp only
      split
      · exact h.withSleep.detectChange
      · exact h.withSleep
  | wakeInHoldExpiry => exact ⟨_, rfl, h.withSleep.wakeCause.ite h⟩
  | wakingEnd => exact ⟨_, rfl, h.endWaking.ite h⟩
  | blockEraseComplete =>
    refine ⟨_, rfl, ?_⟩
    split
    · exact h.eraseDone
    all_goals exact h
  | rowProgramComplete =>
    refine ⟨_, rfl, ?_⟩
    split
    · exact h.programDone
    all_goals exact h
  | verificationEnd => exact ⟨_, rfl, h.verified.ite h⟩
  | slotPointerWriteComplete =>
    refine ⟨_, rfl, ?_⟩
    split
    · exact h.pointerDone
    all_goals exact h
  | counterWriteComplete =>
    refine ⟨_, rfl, ?_⟩
    split
    · exact h.withTables
    all_goals exact h
  | reload =>
    refine ⟨_, rfl, ?_⟩
    split
    · split
      · exact h
      · exact h.reload
    · exact h
  | tamperInputChange active => exact ⟨_, rfl, h.withTables⟩
  | tamperDebounceExpiry => exact ⟨_, rfl, (h.withTables.tamperAssertion.ite h.withTables).ite h⟩
  | chainReplyStart => exact ⟨_, rfl, h.replyStarts.ite h.hearUnasked⟩
  | _ => exact keptBy_of_row (by decide) s

/-- The link rate may be read anew, as far as the capacities go. -/
theorem fits_withRate {s : State} (h : Fits s) (rate : LinkRate) : Fits (s.withNorth { s.north with rate := rate }) :=
  { h with commands := h.commands, tx := h.tx }

/-- R21: power-on reset and the release of RST_N keep the capacities too. -/
theorem fits_powerUp {s : State} (h : Fits s) (straps : Straps) : Fits (s.powerUp straps) := by
  have hl : Fits (s.losePower.withPower { s.power with powered := true }) := (Kept.refl s).losePower.withPower.fits h
  have hr := fits_withRate hl (strapRate straps)
  exact ((Kept.refl _).startDebounces.ite (.refl _)).fits hr

theorem fits_rstNHigh {s t : State} (h : Fits s) {straps : Straps} (ht : exec (.rstNHigh straps) s = .next t) :
    Fits t := by
  obtain rfl := Host.Outcome.next.inj ht
  have hp : Fits (s.withPower { s.power with rstNLow := false }) := (Kept.refl s).withPower.fits h
  split
  · dsimp only
    split
    · exact (Kept.refl _).startDebounces.fits (fits_withRate hp (strapRate straps))
    · exact hp
  · exact h

theorem fits_exec {i : Instr} {s t : State} (h : Fits s) (ht : exec i s = .next t) : Fits t := by
  by_cases hp : ∃ straps, i = .powerOnReset straps
  · obtain ⟨straps, rfl⟩ := hp
    obtain rfl := Host.Outcome.next.inj ht
    exact fits_powerUp h straps
  · by_cases hh : ∃ straps, i = .rstNHigh straps
    · obtain ⟨straps, rfl⟩ := hh
      exact fits_rstNHigh h ht
    · obtain ⟨u, hu, hk⟩ := keptBy_of_ne s (fun straps he => hp ⟨straps, he⟩) (fun straps he => hh ⟨straps, he⟩)
      rw [hu] at ht
      obtain rfl := Host.Outcome.next.inj ht
      exact hk.fits h

theorem fits_step {s t : State} (h : Fits s) (ht : step s = .next t) : Fits t := by
  unfold step at ht
  split at ht
  · obtain rfl := Host.Outcome.next.inj ht
    exact (Kept.refl s).elapse.fits h
  · next rest _ =>
    have hp : Fits (s.withPending rest) := { h with commands := h.commands }
    exact fits_exec hp ht

/-- Settles O58: every operation keeps the capacities, so every command and every microtick does. -/
theorem stepKeepsCapacities : Obligations.StepKeepsCapacities := by
  intro s t hc ho ht
  exact fits_iff.mp (fits_step (fits_iff.mpr ⟨hc, ho⟩) ht)

end Sys2Proof.Machine
end

section
/-! ### The link rate (R1) -/

namespace Sys2Proof.Machine

theorem powerUp_rate (s : State) (straps : Straps) : (s.powerUp straps).north.rate = strapRate straps := by
  unfold State.powerUp
  dsimp only
  split <;> rfl

theorem rstNHigh_rate {s : State} (h : s.power = ⟨true, true⟩) (straps : Straps) :
    ∃ t, exec (.rstNHigh straps) s = .next t ∧ t.north.rate = strapRate straps :=
  ⟨_, rfl, by simp [h, State.startDebounces]⟩

theorem strapRate_eq (lr1 lr0 : Bool) :
    strapRate ⟨lr1, lr0⟩ =
      (match lr1, lr0 with
       | false, false => LinkRate.mbit1
       | false, true => LinkRate.mbit2
       | true, false => LinkRate.mbit4
       | true, true => LinkRate.mbit8) := by
  cases lr1 <;> cases lr0 <;> rfl

/-- Settles O5: the two resets that read the straps set the rate, and every other command keeps it. -/
theorem linkRateFollowsTheStraps : Obligations.LinkRateFollowsTheStraps := by
  refine ⟨fun lr1 lr0 s => ⟨_, rfl, ?_⟩, fun lr1 lr0 s hp => ?_, fun i s t hp hh ht => ?_, fun s r => rfl⟩
  · exact (powerUp_rate s _).trans (strapRate_eq lr1 lr0)
  · obtain ⟨t, ht, hr⟩ := rstNHigh_rate hp ⟨lr1, lr0⟩
    exact ⟨t, ht, hr.trans (strapRate_eq lr1 lr0)⟩
  · obtain ⟨u, hu, hk⟩ := keptBy_of_ne s hp hh
    rw [hu] at ht
    obtain rfl := Host.Outcome.next.inj ht
    exact hk.rate

end Sys2Proof.Machine
end

section
/-! ### The passing of time (log 1) -/

namespace Sys2Proof.Machine

theorem PerContactor.get_map {α β : Type} (f : α → β) (p : PerContactor α) (c : Contactor) :
    (p.map f).get c = f (p.get c) := by
  cases c <;> rfl

theorem PerContactor.map_map {α β γ : Type} (f : α → β) (g : β → γ) (p : PerContactor α) :
    (p.map f).map g = p.map fun x => g (f x) := rfl

theorem elapse_operating {s : State} (h : s.power = ⟨true, false⟩) (n : Nat) :
    elapse n s = (s.elapseArray n).elapseBlocks n := by
  simp [elapse, h]

theorem elapse_inReset {s : State} (h : s.power = ⟨true, true⟩) (n : Nat) : elapse n s = s.elapseArray n := by
  simp [elapse, h]

theorem elapse_unpowered {s : State} (h : s.power.powered = false) (n : Nat) : elapse n s = s := by
  simp [elapse, h]

/-! Two spans of time, one behind the other. -/

theorem runDown_runDown (m n : Nat) (t : Option Nat) : runDown n (runDown m t) = runDown (m + n) t := by
  cases t <;> simp [runDown, Nat.sub_sub]

theorem stampAdd_stampAdd (a : Stamp) (m n : Nat) : stampAdd (stampAdd a m) n = stampAdd a (m + n) := by
  simp only [stampAdd, BitVec.ofNat_add, BitVec.add_assoc]

theorem CoilDriver.elapse_elapse (m n : Nat) (d : CoilDriver) : (d.elapse m).elapse n = d.elapse (m + n) := by
  simp [CoilDriver.elapse, runDown_runDown]

theorem DebouncedInput.elapse_elapse (m n : Nat) (d : DebouncedInput) : (d.elapse m).elapse n = d.elapse (m + n) := by
  simp [DebouncedInput.elapse, runDown_runDown]

theorem Transaction.elapse_elapse (m n : Nat) (t : Transaction) : (t.elapse m).elapse n = t.elapse (m + n) := by
  obtain ⟨f, phase⟩ := t
  cases phase <;> simp [Transaction.elapse, TxnPhase.elapse, Nat.sub_sub]

theorem Enumeration.elapse_elapse (m n : Nat) (e : Enumeration) : (e.elapse m).elapse n = e.elapse (m + n) := by
  cases e <;> simp [Enumeration.elapse, runDown_runDown]

theorem ChainPort.elapse_elapse (m n : Nat) (c : ChainPort) : (c.elapse m).elapse n = c.elapse (m + n) := by
  simp [ChainPort.elapse, Function.comp_def, Transaction.elapse_elapse, Enumeration.elapse_elapse]

theorem PackReference.elapse_elapse (m n : Nat) (r : PackReference) : (r.elapse m).elapse n = r.elapse (m + n) := by
  simp only [PackReference.elapse, PackReference.mk.injEq, true_and]
  omega

theorem CurrentPort.elapse_elapse (m n : Nat) (c : CurrentPort) : (c.elapse m).elapse n = c.elapse (m + n) := by
  simp [CurrentPort.elapse, Function.comp_def, runDown_runDown, PackReference.elapse_elapse]

theorem Sequencer.elapse_elapse (m n : Nat) (q : Sequencer) : (q.elapse m).elapse n = q.elapse (m + n) := by
  simp [Sequencer.elapse, PerContactor.map_map, runDown_runDown, CoilDriver.elapse_elapse,
    DebouncedInput.elapse_elapse]

theorem SleepController.elapse_elapse (m n : Nat) (c : SleepController) : (c.elapse m).elapse n = c.elapse (m + n) := by
  simp [SleepController.elapse, runDown_runDown]

theorem ArrayOperation.elapse_elapse (m n : Nat) (o : ArrayOperation) : (o.elapse m).elapse n = o.elapse (m + n) := by
  simp [ArrayOperation.elapse, Nat.sub_sub]

theorem elapseArray_elapseArray (m n : Nat) (s : State) : (s.elapseArray m).elapseArray n = s.elapseArray (m + n) := by
  simp [State.elapseArray, Function.comp_def, ArrayOperation.elapse_elapse]

theorem elapseBoth_elapseBoth (m n : Nat) (s : State) :
    (((s.elapseArray m).elapseBlocks m).elapseArray n).elapseBlocks n =
      (s.elapseArray (m + n)).elapseBlocks (m + n) := by
  simp [State.elapseArray, State.elapseBlocks, State.withTables, State.withTimebase, State.withChain,
    State.withCurrent, State.withSeq, State.withSleep, Function.comp_def, ArrayOperation.elapse_elapse,
    stampAdd_stampAdd, ChainPort.elapse_elapse, CurrentPort.elapse_elapse, Sequencer.elapse_elapse,
    SleepController.elapse_elapse, DebouncedInput.elapse_elapse]

theorem elapse_elapse (m n : Nat) (s : State) : elapse n (elapse m s) = elapse (m + n) s := by
  rcases hp : s.power with ⟨_ | _, low⟩
  · have h : s.power.powered = false := by rw [hp]
    simp only [elapse_unpowered h]
  · cases low
    · have h : ((s.elapseArray m).elapseBlocks m).power = ⟨true, false⟩ := hp
      rw [elapse_operating hp, elapse_operating h, elapse_operating hp, elapseBoth_elapseBoth]
    · have h : (s.elapseArray m).power = ⟨true, true⟩ := hp
      rw [elapse_inReset hp, elapse_inReset h, elapse_inReset hp, elapseArray_elapseArray]

/-! One microtick. -/

theorem Transaction.elapse_one (t : Transaction) :
    t.elapse 1 =
      match t.phase with
      | .awaiting left => { t with phase := .awaiting (left - 1) }
      | .sending | .receiving => t := by
  obtain ⟨f, phase⟩ := t
  cases phase <;> rfl

theorem ChainPort.elapse_one (c : ChainPort) :
    c.elapse 1 =
      { c with
        transaction := c.transaction.map fun x =>
          match x.phase with
          | .awaiting left => { x with phase := .awaiting (left - 1) }
          | .sending | .receiving => x
        enumeration := match c.enumeration with
          | .running wait => .running (wait.map (· - 1))
          | .notBegun => .notBegun
          | .ended => .ended } := by
  have ht : Transaction.elapse 1 = fun x =>
      match x.phase with
      | .awaiting left => { x with phase := .awaiting (left - 1) }
      | .sending | .receiving => x := funext Transaction.elapse_one
  rw [ChainPort.elapse, ht]
  cases c.enumeration <;> rfl

theorem step_empty {s : State} (h : s.pending = []) : step s = .next (elapse 1 s) := by
  simp [step, h]

theorem elapse_pending (n : Nat) (s : State) : (elapse n s).pending = s.pending := by
  unfold elapse
  repeat' split
  all_goals rfl

/-- Settles O2: the three states of power give what one microtick does, and two spans of time add up block by block. -/
theorem waitingPassesTime : Obligations.WaitingPassesTime := by
  refine ⟨fun s hs => ⟨elapse 1 s, step_empty hs, (elapse_pending 1 s).trans hs, fun hp => ?_, fun hp => ?_, ?_, fun hp =>
    elapse_unpowered hp 1⟩, elapse_elapse⟩
  · rw [elapse_operating hp]
    rfl
  · rw [elapse_inReset hp]
    rfl
  · refine ⟨fun hp => elapse_inReset hp 1, fun hp => ?_⟩
    rw [elapse_operating hp]
    refine ⟨?_, ?_, fun c => ⟨?_, ?_⟩, rfl, rfl, rfl, rfl, by simp⟩
    · exact ChainPort.elapse_one s.chain
    · rfl
    · exact PerContactor.get_map _ _ c
    · exact PerContactor.get_map _ _ c

end Sys2Proof.Machine
end

section
/-! ### Power-on, power loss, RST_N and RESTART (R13, R21, R167, R184) -/

namespace Sys2Proof.Machine

/-! What a reset leaves of the sequencer and of the chain port. -/

theorem afterReset_coils (q : Sequencer) (i : Option Nat) (c : Contactor) :
    (q.afterReset i).coils.get c = .released (q.coils.get c).sense := PerContactor.get_map _ _ c

theorem afterReset_feedback (q : Sequencer) (i : Option Nat) (c : Contactor) :
    (q.afterReset i).feedback.get c =
      ⟨(q.feedback.get c).raw, false, if (q.feedback.get c).raw then i else none⟩ := PerContactor.get_map _ _ c

theorem inReception_iff {c : ChainPort} :
    c.inReception = true ↔ c.unasked = true ∨ ∃ f, c.transaction = some ⟨f, .receiving⟩ := by
  unfold ChainPort.inReception
  rcases c.transaction with _ | ⟨f, _ | n | _⟩ <;> simp

/-- What makes a state blank: the north port, the sequencer, the sleep controller and the blocks of `resetBlocks` at
their reset values, nothing in the chain port but what a reset may keep, and no table loaded. -/
theorem blank_of_reset {t u : State} {q : Sequencer} {i : Option Nat} {rate : LinkRate} {high : Bool} {cs : ChainSleep}
    (ht : Touches [.power, .north, .chain, .seq, .events, .sleep, .tables] u.resetBlocks t)
    (hn : t.north = .powerOn rate)
    (hc : t.chain = { ChainPort.powerOn with
      foundCount := t.chain.foundCount, trims := t.chain.trims, unasked := t.chain.unasked })
    (hq : t.seq = q.afterReset i) (hs : t.sleep = .powerOn high cs) (hw : t.tables.working = none)
    (hv : t.tables.lastVerification = .none) (hm : t.tables.marks = allMarks) : t.blank rate := by
  refine ⟨hn, ?_, ?_, ?_, ?_, ?_, ht .timebase (by decide), ht .lock (by decide), ht .sched (by decide),
    ht .store (by decide), ht .current (by decide), ht .limits (by decide), ?_, fun c => ?_, ?_, fun c => ?_,
    congrArg ProfileController.chain (ht .profiles (by decide)), ?_, hw, hv, hm⟩
  iterate 5
    rw [hc]
    rfl
  · rw [hq]
    rfl
  · rw [hq, afterReset_coils]
    rfl
  · rw [State.noCoilDriven, hq]
    rfl
  · rw [hq, afterReset_feedback]
  · rw [hs]
    rfl

theorem clearVolatile_blank (s : State) : s.clearVolatile.blank s.north.rate :=
  blank_of_reset (u := s) (by simp [State.clearVolatile]) rfl rfl rfl rfl rfl rfl rfl

theorem holdReset_blank (s : State) : s.holdReset.blank s.north.rate :=
  blank_of_reset (u := s) (by simp [State.holdReset]) rfl rfl rfl rfl rfl rfl rfl

theorem beginRestart_blank (s : State) : s.beginRestart.blank s.north.rate :=
  blank_of_reset (u := s) (by simp [State.beginRestart]) rfl rfl rfl rfl rfl rfl rfl

/-- The start of the debounces leaves a blank state blank. -/
theorem startDebounces_blank {t : State} {rate : LinkRate} (h : t.blank rate) : t.startDebounces.blank rate := by
  obtain ⟨h1, h2, h3, h4, h5, h6, h7, h8, h9, h10, h11, h12, hq, hcoil, hoff, hfb, h13, hs, h14, h15, h16⟩ := h
  refine ⟨h1, h2, h3, h4, h5, h6, h7, h8, h9, h10, h11, h12, ?_, hcoil, hoff, fun c => ?_, h13, hs, h14, h15, h16⟩
  · have hq' := congrArg (fun x : Sequencer =>
      { x with feedback := t.seq.feedback.map fun d : DebouncedInput => d.rerun startUpDebounce }) hq
    exact hq'
  · exact (congrArg DebouncedInput.debounced (PerContactor.get_map _ _ c)).trans (hfb c)

/-- Reading the straps leaves a blank state blank, at the new rate. -/
theorem withRate_blank {t : State} {rate : LinkRate} (h : t.blank rate) (rate' : LinkRate) :
    (t.withNorth { t.north with rate := rate' }).blank rate' := by
  obtain ⟨hn, hrest⟩ := h
  refine ⟨?_, hrest⟩
  rw [State.withNorth_north, hn]

theorem stopOp_idle {s : State} (h : s.tables.operation = none) : s.stopOp = s := by
  simp [State.stopOp, h]

/-- R21: the state in which power comes up, before the debounces start. -/
def State.poweredUp (s : State) (straps : Straps) : State :=
  (s.clearVolatile.withPower ⟨true, s.power.rstNLow⟩).withNorth (.powerOn (strapRate straps))

theorem powerUp_eq {s : State} (h : s.tables.operation = none) (straps : Straps) :
    s.powerUp straps =
      if s.power.rstNLow = true then s.poweredUp straps else (s.poweredUp straps).startDebounces := by
  have hl : s.losePower = s.clearVolatile.withPower ⟨false, s.power.rstNLow⟩ := by
    rw [State.losePower, stopOp_idle h]
  unfold State.powerUp
  rw [hl]
  cases hlow : s.power.rstNLow
  · simp only [State.operating, State.poweredUp, hlow]
    rfl
  · simp only [State.operating, State.poweredUp, hlow]
    rfl

theorem poweredUp_blank (s : State) (straps : Straps) : (s.poweredUp straps).blank (strapRate straps) :=
  withRate_blank (t := s.clearVolatile.withPower ⟨true, s.power.rstNLow⟩) (clearVolatile_blank s) (strapRate straps)

/-- R102, R184: a debounced input whose debounce starts at a reset. -/
theorem rerun_reset (level : Bool) (time : Nat) :
    DebouncedInput.rerun ⟨level, false, none⟩ time = ⟨level, false, if level = true then some time else none⟩ := by
  cases level <;> rfl

theorem poweredUp_feedback (s : State) (straps : Straps) (c : Contactor) :
    (s.poweredUp straps).seq.feedback.get c = ⟨(s.seq.feedback.get c).raw, false, none⟩ := by
  refine (afterReset_feedback s.seq none c).trans ?_
  rw [ite_self]

theorem powerUp_feedback {s : State} (h : s.tables.operation = none) (straps : Straps) (c : Contactor) :
    (s.powerUp straps).seq.feedback.get c =
      ⟨(s.seq.feedback.get c).raw, false,
        if (s.seq.feedback.get c).raw = true ∧ s.power.rstNLow = false then some 15000 else none⟩ := by
  rw [powerUp_eq h]
  cases s.power.rstNLow
  · refine (PerContactor.get_map _ _ c).trans ?_
    rw [poweredUp_feedback, rerun_reset]
    simp [startUpDebounce, ms]
  · simp [poweredUp_feedback]

theorem powerUp_tamper {s : State} (h : s.tables.operation = none) (straps : Straps) :
    (s.powerUp straps).tables.tamper =
      ⟨s.tables.tamper.raw, false,
        if s.tables.tamper.raw = true ∧ s.power.rstNLow = false then some 10000 else none⟩ := by
  rw [powerUp_eq h]
  cases s.power.rstNLow
  · refine (rerun_reset s.tables.tamper.raw tamperDebounce).trans ?_
    simp [tamperDebounce, ms]
  · simp only [Bool.true_eq_false, and_false, if_false, if_true]
    rfl

theorem powerUp_sense {s : State} (h : s.tables.operation = none) (straps : Straps) (c : Contactor) :
    ((s.powerUp straps).seq.coils.get c).sense = (s.seq.coils.get c).sense := by
  have hc := congrArg CoilDriver.sense (afterReset_coils s.seq none c)
  rw [powerUp_eq h]
  split <;> exact hc

/-! #### Power loss (R167, R168, R179) -/

theorem freeBytes_length (i n : Nat) : (freeBytes i n).length = n := by
  induction n generalizing i with
  | zero => rfl
  | succ n ih => rw [freeBytes, List.length_cons, ih]

/-- R167: a power loss leaves every byte outside the block being erased or the bytes being programmed. -/
theorem stopOp_read {s : State} (h : ArraySafe s) {a : Nat}
    (he : ∀ block tamper left, s.tables.operation = some ⟨.erase block tamper, left⟩ →
      ¬ (block * 2048 ≤ a ∧ a < block * 2048 + 2048))
    (hp : ∀ address bytes left, s.tables.operation = some ⟨.program address bytes, left⟩ →
      ¬ (address ≤ a ∧ a < address + bytes.length)) :
    Memory.read s.stopOp.tables.array a = Memory.read s.tables.array a := by
  obtain ⟨hwf, hop, _⟩ := h
  cases ho : s.tables.operation with
  | none => rw [stopOp_idle ho]
  | some o =>
    obtain ⟨op, left⟩ := o
    have hin := hop _ ho
    cases op with
    | erase block tamper =>
      have hb := he block tamper left ho
      simp only [ArrayOp.inSlots, decide_eq_true_eq] at hin
      simp only [State.stopOp, ho, State.withFreeIndex_tables, State.withTables_tables]
      refine Memory.read_writeBytes_outside ?_ hwf ?_ <;> simp only [freeBytes_length, blockSize, arraySize] <;> omega
    | program address bytes =>
      have hb := hp address bytes left ho
      simp only [ArrayOp.inSlots, decide_eq_true_eq] at hin
      simp only [State.stopOp, ho, State.withFreeIndex_tables, State.withTables_tables]
      refine Memory.read_writeBytes_outside ?_ hwf ?_ <;> simp only [freeBytes_length]
      · exact hin
      · omega
    | pointerWrite slot => simp only [State.stopOp, ho, State.withTables_tables]
    | counterWrite v loading => cases loading <;> simp [State.stopOp, ho]

/-- R167: a power loss leaves the counter, or gives it the value of start-up loading's write whole. -/
theorem stopOp_counter_or (s : State) :
    s.stopOp.tables.counter = s.tables.counter ∨
      ∃ left, s.tables.operation = some ⟨.counterWrite s.stopOp.tables.counter true, left⟩ := by
  by_cases h : ∃ v left, s.tables.operation = some ⟨.counterWrite v true, left⟩
  · obtain ⟨v, left, ho⟩ := h
    have hc : s.stopOp.tables.counter = if Config.freeChoice s.freeIndex then v else s.tables.counter := by
      simp [State.stopOp, ho]
    rw [hc]
    split
    · exact .inr ⟨left, ho⟩
    · exact .inl rfl
  · exact .inl (stopOp_counter fun v left ho => h ⟨v, left, ho⟩)

theorem stopOp_chain (s : State) : s.stopOp.chain = s.chain :=
  (touches_stopOp (List.Subset.refl _)).mpr (touches_refl _ s) .chain (by decide)

theorem losePower_unasked (s : State) : s.losePower.chain.unasked = s.stopOp.chain.inReception := rfl

theorem losePower_array (s : State) : s.losePower.tables.array = s.stopOp.tables.array := rfl

theorem losePower_slotPointer (s : State) : s.losePower.tables.slotPointer = s.stopOp.tables.slotPointer := rfl

theorem losePower_counter (s : State) : s.losePower.tables.counter = s.stopOp.tables.counter := rfl

/-- The start of the debounces changes the sequencer and the TAMPER input only. -/
theorem powerUp_shape {s : State} (h : s.tables.operation = none) (straps : Straps) :
    ∃ q x, s.powerUp straps =
      ((s.poweredUp straps).withSeq q).withTables { (s.poweredUp straps).tables with tamper := x } := by
  rw [powerUp_eq h]
  split
  · exact ⟨_, _, rfl⟩
  · exact ⟨_, _, rfl⟩

theorem touches_poweredUp (s : State) (straps : Straps) :
    Touches [.power, .north, .chain, .timebase, .lock, .sched, .store, .current, .limits, .seq, .events, .profiles,
      .sleep, .tables] s (s.poweredUp straps) := by
  simp [State.poweredUp]

theorem powerUp_blank {s : State} (h : s.tables.operation = none) (straps : Straps) :
    (s.powerUp straps).blank (strapRate straps) := by
  rw [powerUp_eq h]
  split
  · exact poweredUp_blank s straps
  · exact startDebounces_blank (poweredUp_blank s straps)

/-- Settles O6: a power-on reset leaves a blank state and what the array holds; a power loss leaves the array but where
an operation was at work. -/
theorem powerOnAndPowerLoss : Obligations.PowerOnAndPowerLoss := by
  refine ⟨fun straps s h => ⟨_, rfl, ?_⟩, fun s hp h => ⟨s.losePower, ?_, rfl, rfl, rfl, rfl, ?_, fun a he hb => ?_, ?_,
    fun hc => ?_, ?_⟩⟩
  · have hblank := powerUp_blank h straps
    have hfeedback := fun c => And.intro (powerUp_feedback h straps c) (powerUp_sense h straps c)
    have htamper := powerUp_tamper h straps
    obtain ⟨q, x, he⟩ := powerUp_shape h straps
    rw [he] at hblank hfeedback htamper ⊢
    have hkept := touches_poweredUp s straps
    exact ⟨hblank, rfl, rfl, rfl, rfl, rfl, rfl, rfl, rfl, rfl, rfl, rfl, rfl, rfl, rfl, rfl, rfl, rfl, rfl,
      hkept .freeIndex (by decide), hkept .pending (by decide), inReception_iff, hfeedback, htamper⟩
  · simp [exec, execPowerLoss, hp]
  · rw [losePower_unasked, stopOp_chain]
    exact inReception_iff
  · rw [losePower_array]
    exact stopOp_read h he hb
  · rw [losePower_slotPointer, stopOp_pointer]
  · rw [losePower_counter, stopOp_counter hc]
  · rw [losePower_counter]
    exact stopOp_counter_or s

end Sys2Proof.Machine
end

section
/-! ### RST_N and the in-band restart (R13, R21, R184) -/

namespace Sys2Proof.Machine

theorem engineAfterReset_eq (t : TableStore) :
    t.engineAfterReset =
      match t.engine with
      | .locked cause => .locked cause
      | .activating => if t.tamperLatch then .locked .tamper else .idle
      | .idle | .erasing | .programming | .verifying | .verified => .idle := by
  unfold TableStore.engineAfterReset
  cases t.engine <;> rfl

theorem latchedActivating_iff (t : TableStore) :
    t.latchedActivating = true ↔ t.engine = .activating ∧ t.tamperLatch = true := by
  simp [TableStore.latchedActivating]

/-- R184: what RST_N and RESTART leave of the table store, as the manual words it. -/
theorem afterReset_eq (t : TableStore) :
    t.afterReset =
      { t with
        engine := match t.engine with
          | .locked cause => .locked cause
          | .activating => if t.tamperLatch then .locked .tamper else .idle
          | .idle | .erasing | .programming | .verifying | .verified => .idle
        lastVerification := .none
        marks := allMarks
        tamperErase := if t.engine = .activating ∧ t.tamperLatch = true then some 0 else t.tamperErase
        startUp := .waiting
        working := none } := by
  simp only [TableStore.afterReset, engineAfterReset_eq, latchedActivating_iff]

theorem touches_holdReset_all (s : State) :
    Touches [.power, .north, .chain, .timebase, .lock, .sched, .store, .current, .limits, .seq, .events, .profiles,
      .sleep, .tables] s s.holdReset := by
  simp

theorem touches_beginRestart_all (s : State) :
    Touches [.north, .chain, .timebase, .lock, .sched, .store, .current, .limits, .seq, .profiles, .sleep, .tables] s
      s.beginRestart := by
  simp

theorem rerun_eq (d : DebouncedInput) (time : Nat) :
    d.rerun time = ⟨d.raw, d.debounced, if d.raw = d.debounced then none else some time⟩ := by
  obtain ⟨raw, debounced, interval⟩ := d
  cases raw <;> cases debounced <;> rfl

/-- Settles O7: RST_N low leaves a blank state and the table store after a reset; RST_N high starts the debounces. -/
theorem resetLineClears : Obligations.ResetLineClears := by
  refine ⟨fun s hp => ⟨s.holdReset, ?_, holdReset_blank s, ?_, rfl, rfl, inReception_iff, rfl, rfl, rfl, fun c => ?_, ?_,
    ?_, ?_⟩, fun straps s hp => ?_, fun straps s => ⟨fun hp => ?_, fun hp => ?_, fun hp => ?_, fun hp => ?_⟩⟩
  · simp [exec, execRstNLow, hp]
  · simp [State.holdReset, hp]
  · have hcoil := congrArg CoilDriver.sense (afterReset_coils s.seq none c)
    refine ⟨hcoil, (afterReset_feedback s.seq none c).trans ?_⟩
    rw [ite_self]
  · exact congrArg (fun u : TableStore => { u with tamper := { s.tables.tamper with interval := none } })
      (afterReset_eq s.tables)
  · exact touches_holdReset_all s .freeIndex (by decide)
  · exact touches_holdReset_all s .pending (by decide)
  · simp only [exec, execRstNHigh, hp, if_true, State.startDebounces, startUpDebounce, tamperDebounce, ms, rerun_eq,
      PerContactor.map]
    rfl
  · simp [exec, execRstNLow, hp]
  · simp [exec, execRstNHigh, hp]
  · simp [exec, execRstNLow, hp]
  · simp [exec, execRstNHigh, hp]

theorem restartDue_iff {s : State} :
    s.restartDue = true ↔ s.power = ⟨true, false⟩ ∧ s.north.restartTaken = true ∧ s.chain.transaction = none ∧
      s.north.holding = none ∧ s.chain.keptReplies = [] ∧ s.north.tx = [] := by
  simp [State.restartDue, operating_iff, and_assoc]

theorem beginRestart_chain (s : State) :
    s.beginRestart.chain = { s.chain.abandoned with foundCount := s.chain.foundCount, trims := s.chain.trims } := rfl

theorem beginRestart_sleep (s : State) :
    s.beginRestart.sleep = .powerOn s.sleep.wakeInHigh s.sleep.chainSleep := rfl

/-- Settles O8: RESTART is answered OK with the command list emptied, and the restart itself leaves a blank state but for
what it keeps. -/
theorem restartIsTakenAndBegins : Obligations.RestartIsTakenAndBegins := by
  refine ⟨fun s hp hr ht hh hk hx => ⟨s.beginRestart, ?_, beginRestart_blank s, ?_, ?_, ?_, ?_, ?_, ?_, ?_,
    fun c => ⟨?_, ?_⟩, ?_, ?_, ?_⟩, fun s c htake harg => ?_⟩
  · have hdue : s.restartDue = true := restartDue_iff.mpr ⟨hp, hr, ht, hh, hk, hx⟩
    simp [exec, execRestartBegin, hdue]
  · exact touches_beginRestart_all s .events (by decide)
  · rw [beginRestart_chain]
  · rw [beginRestart_chain]
  · have hu : s.beginRestart.chain.unasked = s.chain.inReception := rfl
    rw [hu, ChainPort.inReception, ht]
    exact Bool.or_false _
  · rw [beginRestart_sleep]
    rfl
  · rw [beginRestart_sleep]
    rfl
  · exact touches_beginRestart_all s .power (by decide)
  · have hcoil := congrArg CoilDriver.sense (afterReset_coils s.seq (some startUpDebounce) c)
    exact hcoil
  · exact afterReset_feedback s.seq (some startUpDebounce) c
  · exact afterReset_eq s.tables
  · exact touches_beginRestart_all s .freeIndex (by decide)
  · exact touches_beginRestart_all s .pending (by decide)
  · exact congrArg Host.Outcome.next (takeCommand_body htake harg)

end Sys2Proof.Machine
end

section
/-! ### North link frames in assembly, the forward filter and the transmit queue (R2 to R6, R18) -/

namespace Sys2Proof.Machine

theorem operating_of {s : State} (h : s.power = ⟨true, false⟩) : s.operating = true := operating_iff.mpr h

theorem not_operating_of {s : State} (h : s.power ≠ ⟨true, false⟩) : s.operating = false :=
  Bool.eq_false_iff.mpr fun ho => h (operating_iff.mp ho)

/-- R3: what breaking off the frame in assembly does. -/
theorem truncateFrame_eq (s : State) :
    s.truncateFrame =
      s.withNorth
        { s.north with
          sticky :=
            { s.north.sticky with linkError := s.north.sticky.linkError || s.north.receiver.assemblingAwake } } := by
  unfold State.truncateFrame
  rcases s.north.receiver with _ | ⟨d, _ | _⟩
  · simp only [Receiver.assemblingAwake, Bool.or_false]
    rfl
  · simp only [Receiver.assemblingAwake, Bool.or_true]
    rfl
  · simp only [Receiver.assemblingAwake, Bool.or_false]
    rfl

/-- R165: what a reported CMD frame does. -/
theorem reportCommand_eq (s : State) :
    s.reportCommand =
      s.withSleep { s.sleep with wakeOut := s.sleep.wakeOut && !(s.sleep.power == .active) } := by
  unfold State.reportCommand
  cases s.sleep.power
  · simp
  all_goals
    simp only [reduceCtorEq, if_false, beq_eq_decide, decide_false, Bool.not_false, Bool.and_true]
    rfl

/-- The port with the frame in assembly taken out. -/
def State.receiverIdle (s : State) : State := s.withNorth { s.north with receiver := .idle }

theorem execNorthFrameComplete_awake {s : State} {d : Stamp} {bytes : List Byte} (hp : s.power = ⟨true, false⟩)
    (hr : s.north.receiver = .assembling d false) :
    exec (.northFrameComplete bytes) s = .next (s.receiverIdle.frameComplete d bytes) := by
  simp [exec, execNorthFrameComplete, operating_of hp, hr, State.receiverIdle]

theorem execNorthFrameComplete_accepted {s : State} {d : Stamp} {bytes : List Byte} {f : NorthFrame}
    (hp : s.power = ⟨true, false⟩) (hr : s.north.receiver = .assembling d false)
    (hf : acceptNorthFrame bytes = some f) :
    exec (.northFrameComplete bytes) s = .next (s.receiverIdle.routeFrame d f) := by
  rw [execNorthFrameComplete_awake hp hr, State.frameComplete, hf]

/-- Settles O13: what each event of a frame in assembly does, and where a CMD frame goes. -/
theorem framesAreDiscardedOrJoinTheList : Obligations.FramesAreDiscardedOrJoinTheList := by
  refine ⟨⟨fun s hp hd => ?_, fun s hp => ?_, fun s d bytes hp hr hf => ?_, fun s d bytes hp hr => ?_⟩,
    fun s d bytes f hp hr hf hk => ?_⟩
  · simp [exec, execStartDelimiter, operating_of hp, hd, truncateFrame_eq]
  · simp [exec, execReceiveIdleTimeout, operating_of hp, truncateFrame_eq]
  · rw [execNorthFrameComplete_awake hp hr, State.frameComplete, hf]
    rfl
  · simp [exec, execNorthFrameComplete, operating_of hp, hr]
  · rw [execNorthFrameComplete_accepted hp hr hf, State.routeFrame, hk]
    simp only [State.joinCommands, reportCommand_eq]
    by_cases hl : s.north.commands.length < 4
    · rw [if_pos (by exact hl), if_pos hl]
      rfl
    · rw [if_neg (by exact hl), if_neg hl]
      rfl

/-! #### The forward filter (R18) -/

theorem fwdClassOf_eq (code : Byte) :
    fwdClassOf code =
      (if code.toNat < 0x40 then .read else if code.toNat < 0x80 then .balance
       else if code.toNat < 0xC0 then .config else .diag) := by
  have hlt := code.isLt
  have hx : (code.extractLsb' 6 2).toNat = code.toNat / 64 := by
    rw [BitVec.extractLsb'_toNat, Nat.shiftRight_eq_div_pow]
    omega
  unfold fwdClassOf
  rw [hx]
  split
  · next h => rw [if_pos (by omega)]
  · next h => rw [if_neg (by omega), if_pos (by omega)]
  · next h => rw [if_neg (by omega), if_neg (by omega), if_pos (by omega)]
  · next h0 h1 h2 =>
    have h0 : code.toNat / 64 ≠ 0 := h0
    have h1 : code.toNat / 64 ≠ 1 := h1
    have h2 : code.toNat / 64 ≠ 2 := h2
    rw [if_neg (by omega), if_neg (by omega), if_neg (by omega)]

theorem next_refuseForward (s : State) (f : NorthFrame) :
    (Host.Outcome.next (s.refuseForward f) : Host.Outcome State Fault Refusal) =
      if s.mayAdd .filter = true then .next (s.enqueueTx .filter f)
      else .next (s.withNorth { s.north with holding := some f }) :=
  apply_ite Host.Outcome.next _ _ _

/-- R18: the filter's decision, check by check. -/
theorem filterForward_eq {s : State} {f : NorthFrame} (h : s.north.holding = none) :
    s.filterForward f =
      if s.north.restartTaken = true ∨ s.sleep.power = .sleepPending then
        s.refuseForward (fwdReply f.dest f.tag .busy [])
      else if s.tablesLoaded = false then s.refuseForward (fwdReply f.dest f.tag .notAllowed [])
      else if s.permits f.fwdClass = false then s.refuseForward (fwdReply f.dest f.tag .blocked [])
      else if 4 ≤ s.chain.forwardQueue.length then s.refuseForward (fwdReply f.dest f.tag .queueFull [])
      else
        s.withChain
          { s.chain with forwardQueue := s.chain.forwardQueue ++ [⟨f.dest, f.tag, f.fwdClass, f.payload⟩] } := by
  have hr : s.filterRefusal f.fwdClass =
      if s.north.restartTaken = true ∨ s.sleep.power = .sleepPending then some .busy
      else if s.tablesLoaded = false then some .notAllowed
      else if s.permits f.fwdClass = false then some .blocked
      else if 4 ≤ s.chain.forwardQueue.length then some .queueFull
      else none := by
    simp [State.filterRefusal]
  rw [State.filterForward, h, hr]
  simp only [Option.isSome_none, Bool.false_eq_true, if_false]
  repeat' split
  all_goals simp_all

/-- Settles O14: the filter refuses or queues a FWD frame by the checks of R18 in order. -/
theorem forwardFilterDecides : Obligations.ForwardFilterDecides := by
  refine ⟨fun s d bytes f hp hr hf hk => ⟨fun hh => ?_, fun hh => ?_⟩, fwdClassOf_eq⟩
  · rw [execNorthFrameComplete_accepted hp hr hf, State.routeFrame, hk]
    have hs : s.receiverIdle.north.holding.isSome = true := Option.isSome_iff_ne_none.mpr hh
    simp only [State.filterForward, hs, if_true]
    rfl
  · have hnone : s.receiverIdle.north.holding = none := hh
    rw [execNorthFrameComplete_accepted hp hr hf, State.routeFrame, hk]
    simp only [filterForward_eq hnone, apply_ite Host.Outcome.next, next_refuseForward]
    rfl

/-! #### The transmit queue (R5) -/

theorem decoderWaits_iff {s : State} :
    s.decoderWaits = true ↔ s.power = ⟨true, false⟩ ∧ s.tables.startUp = .ended ∧ s.north.restartTaken = false ∧
      s.north.commands ≠ [] := by
  simp [State.decoderWaits, operating_iff, and_assoc]

theorem mem_nextClaims_of_full {s : State} {p : Producer} (hfull : s.north.tx.length = 8)
    (hclaims : ∀ r ∈ s.north.claims, s.waits r = false) : p ∈ s.nextClaims ↔ s.waits p = true := by
  have hc : s.claimants = [] := List.filter_eq_nil_iff.mpr fun r hr => by simp [hclaims r hr]
  have hall : p ∈ [Producer.decoder, .filter, .chainPort] := by cases p <;> decide
  rw [State.nextClaims, hc, State.txFull, if_pos (by simp [hfull]), List.mem_filter]
  exact and_iff_right hall

theorem frameLeaves_waits (s : State) (p : Producer) : s.frameLeaves.waits p = s.waits p := by
  cases p <;> rfl

theorem exec_northFrameSent {s : State} (hp : s.power = ⟨true, false⟩) :
    exec .northFrameSent s = .next s.frameLeaves := by
  simp [exec, execNorthFrameSent, operating_of hp]

/-- Settles O15: who may add to the transmit queue, and to whom a free place belongs. -/
theorem transmitQueueIsFirstInFirstOut : Obligations.TransmitQueueIsFirstInFirstOut := by
  refine ⟨fun s hp => exec_northFrameSent hp, fun s p => ⟨mayAdd_iff, fun f => rfl, rfl, rfl, decoderWaits_iff⟩,
    fun s f hp hf => ?_, fun s f rest hp hf => ?_, fun s t u p q f hp hpq hfull hclaims hwp hwq ht => ?_⟩
  · cases hm : s.mayAdd .filter <;> simp [exec, execHoldingPlaceReplyEnqueue, operating_of hp, hf, hm]
  · cases hm : s.mayAdd .chainPort <;> simp [exec, execChainPortReplyEnqueue, operating_of hp, hf, hm]
  · rw [exec_northFrameSent hp] at ht
    obtain rfl := Host.Outcome.next.inj ht
    have hlen : s.frameLeaves.north.tx.length < 8 := by
      simp [State.frameLeaves, hfull]
    have hmem : ∀ r, s.waits r = true → r ∈ s.frameLeaves.north.claims := fun r hr =>
      (mem_nextClaims_of_full hfull hclaims).mpr hr
    refine ⟨mayAdd_iff.mpr ⟨hlen, .inr ⟨hmem p hwp, (frameLeaves_waits s p).trans hwp⟩⟩,
      mayAdd_iff.mpr ⟨hlen, .inr ⟨hmem q hwq, (frameLeaves_waits s q).trans hwq⟩⟩, fun hu hul huq => ?_⟩
    have hclaims' : ∀ r, r ∈ u.north.claims ↔ r ∈ s.frameLeaves.north.claims ∧ r ≠ p := fun r => by
      simp [hu, State.enqueueTx]
    have hqu : q ∈ u.north.claims := (hclaims' q).mpr ⟨hmem q hwq, hpq.symm⟩
    refine ⟨mayAdd_iff.mpr ⟨hul, .inr ⟨hqu, huq⟩⟩, Bool.eq_false_iff.mpr fun hm => ?_⟩
    obtain ⟨-, hnone | ⟨hpu, -⟩⟩ := mayAdd_iff.mp hm
    · exact Bool.false_ne_true ((hnone q hqu).symm.trans huq)
    · exact ((hclaims' p).mp hpu).2 rfl

end Sys2Proof.Machine
end

section
/-! ### Start-up loading and enumeration (R16, R17, R182) -/

namespace Sys2Proof.Machine

/-! #### The beginning of loading -/

/-- R182: every mark set and the checks begun. -/
def State.checksBegun (s : State) : State := s.withTables { s.tables with startUp := .checking, marks := allMarks }

theorem exec_startUpLoading {s : State} (hp : s.power = ⟨true, false⟩) (hs : s.tables.startUp = .waiting)
    (ho : s.tables.operation = none) : exec .startUpLoading s = .next s.beginLoading := by
  simp [exec, execStartUpLoading, State.loadingDue, operating_of hp, hs, ho]

theorem beginLoading_error {s : State} {r : VerifyReason} (h : s.checkActive = .error r) :
    s.beginLoading = s.checksBegun := by
  have h1 : s.checksBegun.checkActive = .error r := h
  unfold State.checksBegun at h1
  simp only [State.beginLoading, h1]
  rfl

theorem beginLoading_ok {s : State} {w : WorkingTables} (h : s.checkActive = .ok w) :
    s.beginLoading =
      if s.tables.counter < w.version then
        (s.checksBegun.withChain { s.chain with trims := List.replicate 20 none }).beginOp
          (.counterWrite w.version true) counterTime
      else s.checksBegun := by
  have h1 : s.checksBegun.checkActive = .ok w := h
  unfold State.checksBegun at h1
  simp only [State.beginLoading, h1]
  rfl

/-! #### The end of loading -/

/-- R181: the operation in flight once start-up loading no longer holds a tamper erase back. -/
def State.resumedOperation (s : State) : Option ArrayOperation :=
  match s.tables.operation, s.tables.tamperErase with
  | none, some b =>
    if s.tables.engine = .locked .tamper then some ⟨.erase (s.stagingSlot.firstBlock + b) true, 20000⟩ else none
  | o, _ => o

theorem withOperation_self {s : State} {o : Option ArrayOperation} (h : o = s.tables.operation) :
    s.withTables { s.tables with operation := o } = s := by
  subst h
  rfl

theorem kickTamper_eq {s : State} (hs : s.tables.startUp ≠ .waiting) :
    s.kickTamper = s.withTables { s.tables with operation := s.resumedOperation } := by
  cases ho : s.tables.operation with
  | some o =>
    have hr : s.resumedOperation = s.tables.operation := by simp [State.resumedOperation, ho]
    rw [kickTamper_rests (.inr (.inr (.inl (by simp [ho])))), withOperation_self hr]
  | none =>
    cases hb : s.tables.tamperErase with
    | none =>
      have hr : s.resumedOperation = s.tables.operation := by simp [State.resumedOperation, ho, hb]
      rw [kickTamper_rests (.inr (.inr (.inr hb))), withOperation_self hr]
    | some b =>
      by_cases he : s.tables.engine = .locked .tamper
      · have hr : s.resumedOperation = some ⟨.erase (s.stagingSlot.firstBlock + b) true, 20000⟩ := by
          simp [State.resumedOperation, ho, hb, he]
        rw [kickTamper_begins he hs ho hb, hr]
      · have hr : s.resumedOperation = s.tables.operation := by simp [State.resumedOperation, ho, hb, he]
        rw [kickTamper_rests (.inl he), withOperation_self hr]

/-- R182: the end of loading, past the outcome of the checks. -/
def State.loadingEnded (s : State) : State :=
  (s.withTables { s.tables with startUp := .ended, operation := s.resumedOperation }).withChain
    { s.chain with enumeration := .running none, transaction := some ⟨.chainWake true, .sending⟩ }

theorem kickTamper_beginEnumeration (s : State) :
    (s.withTables { s.tables with startUp := .ended }).kickTamper.beginEnumeration = s.loadingEnded := by
  have hs : (s.withTables { s.tables with startUp := .ended }).tables.startUp ≠ .waiting := by
    simp
  rw [kickTamper_eq hs]
  rfl

theorem endLoading_eq (s : State) : s.endLoading = (s.loadOutcome s.checkActive).loadingEnded :=
  kickTamper_beginEnumeration (s.loadOutcome s.checkActive)

theorem exec_startUpLoadingEnd {s : State} (hp : s.power = ⟨true, false⟩) (hs : s.tables.startUp = .checking)
    (hc : s.counterWriting = false) :
    exec .startUpLoadingEnd s = .next (s.loadOutcome s.checkActive).loadingEnded := by
  rw [← endLoading_eq]
  simp [exec, execStartUpLoadingEnd, State.loadingEndDue, operating_of hp, hs, hc]

/-- R12, R16: the tables of the active slot with the trims in place of the fine adjusts. -/
def WorkingTables.trimmed (w : WorkingTables) (trims : List (Option Int)) : WorkingTables :=
  w.withModules (applyTrims w.modules.modules trims)

theorem loadOutcome_error (s : State) (r : VerifyReason) :
    s.loadOutcome (.error r) = s.withTables { s.tables with loadResult := .noTables r, working := none } := rfl

theorem loadOutcome_ok (s : State) (w : WorkingTables) :
    s.loadOutcome (.ok w) = s.loadTables (w.trimmed s.chain.trims) := rfl

theorem loadTables_counters {s : State} {w : WorkingTables} {n : Nat} (h : n ∈ (s.loadTables w).sched.counters) :
    n = 0 := by
  obtain ⟨-, -, rfl⟩ := List.mem_map.mp (h : n ∈ freshCounters _)
  rfl

theorem loadTables_runStates {s : State} {w : WorkingTables} {r : RunState}
    (h : r ∈ (s.loadTables w).limits.runStates) : r = ⟨.clear, 0, none⟩ := by
  obtain ⟨-, -, rfl⟩ := List.mem_map.mp (h : r ∈ freshRunStates _)
  rfl

theorem loadTables_base {s : State} {w : WorkingTables} {p : ProfileRecord}
    (h : w.profiles.find? (·.base) = some p) :
    (s.loadTables w).profiles.chain = [⟨p.id, .start, none⟩] ∧
      (s.loadTables w).lock = ⟨.unlocked, none, p.lnom, 0, 0⟩ := by
  have hb : w.baseProfile = some p := h
  simp [State.loadTables, State.loadContext, WorkingTables.baseChain, WorkingTables.baseLnom, hb]

theorem loadTables_limits (s : State) (w : WorkingTables) :
    (s.loadTables w).limits = { s.limits with runStates := freshRunStates (s.loadTables w).limitSet } := rfl

theorem loadTables_sched (s : State) (w : WorkingTables) :
    (s.loadTables w).sched = { s.sched with counters := freshCounters (s.loadTables w).activeSchedule } := rfl

theorem loadingEnded_limits (s : State) : s.loadingEnded.limits = s.limits := rfl

theorem loadingEnded_sched (s : State) : s.loadingEnded.sched = s.sched := rfl

theorem loadingEnded_limitSet (s : State) : s.loadingEnded.limitSet = s.limitSet := rfl

theorem loadingEnded_activeSchedule (s : State) : s.loadingEnded.activeSchedule = s.activeSchedule := rfl

/-- Settles O9: what the beginning and the end of start-up loading do, by what the checks of the active slot say. -/
theorem startUpLoading : Obligations.StartUpLoading := by
  refine ⟨fun s hp hs ho => ⟨fun r hr => ?_, fun w hw hv => ?_, fun w hw hv => ?_⟩, fun s hp hs hc =>
    ⟨_, exec_startUpLoadingEnd hp hs hc, ?_, fun r hr => ?_, fun w hw => ?_⟩, fun s => rfl⟩
  · rw [exec_startUpLoading hp hs ho, beginLoading_error hr]
    rfl
  · rw [exec_startUpLoading hp hs ho, beginLoading_ok hw, if_neg hv]
    rfl
  · rw [exec_startUpLoading hp hs ho, beginLoading_ok hw, if_pos hv]
    rfl
  · cases s.checkActive <;> rfl
  · rw [hr, loadOutcome_error]
    exact ⟨rfl, by simp [State.loadingEnded]⟩
  · rw [hw, loadOutcome_ok]
    refine ⟨rfl, fun p hb => ?_, fun n hn => loadTables_counters hn, fun r hr => loadTables_runStates hr, ?_⟩
    · obtain ⟨hchain, hlock⟩ := loadTables_base (s := s) (w := w.trimmed s.chain.trims) hb
      refine ⟨hchain, hlock, ?_, ?_⟩
      · rw [loadingEnded_limits, loadingEnded_limitSet, loadTables_limits]
        rfl
      · rw [loadingEnded_sched, loadingEnded_activeSchedule, loadTables_sched]
        rfl
    · simp [State.loadingEnded]

end Sys2Proof.Machine
end

section
/-! ### Chain link transactions and the forward queue (R14 to R20) -/

namespace Sys2Proof.Machine

/-! #### The arbiter (R20) -/

theorem arbitrate_none {s : State} (h : s.chain.sleepClaim = none) : s.arbitrate = s := by
  simp [State.arbitrate, h]

theorem arbitrate_busy {s : State} (h : s.linkFree = false) : s.arbitrate = s := by
  unfold State.arbitrate
  split
  · rfl
  · rw [h, if_neg Bool.false_ne_true]

theorem arbitrate_wake {s : State} (hf : s.linkFree = true) (hc : s.chain.sleepClaim = some .wake) :
    s.arbitrate =
      s.withChain { s.chain with sleepClaim := none, transaction := some ⟨.chainWake false, .sending⟩ } := by
  simp [State.arbitrate, hc, hf, State.startTransaction]

theorem arbitrate_sleep {s : State} (hf : s.linkFree = true) (hc : s.chain.sleepClaim = some .sleep) :
    s.arbitrate = s.withChain { s.chain with sleepClaim := none, transaction := some ⟨.chainSleep, .sending⟩ } := by
  simp [State.arbitrate, hc, hf, State.startTransaction]

/-! #### The events of a transaction (R15) -/

theorem exec_chainFrameSent {s : State} {f : ChainFrame} (hp : s.power = ⟨true, false⟩)
    (ht : s.chain.transaction = some ⟨f, .sending⟩) :
    exec .chainFrameSent s = .next (s.frameSent f).arbitrate := by
  simp [exec, execChainFrameSent, operating_of hp, ht]

theorem exec_chainFrameReceived {s : State} (hp : s.power = ⟨true, false⟩) (rx : ChainRx) :
    exec (.chainFrameReceived rx) s = .next (s.frameEnds rx) := by
  simp [exec, execChainFrameReceived, operating_of hp]

theorem exec_chainReplyStart {s : State} (hp : s.power = ⟨true, false⟩) :
    exec .chainReplyStart s = .next s.replyStarts := by
  simp [exec, execChainReplyStart, operating_of hp]

theorem exec_chainReplyTimeout {s : State} {f : ChainFrame} (hp : s.power = ⟨true, false⟩)
    (ht : s.chain.transaction = some ⟨f, .awaiting 0⟩) :
    exec .chainReplyTimeout s = .next (s.transactionEnded f .noReply).arbitrate := by
  simp [exec, execChainReplyTimeout, operating_of hp, ht]

theorem exec_chainFrameReceived_reply {s : State} {f : ChainFrame} (hp : s.power = ⟨true, false⟩)
    (ht : s.chain.transaction = some ⟨f, .receiving⟩) (rx : ChainRx) :
    exec (.chainFrameReceived rx) s = .next (s.transactionEnded f (replyOutcome f rx)).arbitrate := by
  rw [exec_chainFrameReceived hp, State.frameEnds, ht]

/-- What sending a frame gives is all that happens when the sleep controller has no claim. -/
theorem exec_chainFrameSent_ended {s t : State} {f : ChainFrame} (hp : s.power = ⟨true, false⟩)
    (ht : s.chain.transaction = some ⟨f, .sending⟩) (hf : s.frameSent f = t) (hc : t.chain.sleepClaim = none) :
    exec .chainFrameSent s = .next t := by
  rw [exec_chainFrameSent hp ht, hf, arbitrate_none hc]

/-- A sent frame whose reply is awaited leaves the link with no claim to grant. -/
theorem exec_chainFrameSent_await {s : State} {f : ChainFrame} (hp : s.power = ⟨true, false⟩)
    (hc : s.chain.sleepClaim = none) (ht : s.chain.transaction = some ⟨f, .sending⟩)
    (hf : s.frameSent f = s.awaitReply f) :
    exec .chainFrameSent s =
      .next (s.withChain { s.chain with transaction := some ⟨f, .awaiting (s.replyTimeout f)⟩ }) :=
  exec_chainFrameSent_ended hp ht hf hc

/-! #### What a reply answers (R15, R186) -/

theorem replyOutcome_good {f : ChainFrame} {rx : ChainRx} (ht : rx.truncated = false) (hcrc : crcRight rx.bytes = true)
    (ha : answers f rx.content = true) : replyOutcome f rx = .good rx.content := by
  simp [replyOutcome, ht, hcrc, ha]

theorem replyOutcome_broken {f : ChainFrame} {rx : ChainRx} (h : rx.truncated = true ∨ crcRight rx.bytes = false) :
    replyOutcome f rx = .crcError := by
  unfold replyOutcome
  rcases h with h | h <;> simp [h]

theorem replyOutcome_other {f : ChainFrame} {rx : ChainRx} (h : answers f rx.content = false) :
    replyOutcome f rx = .crcError := by
  simp [replyOutcome, h]

/-! #### Enumeration (R16, R17) -/

theorem endTransaction_endEnumeration (s : State) (found : Nat) :
    s.endTransaction.endEnumeration found = s.enumeratedWith (min 31 found) := by
  have hl : s.endTransaction.tablesLoaded = s.tablesLoaded := rfl
  have hm : s.endTransaction.moduleCount = s.moduleCount := rfl
  rw [State.endEnumeration, State.enumeratedWith, hl, hm]
  by_cases h : s.tablesLoaded = true ∧ min 31 found ≠ s.moduleCount
  · rw [if_pos h, if_pos (by simp [h.1, h.2])]
    rfl
  · rw [if_neg h, if_neg (by simpa using h)]
    rfl

theorem enumeratedWith_sleepClaim (s : State) (found : Nat) :
    (s.enumeratedWith found).chain.sleepClaim = s.chain.sleepClaim := by
  unfold State.enumeratedWith
  dsimp only
  split <;> rfl

/-- The end of an ENUMERATE with no claim of the sleep controller. -/
theorem transactionEnded_enumerate {s : State} (hc : s.chain.sleepClaim = none) (o : TxnOutcome) :
    (s.transactionEnded .enumerate o).arbitrate = s.enumeratedWith (min 31 o.found) := by
  have he : s.transactionEnded .enumerate o = s.enumeratedWith (min 31 o.found) :=
    endTransaction_endEnumeration s o.found
  rw [he, arbitrate_none ((enumeratedWith_sleepClaim s _).trans hc)]

theorem exec_chainFrameReceived_badCount {s : State} {rx : ChainRx} (hp : s.power = ⟨true, false⟩)
    (hc : s.chain.sleepClaim = none) (ht : s.chain.transaction = some ⟨.enumerate, .receiving⟩)
    (ho : replyOutcome .enumerate rx = .crcError) :
    exec (.chainFrameReceived rx) s = .next (s.enumeratedWith 0) := by
  rw [exec_chainFrameReceived_reply hp ht, ho, transactionEnded_enumerate hc]
  rfl

/-- Settles O10: the wait, the count received, the bad reply and the missing one. -/
theorem enumeration : Obligations.Enumeration := by
  refine ⟨fun s hp he => ?_, fun s rx n hp hc ht htr hcrc hn => ?_, fun s rx hp hc ht hbad =>
    exec_chainFrameReceived_badCount hp hc ht (replyOutcome_broken hbad), fun s hp hc ht => ?_⟩
  · simp [exec, execChainWakeWaitExpiry, operating_of hp, he, State.sendEnumerate, State.startTransaction]
  · rw [exec_chainFrameReceived_reply hp ht, replyOutcome_good htr hcrc (by rw [hn]; rfl),
      transactionEnded_enumerate hc, hn]
    rfl
  · rw [exec_chainReplyTimeout hp ht, transactionEnded_enumerate hc]
    rfl

/-! #### Forward transactions (R18 to R20) -/

theorem chainReply_eq (s : State) (f : NorthFrame) :
    s.chainReply f =
      if s.mayAdd .chainPort = true ∧ s.chain.keptReplies = [] then s.enqueueTx .chainPort f
      else s.withChain { s.chain with keptReplies := s.chain.keptReplies ++ [f] } := by
  unfold State.chainReply
  by_cases h : s.mayAdd .chainPort = true ∧ s.chain.keptReplies = []
  · rw [if_pos h, if_neg (by simp [h.1, h.2])]
  · rw [if_neg h, if_pos]
    rw [Bool.or_eq_true, Bool.not_eq_true', Bool.not_eq_true', List.isEmpty_eq_false_iff]
    rcases Classical.not_and_iff_not_or_not.mp h with hm | hk
    · exact .inl (Bool.eq_false_iff.mpr hm)
    · exact .inr hk

theorem chainReply_sleepClaim (s : State) (f : NorthFrame) :
    (s.chainReply f).chain.sleepClaim = s.chain.sleepClaim := by
  rw [chainReply_eq]
  split <;> rfl

/-- R19: the end of a forward transaction with no claim of the sleep controller: its answer is all that changes. -/
theorem endTransaction_chainReply_arbitrate {s : State} (hc : s.chain.sleepClaim = none) (f : NorthFrame) :
    (s.endTransaction.chainReply f).arbitrate = s.endTransaction.chainReply f :=
  arbitrate_none ((chainReply_sleepClaim _ f).trans hc)

theorem collecting_eq_false_iff {s : State} :
    s.collecting = false ↔ ∀ r, s.sched.assembly = some r → r.phase ≠ .collecting := by
  unfold State.collecting
  cases s.sched.assembly <;> simp

theorem forwardHeld_eq_false_iff {s : State} :
    s.forwardHeld = false ↔ s.sleep.power = .active ∧ s.tables.engine ≠ .activating ∧ s.north.restartTaken = false ∧
      s.chain.keptReplies = [] := by
  simp [State.forwardHeld, and_assoc]

theorem windowFits_iff {s : State} :
    s.windowFits = true ↔
      ∀ t, s.nextTriggerInstant = some t → (s.now + BitVec.ofNat 32 s.forwardWindow - t).toInt ≤ 0 := by
  unfold State.windowFits
  cases s.nextTriggerInstant <;> simp [notLater, stampDiff, stampAdd]

theorem headStartable_iff {s : State} :
    s.headStartable = true ↔
      s.power = ⟨true, false⟩ ∧ s.chain.transaction = none ∧ s.enumerating = false ∧
      (∀ r, s.sched.assembly = some r → r.phase ≠ .collecting) ∧ s.sleep.power = .active ∧
      s.tables.engine ≠ .activating ∧ s.north.restartTaken = false ∧ s.chain.keptReplies = [] ∧
      s.sched.waiting = none ∧
      ∀ t, s.nextTriggerInstant = some t → (s.now + BitVec.ofNat 32 s.forwardWindow - t).toInt ≤ 0 := by
  simp only [State.headStartable, State.linkFree, Bool.and_eq_true, Bool.not_eq_true', operating_iff,
    Option.isNone_iff_eq_none, collecting_eq_false_iff, forwardHeld_eq_false_iff, windowFits_iff, and_assoc]

theorem exec_forwardHeadStart_rests {s : State} (h : s.headStartable = false) : exec .forwardHeadStart s = .next s := by
  simp [exec, execForwardHeadStart, h]

theorem exec_forwardHeadStart_starts {s : State} {e : FwdEntry} {rest : List FwdEntry} (h : s.headStartable = true)
    (hq : s.chain.forwardQueue = e :: rest) :
    exec .forwardHeadStart s =
      .next (if s.permits e.cls then
          s.withChain { s.chain with forwardQueue := rest, transaction := some ⟨.forwarded e, .sending⟩ }
        else (s.withChain { s.chain with forwardQueue := rest }).chainReply (fwdReply e.dest e.tag .blocked [])) := by
  have hp : (s.withChain { s.chain with forwardQueue := rest }).permits e.cls = s.permits e.cls := rfl
  simp only [exec, execForwardHeadStart, h, hq]
  rfl

/-! #### The next trigger instant (R41, R49) -/

theorem actsOnFrames_iff {s : State} :
    s.actsOnFrames = true ↔ s.tablesLoaded = true ∧ s.chain.enumeration = .ended ∧ s.sleep.power = .active ∧
      s.tables.engine ≠ .activating ∧ s.north.restartTaken = false := by
  simp [State.actsOnFrames, State.enumerated, and_assoc]

theorem scheduleRuns_iff {s : State} :
    s.scheduleRuns = true ↔ s.actsOnFrames = true ∧ (s.lock.state = .locked ∨ s.lock.state = .holdover) := by
  simp [State.scheduleRuns]

theorem minPhase_le {es : List ScheduleEntry} {e : ScheduleEntry} (he : e ∈ es) : minPhase es ≤ e.phase := by
  induction es with
  | nil => simp at he
  | cons y ys ih =>
    cases ys with
    | nil => simp_all [minPhase]
    | cons z zs =>
      rcases List.mem_cons.mp he with rfl | he
      · exact Nat.min_le_left _ _
      · exact (Nat.min_le_right _ _).trans (ih he)

theorem le_minPhase {n : Nat} {es : List ScheduleEntry} (hne : es ≠ []) (h : ∀ x ∈ es, n ≤ x.phase) :
    n ≤ minPhase es := by
  induction es with
  | nil => exact absurd rfl hne
  | cons y ys ih =>
    cases ys with
    | nil => exact h y (by simp)
    | cons z zs => exact Nat.le_min.mpr ⟨h y (by simp), ih (by simp) fun x hx => h x (List.mem_cons_of_mem y hx)⟩

theorem minPhase_eq {es : List ScheduleEntry} {e : ScheduleEntry} (he : e ∈ es)
    (hmin : ∀ x ∈ es, e.phase ≤ x.phase) : minPhase es = e.phase :=
  Nat.le_antisymm (minPhase_le he) (le_minPhase (List.ne_nil_of_mem he) hmin)

theorem nextTriggerInstant_idle {s : State} {start : Stamp} {e : ScheduleEntry} (hr : s.scheduleRuns = true)
    (hw : s.sched.waiting = none) (hh : s.sched.held = []) (hd : s.sched.due = []) (ht : s.lock.tLast = some start)
    (he : e ∈ s.activeSchedule) (hmin : ∀ x ∈ s.activeSchedule, e.phase ≤ x.phase) :
    s.nextTriggerInstant = some (start + BitVec.ofNat 32 (s.lock.lEst + e.phase * s.lock.lEst / 4096)) := by
  simp [State.nextTriggerInstant, hr, hw, hh, hd, ht, minPhase_eq he hmin, stampAdd, phaseOffset]

/-! #### Frames that wait for no reply, and unasked frames (R15, R16, R21, R152, R158) -/

theorem frameEnds_idle {s : State} (h : s.chain.transaction = none ∨ ∃ f, s.chain.transaction = some ⟨f, .sending⟩)
    (rx : ChainRx) : s.frameEnds rx = s.dropUnasked := by
  rcases h with h | ⟨f, h⟩ <;> simp [State.frameEnds, h]

theorem replyStarts_idle {s : State}
    (h : s.chain.transaction = none ∨ ∃ f, s.chain.transaction = some ⟨f, .sending⟩) :
    s.replyStarts = s.hearUnasked := by
  rcases h with h | ⟨f, h⟩ <;> simp [State.replyStarts, h]

/-- Log 6: a whole frame with no beginning of its own acts as if its reply had begun. -/
theorem transactionEnded_withTransaction {s : State} {f : ChainFrame} {x : Option Transaction}
    (h : f = .enumerate ∨ (∃ p, f = .readResult p) ∨ ∃ e, f = .forwarded e) (o : TxnOutcome) :
    (s.withChain { s.chain with transaction := x }).transactionEnded f o = s.transactionEnded f o := by
  rcases h with rfl | ⟨p, rfl⟩ | ⟨e, rfl⟩ <;> rfl

theorem continueCollecting_rests {s : State} (h : ∀ r, s.sched.assembly = some r → r.phase ≠ .collecting) :
    s.continueCollecting = s := by
  unfold State.continueCollecting
  split
  · rfl
  · next r hr =>
    have hph := h r hr
    cases hp : r.phase <;> simp_all

theorem continueCollecting_reads {s : State} {r : Round} {p : Nat} (hr : s.sched.assembly = some r)
    (hph : r.phase = .collecting) (hp : nextRead r.entries = some p) :
    s.continueCollecting = s.startTransaction (.readResult p) := by
  simp [State.continueCollecting, hr, hph, hp]

theorem frameSent_wake {s : State} (h : s.sleep.power ≠ .watchRound ∨ s.sleep.wakePending = false) :
    s.frameSent (.chainWake false) =
      (s.withChain { s.chain with transaction := none }).withSleep
        { s.sleep with chainSleep := .awake, chainWakeTimer := some (1000 * s.chainWakeTime) } := by
  have hn : (s.sleep.power == .watchRound && s.sleep.wakePending) = false := by
    rcases h with h | h <;> simp [h]
  refine (if_neg (Bool.eq_false_iff.mp ?_)).trans ?_
  · exact hn
  · rfl

theorem frameSent_sleep {s : State} (h : s.sleep.power ≠ .watchRound) :
    s.frameSent .chainSleep =
      (s.withChain { s.chain with transaction := none }).withSleep { s.sleep with chainSleep := .asleep } := by
  simp only [State.frameSent, State.sleepSent, State.setChainSleep, State.endTransaction]
  split
  · next hp => exact absurd hp h
  all_goals rfl

theorem frameSent_trigger (s : State) (kind : MeasKind) (set : List Nat) :
    s.frameSent (.trigger kind set) = s.endTransaction.continueCollecting := rfl

theorem replyTimeout_readResult {s : State} {m : ModuleTable} (h : s.moduleTable = some m) (p : Nat) :
    s.replyTimeout (.readResult p) = m.replyTimeout := by
  simp [State.replyTimeout, h]

theorem replyTimeout_forwarded {s : State} {m : ModuleTable} (h : s.moduleTable = some m) (e : FwdEntry) :
    s.replyTimeout (.forwarded e) = m.replyTimeout := by
  simp [State.replyTimeout, h]

/-- Settles O20: the chain link's transactions, the forward queue's, and the next trigger instant. -/
theorem chainTransactions : Obligations.ChainTransactions := by
  refine ⟨⟨?readSent, ?enumerateSent, ?replyStart, ?unasked, ?unpowered, ?noReply, ?arbiter, ?otherKind⟩,
    ⟨fun s => ⟨headStartable_iff, exec_forwardHeadStart_rests⟩, chainReply_eq, fun s e rest h hq =>
      exec_forwardHeadStart_starts h hq, ?forwarded, ?trigger⟩⟩
  case readSent =>
    intro s p m hp hm hc ht
    rw [exec_chainFrameSent_await hp hc ht rfl, replyTimeout_readResult hm]
  case enumerateSent => exact fun s hp hc ht => exec_chainFrameSent_await hp hc ht rfl
  case replyStart =>
    intro s f n hp ht
    rw [exec_chainReplyStart hp, State.replyStarts, ht]
  case unasked =>
    intro s rx hp
    rw [exec_chainReplyStart hp, exec_chainFrameReceived hp]
    refine ⟨fun h => ⟨?_, ?_⟩, fun f n ht => ⟨fun hu => ?_, fun hu hf => ?_⟩, fun f ht => ?_⟩
    · rw [replyStarts_idle h]
      rfl
    · rw [frameEnds_idle h]
      rfl
    · simp [State.frameEnds, ht, hu, State.dropUnasked]
    · have hreply := exec_chainFrameReceived_reply (f := f)
        (s := s.withChain { s.chain with transaction := some ⟨f, .receiving⟩ }) hp rfl rx
      rw [hreply, transactionEnded_withTransaction hf]
      simp [State.frameEnds, ht, hu]
    · simp [State.replyStarts, ht]
  case unpowered =>
    intro s rx hp
    have ho := not_operating_of hp
    constructor
    · simp [exec, execChainReplyStart, ho, State.hearUnasked]
    · simp [exec, execChainFrameReceived, ho, State.dropUnasked]
  case noReply =>
    intro s hp hc
    refine ⟨fun ht => ?_, fun ht hw => ?_, fun ht hw => ?_, fun kind set ht => ⟨fun h => ?_, fun r p hr hph hn => ?_⟩⟩
    · exact exec_chainFrameSent_ended hp ht rfl hc
    · exact exec_chainFrameSent_ended hp ht (frameSent_wake hw) hc
    · exact exec_chainFrameSent_ended hp ht (frameSent_sleep hw) hc
    · exact exec_chainFrameSent_ended hp ht (continueCollecting_rests (s := s.endTransaction) h) hc
    · exact exec_chainFrameSent_ended hp ht (continueCollecting_reads (s := s.endTransaction) hr hph hn) hc
  case arbiter =>
    intro s
    refine ⟨fun h => h.elim arbitrate_none arbitrate_busy, arbitrate_wake, arbitrate_sleep,
      fun kind set f hp ht ha hc => ?_⟩
    have hrests : ∀ r, s.endTransaction.sched.assembly = some r → r.phase ≠ .collecting := fun r hr => by
      cases ha.symm.trans hr
    rw [exec_chainFrameSent hp ht, frameSent_trigger, continueCollecting_rests hrests]
    rfl
  case otherKind =>
    intro s rx hp hc ht hn
    refine exec_chainFrameReceived_badCount hp hc ht (replyOutcome_other ?_)
    cases hx : rx.content <;> simp_all [answers]
  case forwarded =>
    intro s e hp hc
    have hanswer (f : NorthFrame) : (s.endTransaction.chainReply f).arbitrate =
        (s.withChain { s.chain with transaction := none }).chainReply f := endTransaction_chainReply_arbitrate hc f
    refine ⟨fun ht hd => ?_, fun m ht hd hm => ?_, fun rx payload ht hx => ?_, fun rx ht hx => ?_, fun ht => ?_⟩
    · rw [exec_chainFrameSent hp ht, State.frameSent, if_pos hd, hanswer]
    · rw [exec_chainFrameSent_await hp hc ht (if_neg hd), replyTimeout_forwarded hm]
    · rw [exec_chainFrameReceived_reply hp ht, State.transactionEnded, hanswer]
      by_cases h : rx.truncated = false ∧ crcRight rx.bytes = true
      · rw [if_pos h, replyOutcome_good h.1 h.2 (by rw [hx]; rfl), hx]
        rfl
      · rw [if_neg h, replyOutcome_broken]
        · rfl
        · rcases Classical.not_and_iff_not_or_not.mp h with ht | hcrc
          · exact .inl (Bool.not_eq_false _ ▸ ht)
          · exact .inr (Bool.eq_false_iff.mpr hcrc)
    · rw [exec_chainFrameReceived_reply hp ht, State.transactionEnded, hanswer, replyOutcome_other]
      · rfl
      · cases hc : rx.content <;> simp_all [answers]
    · rw [exec_chainReplyTimeout hp ht, State.transactionEnded, hanswer]
      rfl
  case trigger =>
    intro s
    refine ⟨scheduleRuns_iff, actsOnFrames_iff, fun hr => ?_, fun hr => ⟨fun w hw => ?_, fun hw => ⟨fun d rest hh => ?_,
      fun hh => ⟨fun d rest hd => ?_, fun start e hd ht he hmin => nextTriggerInstant_idle hr hw hh hd ht he hmin⟩⟩⟩⟩
    · simp [State.nextTriggerInstant, hr]
    · simp [State.nextTriggerInstant, hr, hw]
    · simp [State.nextTriggerInstant, hr, hw, hh]
    · simp [State.nextTriggerInstant, hr, hw, hh, hd]

end Sys2Proof.Machine
end

section
/-! ### The bytes of north link frames (R2, R3, R186) -/

namespace Sys2Proof.Machine

/-! #### The 16-bit code (R186) -/

/-- R186: one shift of the 16-bit code. -/
def crc16Step (c : BitVec 16) : BitVec 16 := if c.getLsbD 15 = true then (c <<< 1) ^^^ 0x1021 else c <<< 1

theorem crc16Shift_eq_iterate (n : Nat) (c : BitVec 16) : crc16Shift n c = Nat.iterate crc16Step n c := by
  induction n generalizing c with
  | zero => rfl
  | succ n ih => exact ih (crc16Step c)

theorem crc16_append_one (bytes : List Byte) (b : Byte) :
    crc16 (bytes ++ [b]) = Nat.iterate crc16Step 8 (crc16 bytes ^^^ (b.setWidth 16 <<< 8)) := by
  rw [crc16, List.foldl_append]
  exact crc16Shift_eq_iterate 8 _

theorem crc16Bytes_length (bytes : List Byte) : (crc16Bytes bytes).length = 2 := rfl

theorem crcRight_append {bytes crc : List Byte} (h : crc.length = 2) :
    crcRight (bytes ++ crc) = (crc == crc16Bytes bytes) := by
  have hl : (bytes ++ crc).length - 2 = bytes.length := by
    rw [List.length_append]
    omega
  rw [crcRight, hl, List.drop_left, List.take_left, List.length_append, h]
  simp

/-! #### Which frames are accepted (R3) -/

/-- R3: the frame of the bytes between a header and a right CRC, if its kind is one of the five and permits it. -/
def framedBy (b0 b1 : Byte) (payload : List Byte) : Option NorthFrame :=
  match frameKindOf (b1.extractLsb' 0 4) with
  | none => none
  | some kind =>
    if NorthFrame.permitted ⟨b0.extractLsb' 0 5, kind, b1.extractLsb' 4 4, payload⟩ then
      some ⟨b0.extractLsb' 0 5, kind, b1.extractLsb' 4 4, payload⟩
    else none

theorem acceptNorthFrame_framed {b0 b1 b2 b3 : Byte} {payload crc : List Byte} (hl : payload.length = b2.toNat)
    (hc : crc.length = 2) :
    acceptNorthFrame (b0 :: b1 :: b2 :: b3 :: (payload ++ crc)) =
      if crc = crc16Bytes (b0 :: b1 :: b2 :: b3 :: payload) then framedBy b0 b1 payload else none := by
  have hr : crcRight (b0 :: b1 :: b2 :: b3 :: (payload ++ crc)) =
      (crc == crc16Bytes (b0 :: b1 :: b2 :: b3 :: payload)) :=
    crcRight_append (bytes := b0 :: b1 :: b2 :: b3 :: payload) hc
  have ht : (payload ++ crc).take b2.toNat = payload := by
    rw [← hl, List.take_left]
  have hlen : (payload ++ crc).length = b2.toNat + 2 := by
    rw [List.length_append, hl, hc]
  simp only [acceptNorthFrame, if_pos hlen, hr, beq_iff_eq, ht]
  rfl

theorem extract_toNat_four (b : Byte) : (b.extractLsb' 0 4).toNat = b.toNat % 16 := by
  simp

/-! R3: what each kind permits. -/

theorem permitted_sync_iff {dest : BitVec 5} {tag : BitVec 4} {payload : List Byte} :
    NorthFrame.permitted ⟨dest, .sync, tag, payload⟩ = true ↔ payload = [] :=
  List.isEmpty_iff

theorem permitted_cmd_iff {dest : BitVec 5} {tag : BitVec 4} {payload : List Byte} :
    NorthFrame.permitted ⟨dest, .cmd, tag, payload⟩ = true ↔ dest.toNat = 0 ∧ payload ≠ [] := by
  simp [NorthFrame.permitted, ← BitVec.toNat_inj]

theorem permitted_fwd_iff {dest : BitVec 5} {tag : BitVec 4} {payload : List Byte} :
    NorthFrame.permitted ⟨dest, .fwd, tag, payload⟩ = true ↔
      payload ≠ [] ∧ (1 ≤ dest.toNat ∧ dest.toNat ≤ 20 ∨ dest.toNat = 31) := by
  have hlt := dest.isLt
  have hp : NorthFrame.permitted ⟨dest, .fwd, tag, payload⟩ = true ↔
      (dest.toNat ≠ 0 ∧ payload ≠ []) ∧ ¬ (21 ≤ dest.toNat ∧ dest.toNat ≤ 30) := by
    simp only [NorthFrame.permitted, Bool.and_eq_true, Bool.not_eq_true', Bool.and_eq_false_iff, beq_eq_false_iff_ne,
      List.isEmpty_eq_false_iff, decide_eq_false_iff_not, ne_eq, ← BitVec.toNat_inj, not_and_or]
    rfl
  rw [hp]
  constructor
  · rintro ⟨⟨hd, hne⟩, hr⟩
    exact ⟨hne, by omega⟩
  · rintro ⟨hne, hr⟩
    exact ⟨⟨by omega, hne⟩, by omega⟩

/-- R3, kind by kind, for a payload of the announced length. -/
theorem framedBy_eq {b0 b1 b2 : Byte} {payload : List Byte} (hl : payload.length = b2.toNat) :
    framedBy b0 b1 payload =
      (let dest := b0.toNat % 32
       let kind := b1.toNat % 16
       let f (k : FrameKind) : NorthFrame := ⟨b0.extractLsb' 0 5, k, b1.extractLsb' 4 4, payload⟩
       if kind = 0 ∧ b2 = 0 then some (f .sync)
       else if kind = 1 ∧ dest = 0 ∧ b2 ≠ 0 then some (f .cmd)
       else if kind = 3 ∧ b2 ≠ 0 ∧ (1 ≤ dest ∧ dest ≤ 20 ∨ dest = 31) then some (f .fwd)
       else none) := by
  have hempty : payload = [] ↔ b2 = 0 := by
    rw [← List.length_eq_zero_iff, hl, ← BitVec.toNat_inj]
    rfl
  unfold framedBy frameKindOf
  rw [extract_toNat_four]
  generalize b1.toNat % 16 = kind
  match kind with
  | 0 => simp [permitted_sync_iff, hempty]
  | 1 => simp [permitted_cmd_iff, hempty]
  | 2 => simp [NorthFrame.permitted]
  | 3 => simp [permitted_fwd_iff, hempty]
  | 4 => simp [NorthFrame.permitted]
  | n + 5 => simp

/-- Settles O11: the 16-bit code byte by byte, and the frames the port accepts. -/
theorem acceptedFrames : Obligations.AcceptedFrames := by
  refine ⟨⟨rfl, crc16_append_one, fun bytes => le_eq_littleEndian 2 _⟩, fun b0 b1 b2 b3 payload hl =>
    ⟨fun crc hc hne => ?_, ?_⟩⟩
  · rw [acceptNorthFrame_framed hl hc, if_neg hne]
  · rw [acceptNorthFrame_framed hl (crc16Bytes_length _), if_pos rfl, framedBy_eq hl]

/-! #### Reading back a frame (section 11.2) -/

theorem frameKindOf_code (k : FrameKind) : frameKindOf k.code = some k := by
  cases k <;> rfl

theorem extract_dest (dest : BitVec 5) : (dest.setWidth 8).extractLsb' 0 5 = dest := by
  apply BitVec.eq_of_toNat_eq
  have hlt := dest.isLt
  simp
  omega

/-- Settles O12: the header of a frame gives its fields back, and its length byte the payload. -/
theorem northFrameRoundTrip : Obligations.NorthFrameRoundTrip := by
  intro f hperm hlen
  have hl : f.payload.length = (byte f.payload.length).toNat := by
    rw [byte, BitVec.toNat_ofNat]
    omega
  have hframed : framedBy (f.dest.setWidth 8) (f.tag ++ f.kind.code) f.payload = some f := by
    unfold framedBy
    rw [BitVec.extractLsb'_append_eq_right, BitVec.extractLsb'_append_eq_left, extract_dest, frameKindOf_code]
    exact if_pos hperm
  exact (acceptNorthFrame_framed hl (crc16Bytes_length _)).trans ((if_pos rfl).trans hframed)

end Sys2Proof.Machine
end

section
/-! ### The decoder: which row takes a command, and the forms of the arguments (R6, R7, section 11.3) -/

namespace Sys2Proof.Machine

/-! #### Taking (R6) -/

theorem decoderReady_iff {s : State} :
    s.decoderReady = true ↔ s.power = ⟨true, false⟩ ∧ s.tables.startUp = .ended ∧ s.north.restartTaken = false ∧
      s.mayAdd .decoder = true := by
  simp [State.decoderReady, operating_iff, and_assoc]

/-- R6: the row of the oldest command takes it when the decoder may take one. -/
theorem takeable_iff {s : State} {row : Instr} {c : Command} :
    s.takeable row = some c ↔
      s.decoderReady = true ∧ commandRow c.payload = row ∧ ∃ rest, s.north.commands = c :: rest := by
  unfold State.takeable
  cases s.north.commands with
  | nil => simp
  | cons d rest =>
    simp only [Option.ite_none_right_eq_some, Bool.and_eq_true, beq_iff_eq, Option.some.injEq, List.cons.injEq,
      exists_and_left, exists_eq', and_true]
    constructor
    · rintro ⟨⟨hready, hrow⟩, rfl⟩
      exact ⟨hready, hrow, rfl⟩
    · rintro ⟨hready, hrow, rfl⟩
      exact ⟨⟨hready, hrow⟩, rfl⟩

/-- R6, R13, R182: what keeps a row from taking a command. -/
theorem takeable_eq_none {s : State} {row : Instr}
    (h : ¬ s.power = ⟨true, false⟩ ∨ s.tables.startUp ≠ .ended ∨ s.north.restartTaken = true ∨ 8 ≤ s.north.tx.length ∨
      s.mayAdd .decoder = false ∨ s.north.commands = [] ∨
      ∃ c rest, s.north.commands = c :: rest ∧ commandRow c.payload ≠ row) :
    s.takeable row = none := by
  rw [Option.eq_none_iff_forall_ne_some]
  intro c hc
  obtain ⟨hready, hrow, rest, hcommands⟩ := takeable_iff.mp hc
  obtain ⟨hpower, hended, hrestart, hadd⟩ := decoderReady_iff.mp hready
  obtain ⟨hfree, -⟩ := mayAdd_iff.mp hadd
  rcases h with h | h | h | h | h | h | ⟨d, rest', h, hne⟩
  · exact h hpower
  · exact h hended
  · exact Bool.false_ne_true (hrestart.symm.trans h)
  · omega
  · exact Bool.false_ne_true (h.symm.trans hadd)
  · exact List.cons_ne_nil c rest (hcommands.symm.trans h)
  · obtain ⟨rfl, -⟩ := List.cons.inj (hcommands.symm.trans h)
    exact hne hrow

section Rows
variable {row : Instr} {s : State} {c : Command}

theorem exec_not_taken (hrow : row ∈ decoderRows) (h : s.takeable row = none) : exec row s = .next s := by
  obtain ⟨α, args, body, hr⟩ := exists_isRow hrow
  rw [hr.exec_eq, takeCommand_none h]

theorem exec_malformed (hrow : row ∈ decoderRows) (h : s.takeable row = some c)
    (hform : formRight row c.payload.tail = false) : exec row s = s.answered c .badArg := by
  obtain ⟨α, args, body, hr⟩ := exists_isRow hrow
  rw [hr.form, Option.isSome_eq_false_iff, Option.isNone_iff_eq_none] at hform
  rw [hr.exec_eq, takeCommand_badArg h hform]
  rfl

end Rows

/-! #### The command codes (section 11.3) -/

/-- The codes of the commands whose row does not depend on their arguments. -/
def commandCodes : List (Byte × Instr) :=
  [(0x02, .readTable), (0x03, .setTrim), (0x04, .restart), (0x10, .readRound), (0x11, .releaseRound),
    (0x20, .readLimits), (0x30, .close), (0x31, .openCmd), (0x32, .fastOpen), (0x33, .clearTrip),
    (0x38, .readEvents), (0x40, .switchProfile), (0x41, .enterProfile), (0x42, .returnProfile), (0x48, .sleep),
    (0x50, .updErase), (0x51, .updWrite), (0x52, .updVerify), (0x53, .updActivate)]

theorem commandRow_of_mem {code : Byte} {row : Instr} (h : (code, row) ∈ commandCodes) (args : List Byte) :
    commandRow (code :: args) = row := by
  have hall : ∀ x ∈ commandCodes, commandRow (x.1 :: args) = x.2 := by
    simp only [commandCodes, List.forall_mem_cons]
    exact ⟨rfl, rfl, rfl, rfl, rfl, rfl, rfl, rfl, rfl, rfl, rfl, rfl, rfl, rfl, rfl, rfl, rfl, rfl, rfl,
      fun x hx => absurd hx List.not_mem_nil⟩
  exact hall _ h

/-- Every code is that of GET_STATUS, that of CLEAR_LIMIT, one of `commandCodes`, or no command code. -/
theorem commandRow_cases (code : Byte) (args : List Byte) :
    code = 0x01 ∨ code = 0x21 ∨ (code, commandRow (code :: args)) ∈ commandCodes ∨
      commandRow (code :: args) = .unknownCommandCode := by
  have hcode : ∀ {n : Nat}, code.toNat = n → code = BitVec.ofNat 8 n := fun h => by
    rw [← h, BitVec.ofNat_toNat, BitVec.setWidth_eq]
  simp only [commandRow]
  split
  case h_1 h => exact .inl (hcode h)
  case h_8 h => exact .inr (.inl (hcode h))
  case h_22 => exact .inr (.inr (.inr rfl))
  all_goals
    next h =>
      rw [hcode h]
      exact .inr (.inr (.inl (by simp [commandCodes])))

/-! #### The forms of the arguments (R7, R185) -/

theorem ofNat_toNat_byte (b : Byte) : BitVec.ofNat 8 b.toNat = b := by
  rw [BitVec.ofNat_toNat, BitVec.setWidth_eq]

theorem toNat_byte {n : Nat} (h : n < 256) : (BitVec.ofNat 8 n).toNat = n := Nat.mod_eq_of_lt h

theorem argNone_iff {args : List Byte} : argNone args = some () ↔ args = [] := by
  cases args <;> simp [argNone]

/-- A one-byte argument is the byte of its value. -/
theorem argByte_iff {ok : Nat → Bool} {args : List Byte} {n : Nat} :
    argByte ok args = some n ↔ (ok n = true ∧ n < 256) ∧ args = [BitVec.ofNat 8 n] := by
  constructor
  · intro h
    unfold argByte at h
    split at h
    · next b =>
      obtain ⟨hok, rfl⟩ := Option.ite_none_right_eq_some.mp h |>.imp_right Option.some.inj
      exact ⟨⟨hok, b.isLt⟩, by rw [ofNat_toNat_byte]⟩
    · cases h
  · rintro ⟨⟨hok, hn⟩, rfl⟩
    simp only [argByte, toNat_byte hn, hok, if_true]

theorem argAll_iff {args : List Byte} : argAll args = some () ↔ args = [0xFF] := by
  constructor
  · intro h
    unfold argAll at h
    split at h
    · next b =>
      obtain ⟨rfl, -⟩ := Option.ite_none_right_eq_some.mp h
      rfl
    · cases h
  · rintro rfl
    rfl

/-- Two bytes, least significant byte first, and the number they carry. -/
theorem fromLe_two_iff {a b : Byte} {n : Nat} : fromLe [a, b] = n ↔ n ≤ 65535 ∧ [a, b] = littleEndian 2 n := by
  have hl : littleEndian 2 n = [BitVec.ofNat 8 n, BitVec.ofNat 8 (n / 256)] := by
    simp [littleEndian, List.range_succ]
  have ha := a.isLt
  have hb := b.isLt
  rw [hl, List.cons.injEq, List.cons.injEq, ← BitVec.toNat_inj, ← BitVec.toNat_inj, BitVec.toNat_ofNat,
    BitVec.toNat_ofNat]
  simp only [fromLe, and_true]
  omega

theorem argReadTable_iff {args : List Byte} {a : ReadTableArgs} :
    argReadTable args = some a ↔
      a.kind ≤ 4 ∧ a.index ≤ 7 ∧ a.offset ≤ 65535 ∧ 1 ≤ a.length ∧ a.length ≤ 128 ∧
        args = [BitVec.ofNat 8 a.kind, BitVec.ofNat 8 a.index] ++ littleEndian 2 a.offset ++
          [BitVec.ofNat 8 (a.length - 1)] := by
  constructor
  · intro h
    unfold argReadTable at h
    split at h
    · next k i o0 o1 l =>
      obtain ⟨⟨hk, hi, hl⟩, rfl⟩ := Option.ite_none_right_eq_some.mp h |>.imp_right Option.some.inj
      obtain ⟨ho, hbytes⟩ := (fromLe_two_iff (a := o0) (b := o1)).mp rfl
      dsimp only
      rw [← hbytes, ofNat_toNat_byte, ofNat_toNat_byte, Nat.add_sub_cancel, ofNat_toNat_byte]
      exact ⟨by omega, by omega, ho, by omega, by omega, rfl⟩
    · cases h
  · obtain ⟨kind, index, offset, length⟩ := a
    rintro ⟨hk, hi, ho, hl1, hl, rfl⟩
    dsimp only at hk hi ho hl1 hl ⊢
    obtain ⟨o0, o1, hbytes⟩ : ∃ o0 o1, littleEndian 2 offset = [o0, o1] := ⟨_, _, rfl⟩
    have hoff : fromLe [o0, o1] = offset := fromLe_two_iff.mpr ⟨ho, hbytes.symm⟩
    rw [hbytes]
    simp only [List.cons_append, List.nil_append, argReadTable]
    rw [toNat_byte (by omega), toNat_byte (by omega), toNat_byte (by omega), hoff, if_pos (by omega),
      Nat.sub_add_cancel hl1]

theorem getLsbD_seven (b : Byte) : b.getLsbD 7 = decide (128 ≤ b.toNat) :=
  BitVec.msb_eq_decide b

theorem fineAdjustOf_iff {b : Byte} {v : Int} :
    fineAdjustOf b = some v ↔
      b.toNat % 16 ≤ 7 ∧ v = (if 128 ≤ b.toNat then -1 else 1) * ((b.toNat % 16 : Nat) : Int) := by
  simp only [fineAdjustOf, getLsbD_seven, decide_eq_true_eq]
  by_cases hm : b.toNat % 16 ≤ 7
  · rw [if_neg (Nat.not_lt.mpr hm)]
    split
    · rw [Option.some.injEq, neg_one_mul]
      exact ⟨fun h => ⟨hm, h.symm⟩, fun h => h.2.symm⟩
    · rw [Option.some.injEq, one_mul]
      exact ⟨fun h => ⟨hm, h.symm⟩, fun h => h.2.symm⟩
  · rw [if_pos (Nat.lt_of_not_le hm)]
    exact ⟨nofun, fun h => absurd h.1 hm⟩

theorem argSetTrim_iff {args : List Byte} {a : SetTrimArgs} :
    argSetTrim args = some a ↔
      ∃ adjust : Byte, a.module ≤ 255 ∧ args = [BitVec.ofNat 8 a.module, adjust] ∧ adjust.toNat % 16 ≤ 7 ∧
        a.fineAdjust = (if 128 ≤ adjust.toNat then -1 else 1) * ((adjust.toNat % 16 : Nat) : Int) := by
  constructor
  · intro h
    unfold argSetTrim at h
    split at h
    · next m adjust =>
      obtain ⟨v, hv, rfl⟩ := Option.map_eq_some_iff.mp h
      exact ⟨adjust, Nat.le_of_lt_succ m.isLt, by rw [ofNat_toNat_byte], fineAdjustOf_iff.mp hv⟩
    · cases h
  · rintro ⟨adjust, hm, rfl, hadjust⟩
    simp only [argSetTrim, fineAdjustOf_iff.mpr hadjust, toNat_byte (Nat.lt_succ_of_le hm), Option.map_some]

theorem argUpdWrite_iff {args : List Byte} {a : UpdWriteArgs} :
    argUpdWrite args = some a ↔
      a.offset ≤ 65535 ∧ 1 ≤ a.data.length ∧ a.data.length ≤ 48 ∧ args = littleEndian 2 a.offset ++ a.data := by
  constructor
  · intro h
    unfold argUpdWrite at h
    split at h
    · next o0 o1 d rest =>
      obtain ⟨hl, rfl⟩ := Option.ite_none_right_eq_some.mp h |>.imp_right Option.some.inj
      obtain ⟨ho, hbytes⟩ := (fromLe_two_iff (a := o0) (b := o1)).mp rfl
      dsimp only
      rw [← hbytes, List.length_cons]
      exact ⟨ho, by omega, by omega, rfl⟩
    · cases h
  · obtain ⟨offset, data⟩ := a
    rintro ⟨ho, hl1, hl, rfl⟩
    dsimp only at ho hl1 hl ⊢
    obtain ⟨o0, o1, hbytes⟩ : ∃ o0 o1, littleEndian 2 offset = [o0, o1] := ⟨_, _, rfl⟩
    have hoff : fromLe [o0, o1] = offset := fromLe_two_iff.mpr ⟨ho, hbytes.symm⟩
    obtain ⟨d, rest, rfl⟩ := List.exists_cons_of_length_pos hl1
    rw [List.length_cons] at hl
    rw [hbytes]
    simp only [List.cons_append, List.nil_append, argUpdWrite]
    rw [hoff, if_pos (by omega)]

theorem argBelow_iff {bound : Nat} {ok : Nat → Bool} (hb : bound ≤ 255) (hok : ∀ n, ok n = true ↔ n ≤ bound)
    {args : List Byte} {n : Nat} : argByte ok args = some n ↔ n ≤ bound ∧ args = [BitVec.ofNat 8 n] := by
  rw [argByte_iff, hok]
  exact and_congr_left fun _ => and_iff_left_of_imp fun hn => by omega

/-- Settles O16: when a row takes nothing, when it answers BAD_ARG, and what form its arguments have. -/
theorem commandsNotTakenAndMalformed : Obligations.CommandsNotTakenAndMalformed := by
  refine ⟨fun row s hrow h => exec_not_taken hrow (takeable_eq_none h), fun row s c hrow h hform =>
    exec_malformed hrow h hform, fun row s c rest hp hs hr hm hc hrow => ?_, ⟨?_, ?_, ?_, ?_, ?_⟩, fun args => ?_,
    fun row args => ?_⟩
  · exact takeable_iff.mpr ⟨decoderReady_iff.mpr ⟨hp, hs, hr, hm⟩, hrow, rest, hc⟩
  · exact fun code row args h => commandRow_of_mem h args
  · exact fun args => rfl
  · exact fun args => rfl
  · intro code args h1 h21 hno
    rcases commandRow_cases code args with h | h | h | h
    · exact absurd h h1
    · exact absurd h h21
    · exact absurd h (hno _)
    · exact h
  · rfl
  · refine ⟨argNone_iff, fun n => argBelow_iff (by decide) ?_, fun n => argBelow_iff (by decide) ?_, fun n =>
      argBelow_iff (by decide) ?_, argAll_iff, fun n => argBelow_iff (by decide) ?_, fun n => ?_, fun a =>
      argReadTable_iff, fun a => argSetTrim_iff, fun a => argUpdWrite_iff⟩
    · exact fun n => decide_eq_true_iff.trans Nat.lt_succ_iff
    · exact fun n => decide_eq_true_iff
    · exact fun n => decide_eq_true_iff.trans Nat.lt_succ_iff
    · exact fun n => decide_eq_true_iff.trans Nat.lt_succ_iff
    · refine argByte_iff.trans (and_congr_left fun _ => ?_)
      rw [eq_self, true_and, Nat.lt_succ_iff]
  · refine ⟨fun h => ?_, ?_, ?_, ?_, ?_, ?_, fun h => ?_, ?_, ?_, fun h => ?_, ?_⟩
    · simp only [List.mem_cons, List.not_mem_nil, or_false] at h
      rcases h with rfl | rfl <;> rfl
    rotate_left 5
    · simp only [List.mem_cons, List.not_mem_nil, or_false] at h
      rcases h with rfl | rfl | rfl | rfl <;> rfl
    rotate_left 2
    · simp only [List.mem_cons, List.not_mem_nil, or_false] at h
      rcases h with rfl | rfl | rfl | rfl | rfl | rfl | rfl | rfl | rfl | rfl <;> rfl
    all_goals
      rintro rfl
      rfl

end Sys2Proof.Machine
end

section
/-! ### The reply to a command, and the bytes of a frame (R5, R6, R8, sections 11.2 and 11.3) -/

namespace Sys2Proof.Machine

/-! #### One reply for each command taken -/

/-- R6: whatever a decoder row does with a command, it answers it, at the tail of the transmit queue. -/
theorem exec_taken {row : Instr} {s : State} {c : Command} (hrow : row ∈ decoderRows) (h : s.takeable row = some c) :
    ∃ (u : State) (r : Reply), exec row s = .next (u.reply c r) ∧ u.north.tx = s.north.tx ∧
      (row ≠ .restart ∨ formRight row c.payload.tail = false → u.north.commands = s.north.commands.tail) := by
  obtain ⟨α, args, body, hr⟩ := exists_isRow hrow
  rw [hr.exec_eq]
  cases ha : args c.payload.tail with
  | none => exact ⟨s.popCommand, _, congrArg Host.Outcome.next (takeCommand_badArg h ha), rfl, fun _ => rfl⟩
  | some a =>
    refine ⟨_, _, congrArg Host.Outcome.next (takeCommand_body h ha), hr.tx a s.popCommand, fun hc => ?_⟩
    have hform : formRight row c.payload.tail = true := by rw [hr.form, ha, Option.isSome_some]
    refine hr.commands (hc.resolve_right fun hf => ?_) a s.popCommand
    exact Bool.false_ne_true (hf.symm.trans hform)

/-! #### The code tables of the two replies (R8, R185) -/

theorem Reason.listPlace_eq (r : Reason) :
    ReplyStatus.reasonCode (.refused r) =
      listPlace [.noTables, .notLocked, .blocked, .state, .range, .depth, .profileBusy, .notAllowed, .locked,
        .notErased] r + 1 := by
  cases r <;> rfl

theorem FwdStatus.code_eq (st : FwdStatus) :
    st.code = listPlace [.ok, .blocked, .queueFull, .busy, .notAllowed, .timeout, .crcError] st := by
  cases st <;> rfl

/-! #### The header (section 11.2) -/

theorem FrameKind.toNat_code (k : FrameKind) :
    k.code.toNat = [FrameKind.sync, .cmd, .reply, .fwd, .fwdReply].idxOf k := by
  cases k <;> rfl

theorem tagged_eq_ofNat (tag code : BitVec 4) : tag ++ code = BitVec.ofNat 8 (code.toNat + 16 * tag.toNat) := by
  apply BitVec.eq_of_toNat_eq
  have ht := tag.isLt
  have hc := code.isLt
  rw [BitVec.toNat_append, BitVec.toNat_ofNat, ← Nat.shiftLeft_add_eq_or_of_lt hc, Nat.shiftLeft_eq]
  omega

theorem setWidth_eq_ofNat (dest : BitVec 5) : dest.setWidth 8 = BitVec.ofNat 8 dest.toNat :=
  (BitVec.ofNat_toNat 8 dest).symm

theorem NorthFrame.header_eq (f : NorthFrame) :
    f.header =
      [BitVec.ofNat 8 f.dest.toNat,
        BitVec.ofNat 8 ([FrameKind.sync, .cmd, .reply, .fwd, .fwdReply].idxOf f.kind + 16 * f.tag.toNat),
        BitVec.ofNat 8 f.payload.length, 0] := by
  rw [NorthFrame.header, setWidth_eq_ofNat, tagged_eq_ofNat, FrameKind.toNat_code]
  rfl

/-- Settles O17: each command taken has one reply, and the bytes of replies and frames are those of the code tables. -/
theorem everyCommandTakenIsAnsweredOnce : Obligations.EveryCommandTakenIsAnsweredOnce := by
  unfold Obligations.EveryCommandTakenIsAnsweredOnce
  intro status reason
  have hstatus : ∀ st : ReplyStatus, st.code = status st := fun st => by cases st <;> rfl
  have hreason : ∀ st : ReplyStatus, st.reasonCode = reason st := fun st => by
    cases st with
    | refused r => exact Reason.listPlace_eq r
    | _ => rfl
  have hreply : ∀ (s : State) (c : Command) (r : Reply), s.reply c r =
      s.enqueueTx .decoder
        ⟨0, .reply, c.tag, [c.payload.headD 0, status r.status, reason r.status] ++ r.data⟩ := fun s c r => by
    rw [← hstatus, ← hreason]
    rfl
  refine ⟨fun row s c hrow h => ?_, fun s c r => ⟨hreply s c r, rfl, fun st => rfl⟩, fun dest tag st payload => ?_,
    fun f => ?_⟩
  · obtain ⟨u, r, hexec, htx, hcommands⟩ := exec_taken hrow h
    rw [hreply] at hexec
    exact ⟨_, _, r.status, r.data, hexec, congrArg (· ++ [_]) htx, rfl, rfl, rfl, rfl, hcommands⟩
  · rw [fwdReply, FwdStatus.code_eq]
  · dsimp only
    rw [NorthFrame.bytes, NorthFrame.header_eq]

end Sys2Proof.Machine
end

section
/-! ### GET_STATUS and the status block (R9, R10, section 11.3) -/

namespace Sys2Proof.Machine

theorem exec_body {row : Instr} {α : Type} {args : List Byte → Option α} {body : α → State → State × Reply} {s : State}
    {c : Command} {a : α} (h : s.takeable row = some c) (ha : args c.payload.tail = some a)
    (he : exec row s = .next (takeCommand row args body s)) :
    exec row s = .next ((body a s.popCommand).1.reply c (body a s.popCommand).2) := by
  rw [he, takeCommand_body h ha]

theorem popCommand_statusBlock (s : State) : s.popCommand.statusBlock = s.statusBlock := rfl

/-- Log 4: the row of the clear option takes well-formed commands only. -/
theorem tail_of_getStatusClear {payload : List Byte} (h : commandRow payload = .getStatusClear) : payload.tail = [1] := by
  cases payload with
  | nil => cases h
  | cons code args =>
    rcases commandRow_cases code args with rfl | rfl | hmem | hno
    · by_cases ha : args = [1]
      · exact ha
      · cases (if_neg ha).symm.trans h
    · by_cases ha : args = [0xFF]
      · cases (if_pos ha).symm.trans h
      · cases (if_neg ha).symm.trans h
    · rw [h] at hmem
      simp [commandCodes] at hmem
    · cases hno.symm.trans h

/-! #### The bytes of the status block (R185) -/

theorem le_length (n v : Nat) : (le n v).length = n := by
  rw [le_eq_littleEndian, littleEndian, List.length_map, List.length_range]

theorem chainElementBytes_length (n : Nat) (chain : List ChainElement) :
    (chainElementBytes n chain).length = 2 * n := by
  induction n generalizing chain with
  | zero => rfl
  | succ n ih =>
    cases chain <;> simp only [chainElementBytes, List.length_cons, ih] <;> omega

theorem statusBlock_length (s : State) : s.statusBlock.length = 37 := by
  simp [State.statusBlock, State.chainBytes, le_length, chainElementBytes_length]

theorem WakeCause.byte_code (x : WakeCause) : byte x.code = listPlace [.limit, .wakeIn, .link, .tamper, .report] x := by
  cases x <;> rfl

theorem firstCause_eq (o : Option WakeCause) :
    orAbsent ((o.map WakeCause.code).map (BitVec.ofNat 8)) = orAbsent (o.map (listPlace [.limit, .wakeIn, .link, .tamper, .report])) := by
  rcases o with _ | x
  · rfl
  · exact x.byte_code

/-- One element of the profile chain as the status block shows it. -/
def chainElement (chain : List ChainElement) (i : Nat) : List Byte :=
  match chain[i]? with
  | some e => [BitVec.ofNat 8 e.profile, causeByte e.cause]
  | none => [0xFF, 0xFF]

theorem chainElementBytes_four (chain : List ChainElement) :
    chainElementBytes 4 chain =
      chainElement chain 0 ++ chainElement chain 1 ++ chainElement chain 2 ++ chainElement chain 3 := by
  have hr : List.range 4 = [0, 1, 2, 3] := rfl
  rw [chainElementBytes_eq, hr]
  simp only [List.flatMap_cons, List.flatMap_nil, List.append_nil, List.append_assoc]
  rfl

theorem tripCauseByte_eq (s : State) :
    s.tripCauseByte = if s.seq.state = .tripped then orAbsent (s.seq.tripCause.map causeByte) else 0xFF := by
  rw [State.tripCauseByte, optCause_eq]
  rfl

/-- Settles O18: GET_STATUS answers the status block, the clear option clears R10's fields, and the block byte by
byte. -/
theorem getStatusReadsAndClears : Obligations.GetStatusReadsAndClears := by
  refine ⟨fun s c a h ha => ?_, fun s c h => ?_, statusBlock_length, fun s => ?_⟩
  · rw [exec_body h ha rfl, State.doGetStatus, popCommand_statusBlock]
  · obtain ⟨-, hrow, -⟩ := takeable_iff.mp h
    have ha : argClear c.payload.tail = some 1 := by
      rw [tail_of_getStatusClear hrow]
      rfl
    rw [exec_body h ha rfl, State.doGetStatusClear, popCommand_statusBlock]
    rfl
  · simp only [State.statusBlock, State.chainBytes, le_eq_littleEndian, PowerState.code_eq, LockState.code_eq,
      SeqState.code_eq, optByte_eq_orAbsent, tripCauseByte_eq, chainElementBytes_four, EngineState.code_eq,
      EngineState.lockCauseByte_eq, LastVerification.code_eq, LoadResult.code_eq, WakeCauses.mask_eq, firstCause_eq,
      StickyFlags.mask_eq, setByte_four, List.append_assoc, List.cons_append, List.nil_append]
    rfl

/-! ### Working tables (R11, R12, section 11.6) -/

theorem membersMask_eq_sum (l : List Nat) : membersMask 1 l = (l.map fun p => 2 ^ (p - 1)).sum := by
  rw [membersMask, List.sum_eq_foldl, List.foldl_map]

theorem fineAdjustByte_eq (v : Int) :
    fineAdjustByte v = BitVec.ofNat 8 (if v < 0 then 0x80 + v.natAbs else v.natAbs) :=
  (apply_ite (BitVec.ofNat 8) _ _ _).symm

theorem WakeInMode.code_eq (x : WakeInMode) : x.code = listPlace [.high, .low, .rising, .falling] x := by
  cases x <;> rfl

theorem SignalClass.code_eq (x : SignalClass) :
    x.code = listPlace [.cellRaw, .cellComp, .temp, .current, .moduleFlag, .moduleMissing] x := by
  cases x <;> rfl

theorem SeqClass.code_eq (x : SeqClass) : x.code = listPlace [.closeDrive, .closeCharge, .openSeq] x := by
  cases x <;> rfl

theorem contactorCode_eq (c : Contactor) : byte (contactorCode c) = listPlace [.mneg, .mpos, .pre, .chg] c := by
  cases c <;> rfl

theorem setByte_five (a b c d e : Bool) :
    bitIf a 0 ||| bitIf b 1 ||| bitIf c 2 ||| bitIf d 3 ||| bitIf e 4 = setByte [a, b, c, d, e] := by
  revert a b c d e
  decide

theorem setByte_six (a b c d e f : Bool) :
    bitIf a 0 ||| bitIf b 1 ||| bitIf c 2 ||| bitIf d 3 ||| bitIf e 4 ||| bitIf f 5 = setByte [a, b, c, d, e, f] := by
  revert a b c d e f
  decide

theorem bitIf_seven (b : Bool) : bitIf b 7 = if b then 0x80 else 0 := by
  cases b <;> rfl

end Sys2Proof.Machine
end

section
/-! ### The working tables: READ_TABLE, SET_TRIM and the bytes of each table (R11, R12, section 11.6) -/

namespace Sys2Proof.Machine

/-! #### READ_TABLE (R11) -/

theorem tablesGate_noTables {s : State} (h : s.tables.working = none) : s.tablesGate = some (.refused .noTables) := by
  simp [State.tablesGate, State.tablesLoaded, h]

section Loaded
variable {s : State} {w : WorkingTables}

theorem tablesGate_busy (h : s.tables.working = some w) (he : s.tables.engine = .activating) :
    s.tablesGate = some .busy := by
  simp [State.tablesGate, State.tablesLoaded, h, he]

theorem tablesGate_open (h : s.tables.working = some w) (he : s.tables.engine ≠ .activating) : s.tablesGate = none := by
  simp [State.tablesGate, State.tablesLoaded, h, he]

theorem doReadTable_gated {a : ReadTableArgs} {st : ReplyStatus} (h : s.tablesGate = some st) :
    s.doReadTable a = answer s st := by
  simp only [State.doReadTable, h]

theorem doReadTable_noTable {a : ReadTableArgs} (h : s.tables.working = some w) (he : s.tables.engine ≠ .activating)
    (ht : w.table a.kind a.index = none) : s.doReadTable a = refuse s .range := by
  simp only [State.doReadTable, tablesGate_open h he, State.tableBytes, h, ht]

theorem doReadTable_bytes {a : ReadTableArgs} {bytes : List Byte} (h : s.tables.working = some w)
    (he : s.tables.engine ≠ .activating) (ht : w.table a.kind a.index = some bytes) :
    s.doReadTable a =
      if bytes.length ≤ a.offset then refuse s .range
      else
        (s, ⟨if a.offset + a.length ≤ bytes.length then .ok else .isPartial,
          byte (min a.length (bytes.length - a.offset)) :: (bytes.drop a.offset).take a.length⟩) := by
  simp only [State.doReadTable, tablesGate_open h he, State.tableBytes, h, ht, List.length_take, List.length_drop]

end Loaded

/-! #### SET_TRIM (R12) -/

theorem doSetTrim_noTables {s : State} {a : SetTrimArgs} (h : s.tables.working = none) :
    s.doSetTrim a = refuse s .noTables := by
  simp only [State.doSetTrim, h]

section Trimming
variable {s : State} {a : SetTrimArgs} {w : WorkingTables}

theorem doSetTrim_busy (h : s.tables.working = some w) (he : s.tables.engine = .activating) :
    s.doSetTrim a = answer s .busy := by
  simp only [State.doSetTrim, h, if_pos he]

theorem doSetTrim_noModule (h : s.tables.working = some w) (he : s.tables.engine ≠ .activating)
    (hm : ¬ (1 ≤ a.module ∧ a.module ≤ w.modules.modules.length)) : s.doSetTrim a = refuse s .range := by
  simp only [State.doSetTrim, h, if_neg he, if_neg hm]

theorem doSetTrim_sets (h : s.tables.working = some w) (he : s.tables.engine ≠ .activating)
    (hm : 1 ≤ a.module ∧ a.module ≤ w.modules.modules.length) :
    s.doSetTrim a = (s.setTrim w (a.module - 1) a.fineAdjust, .plain .ok) := by
  simp only [State.doSetTrim, h, if_neg he, if_pos hm]

end Trimming

/-! #### The bytes of each table (section 11.6) -/

/-- A set of positions as a number: bit i − 1 for position i. -/
def membersNumber (l : List Nat) : Nat := (l.map fun p => 2 ^ (p - 1)).sum

theorem ModuleEntry.bytes_eq (m : ModuleEntry) :
    m.bytes =
      littleEndian 2 (membersNumber m.population) ++ [BitVec.ofNat 8 m.temperatureCount] ++
        littleEndian 2 m.resistance ++
        [BitVec.ofNat 8 (if m.fineAdjust < 0 then 0x80 + m.fineAdjust.natAbs else m.fineAdjust.natAbs)] := by
  rw [ModuleEntry.bytes, le_eq_littleEndian, le_eq_littleEndian, membersMask_eq_sum, fineAdjustByte_eq]
  rfl

theorem ScheduleEntry.bytes_eq (e : ScheduleEntry) :
    e.bytes =
      littleEndian 2 e.phase ++ [listPlace [.cells, .temps, .both] e.kind, BitVec.ofNat 8 (e.decimation - 1)] ++
        littleEndian 3 (membersNumber e.moduleSet) := by
  rw [ScheduleEntry.bytes, le_eq_littleEndian, le_eq_littleEndian, membersMask_eq_sum, MeasKind.code_eq]
  rfl

theorem LimitEntry.bytes_eq (e : LimitEntry) :
    e.bytes =
      [listPlace [.cellRaw, .cellComp, .temp, .current, .moduleFlag, .moduleMissing] e.cls,
        BitVec.ofNat 8 e.firstPosition, BitVec.ofNat 8 e.lastPosition, BitVec.ofNat 8 e.firstChannel,
        BitVec.ofNat 8 e.lastChannel, e.flagMask] ++
      littleEndianSigned 4 e.threshold ++ littleEndian 4 e.hysteresis ++
      [setByte [e.below, e.latch] ||| BitVec.ofNat 8 (4 * (e.persistence - 1)),
        setByte [e.alert, e.fastOpen, e.blockClose, e.wake, e.enter], BitVec.ofNat 8 e.enterTarget] := by
  rw [LimitEntry.bytes, leInt_eq_littleEndianSigned, le_eq_littleEndian, SignalClass.code_eq, setByte_two, setByte_five]
  rfl

theorem SeqStep.bytes_eq (x : SeqStep) :
    x.bytes =
      match x with
      | .drive c => [0, listPlace [.mneg, .mpos, .pre, .chg] c, 0, 0]
      | .release c => [1, listPlace [.mneg, .mpos, .pre, .chg] c, 0, 0]
      | .wait t => [2, 0] ++ littleEndian 2 t
      | .awaitFb c closed t =>
        [3, listPlace [.mneg, .mpos, .pre, .chg] c ||| (if closed then 0x80 else 0)] ++ littleEndian 2 t
      | .awaitPrecharge ratio t => [4, BitVec.ofNat 8 ratio] ++ littleEndian 2 t
      | .endStep => [5, 0, 0, 0] := by
  cases x with
  | awaitFb c closed t => rw [SeqStep.bytes, contactorCode_eq, bitIf_seven, le_eq_littleEndian]
  | drive c => rw [SeqStep.bytes, contactorCode_eq]
  | release c => rw [SeqStep.bytes, contactorCode_eq]
  | wait t => rw [SeqStep.bytes, le_eq_littleEndian]
  | awaitPrecharge ratio t =>
    rw [SeqStep.bytes, le_eq_littleEndian]
    rfl
  | endStep => rfl

theorem Sequence.bytes_eq (q : Sequence) :
    q.bytes =
      [listPlace [.closeDrive, .closeCharge, .openSeq] q.cls, BitVec.ofNat 8 (q.steps.length - 1)] ++
        q.steps.flatMap SeqStep.bytes := by
  rw [Sequence.bytes, SeqClass.code_eq]
  rfl

theorem ProfileRecord.bytes_eq (p : ProfileRecord) :
    p.bytes =
      [setByte [p.watch, p.base, p.sleepOk, p.activateOk, p.openOnEntry, p.keepNewest], BitVec.ofNat 8 p.id,
        BitVec.ofNat 8 p.scheduleId, BitVec.ofNat 8 p.limitSetId] ++
      littleEndian 4 p.lnom ++ littleEndian 2 p.tol ++
      [BitVec.ofNat 8 p.holdoverLimit, p.allowedClose, p.forwardSet.setWidth 8,
        orAbsent (p.watchProfile.map (BitVec.ofNat 8))] ++
      littleEndian 2 p.watchInterval ++ [BitVec.ofNat 8 p.chainWakeTime, BitVec.ofNat 8 p.reportEvery] := by
  rw [ProfileRecord.bytes, setByte_six, optByte_eq_orAbsent]
  simp only [le_eq_littleEndian]
  rfl

/-- R11: a kind and an index that name no table. -/
theorem WorkingTables.table_none {w : WorkingTables} {kind i : Nat} (h : 4 < kind ∨ i ≠ 0 ∧ kind ≠ 1 ∧ kind ≠ 2) :
    w.table kind i = none := by
  match kind with
  | 0 | 3 | 4 => exact if_neg (by omega)
  | 1 | 2 => omega
  | n + 5 => rfl

/-- Settles O19: the checks of READ_TABLE and SET_TRIM in order, and the bytes of each working table. -/
theorem workingTableCommands : Obligations.WorkingTableCommands := by
  refine ⟨fun s c a h ha => ⟨fun hn => ?_, fun w hw => ⟨fun he => ?_, fun he => ⟨fun ht => ?_, fun bytes ht =>
    ⟨fun hoff => ?_, fun hoff => ?_⟩⟩⟩⟩, fun s c a h ha => ⟨fun hn => ?_, fun w hw => ⟨fun he => ?_, fun he =>
    ⟨fun hm => ?_, fun hm1 hm => ?_⟩⟩⟩, fun w => ⟨?_, fun i => ?_, fun i => ?_, ?_, ?_, fun kind i h =>
    WorkingTables.table_none h⟩⟩
  · rw [exec_body h ha rfl, doReadTable_gated (s := s.popCommand) (tablesGate_noTables hn)]
    rfl
  · rw [exec_body h ha rfl, doReadTable_gated (s := s.popCommand) (tablesGate_busy hw he)]
    rfl
  · rw [exec_body h ha rfl, doReadTable_noTable (s := s.popCommand) hw he ht]
    rfl
  · rw [exec_body h ha rfl, doReadTable_bytes (s := s.popCommand) hw he ht, if_pos hoff]
    rfl
  · rw [exec_body h ha rfl, doReadTable_bytes (s := s.popCommand) hw he ht, if_neg (Nat.not_le.mpr hoff)]
  · rw [exec_body h ha rfl, doSetTrim_noTables (s := s.popCommand) hn]
    rfl
  · rw [exec_body h ha rfl, doSetTrim_busy (s := s.popCommand) hw he]
    rfl
  · rw [exec_body h ha rfl, doSetTrim_noModule (s := s.popCommand) hw he hm]
    rfl
  · rw [exec_body h ha rfl, doSetTrim_sets (s := s.popCommand) hw he ⟨hm1, hm⟩]
    rfl
  · have hm := funext ModuleEntry.bytes_eq
    show some w.modules.bytes = _
    rw [ModuleTable.bytes, hm, WakeInMode.code_eq]
    simp only [le_eq_littleEndian]
    rfl
  · have he := funext ScheduleEntry.bytes_eq
    show (w.schedules[i]?).map (List.flatMap ScheduleEntry.bytes) = _
    rw [he]
    rfl
  · have he := funext LimitEntry.bytes_eq
    show (w.limitSets[i]?).map (List.flatMap LimitEntry.bytes) = _
    rw [he]
  · have hq := funext Sequence.bytes_eq
    have hx := funext SeqStep.bytes_eq
    show some w.sequence.bytes = _
    rw [SequenceTable.bytes, hq, hx]
    simp only [le_eq_littleEndian]
    rfl
  · have hp := funext ProfileRecord.bytes_eq
    show some (w.profiles.flatMap ProfileRecord.bytes) = _
    rw [hp]

end Sys2Proof.Machine
end

section
/-! ### The state after the first power-on reset (R21, R38, R62, R68, R98, R123, R134, R151, R166, R168, R184) -/

namespace Sys2Proof.Machine

theorem reset_blank : State.reset.blank State.reset.north.rate :=
  ⟨rfl, rfl, rfl, rfl, rfl, rfl, rfl, rfl, rfl, rfl, rfl, rfl, rfl, fun c => by cases c <;> rfl, rfl,
    fun c => by cases c <;> rfl, rfl, rfl, rfl, rfl, rfl⟩

theorem reset_coilsSafe : CoilsSafe State.reset :=
  ⟨fun _ => rfl, fun _ => ⟨rfl, rfl, rfl, rfl⟩, fun _ => rfl, rfl⟩

theorem reset_arraySafe : ArraySafe State.reset := ⟨rfl, nofun, nofun⟩

theorem reset_fits : Fits State.reset where
  commands := Nat.zero_le 4
  tx := Nat.zero_le 8
  forwardQueue := Nat.zero_le 4
  trims := List.length_replicate
  records := Nat.zero_le 8
  ring := Nat.zero_le 64
  events := Nat.zero_le 32
  overflow := nofun
  marks := List.length_replicate

theorem reset_ringSafe : RingSafe State.reset := ⟨rfl, fun _ => rfl, fun _ => rfl⟩

theorem reset_tablesSteady : TablesSteady State.reset :=
  ⟨nofun, nofun, fun _ => ⟨rfl, rfl⟩, fun _ => ⟨rfl, rfl, nofun⟩, nofun⟩

theorem reset_chainSafe : ChainSafe State.reset :=
  ⟨Nat.zero_le 4, fun _ => Nat.zero_le 3, nofun, nofun, List.nodup_nil, nofun, nofun, nofun, reset_tablesSteady⟩

/-- Settles O4: the reset state field by field, and each invariant there. -/
theorem resetStateAndInvariants : Obligations.ResetStateAndInvariants := by
  obtain ⟨hcapacities, hoverflow⟩ := fits_iff.mp reset_fits
  exact ⟨⟨reset_blank, rfl, rfl, rfl, rfl, rfl, rfl, rfl, rfl, rfl, rfl, fun _ => rfl, rfl⟩,
    reset_coilsSafe, reset_arraySafe, hcapacities, hoverflow, reset_ringSafe, reset_chainSafe⟩

end Sys2Proof.Machine
end

section
/-! ### The sync lock (R25 to R36) -/

namespace Sys2Proof.Machine

/-! #### Parameters, moments and the loss of lock (R26, R27, R35) -/

theorem lockParams_eq {s : State} {p : ProfileRecord} (h : s.activeProfile = some p) :
    s.lockParams = ⟨p.lnom, p.tol, p.holdoverLimit⟩ := by
  rw [State.lockParams, h]
  rfl

theorem windowCloseAt_eq {s : State} {p : ProfileRecord} (h : s.activeProfile = some p) (before : Stamp) :
    s.windowCloseAt before = before + BitVec.ofNat 32 s.lock.lEst + BitVec.ofNat 32 (p.tol + s.lag) := by
  rw [State.windowCloseAt, lockParams_eq h]
  rfl

theorem acquireCloseAt_eq {s : State} {p : ProfileRecord} (h : s.activeProfile = some p) (before : Stamp) :
    s.acquireCloseAt before = before + BitVec.ofNat 32 (p.lnom + p.tol + s.lag) := by
  rw [State.acquireCloseAt, lockParams_eq h]
  rfl

/-- R26: the decision lag is the sync delay and 48 bit times. -/
theorem lag_eq {s : State} {m : ModuleTable} (h : s.moduleTable = some m) :
    s.lag = m.syncDelay + s.north.rate.syncTime := by
  rw [State.lag, State.syncDelay, h]

theorem notLater_iff {a b : Stamp} : notLater a b = true ↔ (a - b).toInt ≤ 0 := decide_eq_true_iff

theorem lockLoss_eq (s : State) : s.lockLoss = s.unlocked := rfl

theorem acquireCloseDue_iff {s : State} {before : Stamp} (h : s.lock.tLast = some before) :
    s.acquireCloseDue = true ↔ s.lock.state = .acquiring ∧ (s.acquireCloseAt before - s.now).toInt ≤ 0 := by
  rw [State.acquireCloseDue, h, ← notLater_iff]
  cases s.lock.state <;> simp

theorem windowCloseDue_eq_some {s : State} {before : Stamp} (h : s.lock.tLast = some before)
    (hs : s.lock.state = .locked ∨ s.lock.state = .holdover)
    (hr : (s.windowCloseAt before - s.now).toInt ≤ 0) : s.windowCloseDue = some before := by
  rcases hs with hs | hs <;> simp only [State.windowCloseDue, h, hs, if_pos (notLater_iff.mpr hr)]

theorem windowCloseDue_eq_none {s : State} {before : Stamp} (h : s.lock.tLast = some before)
    (hn : ¬ (s.windowCloseAt before - s.now).toInt ≤ 0 ∨ s.lock.state = .unlocked ∨ s.lock.state = .acquiring) :
    s.windowCloseDue = none := by
  rcases hn with hr | hs | hs
  · rw [State.windowCloseDue, h]
    cases s.lock.state <;> simp only [if_neg (mt notLater_iff.mp hr)]
  · rw [State.windowCloseDue, hs]
  · rw [State.windowCloseDue, hs]

/-! #### SYNC arrivals (R25, R29 to R34) -/

/-- R25: the stamp of a SYNC is the count at the end of its delimiter minus the sync delay. -/
theorem stampAddInt_neg (d : Stamp) (n : Nat) : stampAddInt d (-(n : Int)) = d - BitVec.ofNat 32 n := by
  rw [stampAddInt, BitVec.ofInt_neg, BitVec.ofInt_natCast, BitVec.sub_eq_add_neg]

/-- R25: a SYNC that reaches the lock is judged there by its stamp. -/
theorem exec_syncArrives {s : State} {bytes : List Byte} {stamp : Stamp} (h : s.syncArrives bytes stamp) :
    exec (.northFrameComplete bytes) s = .next (judgeSync 9 stamp s.receiverIdle) := by
  obtain ⟨hp, ht, d, f, hr, hf, hk, rfl⟩ := h
  rw [execNorthFrameComplete_accepted hp hr hf, State.routeFrame, hk]
  have hl : s.receiverIdle.tablesLoaded = true := ht
  show Host.Outcome.next (s.receiverIdle.syncArrival d) = _
  rw [State.syncArrival, if_pos hl, stampAddInt_neg]
  rfl

section Judged
variable {s : State} {stamp before : Stamp} {n : Nat}

theorem judgeSync_unlocked (h : s.lock.state = .unlocked) : judgeSync n stamp s = s.beginAcquire stamp := by
  simp only [judgeSync.eq_def, h]

theorem judgeSync_acquiring (h : s.lock.state = .acquiring) (hb : s.lock.tLast = some before) :
    judgeSync n stamp s = s.acquire stamp before := by
  simp only [judgeSync.eq_def, h, hb]

theorem judgeSync_early (h : s.lock.state = .locked ∨ s.lock.state = .holdover) (hb : s.lock.tLast = some before)
    (he : stampDiff stamp (s.expected before) < -(s.lockParams.tol : Int)) :
    judgeSync n stamp s = s.setStraySync := by
  rw [judgeSync.eq_def]
  rcases h with h | h <;> simp only [h, hb, if_pos he]

theorem judgeSync_inWindow (h : s.lock.state = .locked ∨ s.lock.state = .holdover) (hb : s.lock.tLast = some before)
    (hlo : -(s.lockParams.tol : Int) ≤ stampDiff stamp (s.expected before))
    (hhi : stampDiff stamp (s.expected before) ≤ s.lockParams.tol) :
    judgeSync n stamp s = s.acceptSync stamp before := by
  rw [judgeSync.eq_def]
  rcases h with h | h <;> simp only [h, hb, if_neg (Int.not_lt.mpr hlo), if_pos hhi]

end Judged

/-- Settles O21: a SYNC in UNLOCKED begins acquisition, and its window closes Lnom + tol + Δ after its stamp. -/
theorem syncInUnlockedBeginsAcquisition : Obligations.SyncInUnlockedBeginsAcquisition := by
  intro s bytes stamp p hsync hstate hprofile
  refine ⟨_, exec_syncArrives hsync, judgeSync_unlocked hstate, fun n => ?_⟩
  rw [judgeSync_unlocked (s := s.receiverIdle) hstate, Bool.eq_iff_iff, decide_eq_true_iff]
  refine (acquireCloseDue_iff rfl).trans ?_
  rw [acquireCloseAt_eq (p := p) (by exact hprofile)]
  exact and_iff_right rfl

/-! The three ends of an interval judged in ACQUIRING (R30). -/

section Interval
variable {s : State} {stamp before : Stamp} {p : ProfileRecord}

/-- R30: an interval of Lnom ± tol. -/
def ProfileRecord.goodInterval (p : ProfileRecord) (l : Int) : Prop :=
  (p.lnom : Int) - p.tol ≤ l ∧ l ≤ (p.lnom : Int) + p.tol

theorem acquire_first (hp : s.activeProfile = some p) (hg : p.goodInterval (stamp - before).toInt)
    (hc : s.lock.acquireCount = 0) :
    s.acquire stamp before =
      s.withLock { s.lock with tLast := some stamp, lEst := (stamp - before).toInt.toNat, acquireCount := 1 } := by
  rw [State.acquire, lockParams_eq hp]
  refine (if_pos (by exact hg)).trans ?_
  rw [hc]
  rfl

theorem acquire_second (hp : s.activeProfile = some p) (hg : p.goodInterval (stamp - before).toInt)
    (hc : s.lock.acquireCount = 1) :
    s.acquire stamp before =
      (s.withLock ⟨.locked, some stamp, (stamp - before).toInt.toNat, 0, 0⟩).frameStart stamp
        (stamp - before).toInt.toNat := by
  rw [State.acquire, lockParams_eq hp]
  refine (if_pos (by exact hg)).trans ?_
  rw [hc]
  rfl

theorem acquire_bad (hp : s.activeProfile = some p) (hg : ¬ p.goodInterval (stamp - before).toInt) :
    s.acquire stamp before = s.withLock { s.lock with tLast := some stamp, acquireCount := 0 } := by
  rw [State.acquire, lockParams_eq hp]
  exact if_neg (by exact hg)

end Interval

/-- Settles O22: the first good interval, the second, and a bad one. -/
theorem syncInAcquiringIsJudgedOnItsInterval : Obligations.SyncInAcquiringIsJudgedOnItsInterval := by
  intro s bytes stamp before p hsync hstate hlast hprofile
  have hjudged := judgeSync_acquiring (s := s.receiverIdle) (stamp := stamp) (n := 9) hstate hlast
  have hp : s.receiverIdle.activeProfile = some p := hprofile
  refine ⟨fun hgood hcount => ?_, fun hgood hcount => ?_, fun hbad => ?_⟩
  · rw [exec_syncArrives hsync, hjudged, acquire_first hp hgood hcount]
    rfl
  · rw [exec_syncArrives hsync, hjudged, acquire_second hp hgood hcount]
    rfl
  · rw [exec_syncArrives hsync, hjudged, acquire_bad hp hbad]
    rfl

/-! The frame estimate (R32, R34). -/

theorem clampInt_eq {lo hi : Int} (h : lo ≤ hi) (x : Int) : clampInt x lo hi = max lo (min x hi) := by
  unfold clampInt
  split <;> try split
  all_goals omega

/-- R32, R34: L_est after an accepted SYNC: moved by an eighth of the error, and clamped to Lnom ± tol. -/
def State.movedEstimate (s : State) (p : ProfileRecord) (stamp before : Stamp) : Nat :=
  let moved : Int := s.lock.lEst + ((stamp - before).toInt - s.lock.lEst).tdiv 8
  (max ((p.lnom : Int) - p.tol) (min moved (p.lnom + p.tol))).toNat

theorem acceptSync_eq {s : State} {p : ProfileRecord} (hp : s.activeProfile = some p) (stamp before : Stamp) :
    s.acceptSync stamp before =
      (s.withLock
        { s.lock with
          state := .locked, tLast := some stamp, lEst := s.movedEstimate p stamp before, missCount := 0 }).frameStart
        stamp (s.movedEstimate p stamp before) := by
  have hband : (p.lnom : Int) - p.tol ≤ p.lnom + p.tol := by omega
  rw [State.acceptSync, lockParams_eq hp]
  simp only [clampInt_eq hband]
  rfl

theorem frameStart_lock (s : State) (start : Stamp) (length : Nat) : (s.frameStart start length).lock = s.lock := by
  have ht : Touches [.store, .north, .sched] s (s.frameStart start length) := by simp
  exact ht .lock (by decide)

theorem movedEstimate_bounds {p : ProfileRecord} (h : p.tol ≤ p.lnom) (s : State) (stamp before : Stamp) :
    p.lnom - p.tol ≤ s.movedEstimate p stamp before ∧ s.movedEstimate p stamp before ≤ p.lnom + p.tol := by
  simp only [State.movedEstimate]
  omega

/-- Settles O23: a SYNC inside the window and one before it, and the band that no accepted SYNC leaves. -/
theorem syncInTheWindowIsAccepted : Obligations.SyncInTheWindowIsAccepted := by
  refine ⟨fun s bytes stamp before p hsync hstate hlast hprofile => ⟨fun hlo hhi => ?_, fun hearly => ?_⟩,
    fun s stamp before p hprofile htol => ?_⟩
  · have hp : s.receiverIdle.activeProfile = some p := hprofile
    have hw := judgeSync_inWindow (s := s.receiverIdle) (stamp := stamp) (n := 9) hstate hlast
    rw [lockParams_eq hp] at hw
    rw [exec_syncArrives hsync, hw hlo hhi, acceptSync_eq hp]
    rfl
  · have hp : s.receiverIdle.activeProfile = some p := hprofile
    have hw := judgeSync_early (s := s.receiverIdle) (stamp := stamp) (n := 9) hstate hlast
    rw [lockParams_eq hp] at hw
    rw [exec_syncArrives hsync, hw hearly]
    rfl
  · have hlock := (congrArg State.lock (acceptSync_eq hprofile stamp before)).trans (frameStart_lock _ _ _)
    simp only [hlock]
    exact ⟨rfl, rfl, movedEstimate_bounds htol s stamp before⟩

/-! #### Window closes (R26, R31, R33, R35, R36) -/

section Closes
variable {s : State} {before : Stamp} {p : ProfileRecord}

theorem exec_windowClose_rests (h : s.windowCloseDue = none) : exec .windowClose s = .next s := by
  simp [exec, execWindowClose, h]

theorem exec_windowClose_due (hp : s.power = ⟨true, false⟩) (h : s.windowCloseDue = some before) :
    exec .windowClose s = .next (s.closeWindow before) := by
  simp [exec, execWindowClose, operating_of hp, h]

theorem closeWindow_locked (h : s.lock.state = .locked) :
    s.closeWindow before = s.virtualFrame (s.expected before) 1 := by
  rw [State.closeWindow, h]

theorem closeWindow_held (h : s.lock.state = .holdover) (hm : s.lock.missCount + 1 ≤ s.lockParams.limit) :
    s.closeWindow before = s.virtualFrame (s.expected before) (s.lock.missCount + 1) := by
  simp only [State.closeWindow, h, if_pos hm]

theorem closeWindow_lost (h : s.lock.state = .holdover) (hm : s.lockParams.limit < s.lock.missCount + 1) :
    s.closeWindow before = s.unlocked := by
  simp only [State.closeWindow, h, if_neg (Nat.not_le.mpr hm), lockLoss_eq]

theorem exec_acquireWindowClose (hp : s.power = ⟨true, false⟩) :
    exec .acquireWindowClose s = .next (if s.acquireCloseDue = true then s.unlocked else s) := by
  simp [exec, execAcquireWindowClose, operating_of hp, lockLoss_eq]

end Closes

/-- Settles O24: the lag at each rate, and the closes of the two windows in each state of the lock. -/
theorem windowsClose : Obligations.WindowsClose := by
  refine ⟨fun s m hm => ?_, fun s before p hp hlast hprofile => ?_, fun s before p hp hlast hprofile => ?_⟩
  · rw [lag_eq hm]
    cases s.north.rate <;> rfl
  · intro e reached
    have hat : reached ↔ (s.windowCloseAt before - s.now).toInt ≤ 0 := by rw [windowCloseAt_eq hprofile]
    have hlimit : s.lockParams.limit = p.holdoverLimit := by rw [lockParams_eq hprofile]
    refine ⟨fun hrest => ?_, fun hreached hstate => ?_, fun hreached hstate hmisses => ?_,
      fun hreached hstate hmisses => ?_⟩
    · rw [hat] at hrest
      exact exec_windowClose_rests (windowCloseDue_eq_none hlast hrest)
    · rw [exec_windowClose_due hp (windowCloseDue_eq_some hlast (.inl hstate) (hat.mp hreached)),
        closeWindow_locked hstate]
      rfl
    · rw [exec_windowClose_due hp (windowCloseDue_eq_some hlast (.inr hstate) (hat.mp hreached)),
        closeWindow_held hstate (hlimit ▸ hmisses)]
      rfl
    · rw [exec_windowClose_due hp (windowCloseDue_eq_some hlast (.inr hstate) (hat.mp hreached)),
        closeWindow_lost hstate (hlimit ▸ hmisses)]
      rfl
  · intro reached
    have hdue := acquireCloseDue_iff hlast
    rw [acquireCloseAt_eq hprofile] at hdue
    refine ⟨fun hstate hreached => ?_, fun hrest => ?_⟩
    · rw [exec_acquireWindowClose hp, if_pos (hdue.mpr ⟨hstate, hreached⟩)]
      rfl
    · rw [exec_acquireWindowClose hp, if_neg]
      rw [hdue]
      rintro ⟨hstate, hreached⟩
      exact hrest.elim (· hstate) (· hreached)

end Sys2Proof.Machine
end

section
/-! ### What a commit does to the lock and to the sequencer (R37, R148, R149) -/

namespace Sys2Proof.Machine

/-! #### What an orderly open leaves (R112) -/

section OrderlyOpen
variable (s : State) (cause : Cause)

theorem touches_opening_orderlyOpen : Touches Block.opening s (s.orderlyOpen cause) := by simp [Block.opening]

theorem orderlyOpen_lock : (s.orderlyOpen cause).lock = s.lock := touches_opening_orderlyOpen s cause .lock (by decide)

theorem orderlyOpen_sched : (s.orderlyOpen cause).sched = s.sched :=
  touches_opening_orderlyOpen s cause .sched (by decide)

/-- R112, R121: nothing is left to open. -/
theorem orderlyOpen_resting {s : State} (h : s.seq.state.resting = true) : s.orderlyOpen cause = s := by
  unfold State.orderlyOpen
  split
  · next hs => simp [hs, SeqState.resting] at h
  · next hs => simp [hs, SeqState.resting] at h
  all_goals rfl

end OrderlyOpen

/-! #### The lock at a commit (R37) -/

/-- R37: a lock outside the new band acquires again, with the count 0 and nothing due. -/
def State.reacquiring (s : State) : State :=
  (s.withLock { s.lock with state := .acquiring, acquireCount := 0, missCount := 0 }).withSched
    { s.sched with due := [], held := [], waiting := none }

section LockCommit
variable {s : State} {old : LockParams} {p : ProfileRecord}

theorem takePassedClose_eq (s : State) :
    s.takePassedClose = if s.acquireClosePassed = true then s.unlocked else s := rfl

theorem acquireClosePassed_iff (hp : s.activeProfile = some p) (h : s.lock.state = .acquiring) :
    s.acquireClosePassed = true ↔ ∃ before, s.lock.tLast = some before ∧
      0 < (s.now - (before + BitVec.ofNat 32 (p.lnom + p.tol + s.lag))).toInt := by
  rw [State.acquireClosePassed, h]
  cases s.lock.tLast with
  | none => simp
  | some before =>
    simp only [acquireCloseAt_eq hp, later, stampDiff, decide_eq_true_iff, Option.some.injEq, exists_eq_left']

theorem lockCommit_same (h : s.lockParams = old) : s.lockCommit old = s := if_pos h

theorem lockCommit_unlocked (h : s.lock.state = .unlocked) : s.lockCommit old = s := by
  simp only [State.lockCommit, h, ite_self]

theorem lockCommit_acquiring (hne : s.lockParams ≠ old) (h : s.lock.state = .acquiring) :
    s.lockCommit old = s.takePassedClose := by
  simp only [State.lockCommit, if_neg hne, h]

theorem lockCommit_inBand (hne : s.lockParams ≠ old) (h : s.lock.state = .locked ∨ s.lock.state = .holdover)
    (hb : ((s.lock.lEst : Int) - s.lockParams.lnom).natAbs ≤ s.lockParams.tol) : s.lockCommit old = s := by
  rcases h with h | h <;> simp only [State.lockCommit, if_neg hne, h, if_neg (Nat.not_lt.mpr hb)]

theorem lockCommit_outOfBand (hne : s.lockParams ≠ old) (h : s.lock.state = .locked ∨ s.lock.state = .holdover)
    (hb : s.lockParams.tol < ((s.lock.lEst : Int) - s.lockParams.lnom).natAbs) :
    s.lockCommit old = s.reacquiring.takePassedClose := by
  rcases h with h | h <;> simp only [State.lockCommit, if_neg hne, h, if_pos hb] <;> rfl

/-- R37: the four things a commit can do to the lock. -/
theorem lockCommit_cases (s : State) (old : LockParams) :
    s.lockCommit old = s ∨ s.lockCommit old = s.unlocked ∨ s.lockCommit old = s.reacquiring ∨
      s.lockCommit old = s.reacquiring.unlocked := by
  by_cases hne : s.lockParams = old
  · exact .inl (lockCommit_same hne)
  have follows (h : s.lock.state = .locked ∨ s.lock.state = .holdover) : s.lockCommit old = s ∨
      s.lockCommit old = s.reacquiring ∨ s.lockCommit old = s.reacquiring.unlocked := by
    by_cases hb : ((s.lock.lEst : Int) - s.lockParams.lnom).natAbs ≤ s.lockParams.tol
    · exact .inl (lockCommit_inBand hne h hb)
    · rw [lockCommit_outOfBand hne h (Nat.lt_of_not_le hb), takePassedClose_eq]
      split
      · exact .inr (.inr rfl)
      · exact .inr (.inl rfl)
  cases h : s.lock.state with
  | unlocked => exact .inl (lockCommit_unlocked h)
  | acquiring =>
    rw [lockCommit_acquiring hne h, takePassedClose_eq]
    split
    · exact .inr (.inl rfl)
    · exact .inl rfl
  | locked => exact (follows (.inl h)).imp_right .inr
  | holdover => exact (follows (.inr h)).imp_right .inr

theorem unlocked_sched (s : State) : s.unlocked.sched = { s.sched with due := [], held := [], waiting := none } :=
  orderlyOpen_sched _ _

theorem unlocked_lock (s : State) : s.unlocked.lock = ⟨.unlocked, none, s.lock.lEst, 0, 0⟩ := orderlyOpen_lock _ _

theorem ScheduleEngine.cancelled_of_idle {q : ScheduleEngine} (hdue : q.due = []) (hheld : q.held = [])
    (hwaiting : q.waiting = none) : { q with due := [], held := [], waiting := none } = q := by
  obtain ⟨counters, due, held, waiting, assembly⟩ := q
  cases hdue
  cases hheld
  cases hwaiting
  rfl

/-- R48: with nothing due, the lock's loss cancels nothing. -/
theorem lockCommit_sched (h : s.sched.due = [] ∧ s.sched.held = [] ∧ s.sched.waiting = none) :
    (s.lockCommit old).sched = s.sched := by
  obtain ⟨hdue, hheld, hwaiting⟩ := h
  have hcancelled := ScheduleEngine.cancelled_of_idle hdue hheld hwaiting
  rcases lockCommit_cases s old with hc | hc | hc | hc <;> rw [hc]
  · rw [unlocked_sched, hcancelled]
  · exact hcancelled
  · rw [unlocked_sched]
    exact hcancelled

/-- R37: a commit keeps L_est. -/
theorem lockCommit_lEst (s : State) (old : LockParams) : (s.lockCommit old).lock.lEst = s.lock.lEst := by
  rcases lockCommit_cases s old with hc | hc | hc | hc <;> rw [hc]
  · rw [unlocked_lock]
  · rfl
  · rw [unlocked_lock]
    rfl

end LockCommit

/-! #### The sequencer after a commit (R149) -/

theorem runningAllowed_eq_false_iff {s : State} {p : ProfileRecord} :
    s.runningAllowed p = false ↔ ∃ id, s.seq.running = some id ∧ p.allowedClose.getLsbD id = false := by
  unfold State.runningAllowed
  cases s.seq.running <;> simp

theorem commitOpens_iff {s : State} {p : ProfileRecord} (hd : s.seq.state ≠ .deferred) :
    s.commitOpens p = true ↔ (s.seq.state = .closing ∨ s.seq.state = .closed) ∧
      (p.openOnEntry = true ∨ ∃ id, s.seq.running = some id ∧ p.allowedClose.getLsbD id = false) := by
  rw [← runningAllowed_eq_false_iff, State.commitOpens]
  cases hs : s.seq.state with
  | closing | closed => simp [or_comm]
  | deferred => exact absurd hs hd
  | opened | opening | tripped => simp

/-- R149: a DEFERRED sequencer may be asked too, which changes nothing. -/
theorem postCommitOpen_eq {s : State} {p : ProfileRecord} (h : s.activeProfile = some p) :
    s.postCommitOpen =
      if (s.seq.state = .closing ∨ s.seq.state = .closed) ∧
          (p.openOnEntry = true ∨ ∃ id, s.seq.running = some id ∧ p.allowedClose.getLsbD id = false) then
        s.orderlyOpen .profile
      else s := by
  rw [State.postCommitOpen, h]
  by_cases hd : s.seq.state = .deferred
  · have hopen : s.orderlyOpen .profile = s := by rw [State.orderlyOpen, hd]
    simp only [hopen, ite_self]
  · simp only [commitOpens_iff hd]

end Sys2Proof.Machine
end

section
/-! ### The commits of the profile controller (R140 to R149) -/

namespace Sys2Proof.Machine

/-! #### What the active profile gives -/

section ActiveProfile
variable {s t : State}

theorem activeProfile_congr (ht : t.tables = s.tables) (hp : t.profiles = s.profiles) :
    t.activeProfile = s.activeProfile := by
  simp only [State.activeProfile, State.activeId, State.profileRecord, ht, hp]

theorem limitSet_congr (ht : t.tables = s.tables) (hp : t.profiles = s.profiles) : t.limitSet = s.limitSet := by
  simp only [State.limitSet, ht, activeProfile_congr ht hp]

theorem activeSchedule_congr (ht : t.tables = s.tables) (hp : t.profiles = s.profiles) :
    t.activeSchedule = s.activeSchedule := by
  simp only [State.activeSchedule, ht, activeProfile_congr ht hp]

end ActiveProfile

/-! #### One commit, and what it leaves (R146 to R149) -/

/-- The commit that brings a chain and a context into force. -/
def State.commitTo (s : State) (chain : List ChainElement) (context : SavedContext) : State :=
  ((s.recast chain context).lockCommit s.lockParams).postCommitOpen

theorem switchCommit_eq (s : State) (p : Nat) :
    s.switchCommit p =
      s.commitTo (⟨p, .command, none⟩ :: s.profiles.chain.tail)
        (s.freshFor (⟨p, .command, none⟩ :: s.profiles.chain.tail)) := rfl

theorem enterCommit_eq (s : State) (p : Nat) (cause : Cause) :
    s.enterCommit p cause =
      s.commitTo (⟨p, cause, none⟩ :: s.savedChain) (s.freshFor (⟨p, cause, none⟩ :: s.savedChain)) := rfl

theorem savedChain_cons {s : State} {a : ChainElement} {below : List ChainElement} (h : s.profiles.chain = a :: below) :
    s.savedChain = { a with saved := some ⟨s.limits.runStates, s.sched.counters⟩ } :: below := by
  rw [State.savedChain, h]
  rfl

theorem returnCommit_eq {s : State} {a b : ChainElement} {below : List ChainElement} {context : SavedContext}
    (h : s.profiles.chain = a :: b :: below) (hb : b.saved = some context) :
    s.returnCommit = s.commitTo ({ b with saved := none } :: below) context := by
  simp only [State.returnCommit, h, hb]
  rfl

section Commit
variable (s : State) (chain : List ChainElement) (context : SavedContext)

theorem touches_recast : Touches Block.commit s (s.recast chain context) := by simp [State.recast, Block.commit]

/-- R148, R149: behind the new profile's state, a commit moves the lock and the sequencer. -/
theorem touches_recast_commitTo :
    Touches [.lock, .sched, .seq, .events] (s.recast chain context) (s.commitTo chain context) := by
  simp [State.commitTo]

theorem touches_commitTo : Touches Block.commit s (s.commitTo chain context) :=
  (touches_recast s chain context).trans ((touches_recast_commitTo s chain context).mono (by decide))

/-- R149: behind the lock, a commit moves the sequencer alone. -/
theorem touches_lockCommit_commitTo :
    Touches Block.opening ((s.recast chain context).lockCommit s.lockParams) (s.commitTo chain context) := by
  simp [State.commitTo, Block.opening]

theorem commitTo_profiles : (s.commitTo chain context).profiles = ⟨chain⟩ :=
  touches_recast_commitTo s chain context .profiles (by decide)

theorem commitTo_limits : (s.commitTo chain context).limits = { s.limits with runStates := context.runStates } :=
  touches_recast_commitTo s chain context .limits (by decide)

theorem commitTo_tables : (s.commitTo chain context).tables = s.tables :=
  touches_commitTo s chain context .tables (by decide)

theorem commitTo_sched :
    (s.commitTo chain context).sched =
      ⟨context.counters, [], [], none, s.sched.assembly.map fun r => { r with commitMark := true }⟩ := by
  have hkept : (s.commitTo chain context).sched = ((s.recast chain context).lockCommit s.lockParams).sched :=
    touches_lockCommit_commitTo s chain context .sched (by decide)
  rw [hkept, lockCommit_sched ⟨rfl, rfl, rfl⟩]
  rfl

theorem commitTo_limitSet : (s.commitTo chain context).limitSet = (s.withProfiles ⟨chain⟩).limitSet :=
  limitSet_congr (commitTo_tables s chain context) (commitTo_profiles s chain context)

theorem commitTo_activeSchedule :
    (s.commitTo chain context).activeSchedule = (s.withProfiles ⟨chain⟩).activeSchedule :=
  activeSchedule_congr (commitTo_tables s chain context) (commitTo_profiles s chain context)

/-- R48, R146: what a commit by a command leaves. -/
theorem commitTo_committed : (s.popCommand.commitTo chain context).committed s := by
  have htouches := touches_commitTo s.popCommand chain context
  have hpop : Touches (.north :: Block.commit) s s.popCommand := by simp [State.popCommand]
  have hsched := commitTo_sched s.popCommand chain context
  exact ⟨congrArg ScheduleEngine.due hsched, congrArg ScheduleEngine.held hsched,
    congrArg ScheduleEngine.waiting hsched, congrArg ScheduleEngine.assembly hsched, htouches .north (by decide),
    hpop.trans (htouches.mono (by simp))⟩

/-- R43, R96: what a commit with fresh state leaves. -/
theorem commitTo_freshlyCommitted : (s.popCommand.commitTo chain (s.freshFor chain)).freshlyCommitted s := by
  refine ⟨commitTo_committed s chain _, fun r hr => ?_, fun n hn => ?_, ?_, ?_⟩
  · rw [commitTo_limits] at hr
    obtain ⟨-, -, rfl⟩ := List.mem_map.mp hr
    rfl
  · rw [commitTo_sched] at hn
    obtain ⟨-, -, rfl⟩ := List.mem_map.mp hn
    rfl
  · rw [commitTo_limits, commitTo_limitSet]
    exact List.length_map ..
  · rw [commitTo_sched, commitTo_activeSchedule]
    exact List.length_map ..

end Commit

/-! #### The commit of an ENTER (R141) -/

section Enter
variable (s : State) (p : Nat) (cause : Cause)

theorem enterCommit_profiles : (s.enterCommit p cause).profiles = ⟨⟨p, cause, none⟩ :: s.savedChain⟩ := by
  rw [enterCommit_eq, commitTo_profiles]

theorem enterCommit_tables : (s.enterCommit p cause).tables = s.tables := by
  rw [enterCommit_eq, commitTo_tables]

theorem enterCommit_limits :
    (s.enterCommit p cause).limits =
      { s.limits with runStates := (s.enterCommit p cause).limitSet.map fun _ => ⟨.clear, 0, none⟩ } := by
  rw [enterCommit_eq, commitTo_limits, commitTo_limitSet]
  rfl

theorem enterCommit_sched :
    (s.enterCommit p cause).sched =
      ⟨(s.enterCommit p cause).activeSchedule.map fun _ => 0, [], [], none,
        s.sched.assembly.map fun r => { r with commitMark := true }⟩ := by
  rw [enterCommit_eq, commitTo_sched, commitTo_activeSchedule]
  rfl

theorem enterCommit_activeProfile : (s.enterCommit p cause).activeProfile = s.profileRecord p := by
  simp only [State.activeProfile, State.activeId, enterCommit_profiles, List.head?_cons, Option.map_some,
    State.profileRecord, enterCommit_tables]

end Enter

/-! #### The three commands past their checks (R139 to R143) -/

section Bodies
variable {s : State} {p : Nat}

theorem doSwitch_passes (h : s.profileCheck p true false = none) :
    State.doSwitch p s = (s.switchCommit p).chainReplyOk := by
  simp only [State.doSwitch, h]

theorem doEnter_passes (h : s.profileCheck p true true = none) :
    State.doEnter p s = (s.enterCommit p .command).chainReplyOk := by
  simp only [State.doEnter, h]

theorem doReturn_passes (h : s.profileGate = none) (hd : 1 < s.depth) :
    State.doReturn () s = s.returnCommit.chainReplyOk := by
  simp only [State.doReturn, h, if_neg (Nat.not_le.mpr hd)]

end Bodies

theorem exec_switchProfile {s : State} {c : Command} {p : Nat} (h : s.takeable .switchProfile = some c)
    (ha : argBelow8 c.payload.tail = some p) (hcheck : s.profileCheck p true false = none) :
    exec .switchProfile s =
      .next ((s.popCommand.switchCommit p).reply c ⟨.ok, (s.popCommand.switchCommit p).chainBytes⟩) := by
  rw [exec_body h ha rfl, doSwitch_passes (s := s.popCommand) hcheck]
  rfl

theorem exec_enterProfile {s : State} {c : Command} {p : Nat} (h : s.takeable .enterProfile = some c)
    (ha : argBelow8 c.payload.tail = some p) (hcheck : s.profileCheck p true true = none) :
    exec .enterProfile s =
      .next ((s.popCommand.enterCommit p .command).reply c
        ⟨.ok, (s.popCommand.enterCommit p .command).chainBytes⟩) := by
  rw [exec_body h ha rfl, doEnter_passes (s := s.popCommand) hcheck]
  rfl

theorem exec_returnProfile {s : State} {c : Command} (h : s.takeable .returnProfile = some c)
    (ha : argNone c.payload.tail = some ()) (hgate : s.profileGate = none) (hd : 1 < s.depth) :
    exec .returnProfile s = .next (s.popCommand.returnCommit.reply c ⟨.ok, s.popCommand.returnCommit.chainBytes⟩) := by
  rw [exec_body h ha rfl, doReturn_passes (s := s.popCommand) hgate hd]
  rfl

/-- R97, R142, R143: a RETURN gives back what the ENTER before it saved. -/
theorem returnCommit_enterCommit {s : State} {a : ChainElement} {below : List ChainElement}
    (h : s.profiles.chain = a :: below) (ha : a.saved = none) (p : Nat) (cause : Cause) :
    (s.enterCommit p cause).returnCommit = (s.enterCommit p cause).commitTo s.profiles.chain s.liveContext := by
  have hchain : (s.enterCommit p cause).profiles.chain = ⟨p, cause, none⟩ :: s.savedChain := by
    rw [enterCommit_profiles]
  rw [savedChain_cons h] at hchain
  have hsame : ({ a with saved := none } : ChainElement) = a := by rw [← ha]
  rw [returnCommit_eq hchain rfl, h]
  exact congrArg (fun e => (s.enterCommit p cause).commitTo (e :: below) s.liveContext) hsame

/-- Settles O46: the three commands and the limit entry commit in the one way; a return undoes its entry; and what the
commit does to the lock and to the sequencer. -/
theorem profileCommits : Obligations.ProfileCommits := by
  refine ⟨⟨fun s c p h ha hcheck => ?_, fun s c p a below h ha hcheck hchain => ?_,
    fun s c a b below context h ha hgate hchain hsaved => ?_⟩, fun s p cause a below hchain => ?_,
    fun s p cause a below hchain hsaved => ?_, fun s old p hp => ?_⟩
  · refine ⟨exec_switchProfile h ha hcheck, ?_, commitTo_freshlyCommitted s _⟩
    exact congrArg ProfileController.chain (commitTo_profiles s.popCommand _ _)
  · have hcommit := enterCommit_eq s.popCommand p .command
    rw [savedChain_cons (s := s.popCommand) hchain] at hcommit
    refine ⟨?_, ?_, commitTo_freshlyCommitted s _⟩
    · rw [exec_enterProfile h ha hcheck, hcommit]
      rfl
    · exact congrArg ProfileController.chain (commitTo_profiles s.popCommand _ _)
  · have hdepth : 1 < s.depth := by
      rw [State.depth, hchain, List.length_cons, List.length_cons]
      omega
    refine ⟨?_, ?_, ?_, ?_, commitTo_committed s _ context⟩
    · rw [exec_returnProfile h ha hgate hdepth, returnCommit_eq (s := s.popCommand) hchain hsaved]
      rfl
    · exact congrArg ProfileController.chain (commitTo_profiles s.popCommand _ context)
    · exact congrArg LimitMonitor.runStates (commitTo_limits s.popCommand _ context)
    · exact congrArg ScheduleEngine.counters (commitTo_sched s.popCommand _ context)
  · rw [enterCommit_eq, savedChain_cons hchain]
    rfl
  · have hreturn := returnCommit_enterCommit hchain hsaved p cause
    refine ⟨?_, ?_, ?_⟩
    · rw [hreturn, commitTo_profiles]
    · rw [hreturn, commitTo_limits, enterCommit_limits]
      rfl
    · rw [hreturn, commitTo_sched]
      rfl
  · have hparams := lockParams_eq hp
    refine ⟨fun h => ?_, fun hne hstate => ?_, fun hne hstate => ?_, postCommitOpen_eq hp⟩
    · rcases h with rfl | hstate
      · exact lockCommit_same hparams
      · exact lockCommit_unlocked hstate
    · have hpassed := acquireClosePassed_iff hp hstate
      rw [lockCommit_acquiring (hparams ▸ hne.symm) hstate, takePassedClose_eq]
      exact ⟨fun hclosed => if_pos (hpassed.mpr hclosed), fun hopen => if_neg (mt hpassed.mp hopen)⟩
    · have hband (h : ¬ ((s.lock.lEst : Int) - p.lnom).natAbs ≤ p.tol) :
          s.lockCommit old = s.reacquiring.takePassedClose :=
        lockCommit_outOfBand (hparams ▸ hne.symm) hstate (by rw [hparams]; exact Nat.lt_of_not_le h)
      have hpassed := acquireClosePassed_iff (s := s.reacquiring) hp rfl
      refine ⟨fun hin => lockCommit_inBand (hparams ▸ hne.symm) hstate (by rw [hparams]; exact hin),
        fun hout hclosed => ?_, fun hout hopen => ?_⟩
      · rw [hband hout, takePassedClose_eq]
        exact if_pos (hpassed.mpr hclosed)
      · rw [hband hout, takePassedClose_eq]
        exact if_neg (mt hpassed.mp hopen)

end Sys2Proof.Machine
end

section
/-! ### Sleep entry (R155, R156) -/

namespace Sys2Proof.Machine

/-! #### Entry start: the queued forwards are answered, and CHAIN_SLEEP is sent (R155) -/

/-- The answer to a queued forward at entry start. -/
def FwdEntry.busyReply (e : FwdEntry) : NorthFrame := fwdReply e.dest e.tag .busy []

theorem answerQueueBusy_eq (s : State) (q : List FwdEntry) :
    s.answerQueueBusy q = q.foldl (fun x e => x.chainReply e.busyReply) s := by
  induction q generalizing s with
  | nil => rfl
  | cons e rest ih => exact ih _

theorem chainReply_chain (s : State) (f : NorthFrame) :
    ∃ kept, (s.chainReply f).chain = { s.chain with keptReplies := kept } := by
  rw [chainReply_eq]
  split
  · exact ⟨s.chain.keptReplies, rfl⟩
  · exact ⟨_, rfl⟩

/-- R155: the answers change nothing of the chain port but what it keeps. -/
theorem answerQueueBusy_chain (s : State) (q : List FwdEntry) :
    ∃ kept, (s.answerQueueBusy q).chain = { s.chain with keptReplies := kept } := by
  induction q generalizing s with
  | nil => exact ⟨s.chain.keptReplies, rfl⟩
  | cons e rest ih =>
    obtain ⟨kept, hkept⟩ := chainReply_chain s e.busyReply
    obtain ⟨kept', hkept'⟩ := ih (s.chainReply e.busyReply)
    exact ⟨kept', hkept'.trans (by rw [hkept])⟩

theorem answerQueueBusy_sleep (s : State) (q : List FwdEntry) : (s.answerQueueBusy q).sleep = s.sleep := by
  have ht : Touches [.north, .chain] s (s.answerQueueBusy q) := by simp
  exact ht .sleep (by decide)

/-- R5, R19: the chain port's frame joins a queue with a free place that nobody else claims. -/
theorem chainReply_joins {s : State} {f : NorthFrame} (hk : s.chain.keptReplies = []) (hc : s.north.claims = [])
    (hl : s.north.tx.length < 8) : s.chainReply f = s.withNorth { s.north with tx := s.north.tx ++ [f] } := by
  have hadd : s.mayAdd .chainPort = true := mayAdd_iff.mpr ⟨hl, .inl (by simp [hc])⟩
  rw [chainReply_eq, if_pos ⟨hadd, hk⟩, State.enqueueTx, hc, List.filter_nil, ← hc]

/-- R155: with places for all of them, the answers join the transmit queue in order. -/
theorem answerQueueBusy_joins {s : State} {q : List FwdEntry} (hk : s.chain.keptReplies = [])
    (hc : s.north.claims = []) (hl : s.north.tx.length + q.length ≤ 8) :
    s.answerQueueBusy q = s.withNorth { s.north with tx := s.north.tx ++ q.map FwdEntry.busyReply } := by
  induction q generalizing s with
  | nil =>
    rw [List.map_nil, List.append_nil]
    rfl
  | cons e rest ih =>
    rw [List.length_cons] at hl
    have hjoins := chainReply_joins (f := e.busyReply) hk hc (by omega)
    show (s.chainReply e.busyReply).answerQueueBusy rest = _
    rw [hjoins, ih (by exact hk) (by exact hc)]
    · simp
    · simp only [State.withNorth_north, List.length_append, List.length_singleton]
      omega

theorem claimLink_sleep {s : State} (h : s.linkFree = true) :
    s.claimLink .sleep =
      s.withChain { s.chain with sleepClaim := none, transaction := some ⟨.chainSleep, .sending⟩ } :=
  arbitrate_sleep (s := s.withChain { s.chain with sleepClaim := some .sleep }) h rfl

theorem linkFree_iff {s : State} : s.linkFree = true ↔ s.chain.transaction = none ∧ s.enumerating = false := by
  simp [State.linkFree]

/-- The queued forwards answered BUSY. -/
def State.queueAnswered (s : State) : State :=
  (s.withChain { s.chain with forwardQueue := [] }).answerQueueBusy s.chain.forwardQueue

theorem queueAnswered_linkFree {s : State} (h : s.linkFree = true) : s.queueAnswered.linkFree = true := by
  obtain ⟨kept, hkept⟩ :=
    answerQueueBusy_chain (s.withChain { s.chain with forwardQueue := [] }) s.chain.forwardQueue
  rw [State.linkFree, State.enumerating, State.queueAnswered, hkept]
  exact h

theorem queueAnswered_sleep (s : State) : s.queueAnswered.sleep = s.sleep := answerQueueBusy_sleep _ _

theorem entryStartDue_iff {s : State} :
    s.entryStartDue = true ↔ s.power = ⟨true, false⟩ ∧ s.sleep.power = .sleepPending ∧ s.sleep.entryStarted = false ∧
      s.sched.assembly = none ∧ s.chain.transaction = none ∧ s.north.restartTaken = false := by
  simp [State.entryStartDue, operating_iff, and_assoc]

theorem exec_entryStart {s : State} (h : s.entryStartDue = true) (hf : s.linkFree = true) :
    exec .entryStart s =
      .next ((s.queueAnswered.withSleep { s.sleep with entryStarted := true }).withChain
        { s.queueAnswered.chain with sleepClaim := none, transaction := some ⟨.chainSleep, .sending⟩ }) := by
  have hfree : (s.queueAnswered.withSleep { s.queueAnswered.sleep with entryStarted := true }).linkFree = true :=
    queueAnswered_linkFree hf
  show Host.Outcome.next (if s.entryStartDue = true then _ else s) = _
  rw [if_pos h]
  refine congrArg Host.Outcome.next ((claimLink_sleep hfree).trans ?_)
  rw [queueAnswered_sleep]
  rfl

/-! #### Entry completion (R156) -/

theorem working_eq_false_iff {e : EngineState} :
    e.working = false ↔ e ≠ .erasing ∧ e ≠ .programming ∧ e ≠ .verifying := by
  cases e <;> simp [EngineState.working]

theorem entryCompletionDue_iff {s : State} :
    s.entryCompletionDue = true ↔ s.power = ⟨true, false⟩ ∧ s.sleep.power = .sleepPending ∧
      s.sleep.entryStarted = true ∧ s.sleep.chainSleep = .asleep ∧ s.chain.transaction = none ∧
      s.chain.sleepClaim = none ∧ s.chain.keptReplies = [] ∧ s.north.holding = none ∧ s.north.commands = [] ∧
      s.north.tx = [] ∧ s.north.receiver = .idle ∧ s.tables.engine.working = false ∧ s.north.restartTaken = false := by
  simp [State.entryCompletionDue, operating_iff, and_assoc]

theorem exec_entryCompletion {s : State} {p : ProfileRecord} {w : Nat} (h : s.entryCompletionDue = true)
    (hp : s.activeProfile = some p) (hw : p.watchProfile = some w) :
    exec .entryCompletion s = .next (s.completeEntry w) := by
  simp [exec, execEntryCompletion, h, hp, hw]

theorem level_eq_some_iff {mode : WakeInMode} {high : Bool} :
    mode.level = some high ↔ mode = .high ∧ high = true ∨ mode = .low ∧ high = false := by
  cases mode <;> cases high <;> simp [WakeInMode.level]

/-- R162: arming starts the hold interval when the input stands at the level of a level mode. -/
theorem armDetector_eq {s : State} {m : ModuleTable} (h : s.moduleTable = some m) :
    s.armDetector =
      s.withSleep
        { s.sleep with
          detectorArmed := true
          holdInterval :=
            if m.wakeInMode = .high ∧ s.sleep.wakeInHigh = true ∨ m.wakeInMode = .low ∧ s.sleep.wakeInHigh = false then
              some (1000 * m.holdTime)
            else none } := by
  simp only [State.armDetector, h, level_eq_some_iff]
  rfl

theorem watchInterval_eq {s : State} {w : ProfileRecord} (h : s.activeProfile = some w) :
    s.watchInterval = 1000000 * w.watchInterval := by
  rw [State.watchInterval, h]

/-! What the commit of sleep entry leaves of the lock and of a sequencer at rest. -/

section Commit
variable {s : State}

theorem commitTo_lEst (chain : List ChainElement) (context : SavedContext) :
    (s.commitTo chain context).lock.lEst = s.lock.lEst := by
  have hlock : (s.commitTo chain context).lock = ((s.recast chain context).lockCommit s.lockParams).lock :=
    touches_lockCommit_commitTo s chain context .lock (by decide)
  rw [hlock, lockCommit_lEst]
  rfl

theorem touches_unlocked_resting (h : s.seq.state.resting = true) : Touches [.lock, .sched] s s.unlocked := by
  rw [State.unlocked, orderlyOpen_resting _ (by exact h)]
  simp

theorem touches_lockCommit_resting (h : s.seq.state.resting = true) (old : LockParams) :
    Touches [.lock, .sched] s (s.lockCommit old) := by
  have hagain : Touches [.lock, .sched] s s.reacquiring := by simp [State.reacquiring]
  rcases lockCommit_cases s old with hc | hc | hc | hc <;> rw [hc]
  · simp
  · exact touches_unlocked_resting h
  · exact hagain
  · exact hagain.trans (touches_unlocked_resting h)

theorem postCommitOpen_resting (h : s.seq.state.resting = true) : s.postCommitOpen = s := by
  unfold State.postCommitOpen
  split
  · rfl
  · rw [orderlyOpen_resting _ h, ite_self]

/-- R121: a commit leaves an OPEN or TRIPPED sequencer, and the event queue, as they are. -/
theorem commitTo_resting (h : s.seq.state.resting = true) (chain : List ChainElement) (context : SavedContext) :
    (s.commitTo chain context).seq = s.seq ∧ (s.commitTo chain context).events = s.events := by
  have hlock := touches_lockCommit_resting (s := s.recast chain context) h s.lockParams
  have hseq : ((s.recast chain context).lockCommit s.lockParams).seq = s.seq := hlock .seq (by decide)
  have hevents : ((s.recast chain context).lockCommit s.lockParams).events = s.events := hlock .events (by decide)
  rw [State.commitTo, postCommitOpen_resting (by rw [hseq]; exact h)]
  exact ⟨hseq, hevents⟩

theorem enterCommit_lEst (p : Nat) (cause : Cause) : (s.enterCommit p cause).lock.lEst = s.lock.lEst := by
  rw [enterCommit_eq, commitTo_lEst]

theorem enterCommit_resting (h : s.seq.state.resting = true) (p : Nat) (cause : Cause) :
    (s.enterCommit p cause).seq = s.seq ∧ (s.enterCommit p cause).events = s.events := by
  rw [enterCommit_eq]
  exact commitTo_resting h _ _

end Commit

/-- The sleep controller's record at the end of sleep entry. -/
def SleepController.entered (c : SleepController) (m : ModuleTable) (w : ProfileRecord) : SleepController :=
  { c with
    power := .asleep
    watchTimer := some (1000000 * w.watchInterval)
    watchPassCount := 0
    wakePending := false
    detectorArmed := true
    holdInterval :=
      if m.wakeInMode = .high ∧ c.wakeInHigh = true ∨ m.wakeInMode = .low ∧ c.wakeInHigh = false then
        some (1000 * m.holdTime)
      else none }

/-- R156: entry completion is the ENTER of the watch profile, with the lock, the current port, the clock and the sleep
controller set behind it. -/
theorem completeEntry_eq {s : State} {m : ModuleTable} {w : ProfileRecord} (hw : s.profileRecord w.id = some w)
    (hm : s.moduleTable = some m) :
    s.completeEntry w.id =
      ((((s.enterCommit w.id .sleep).lockSleep.withCurrent .asleep).withTimebase ⟨s.now, .lowPower⟩).withSleep
        (s.sleep.entered m w)) := by
  have htouches : Touches Block.commit s (s.enterCommit w.id .sleep) := touches_commitTo s _ _
  have hsleep : (s.enterCommit w.id .sleep).sleep = s.sleep := htouches .sleep (by decide)
  have htimebase : (s.enterCommit w.id .sleep).timebase = s.timebase := htouches .timebase (by decide)
  have hmodules : (s.enterCommit w.id .sleep).moduleTable = some m := by
    rw [State.moduleTable, enterCommit_tables]
    exact hm
  have hactive := (enterCommit_activeProfile s w.id .sleep).trans hw
  rw [State.completeEntry]
  generalize s.enterCommit w.id .sleep = u at hsleep htimebase hmodules hactive
  rw [armDetector_eq (m := m) (by exact hmodules), watchInterval_eq (w := w) (by exact hactive)]
  simp only [State.lockSleep, State.withLock_sleep, State.withCurrent_sleep, State.withTimebase_sleep,
    State.withSleep_sleep, State.withSleep_withSleep, State.withLock_timebase, hsleep, htimebase]
  rfl

/-- Settles O48: entry start in general and with places for every answer, and entry completion field by field. -/
theorem sleepEntry : Obligations.SleepEntry := by
  refine ⟨fun s hp hs he ha ht hr hn => ?_, fun s hp hs he ha ht hr hn hk hc hl => ?_,
    fun s p w m hp hs he hcs ht hclaim hk hh hcmd htx hrx hne hnp hnv hr hact hwatch hw hm => ?_⟩
  · rw [exec_entryStart (entryStartDue_iff.mpr ⟨hp, hs, he, ha, ht, hr⟩) (linkFree_iff.mpr ⟨ht, hn⟩),
      State.queueAnswered, answerQueueBusy_eq]
    rfl
  · rw [exec_entryStart (entryStartDue_iff.mpr ⟨hp, hs, he, ha, ht, hr⟩) (linkFree_iff.mpr ⟨ht, hn⟩),
      State.queueAnswered, answerQueueBusy_joins (by exact hk) (by exact hc) (by exact hl)]
    rfl
  · have hdue := entryCompletionDue_iff.mpr
      ⟨hp, hs, he, hcs, ht, hclaim, hk, hh, hcmd, htx, hrx, working_eq_false_iff.mpr ⟨hne, hnp, hnv⟩, hr⟩
    have hend := completeEntry_eq hw hm
    have hprofiles := enterCommit_profiles s w.id .sleep
    have hlimits := enterCommit_limits s w.id .sleep
    have hsched := enterCommit_sched s w.id .sleep
    have hlEst := enterCommit_lEst (s := s) w.id .sleep
    have hrest := fun h => enterCommit_resting (s := s) h w.id .sleep
    have htouches : Touches (Block.commit ++ [.timebase, .current, .sleep]) s (s.completeEntry w.id) :=
      (touches_completeEntry w.id (by decide)).mpr (touches_refl _ s)
    refine ⟨s.completeEntry w.id, exec_entryCompletion hdue hact hwatch, ?_⟩
    rw [hend] at htouches ⊢
    generalize s.enterCommit w.id .sleep = u at hprofiles hlimits hsched hlEst hrest htouches ⊢
    refine ⟨rfl, congrArg ProfileController.chain hprofiles, congrArg (fun l => SyncLock.mk .unlocked none l 0 0) hlEst,
      rfl, rfl, rfl, hlimits, hsched, fun hseq => hrest ?_, htouches⟩
    rcases hseq with h | h <;> rw [h] <;> rfl

end Sys2Proof.Machine
end

section
/-! ### Frame starts and due groups (R41 to R46) -/

namespace Sys2Proof.Machine

/-! #### Taking and skipping a group (R44 to R46) -/

theorem instantCome_iff {s : State} :
    s.instantCome = true ↔ ∃ d rest, s.sched.due = d :: rest ∧ (d.instant - s.now).toInt ≤ 0 := by
  unfold State.instantCome
  cases s.sched.due with
  | nil => simp
  | cons d rest => simp [notLater_iff]

theorem canTake_iff {s : State} :
    s.canTake = true ↔ s.sched.assembly = none ∧ s.sched.waiting = none ∧ s.sched.held = [] := by
  simp [State.canTake, and_assoc]

theorem exec_triggerInstant {s : State} (hp : s.power = ⟨true, false⟩) :
    exec .triggerInstant s = .next (if s.instantCome = true then s.decideGroup else s) := by
  simp [exec, execTriggerInstant, operating_of hp]

/-- R45: each skipped entry takes a round number, and OVERRUN is set where there is one. -/
theorem skipEntries_eq (s : State) (n : Nat) :
    s.skipEntries n =
      (s.withStore { s.store with roundCounter := s.store.roundCounter + BitVec.ofNat 32 n }).withNorth
        { s.north with sticky := { s.north.sticky with overrun := s.north.sticky.overrun || decide (n ≠ 0) } } := by
  rw [State.skipEntries]
  split
  · next h =>
    subst h
    simp only [ne_eq, not_true_eq_false, decide_false, Bool.or_false, BitVec.add_zero]
    rfl
  · next h =>
    simp only [h, ne_eq, not_false_eq_true, decide_true, Bool.or_true]
    rfl

/-- R46: the equal-phase group is what stands in front of the first entry of another phase. -/
theorem takeWhile_group {phase : Nat} {group others : List DueEntry} (hg : ∀ e ∈ group, e.phase = phase)
    (ho : ∀ e, others.head? = some e → e.phase ≠ phase) :
    (group ++ others).takeWhile (fun e => e.phase == phase) = group ∧
      (group ++ others).dropWhile (fun e => e.phase == phase) = others := by
  have hgroup : ∀ e ∈ group, (e.phase == phase) = true := fun e he => beq_iff_eq.mpr (hg e he)
  rw [List.takeWhile_append_of_pos hgroup, List.dropWhile_append_of_pos hgroup]
  cases others with
  | nil => simp
  | cons e rest => simp [ho e rfl]

section Group
variable {s : State} {d : DueEntry} {group others : List DueEntry}

/-- R45, R46: the first entry takes the next round number, and the others of its group are held. -/
theorem decideGroup_takes (hdue : s.sched.due = d :: (group ++ others)) (hg : ∀ e ∈ group, e.phase = d.phase)
    (ho : ∀ e, others.head? = some e → e.phase ≠ d.phase) (h : s.canTake = true) :
    s.decideGroup =
      (s.withStore { s.store with roundCounter := s.store.roundCounter + 1 }).withSched
        { s.sched with
          due := others, held := group, waiting := some ⟨d.index, d.instant, s.store.roundCounter + 1⟩ } := by
  obtain ⟨htake, hdrop⟩ := takeWhile_group hg ho
  simp only [State.decideGroup, hdue, htake, hdrop, if_pos h]
  rfl

/-- R45, R46: a group that cannot be taken is skipped whole. -/
theorem decideGroup_skips (hdue : s.sched.due = d :: (group ++ others)) (hg : ∀ e ∈ group, e.phase = d.phase)
    (ho : ∀ e, others.head? = some e → e.phase ≠ d.phase) (h : s.canTake ≠ true) :
    s.decideGroup =
      ((s.withStore
        { s.store with roundCounter := s.store.roundCounter + BitVec.ofNat 32 (1 + group.length) }).withNorth
        { s.north with sticky := { s.north.sticky with overrun := true } }).withSched { s.sched with due := others } := by
  obtain ⟨htake, hdrop⟩ := takeWhile_group hg ho
  have hsome : decide (1 + group.length ≠ 0) = true := decide_eq_true (by omega)
  simp only [State.decideGroup, hdue, htake, hdrop, if_neg h, skipEntries_eq, hsome, Bool.or_true]

end Group

/-- Settles O26: an instant that lies ahead, a group that is taken, and one that is skipped. -/
theorem triggerInstantTakesOrSkips : Obligations.TriggerInstantTakesOrSkips := by
  intro s d group others hp hdue hg ho come free
  have hcome : s.instantCome = true ↔ come :=
    instantCome_iff.trans
      ⟨by rintro ⟨_, _, h, hc⟩; rw [hdue] at h; cases h; exact hc, fun hc => ⟨d, _, hdue, hc⟩⟩
  rw [exec_triggerInstant hp]
  refine ⟨fun hc => ?_, fun hc hf => ?_, fun hc hf => ?_⟩
  · rw [if_neg (mt hcome.mp hc)]
  · rw [if_pos (hcome.mpr hc), decideGroup_takes hdue hg ho (canTake_iff.mpr hf)]
  · rw [if_pos (hcome.mpr hc), decideGroup_skips hdue hg ho (mt canTake_iff.mp hf)]

/-! #### The frame opened (R42, R44) -/

/-- R42: what is left of the previous frame is skipped; a waiting trigger keeps its number and sets OVERRUN. -/
theorem closeFrame_eq (s : State) :
    s.closeFrame =
      ((s.withStore
        { s.store with
          roundCounter := s.store.roundCounter + BitVec.ofNat 32 (s.sched.due.length + s.sched.held.length) }).withNorth
        { s.north with
          sticky := { s.north.sticky with
            overrun := s.north.sticky.overrun || !s.sched.due.isEmpty || !s.sched.held.isEmpty ||
              s.sched.waiting.isSome } }).withSched
        { s.sched with due := [], held := [], waiting := none } := by
  have hleft : decide (s.sched.due.length + s.sched.held.length ≠ 0) =
      (!s.sched.due.isEmpty || !s.sched.held.isEmpty) := by
    cases s.sched.due <;> cases s.sched.held <;> simp
  rw [State.closeFrame, skipEntries_eq, hleft]
  cases s.sched.waiting with
  | none => simp [Bool.or_assoc]
  | some w => simp [State.setOverrun, State.setSticky]

/-- R42, R44: the schedule engine after the old frame is closed and the new one opened, before any instant is
decided. -/
theorem openedFrame_sched (s : State) (start : Stamp) (length : Nat) :
    (s.closeFrame.openFrame start length).sched =
      ⟨advanceCounters s.activeSchedule s.sched.counters,
        dueEntries (triggerInstant start length) 0 s.activeSchedule s.sched.counters [], [], none, s.sched.assembly⟩ := by
  rw [closeFrame_eq]
  rfl

/-- R42, R44: due are the entries whose counter was 0. -/
theorem mem_openedFrame_due {s : State} {start : Stamp} {length : Nat} {d : DueEntry} :
    d ∈ (s.closeFrame.openFrame start length).sched.due ↔
      ∃ e, s.activeSchedule[d.index]? = some e ∧ s.sched.counters[d.index]? = some 0 ∧
        d = ⟨d.index, e.phase, start + BitVec.ofNat 32 (e.phase * length / 4096)⟩ := by
  rw [openedFrame_sched]
  refine mem_dueEntries.trans ⟨?_, ?_⟩
  · rintro (h | ⟨k, e, he, hc, rfl⟩)
    · cases h
    · rw [Nat.zero_add]
      exact ⟨e, he, hc, rfl⟩
  · rintro ⟨e, he, hc, hd⟩
    exact .inr ⟨d.index, e, he, hc, by rw [Nat.zero_add]; exact hd⟩

theorem openedFrame_due_ordered (s : State) (start : Stamp) (length : Nat) :
    (s.closeFrame.openFrame start length).sched.due.Pairwise DueEntry.before := by
  rw [openedFrame_sched]
  exact dueEntries_ordered .nil fun _ h => absurd h List.not_mem_nil

/-- R44: no instant has come where all lie ahead. -/
theorem openedFrame_not_instantCome {s : State} {start : Stamp} {length : Nat}
    (h : ∀ (i : Nat) (e : ScheduleEntry), s.activeSchedule[i]? = some e → s.sched.counters[i]? = some 0 →
      later (start + BitVec.ofNat 32 (e.phase * length / 4096)) s.now = true) :
    (s.closeFrame.openFrame start length).instantCome ≠ true := by
  intro hcome
  obtain ⟨d, rest, hdue, hnow⟩ := instantCome_iff.mp hcome
  obtain ⟨e, he, hc, hd⟩ := mem_openedFrame_due.mp (hdue ▸ List.mem_cons_self)
  have hinstant : d.instant = start + BitVec.ofNat 32 (e.phase * length / 4096) := congrArg DueEntry.instant hd
  have hahead := decide_eq_true_iff.mp (h _ e he hc)
  rw [closeFrame_eq, hinstant] at hnow
  exact Int.not_le.mpr hahead hnow

theorem touches_openedFrame (s : State) (start : Stamp) (length : Nat) :
    Touches [.north, .sched, .store] s (s.closeFrame.openFrame start length) := by simp

/-- R42: a counter moves at frame starts only. -/
theorem decideGroup_counters (s : State) : s.decideGroup.sched.counters = s.sched.counters := by
  unfold State.decideGroup
  split
  · rfl
  · dsimp only
    split
    · rfl
    · rw [skipEntries_eq]
      rfl

theorem repeat_decideGroup_counters (n : Nat) (s : State) :
    (Nat.repeat State.decideGroup n s).sched.counters = s.sched.counters := by
  induction n with
  | zero => rfl
  | succ n ih => exact (decideGroup_counters _).trans ih

theorem frameStart_ignored {s : State} (h : s.actsOnFrames = false) (start : Stamp) (length : Nat) :
    s.frameStart start length = s := by
  rw [State.frameStart, h, if_neg Bool.false_ne_true]

/-- R44: a frame start that is acted on opens the frame and decides the groups whose instants have come. -/
theorem frameStart_decides {s : State} (h : s.actsOnFrames = true) (start : Stamp) (length : Nat) :
    ∃ n, s.frameStart start length = Nat.repeat State.decideGroup n (s.closeFrame.openFrame start length) ∧
      (∀ k, k < n → (Nat.repeat State.decideGroup k (s.closeFrame.openFrame start length)).instantCome = true) ∧
      (s.frameStart start length).instantCome = false := by
  rw [State.frameStart, if_pos h]
  exact decideGroups_spec _ _ le_rfl

/-- Settles O25: a frame start not acted on, one that is, and the event of an instant by itself. -/
theorem frameStartOpensTheFrame : Obligations.FrameStartOpensTheFrame := by
  refine ⟨fun s start length => ⟨fun h => frameStart_ignored h start length, fun hacts hlen => ?_⟩,
    fun u hp => exec_triggerInstant hp, fun u => instantCome_iff⟩
  obtain ⟨n, hn, hcome, hend⟩ := frameStart_decides hacts start length
  have hsched := openedFrame_sched s start length
  obtain ⟨hlength, hcounter⟩ := advanceCounters_spec hlen
  have hcounters : (s.frameStart start length).sched.counters = advanceCounters s.activeSchedule s.sched.counters := by
    rw [hn, repeat_decideGroup_counters, hsched]
  exact ⟨by rw [hcounters, hlength], by rw [hcounters]; exact hcounter, s.closeFrame.openFrame start length, n,
    fun d => mem_openedFrame_due, openedFrame_due_ordered s start length, by rw [hsched], by rw [hsched],
    by rw [hsched], by rw [hsched, hcounters], by rw [closeFrame_eq]; rfl, by rw [closeFrame_eq]; rfl,
    touches_openedFrame s start length, hn, hcome, hend, fun hlater =>
      Nat.eq_zero_of_not_pos fun hpos => openedFrame_not_instantCome hlater (hcome 0 hpos)⟩

end Sys2Proof.Machine
end

section
/-! ### Round assembly: the trigger sent and the reads (R47, R50 to R53) -/

namespace Sys2Proof.Machine

/-! #### The round opened (R50, R51) -/

theorem nextRead_eq_none_iff {entries : List RoundEntry} :
    nextRead entries = none ↔ ∀ e ∈ entries, e.status ≠ .waiting := by
  simp [nextRead]

/-- R135: the active profile is the record of the id at the head of the chain. -/
theorem activeId_of_activeProfile {s : State} {p : ProfileRecord} (h : s.activeProfile = some p) :
    s.activeId = some p.id := by
  unfold State.activeProfile at h
  split at h
  · cases h
  · next id hid =>
    unfold State.profileRecord at h
    split at h
    · cases h
    · have hfound := List.find?_some h
      rw [hid, beq_iff_eq.mp hfound]

section NewRound
variable {s : State} {w : TakenTrigger} {e : ScheduleEntry}

theorem newEntry_waiting_iff (tSend : Stamp) (p : Nat) :
    (s.newEntry tSend p).status = .waiting ↔ p ≤ s.chain.foundCount := by
  simp only [State.newEntry, ite_eq_left_iff, reduceCtorEq, imp_false, not_not]

/-- R51: nothing is to be read exactly when every position is NOT_PRESENT. -/
theorem newRound_nextRead_eq_none :
    nextRead (s.newRound w e).entries = none ↔ ∀ p ∈ e.moduleSet, s.chain.foundCount < p := by
  rw [nextRead_eq_none_iff]
  simp only [State.newRound, List.forall_mem_map, ne_eq, newEntry_waiting_iff, Nat.not_le]

/-- R50: the sample instant of a module of the table. -/
theorem newEntry_sampleInstant {m : ModuleTable} {k : ModuleEntry} {p : Nat} (hm : s.moduleTable = some m)
    (hk : s.moduleAt p = some k) (tSend : Stamp) :
    (s.newEntry tSend p).sampleInstant =
      tSend + BitVec.ofNat 32 (m.hopDelay * p) + BitVec.ofInt 32 k.fineAdjust := by
  simp only [State.newEntry, hm, hk]
  rfl

/-! #### The trigger sent (R47) -/

theorem exec_triggerSend (hp : s.power = ⟨true, false⟩) (hfree : s.linkFree = true) (ha : s.sched.assembly = none)
    (hw : s.sched.waiting = some w) (he : s.activeSchedule[w.index]? = some e) :
    exec .triggerSend s = .next (s.sendTrigger w e) := by
  have hsendable : s.sendableTrigger = some w := by
    simp [State.sendableTrigger, operating_of hp, hfree, ha, hw]
  simp only [exec, execTriggerSend, hsendable, he]

/-- The trigger frame begins, and its round is in assembly. -/
def State.triggerStarted (s : State) (w : TakenTrigger) (e : ScheduleEntry) : State :=
  (s.withSched { s.sched with waiting := none, assembly := some (s.newRound w e) }).startTransaction
    (.trigger e.kind e.moduleSet)

theorem sendTrigger_reads (h : ∃ p ∈ e.moduleSet, p ≤ s.chain.foundCount) :
    s.sendTrigger w e = s.triggerStarted w e := by
  obtain ⟨p, hp, hfound⟩ := h
  rw [State.sendTrigger]
  split
  · rfl
  · next hnone => exact absurd hfound (Nat.not_le.mpr (newRound_nextRead_eq_none.mp hnone p hp))

theorem sendTrigger_absent (h : ∀ p ∈ e.moduleSet, s.chain.foundCount < p) :
    s.sendTrigger w e = (s.triggerStarted w e).enterAligning (s.newRound w e) := by
  rw [State.sendTrigger, newRound_nextRead_eq_none.mpr h]
  rfl

end NewRound

/-- Settles O27: the round a trigger opens, with a position to read and with none. -/
theorem triggerSendOpensTheRound : Obligations.TriggerSendOpensTheRound := by
  intro s w e m hp ht hn ha hw he hm
  have hexec := exec_triggerSend hp (linkFree_iff.mpr ⟨ht, hn⟩) ha hw he
  refine ⟨s.newRound w e, fun h => ?_, fun h => ?_, fun a hactive => ?_, rfl, rfl, rfl, rfl, ?_, rfl, rfl, rfl, rfl, rfl,
    ?_, fun x hx => ?_⟩
  · rw [hexec, sendTrigger_reads h]
    rfl
  · rw [hexec, sendTrigger_absent h]
    rfl
  · exact ⟨by rw [State.newRound, activeId_of_activeProfile hactive, Option.getD_some],
      by rw [State.newRound, State.scheduleId, hactive]⟩
  · rw [State.newRound]
    cases s.activeId <;> rfl
  · rw [State.newRound, List.map_map]
    exact List.map_id _
  · obtain ⟨p, -, rfl⟩ := List.mem_map.mp hx
    exact ⟨rfl, fun k hk => newEntry_sampleInstant hm hk _, rfl, rfl, rfl, rfl, rfl⟩

/-! #### What a read gives its position (R52) -/

theorem contentFits_iff {kind : MeasKind} {m : ModuleEntry} {vs ts : List (BitVec 16)} :
    contentFits kind m vs ts = true ↔
      (kind = .temps ∨ vs.length = m.population.length) ∧ (kind = .cells ∨ ts.length = m.temperatureCount) := by
  cases kind <;> simp [contentFits, MeasKind.cellsAsked, MeasKind.tempsAsked]

section ReadEntry
variable {s : State} {kind : MeasKind} {e : RoundEntry} {m : ModuleEntry} {vs ts : List (BitVec 16)} {flags : Byte}

theorem readEntry_fits (hm : s.moduleAt e.position = some m) (hv : kind = .temps ∨ vs.length = m.population.length)
    (ht : kind = .cells ∨ ts.length = m.temperatureCount) :
    s.readEntry kind e (.good vs ts flags) =
      { e with
        status := .ok
        flags := some flags
        raw := if kind = .temps then none else some (vs.map BitVec.toNat)
        temperatures := if kind = .cells then none else some (ts.map BitVec.toInt) } := by
  simp only [State.readEntry, hm, if_pos (contentFits_iff.mpr ⟨hv, ht⟩)]
  cases kind <;> rfl

theorem readEntry_misfit (hm : s.moduleAt e.position = some m) (h : contentFits kind m vs ts ≠ true) :
    s.readEntry kind e (.good vs ts flags) = { e with status := .crcError } := by
  simp only [State.readEntry, hm, if_neg h]

end ReadEntry

/-- R15, R52: a reply broken off, with a wrong check or of other content gives the position CRC_ERROR, as one that does
not fit the module does. -/
theorem readEntry_bad {s : State} {kind : MeasKind} {e : RoundEntry} {p : Nat} {m : ModuleEntry} {rx : ChainRx}
    (hm : s.moduleAt e.position = some m)
    (h : rx.truncated = true ∨ crcRight rx.bytes = false ∨ (∀ vs ts flags, rx.content ≠ .result p vs ts flags) ∨
      ∃ vs ts flags, rx.content = .result p vs ts flags ∧
        (kind ≠ .temps ∧ vs.length ≠ m.population.length ∨ kind ≠ .cells ∧ ts.length ≠ m.temperatureCount)) :
    s.readEntry kind e (replyOutcome (.readResult p) rx).read = { e with status := .crcError } := by
  have hcrc {o : TxnOutcome} (ho : o = .crcError) : s.readEntry kind e o.read = { e with status := .crcError } := by
    rw [ho]
    rfl
  rcases h with h | h | h | ⟨vs, ts, flags, hcontent, hmisfit⟩
  · exact hcrc (replyOutcome_broken (.inl h))
  · exact hcrc (replyOutcome_broken (.inr h))
  · refine hcrc (replyOutcome_other ?_)
    cases hcontent : rx.content with
    | result q vs ts flags => exact beq_false_of_ne fun hq => h vs ts flags (by rw [hcontent, hq])
    | _ => rfl
  · unfold replyOutcome
    split
    · rw [hcontent]
      refine readEntry_misfit hm fun hfits => ?_
      obtain ⟨hv, ht⟩ := contentFits_iff.mp hfits
      rcases hmisfit with ⟨hk, hl⟩ | ⟨hk, hl⟩
      · exact hv.elim hk hl
      · exact ht.elim hk hl
    · exact hcrc rfl

/-! #### The read ended, and the next (R51 to R53) -/

/-- The entries with what a read gives those of a position that wait for it. -/
def fillPosition (p : Nat) (f : RoundEntry → RoundEntry) (entries : List RoundEntry) : List RoundEntry :=
  entries.map fun e => if e.position = p ∧ e.status = .waiting then f e else e

/-- R52: the read that follows is that of the first other position that waits. -/
theorem nextRead_fillPosition {p : Nat} {f : RoundEntry → RoundEntry} (hf : ∀ e, (f e).status ≠ .waiting)
    (entries : List RoundEntry) :
    nextRead (fillPosition p f entries) =
      (entries.find? fun e => e.status == .waiting && !(e.position == p)).map (·.position) := by
  have hwaits : (fun e : RoundEntry => e.status == .waiting) ∘
      (fun e => if e.position = p ∧ e.status = .waiting then f e else e) =
        fun e => e.status == .waiting && !(e.position == p) := by
    funext e
    by_cases h : e.position = p ∧ e.status = .waiting
    · simp [h, hf e]
    · rw [Function.comp_apply, if_neg h]
      by_cases hw : e.status = .waiting
      · have hother : e.position ≠ p := fun hp => h ⟨hp, hw⟩
        simp [hw, hother]
      · simp [hw]
  rw [nextRead, fillPosition, List.find?_map, hwaits]
  cases hfound : entries.find? fun e => e.status == .waiting && !(e.position == p) with
  | none => rfl
  | some e =>
    have hother := List.find?_some hfound
    simp only [Bool.and_eq_true, Bool.not_eq_true', beq_eq_false_iff_ne] at hother
    rw [Option.map_some, if_neg fun h => hother.2 h.1]

theorem transactionEnded_read (s : State) (p : Nat) (o : TxnOutcome) :
    s.transactionEnded (.readResult p) o = s.endTransaction.readEnded p o.read := rfl

section Reads
variable {s : State} {r : Round} {p : Nat}

theorem readEnded_fills {o : ReadOutcome} {f : RoundEntry → RoundEntry} (ha : s.sched.assembly = some r)
    (hr : r.phase = .collecting)
    (hf : ∀ e, e.position = p → e.status = .waiting → s.readEntry r.kind e o = f e) :
    s.readEnded p o =
      (s.withSched
        { s.sched with assembly := some { r with entries := fillPosition p f r.entries } }).continueCollecting := by
  have hentries : (r.entries.map fun e =>
      if e.position = p ∧ e.status = .waiting then s.readEntry r.kind e o else e) = fillPosition p f r.entries :=
    List.map_congr_left fun e _ => by
      split
      · next h => rw [hf e h.1 h.2]
      · rfl
  simp only [State.readEnded, ha, hr, hentries]

theorem continueCollecting_enters (ha : s.sched.assembly = some r) (hr : r.phase = .collecting)
    (hn : nextRead r.entries = none) : s.continueCollecting = s.enterAligning r := by
  simp only [State.continueCollecting, ha, hr, hn]

end Reads

/-- Settles O28: a reply that fits, a bad one and a missing one each fill the position, and the round goes on. -/
theorem readsFillTheRound : Obligations.ReadsFillTheRound := by
  intro s r p m hp hc ha hr hm next filled
  have hends {o : TxnOutcome} {f : RoundEntry → RoundEntry}
      (hread : ∀ e, e.position = p → e.status = .waiting → s.endTransaction.readEntry r.kind e o.read = f e)
      (hf : ∀ e, (f e).status ≠ .waiting) :
      Host.Outcome.next (s.transactionEnded (.readResult p) o).arbitrate = filled f := by
    have hnext := nextRead_fillPosition (p := p) hf r.entries
    rw [transactionEnded_read, readEnded_fills (by exact ha) hr hread]
    cases hq : next with
    | some q =>
      simp only [filled, hq]
      rw [continueCollecting_reads (r := { r with entries := fillPosition p f r.entries }) rfl hr (hnext.trans hq),
        arbitrate_none (by exact hc)]
      rfl
    | none =>
      simp only [filled, hq]
      rw [continueCollecting_enters (r := { r with entries := fillPosition p f r.entries }) rfl hr (hnext.trans hq)]
      rfl
  have hmodule {e : RoundEntry} (he : e.position = p) : s.endTransaction.moduleAt e.position = some m := by
    rw [he]
    exact hm
  refine ⟨fun rx vs ts flags ht hcontent htr hcrc hv hts => ?_, fun rx ht hbad => ?_, fun ht => ?_⟩
  · have ho := replyOutcome_good (f := .readResult p) htr hcrc (by rw [hcontent]; exact beq_self_eq_true p)
    rw [exec_chainFrameReceived_reply hp ht, ho, hcontent]
    exact hends (fun e he _ => readEntry_fits (hmodule he) hv hts) fun _ => EntryStatus.noConfusion
  · rw [exec_chainFrameReceived_reply hp ht]
    exact hends (fun e he _ => readEntry_bad (hmodule he) hbad) fun _ => EntryStatus.noConfusion
  · rw [exec_chainReplyTimeout hp ht]
    exact hends (fun _ _ _ => rfl) fun _ => EntryStatus.noConfusion

end Sys2Proof.Machine
end

section
/-! ### The round store: the offer, READ_ROUND, RELEASE_ROUND and the bytes of a piece (R56 to R61, section 11.4) -/

namespace Sys2Proof.Machine

/-! #### The offer (R57, R58, R61) -/

section Offer
variable {st : RoundStore} {r : RoundRecord}

theorem offer_room (h : st.records.length < 8) (newest : Bool) :
    st.offer r newest = { st with records := st.records ++ [r] } := if_pos h

theorem offer_full (h : ¬ st.records.length < 8) (newest : Bool) :
    st.offer r newest =
      { st with
        records := if newest then st.makeRoom ++ [r] else st.records
        dropped := min 65535 (st.dropped + 1) } := if_neg h

/-- R58: the oldest record gives way, or the one behind it while the oldest is open. -/
theorem makeRoom_eq {a b : RoundRecord} {rest : List RoundRecord} (h : st.records = a :: b :: rest) :
    st.makeRoom = if st.openMark then a :: rest else b :: rest := by
  rw [RoundStore.makeRoom, h]
  cases st.openMark <;> rfl

end Offer

/-! #### READ_ROUND (R59) -/

theorem doReadRound_busy {s : State} (h : s.tables.engine = .activating) (piece : Nat) :
    s.doReadRound piece = answer s .busy := if_pos h

section Reading
variable {s : State} {r : RoundRecord} {rest : List RoundRecord} {piece : Nat} (he : s.tables.engine ≠ .activating)
include he

theorem doReadRound_empty (hr : s.store.records = []) : s.doReadRound piece = answer s .empty := by
  simp only [State.doReadRound, if_neg he, hr]

theorem doReadRound_range (hr : s.store.records = r :: rest) (hp : r.piece s.store.records.length piece = none) :
    s.doReadRound piece = refuse s .range := by
  rw [hr] at hp
  simp only [State.doReadRound, if_neg he, hr, hp]

theorem doReadRound_shows {data : List Byte} (hr : s.store.records = r :: rest)
    (hp : r.piece s.store.records.length piece = some data) :
    s.doReadRound piece = (s.withStore { s.store with openMark := true }, ⟨.ok, data⟩) := by
  rw [hr] at hp
  simp only [State.doReadRound, if_neg he, hr, hp]

end Reading

/-- R59: piece 0 is the header, and piece k the k-th module entry. -/
theorem recordPiece_none {r : RoundRecord} {count piece : Nat} (h : r.entries.length < piece) :
    r.piece count piece = none := by
  cases piece with
  | zero => exact absurd h (Nat.not_lt_zero _)
  | succ k => rw [RoundRecord.piece, List.getElem?_eq_none (Nat.le_of_lt_succ h), Option.map_none]

theorem recordPiece_some {r : RoundRecord} {count piece : Nat} (h : piece ≤ r.entries.length) :
    ∃ data, r.piece count piece = some data ∧ (piece = 0 → data = r.headerPiece count) ∧
      (∀ e, piece ≠ 0 → r.entries[piece - 1]? = some e → data = e.piece) := by
  cases piece with
  | zero => exact ⟨_, rfl, fun _ => rfl, fun _ h0 => absurd rfl h0⟩
  | succ k =>
    have hk : r.entries[k]? = some r.entries[k] := List.getElem?_eq_getElem h
    refine ⟨r.entries[k].piece, by rw [RoundRecord.piece, hk, Option.map_some], nofun, fun e _ he => ?_⟩
    rw [Nat.add_sub_cancel, hk] at he
    rw [Option.some.inj he]

theorem exec_readRound {s : State} {c : Command} {piece : Nat} (h : s.takeable .readRound = some c)
    (ha : argPiece c.payload.tail = some piece) :
    exec .readRound s =
      .next ((s.popCommand.doReadRound piece).1.reply c (s.popCommand.doReadRound piece).2) :=
  exec_body h ha rfl

/-! #### RELEASE_ROUND (R60) -/

theorem doReleaseRound_eq (s : State) :
    s.doReleaseRound () =
      if s.tables.engine = .activating then answer s .busy
      else
        match s.store.records with
        | [] => answer s .empty
        | _ :: rest =>
          (s.withStore { s.store with records := rest, openMark := false }, ⟨.ok, [BitVec.ofNat 8 rest.length]⟩) := rfl

theorem exec_releaseRound {s : State} {c : Command} (h : s.takeable .releaseRound = some c)
    (ha : argNone c.payload.tail = some ()) :
    exec .releaseRound s =
      .next ((s.popCommand.doReleaseRound ()).1.reply c (s.popCommand.doReleaseRound ()).2) :=
  exec_body h ha rfl

/-- Settles O30: RELEASE_ROUND during an activation, on an empty store, and on one that holds a record. -/
theorem releaseRoundRemovesTheOldest : Obligations.ReleaseRoundRemovesTheOldest := by
  intro s c h ha
  rw [exec_releaseRound h ha, doReleaseRound_eq]
  refine ⟨fun he => ?_, fun he => ⟨fun hr => ?_, fun r rest hr => ?_⟩⟩
  · rw [if_pos (by exact he)]
    rfl
  · rw [if_neg (by exact he), show s.popCommand.store.records = [] from hr]
    rfl
  · rw [if_neg (by exact he), show s.popCommand.store.records = r :: rest from hr]
    rfl

/-! #### The bytes of the pieces (R56, R185, section 11.4) -/

theorem headerPiece_eq (r : RoundRecord) (count : Nat) :
    r.headerPiece count =
      littleEndian 4 r.number.toNat ++
      [BitVec.ofNat 8 r.profileId, BitVec.ofNat 8 r.scheduleId, BitVec.ofNat 8 r.entryIndex,
        listPlace [.cells, .temps, .both] r.kind] ++
      littleEndian 4 r.tSend.toNat ++ littleEndian 4 r.lateness.toNat ++
      [setByte [r.unevaluated, r.isPartial, r.packSum.isSome, r.packSum.any (·.complete)],
        BitVec.ofNat 8 (r.entries.length - 1)] ++
      littleEndian 4 ((r.packSum.map (·.sum)).getD 0) ++ [BitVec.ofNat 8 count] := by
  rw [RoundRecord.headerPiece, setByte_four, MeasKind.code_eq]
  simp only [le_eq_littleEndian]
  cases r.packSum <;> rfl

theorem modulePiece_eq {e : RoundEntry} (h : e.status ≠ .waiting) :
    e.piece =
      [BitVec.ofNat 8 e.position, listPlace [.ok, .missing, .crcError, .notPresent] e.status] ++
      littleEndian 4 e.sampleInstant.toNat ++
      (match e.aligned with
       | some a =>
         (listPlace [.ok, .gap, .held, .stale, .noCurrent] a.flag + if a.saturated then 8 else 0) ::
           littleEndianSigned 3 a.current
       | none => [0xFF, 0, 0, 0]) ++
      [orAbsent e.flags, BitVec.ofNat 8 (e.raw.getD []).length, BitVec.ofNat 8 (e.compensated.getD []).length,
        BitVec.ofNat 8 (e.temperatures.getD []).length] ++
      (e.raw.getD []).flatMap (littleEndian 2) ++ (e.compensated.getD []).flatMap (littleEndian 2) ++
      (e.temperatures.getD []).flatMap (littleEndianSigned 2) := by
  have hle : le 2 = littleEndian 2 := funext (le_eq_littleEndian 2)
  have hleInt : leInt 2 = littleEndianSigned 2 := funext (leInt_eq_littleEndianSigned 2)
  rw [RoundEntry.piece]
  simp only [EntryStatus.code_eq h, le_eq_littleEndian, hle, hleInt]
  cases e.aligned with
  | none => cases e.flags <;> rfl
  | some a =>
    simp only [alignByte_eq, leInt_eq_littleEndianSigned]
    cases e.flags <;> rfl

/-- Settles O29: an offer to a store with room and to a full one, the four answers of READ_ROUND, and the bytes of the
two kinds of piece. -/
theorem roundStoreKeepsAndShows : Obligations.RoundStoreKeepsAndShows := by
  refine ⟨fun st r => ⟨fun h newest => offer_room h newest, fun h => ?_⟩, fun s c piece h ha => ?_, headerPiece_eq,
    fun e => modulePiece_eq⟩
  · have hfull : ¬ st.records.length < 8 := by omega
    refine ⟨offer_full hfull false, fun a b rest hr => ?_⟩
    rw [offer_full hfull, makeRoom_eq hr]
    cases st.openMark <;> rfl
  · rw [exec_readRound h ha]
    refine ⟨fun he => ?_, fun he => ⟨fun hr => ?_, fun r rest hr => ⟨fun hp => ?_, fun hp => ?_⟩⟩⟩
    · rw [doReadRound_busy (by exact he)]
      rfl
    · rw [doReadRound_empty (by exact he) (by exact hr)]
      rfl
    · rw [doReadRound_range (by exact he) (by exact hr) (recordPiece_none hp)]
      rfl
    · obtain ⟨data, hdata, hheader, hmodule⟩ := recordPiece_some (count := s.store.records.length) hp
      refine ⟨data, ?_, hheader, hmodule⟩
      rw [doReadRound_shows (by exact he) (by exact hr) (by exact hdata)]
      rfl

end Sys2Proof.Machine
end

section
/-! ### ALIGNING: the test, the wait, and the way out of assembly (R46, R53 to R57, R69 to R76, R84) -/

namespace Sys2Proof.Machine

/-! #### The test of an instant (R69, R72) -/

theorem notLater_eq_not_later (a b : Stamp) : notLater a b = !later a b := by
  simp only [notLater, later, ← Int.not_lt, decide_not]

section Ring
variable {t : Stamp} {r : RingRecord} {ring older newer : List RingRecord}

theorem newestNotLater_eq_none (h : ∀ r ∈ ring, later r.stamp t = true) : newestNotLater t ring = none := by
  induction ring with
  | nil => rfl
  | cons a rest ih =>
    obtain ⟨ha, hrest⟩ := List.forall_mem_cons.mp h
    simp [newestNotLater, ih hrest, notLater_eq_not_later, ha]

/-- R69: r0 is the last record that is not later, with only later ones behind it. -/
theorem newestNotLater_append (hr : later r.stamp t = false) (hnewer : ∀ x ∈ newer, later x.stamp t = true) :
    newestNotLater t (older ++ r :: newer) = some r := by
  induction older with
  | nil => simp [newestNotLater, newestNotLater_eq_none hnewer, notLater_eq_not_later, hr]
  | cons a rest ih => simp only [List.cons_append, newestNotLater, ih]

theorem newestNotLater_getLast (hne : ring ≠ []) (h : ∀ r ∈ ring, later r.stamp t = false) :
    newestNotLater t ring = some (ring.getLast hne) := by
  conv_lhs => rw [← List.dropLast_append_getLast hne]
  exact newestNotLater_append (h _ (List.getLast_mem hne)) nofun

theorem oldestLater_eq_none (h : ∀ r ∈ ring, later r.stamp t = false) : oldestLater t ring = none := by
  simpa [oldestLater] using h

/-- R69: r1 is the first later record, with none before it. -/
theorem oldestLater_append (holder : ∀ x ∈ older, later x.stamp t = false) (hr : later r.stamp t = true) :
    oldestLater t (older ++ r :: newer) = some r := by
  rw [oldestLater, List.find?_append, List.find?_eq_none.mpr fun x hx => by simp [holder x hx], Option.none_or,
    List.find?_cons, hr]

end Ring

section Test
variable {ring : List RingRecord} (gap : Nat) {t : Stamp}

theorem alignAt_stale {oldest : RingRecord} {rest : List RingRecord}
    (h : ∀ r ∈ oldest :: rest, later r.stamp t = true) :
    alignAt .present (oldest :: rest) gap t = some ⟨oldest.current, .stale, oldest.saturated⟩ := by
  rw [alignAt, newestNotLater_eq_none h]
  rfl

theorem alignAt_waits (hne : ring ≠ []) (h : ∀ r ∈ ring, later r.stamp t = false) :
    alignAt .present ring gap t = none := by
  have hnewest := newestNotLater_getLast hne h
  have hlater := oldestLater_eq_none h
  cases ring with
  | nil => exact absurd rfl hne
  | cons a rest => rw [alignAt, hnewest, hlater]

theorem alignAt_bracketed {older newer : List RingRecord} {r0 r1 : RingRecord}
    (holder : ∀ r ∈ older, later r.stamp t = false) (h0 : later r0.stamp t = false)
    (hnewer : ∀ r ∈ r1 :: newer, later r.stamp t = true) :
    alignAt .present (older ++ r0 :: r1 :: newer) gap t = some (bracketed gap r0 r1 t) := by
  have hnewest : newestNotLater t (older ++ r0 :: r1 :: newer) = some r0 := newestNotLater_append h0 hnewer
  have hlater : oldestLater t (older ++ r0 :: r1 :: newer) = some r1 := by
    rw [List.append_cons]
    refine oldestLater_append (fun x hx => ?_) (hnewer r1 List.mem_cons_self)
    rcases List.mem_append.mp hx with hx | hx
    · exact holder x hx
    · rw [List.mem_singleton.mp hx, h0]
  generalize hring : older ++ r0 :: r1 :: newer = ring at hnewest hlater
  cases ring with
  | nil => simp at hring
  | cons a rest => rw [alignAt, hnewest, hlater]

end Test

/-! #### Settling the entries (R69, R71) -/

theorem settleWith_eq (f : Stamp → Option Aligned) (entries : List RoundEntry) :
    settleWith f entries =
      entries.map fun e => if e.status = .ok ∧ e.aligned = none then { e with aligned := f e.sampleInstant } else e := by
  simp only [settleWith, unsettled_iff]

/-- R71: at the end of the wait the newest record's current is taken, HELD. -/
theorem settleHeld_eq {s : State} {newest : RingRecord} (h : s.newestRecord = some newest) (entries : List RoundEntry) :
    s.settleHeld entries = settleWith (fun _ => some ⟨newest.current, .held, newest.saturated⟩) entries := by
  rw [State.settleHeld, h]
  rfl

section EnterAligning
variable {s : State} {r : Round}

theorem enterAligning_settled (h : ∀ e ∈ s.settle r.entries, e.status = .ok → e.aligned ≠ none) :
    s.enterAligning r = s.finishAligning r (s.settle r.entries) :=
  if_neg fun hu => by
    obtain ⟨e, he, hok, hwaits⟩ := anyUnsettled_iff.mp hu
    exact h e he hok hwaits

theorem enterAligning_waits (h : ∃ e ∈ s.settle r.entries, e.status = .ok ∧ e.aligned = none) :
    s.enterAligning r =
      if s.alignWaitLimit = 0 then s.finishAligning r (s.settleHeld (s.settle r.entries))
      else
        (s.withSched
          { s.sched with assembly := some { r with phase := .aligning, entries := s.settle r.entries } }).withCurrent
          { s.current with alignWait := some s.alignWaitLimit } :=
  if_pos (anyUnsettled_iff.mpr h)

end EnterAligning

/-! #### Compensation and the pack sum (R74, R75) -/

theorem compensateEntry_eq {s : State} {e : RoundEntry} {raw : List Nat} {a : Aligned} {m : ModuleEntry}
    (hok : e.status = .ok) (hraw : e.raw = some raw) (ha : e.aligned = some a) (hflag : a.flag ≠ .noCurrent)
    (hm : s.moduleAt e.position = some m) :
    s.compensateEntry e = { e with compensated := some (raw.map (compensate a.current m.resistance)) } := by
  have hresistance : s.resistance e.position = m.resistance := by rw [State.resistance, hm]
  simp only [State.compensateEntry, hok, hraw, ha, if_neg hflag, hresistance]

theorem compensateEntry_rests {s : State} {e : RoundEntry}
    (h : e.status ≠ .ok ∨ e.raw = none ∨ e.aligned = none ∨ ∃ a, e.aligned = some a ∧ a.flag = .noCurrent) :
    s.compensateEntry e = e := by
  unfold State.compensateEntry
  split
  · next raw a hok hraw ha =>
    rcases h with h | h | h | ⟨b, hb, hflag⟩
    · exact absurd hok h
    · exact absurd (hraw.symm.trans h) nofun
    · exact absurd (ha.symm.trans h) nofun
    · rw [Option.some.inj (ha.symm.trans hb), if_pos hflag]
  · rfl

theorem rawSum_eq (e : RoundEntry) : e.rawSum = if e.status = .ok then (e.raw.getD []).sum else 0 := by
  unfold RoundEntry.rawSum
  split
  · next raw hok hraw => rw [if_pos hok, hraw, Option.getD_some, List.sum_eq_foldl_nat]
  · next hnot =>
    split
    · next hok =>
      cases hraw : e.raw with
      | none => rfl
      | some raw => exact absurd hraw (hnot raw hok)
    · rfl

theorem positionsOk_iff {entries : List RoundEntry} {n : Nat} :
    positionsOk entries n = true ↔ ∀ p, 1 ≤ p → p ≤ n → ∃ e ∈ entries, e.position = p ∧ e.status = .ok := by
  induction n with
  | zero => exact ⟨fun _ p h1 h0 => by omega, fun _ => rfl⟩
  | succ n ih =>
    have hlast : (entries.any fun e => e.position == n + 1 && e.status == .ok) = true ↔
        ∃ e ∈ entries, e.position = n + 1 ∧ e.status = .ok := by simp
    rw [positionsOk, Bool.and_eq_true, ih, hlast]
    constructor
    · rintro ⟨hl, h⟩ p h1 hp
      rcases Nat.lt_or_eq_of_le hp with hlt | rfl
      · exact h p h1 (Nat.le_of_lt_succ hlt)
      · exact hl
    · exact fun h => ⟨h (n + 1) (by omega) le_rfl, fun p h1 hp => h p h1 (by omega)⟩

/-- R75: the sum of the raw voltages of the OK entries. -/
theorem packSumOf_cells (s : State) (entries : List RoundEntry) :
    s.packSumOf .cells entries =
      some ⟨(entries.map fun e => if e.status = .ok then (e.raw.getD []).sum else 0).sum,
        positionsOk entries s.moduleCount⟩ := by
  rw [List.sum_eq_foldl_nat, ← funext rawSum_eq]
  rfl

/-! #### Out of ALIGNING (R54, R73, R76, R84) -/

/-- The pack reference of R76. -/
def State.nextReference (s : State) (sum : Option PackSum) (tSend : Stamp) : Option PackReference :=
  match sum with
  | some ⟨total, true⟩ => if s.deepSleep = true then s.current.reference else some ⟨total, tSend, 0⟩
  | _ => s.current.reference

theorem setReference_eq (s : State) (sum : Option PackSum) (tSend : Stamp) :
    s.setReference sum tSend = s.withCurrent { s.current with reference := s.nextReference sum tSend } := by
  rcases sum with _ | ⟨total, _ | _⟩
  · rfl
  · rfl
  · by_cases h : s.deepSleep = true
    · simp only [State.setReference, State.nextReference, h, Bool.not_true, Bool.and_false, Bool.false_eq_true, if_false,
        if_true]
      rfl
    · simp only [State.setReference, State.nextReference, h, Bool.not_false, Bool.and_true, Bool.false_eq_true, if_false,
        if_true]

/-- The align wait ended and the pack reference formed, with these entries compensated. -/
def State.alignmentEnded (s : State) (r : Round) (done : List RoundEntry) : State :=
  s.withCurrent
    { s.current with alignWait := none, reference := s.nextReference (s.packSumOf r.kind done) r.tSend }

/-- The round as it enters EVALUATING with these entries. -/
def State.evaluatingRound (s : State) (r : Round) (done : List RoundEntry) : Round :=
  { r with phase := .evaluating, entries := done, packSum := s.packSumOf r.kind done }

theorem finishAligning_eq (s : State) (r : Round) (entries : List RoundEntry) :
    s.finishAligning r entries =
      if r.commitMark = true then
        (s.alignmentEnded r (entries.map s.compensateEntry)).leaveAssembly
          (s.evaluatingRound r (entries.map s.compensateEntry)) false
      else
        ((s.alignmentEnded r (entries.map s.compensateEntry)).evaluate (entries.map s.compensateEntry)).leaveAssembly
          (s.evaluatingRound r (entries.map s.compensateEntry))
          ((s.alignmentEnded r (entries.map s.compensateEntry)).evaluationActions
            (entries.map s.compensateEntry)).wake := by
  rw [State.finishAligning, setReference_eq]
  rfl

theorem touches_alignmentEnded (s : State) (r : Round) (done : List RoundEntry) :
    Touches [.current] s (s.alignmentEnded r done) := by simp [State.alignmentEnded]

theorem touches_evaluated (s : State) (entries : List RoundEntry) : Touches [.north, .limits] s (s.evaluate entries) := by
  simp

/-- R84: an evaluation writes the run states it computes. -/
theorem evaluate_runStates (s : State) (entries : List RoundEntry) :
    (s.evaluate entries).limits.runStates = s.evaluateAll entries s.limitSet s.limits.runStates := by
  unfold State.evaluate
  dsimp only
  split <;> rfl

/-- R84: every entry that has a run state gets its new one, also where another has none. -/
theorem evaluateAll_getElem? {s : State} {entries : List RoundEntry} {es : List LimitEntry} :
    ∀ {rs : List RunState} {i : Nat} {e : LimitEntry} {x : RunState}, es[i]? = some e → rs[i]? = some x →
      (s.evaluateAll entries es rs)[i]? = some (e.evaluate (s.channelsWithData e entries) x) := by
  induction es with
  | nil => exact fun he _ => absurd he nofun
  | cons e es ih =>
    intro rs i e' x he hx
    cases rs with
    | nil => exact absurd hx nofun
    | cons y rs =>
      cases i with
      | zero =>
        cases he
        cases hx
        rfl
      | succ i => exact ih (rs := rs) he hx

/-! #### The offer, and what follows it (R46, R55 to R57, R160) -/

/-- The round is offered to the store and leaves assembly. -/
def State.offered (s : State) (r : Round) : State :=
  (s.withSched { s.sched with assembly := none }).withStore (s.store.offer r.record s.keepNewest)

theorem offer_roundCounter (st : RoundStore) (r : RoundRecord) (newest : Bool) :
    (st.offer r newest).roundCounter = st.roundCounter := by
  unfold RoundStore.offer
  split <;> rfl

section LeaveAssembly
variable {s : State} (r : Round) (wake : Bool)

/-- R46, R160: in a watch round the pass goes on, and otherwise the next held entry may be taken. -/
theorem leaveAssembly_eq :
    s.leaveAssembly r wake =
      if s.sleep.power = .watchRound then (s.offered r).watchRoundOffered wake else (s.offered r).takeHeld := by
  unfold State.leaveAssembly
  dsimp only [State.withStore_sleep, State.withSched_sleep]
  cases s.sleep.power <;> rfl

theorem leaveAssembly_watchRound (h : s.sleep.power = .watchRound) :
    s.leaveAssembly r wake = (s.offered r).watchRoundOffered wake := by
  rw [leaveAssembly_eq, if_pos h]

theorem leaveAssembly_takeHeld (h : s.sleep.power ≠ .watchRound) : s.leaveAssembly r wake = (s.offered r).takeHeld := by
  rw [leaveAssembly_eq, if_neg h]

theorem leaveAssembly_idle (h : s.sleep.power ≠ .watchRound) (hh : s.sched.held = []) :
    s.leaveAssembly r wake = s.offered r := by
  have hoffered : (s.offered r).sched.held = [] := hh
  rw [leaveAssembly_takeHeld r wake h, State.takeHeld, hoffered]

/-- R46: the next held entry is taken with the next round number. -/
theorem leaveAssembly_takes {d : DueEntry} {rest : List DueEntry} (h : s.sleep.power ≠ .watchRound)
    (hh : s.sched.held = d :: rest) :
    s.leaveAssembly r wake =
      ((s.offered r).withStore { (s.offered r).store with roundCounter := s.store.roundCounter + 1 }).withSched
        { s.sched with
          assembly := none, held := rest, waiting := some ⟨d.index, d.instant, s.store.roundCounter + 1⟩ } := by
  have hoffered : (s.offered r).sched.held = d :: rest := hh
  have hcounter : (s.offered r).store.roundCounter = s.store.roundCounter := offer_roundCounter _ _ _
  rw [leaveAssembly_takeHeld r wake h, State.takeHeld, hoffered, ← hcounter]
  rfl

end LeaveAssembly

theorem touches_offered (s : State) (r : Round) : Touches [.sched, .store] s (s.offered r) := by simp [State.offered]

theorem keepNewest_congr {s t : State} (ht : t.tables = s.tables) (hp : t.profiles = s.profiles) :
    t.keepNewest = s.keepNewest := by
  simp only [State.keepNewest, activeProfile_congr ht hp]

theorem record_isPartial_iff (r : Round) : r.record.isPartial = true ↔ ∃ e ∈ r.entries, e.status ≠ .ok := by
  simp [Round.record]

/-! #### The align wait's expiry (R71) -/

theorem exec_alignWaitExpiry {s : State} {r : Round} (hp : s.power = ⟨true, false⟩)
    (hw : s.current.alignWait = some 0) (ha : s.sched.assembly = some r) :
    exec .alignWaitExpiry s = .next (s.finishAligning r (s.settleHeld r.entries)) := by
  have hexpired : expired s.current.alignWait = true := by rw [hw]; rfl
  simp [exec, execAlignWaitExpiry, operating_of hp, hexpired, ha]

section Active
variable {s : State} {r : Round} (entries : List RoundEntry) (hh : s.sched.held = []) (hactive : s.sleep.power = .active)
include hh hactive

/-- In ACTIVE with nothing held, a round with its commit mark set is offered without an evaluation. -/
theorem finishAligning_marked (hmark : r.commitMark = true) :
    s.finishAligning r entries =
      (s.alignmentEnded r (entries.map s.compensateEntry)).offered
        (s.evaluatingRound r (entries.map s.compensateEntry)) := by
  have hpower : s.sleep.power ≠ .watchRound := by rw [hactive]; nofun
  rw [finishAligning_eq, if_pos hmark, leaveAssembly_idle _ _ (by exact hpower) (by exact hh)]

/-- In ACTIVE with nothing held, any other round is offered behind its evaluation. -/
theorem finishAligning_evaluated (hmark : r.commitMark ≠ true) :
    s.finishAligning r entries =
      ((s.alignmentEnded r (entries.map s.compensateEntry)).evaluate (entries.map s.compensateEntry)).offered
        (s.evaluatingRound r (entries.map s.compensateEntry)) := by
  have hkept := touches_evaluated (s.alignmentEnded r (entries.map s.compensateEntry)) (entries.map s.compensateEntry)
  have hsleep : SleepController.power _ = _ := congrArg SleepController.power (hkept .sleep (by decide))
  have hsched := congrArg ScheduleEngine.held (hkept .sched (by decide))
  rw [finishAligning_eq, if_neg hmark, leaveAssembly_idle]
  · rw [hsleep]
    exact hactive ▸ nofun
  · exact hsched.trans hh

end Active

/-- Settles O33: the test of an instant, the align wait's expiry, the entry into ALIGNING, the way out of it, and the
offer. -/
theorem alignmentCasesAndWait : Obligations.AlignmentCasesAndWait := by
  refine ⟨fun ring gap t => ⟨rfl, rfl, ?stale, fun hne h => alignAt_waits gap hne h, ?bracketed⟩, ?expiry, ?enters,
    ?finishes, fun s e => ⟨fun raw a m hok hraw ha hf hm => compensateEntry_eq hok hraw ha hf hm,
      compensateEntry_rests⟩, fun s entries => ⟨rfl, _, packSumOf_cells s entries, rfl, positionsOk_iff⟩, ?leaves⟩
  case stale =>
    rintro oldest rest rfl h
    exact alignAt_stale gap h
  case bracketed =>
    rintro older newer r0 r1 rfl holder h0 hnewer
    exact alignAt_bracketed gap holder h0 hnewer
  case enters =>
    intro s r tested held
    have htested : s.settle r.entries = tested := settleWith_eq _ _
    refine ⟨fun h => ?_, fun newest hn h => ?_⟩
    · rw [enterAligning_settled (htested ▸ h), htested]
    · rw [enterAligning_waits (htested ▸ h), htested, settleHeld_eq hn, settleWith_eq]
  case finishes =>
    intro s r entries done r1 s1
    exact finishAligning_eq s r entries
  case leaves =>
    intro s r wake s1
    exact ⟨leaveAssembly_watchRound r wake, fun h => ⟨leaveAssembly_idle r wake h, fun d rest hh =>
      leaveAssembly_takes r wake h hh⟩, rfl, record_isPartial_iff r, rfl, rfl, rfl⟩
  case expiry =>
    intro s r newest hp hw ha hh hactive hn entries
    have hentries : (s.settleHeld r.entries).map s.compensateEntry = entries := by
      rw [settleHeld_eq hn]
      rfl
    refine ⟨_, exec_alignWaitExpiry hp hw ha, ?_⟩
    by_cases hmark : r.commitMark = true
    · rw [finishAligning_marked _ hh hactive hmark, hentries]
      exact ⟨rfl, rfl, rfl, fun _ => ⟨rfl, rfl⟩, fun h => absurd (hmark.symm.trans h) nofun,
        ((touches_alignmentEnded s r entries).mono (by simp)).trans ((touches_offered _ _).mono (by simp))⟩
    · rw [finishAligning_evaluated _ hh hactive hmark, hentries]
      have hkept := touches_evaluated (s.alignmentEnded r entries) entries
      have hruns := evaluate_runStates (s.alignmentEnded r entries) entries
      generalize (s.alignmentEnded r entries).evaluate entries = u at hkept hruns
      have hsched : u.sched = s.sched := hkept .sched (by decide)
      have hstore : u.store = s.store := hkept .store (by decide)
      have hkeep : u.keepNewest = s.keepNewest := keepNewest_congr (hkept .tables (by decide)) (hkept .profiles (by decide))
      refine ⟨congrArg (fun q : ScheduleEngine => { q with assembly := none }) hsched,
        congrArg CurrentPort.alignWait (hkept .current (by decide)), ?_, fun h => absurd h hmark,
        fun _ i e x he hx => ?_, ?_⟩
      · show u.store.offer _ u.keepNewest = _
        rw [hstore, hkeep]
        rfl
      · show u.limits.runStates[i]? = _
        rw [hruns]
        exact evaluateAll_getElem? he hx
      · exact (((touches_alignmentEnded s r entries).mono (by simp)).trans (hkept.mono (by simp))).trans
          ((touches_offered _ _).mono (by simp))

end Sys2Proof.Machine
end

section
/-! ### The current ring: what every step keeps (R66, R67) -/

namespace Sys2Proof.Machine

/-! #### The ring itself -/

theorem ringRises_drop {ring : List RingRecord} (h : ringRises ring = true) (n : Nat) :
    ringRises (ring.drop n) = true := by
  induction n generalizing ring with
  | zero => exact h
  | succ n ih =>
    match ring with
    | [] => rfl
    | [_] => rw [List.drop_succ_cons, List.drop_nil]; rfl
    | a :: b :: rest =>
      obtain ⟨-, hrest⟩ := (Bool.and_eq_true _ _).mp h
      exact ih hrest

/-- R65: a record later than the newest one goes behind it. -/
theorem ringRises_append {ring : List RingRecord} {r : RingRecord} (h : ringRises ring = true)
    (hr : ∀ n, ring.getLast? = some n → later r.stamp n.stamp = true) : ringRises (ring ++ [r]) = true := by
  induction ring with
  | nil => rfl
  | cons a rest ih =>
    cases rest with
    | nil => exact (Bool.and_eq_true _ _).mpr ⟨hr a rfl, rfl⟩
    | cons b rest =>
      obtain ⟨hb, hrest⟩ := (Bool.and_eq_true _ _).mp h
      refine (Bool.and_eq_true _ _).mpr ⟨hb, ih hrest fun n hn => hr n ?_⟩
      rwa [List.getLast?_cons_cons]

theorem newest64_append_ne_nil (ring : List RingRecord) (r : RingRecord) : newest64 (ring ++ [r]) ≠ [] := by
  rw [newest64, Ne, List.drop_eq_nil_iff, List.length_append, List.length_singleton]
  omega

theorem ringSafe_congr {s t : State} (hr : t.current.ring = s.current.ring)
    (hst : t.current.stream = s.current.stream) : RingSafe t ↔ RingSafe s := by
  rw [RingSafe, RingSafe, hr, hst]

theorem ringSafe_emptied {s : State} (hr : s.current.ring = []) (hst : s.current.stream = .absent) : RingSafe s := by
  rw [RingSafe, hr, hst]
  exact ⟨rfl, fun _ => rfl, fun _ => rfl⟩

/-- R65, R66: a record in order joins the ring, and the ring is in order behind it. -/
theorem ringSafe_joined {s t : State} {r : RingRecord} (h : RingSafe s) (ho : s.inOrder r.stamp = true)
    (hr : t.current.ring = newest64 (s.current.ring ++ [r])) (hst : t.current.stream = .present) : RingSafe t := by
  have hnewest : ∀ n, s.current.ring.getLast? = some n → later r.stamp n.stamp = true := fun n hn => by
    simpa [State.inOrder, State.newestRecord, hn] using ho
  rw [RingSafe, hr, hst]
  exact ⟨ringRises_drop (ringRises_append h.1 hnewest) _,
    fun h0 => absurd h0 (newest64_append_ne_nil _ _), nofun⟩

/-! #### What the operations keep -/

/-- Every block but the current port. -/
abbrev Block.besidePort : List Block :=
  [.power, .north, .chain, .timebase, .lock, .sched, .store, .limits, .seq, .events, .profiles, .sleep, .tables,
    .freeIndex, .pending]

/-- The ring of `t` is in order if that of `s` is. -/
def RingKept (s t : State) : Prop := RingSafe s → RingSafe t

namespace RingKept

section Operations
variable {s t : State}

theorem refl (s : State) : RingKept s s := id

/-- What leaves the current port alone keeps the ring. -/
theorem beside {u : State} (h : RingKept s t) (ht : Touches Block.besidePort t u) : RingKept s u := by
  have hc : u.current = t.current := ht .current (by decide)
  exact fun hs => (ringSafe_congr (congrArg _ hc) (congrArg _ hc)).mpr (h hs)

theorem ite {u : State} {p : Prop} [Decidable p] (ht : RingKept s t) (hu : RingKept s u) :
    RingKept s (if p then t else u) := by
  split <;> assumption

/-- The current port may change besides its ring and its stream. -/
theorem withCurrent (h : RingKept s t) {x : CurrentPort} (hr : x.ring = t.current.ring := by rfl)
    (hst : x.stream = t.current.stream := by rfl) : RingKept s (t.withCurrent x) :=
  fun hs => (ringSafe_congr (s := t) (t := t.withCurrent x) hr hst).mpr (h hs)

/-- R67, R68: the ring may be emptied as the stream becomes ABSENT. -/
theorem emptied {x : CurrentPort} (hr : x.ring = [] := by rfl) (hst : x.stream = .absent := by rfl) :
    RingKept s (t.withCurrent x) :=
  fun _ => ringSafe_emptied (s := t.withCurrent x) hr hst

/-! Waking, sleeping and watch passes (R68, R155 to R165). -/

theorem enterWaking : RingKept s t.enterWaking := by
  have hp : RingKept s (t.withSleep { t.sleep with power := .waking, watchTimer := none }).powerPort := emptied
  unfold State.enterWaking
  dsimp only
  split
  · exact hp.beside (by simp)
  · exact hp

theorem wakeCause (h : RingKept s t) {c : WakeCause} : RingKept s (t.wakeCause c) := by
  unfold State.wakeCause
  split
  iterate 2 exact h
  · exact enterWaking
  · exact h.beside (by simp)
  · dsimp only
    split
    · exact h.beside (by simp)
    · split
      · exact enterWaking
      · exact h.beside (by simp)

theorem countPass (h : RingKept s t) : RingKept s t.countPass :=
  h.ite ((h.beside (by simp)).wakeCause.ite (h.beside (by simp)))

theorem completePass (h : RingKept s t) : RingKept s t.completePass :=
  enterWaking.ite (h.countPass.beside (by simp))

theorem watchPass (h : RingKept s t) : RingKept s t.watchPass := by
  unfold State.watchPass
  dsimp only
  split
  · exact (h.beside (by simp)).completePass
  · exact h.beside (by simp)

theorem watchRoundOffered (h : RingKept s t) {w : Bool} : RingKept s (t.watchRoundOffered w) := by
  unfold State.watchRoundOffered
  extract_lets s1
  have hw : RingKept s s1 := h.wakeCause.ite h
  split
  · exact (hw.beside (u := s1.cancelDue) (by simp)).completePass
  · split
    · exact hw.completePass
    · exact hw.beside (u := s1.takeHeld) (by simp)

theorem completeEntry {w : Nat} : RingKept s (t.completeEntry w) := by
  have he : RingKept s (((t.enterCommit w .sleep).lockSleep).withCurrent .asleep) := emptied
  exact he.beside (by simp [State.completeEntry])

theorem detectChange (h : RingKept s t) {m : ModuleTable} {b : Bool} : RingKept s (t.detectChange m b) := by
  unfold State.detectChange
  split
  · exact h.beside (by simp)
  · exact h.wakeCause.ite h

theorem wakeSent (h : RingKept s t) {b : Bool} : RingKept s (t.wakeSent b) :=
  (h.beside (by simp)).ite (enterWaking.ite (h.beside (by simp)))

theorem sleepSent (h : RingKept s t) : RingKept s t.sleepSent := by
  unfold State.sleepSent
  dsimp only
  split
  · exact enterWaking.ite (h.beside (by simp))
  all_goals exact h.beside (by simp)

theorem tamperAssertion (h : RingKept s t) : RingKept s t.tamperAssertion := wakeCause (h.beside (by simp))

/-! Rounds and current records (R51 to R57, R66, R69 to R76). -/

theorem setReference (h : RingKept s t) {p : Option PackSum} {a : Stamp} : RingKept s (t.setReference p a) := by
  unfold State.setReference
  split
  · exact h.withCurrent.ite h
  · exact h

theorem leaveAssembly (h : RingKept s t) {r : Round} {w : Bool} : RingKept s (t.leaveAssembly r w) := by
  unfold State.leaveAssembly
  dsimp only
  split
  · exact (h.beside (by simp)).watchRoundOffered
  all_goals exact h.beside (by simp)

theorem finishAligning (h : RingKept s t) {r : Round} {es : List RoundEntry} : RingKept s (t.finishAligning r es) := by
  unfold State.finishAligning
  extract_lets done sum port s1
  have h1 : RingKept s s1 := h.withCurrent.setReference
  exact h1.leaveAssembly.ite (h1.beside (u := s1.evaluate done) (by simp)).leaveAssembly

theorem enterAligning (h : RingKept s t) {r : Round} : RingKept s (t.enterAligning r) :=
  (h.finishAligning.ite (h.beside (by simp)).withCurrent).ite h.finishAligning

theorem realign (h : RingKept s t) : RingKept s t.realign := by
  unfold State.realign
  split
  · exact h
  · split
    · exact (h.beside (by simp)).ite h.finishAligning
    all_goals exact h

theorem continueCollecting (h : RingKept s t) : RingKept s t.continueCollecting := by
  unfold State.continueCollecting
  split
  · exact h
  · split
    · split
      · exact h.beside (by simp)
      · exact h.enterAligning
    all_goals exact h

theorem readEnded (h : RingKept s t) {p : Nat} {o : ReadOutcome} : RingKept s (t.readEnded p o) := by
  unfold State.readEnded
  split
  · exact h
  · split
    · exact (h.beside (by simp)).continueCollecting
    all_goals exact h

theorem sendTrigger (h : RingKept s t) {w : TakenTrigger} {e : ScheduleEntry} : RingKept s (t.sendTrigger w e) := by
  unfold State.sendTrigger
  dsimp only
  split
  · exact h.beside (by simp)
  · exact (h.beside (by simp)).enterAligning

/-- R65, R66: a record in order joins the ring. -/
theorem enterRecord (h : RingKept s t) {m : ModuleTable} {a : Stamp} {r : SortedRecord} (ho : t.inOrder a = true) :
    RingKept s (t.enterRecord m a r) := by
  unfold State.enterRecord
  extract_lets port s1
  have h1 : RingKept s s1 := fun hs =>
    ringSafe_joined (r := ⟨a, r.current, r.link, r.saturated⟩) (h hs) ho rfl rfl
  exact h1.realign.beside (by simp)

theorem recordArrives (h : RingKept s t) {m : ModuleTable} {b : List Byte} : RingKept s (t.recordArrives m b) := by
  unfold State.recordArrives
  split
  · exact h.beside (by simp)
  · dsimp only
    split
    · next ho => exact h.enterRecord ho
    · exact h.beside (by simp)

/-! The chain link (R15). -/

theorem frameSent (h : RingKept s t) {f : ChainFrame} : RingKept s (t.frameSent f) := by
  have he : RingKept s t.endTransaction := h.beside (by simp)
  unfold State.frameSent
  split
  · exact he.wakeSent
  · exact he.sleepSent
  · exact he.continueCollecting
  iterate 2 exact h.beside (by simp)
  · exact (he.beside (by simp)).ite (h.beside (by simp))

theorem transactionEnded (h : RingKept s t) {f : ChainFrame} {o : TxnOutcome} :
    RingKept s (t.transactionEnded f o) := by
  have he : RingKept s t.endTransaction := h.beside (by simp)
  unfold State.transactionEnded
  split
  · exact he.beside (by simp)
  · exact he.readEnded
  · exact he.beside (by simp)
  all_goals exact h

theorem frameEnds (h : RingKept s t) {rx : ChainRx} : RingKept s (t.frameEnds rx) := by
  unfold State.frameEnds
  split
  · next f _ => exact (h.transactionEnded (f := f) (o := replyOutcome f rx)).beside (by simp)
  · next f _ _ =>
    exact (h.beside (by simp)).ite ((h.transactionEnded (f := f) (o := replyOutcome f rx)).beside (by simp))
  all_goals exact h.beside (by simp)

/-! Resets, power, tables and time (R21, R68, R167, R177, R178). -/

theorem resetBlocks : RingKept s t.resetBlocks := fun _ => ringSafe_emptied rfl rfl

theorem losePower : RingKept s t.losePower := by
  have hr : RingKept s t.stopOp.resetBlocks := resetBlocks
  exact hr.beside (by simp [State.losePower, State.clearVolatile])

theorem powerUp {straps : Straps} : RingKept s (t.powerUp straps) := by
  have hp : RingKept s t.losePower := losePower
  refine hp.beside ?_
  unfold State.powerUp
  dsimp only
  split <;> simp

theorem holdReset : RingKept s t.holdReset := by
  have hr : RingKept s t.resetBlocks := resetBlocks
  exact hr.beside (by simp [State.holdReset])

theorem beginRestart : RingKept s t.beginRestart := by
  have hr : RingKept s t.resetBlocks := resetBlocks
  exact hr.beside (by simp [State.beginRestart])

theorem beginActivation (h : RingKept s t) : RingKept s t.beginActivation := by
  unfold State.beginActivation
  extract_lets s1 sched port s2 chain s3
  have h1 : RingKept s s1 := h.beside (by simp [s1])
  have h2 : RingKept s s2 := (h1.beside (u := s1.withSched { sched with assembly := none }) (by simp)).withCurrent
  exact h2.beside (by simp [s3])

theorem doUpdActivate (h : RingKept s t) {a : Unit} : RingKept s (State.doUpdActivate a t).1 := by
  unfold State.doUpdActivate
  repeat' split
  any_goals exact h
  exact h.beginActivation

theorem reload {w : WorkingTables} : RingKept s (t.reload w) := by
  unfold State.reload
  extract_lets s1 store s2 port s3 seq s4 tables s5
  have h3 : RingKept s s3 := emptied
  exact h3.beside (by simp [s5, s4])

theorem takeCommand (h : RingKept s t) {α : Type} {row : Instr} {args : List Byte → Option α}
    {body : α → State → State × Reply} (hb : ∀ a u, RingKept s u → RingKept s (body a u).1) :
    RingKept s (takeCommand row args body t) := by
  have hp : RingKept s t.popCommand := h.beside (by simp)
  unfold Machine.takeCommand
  split
  · exact h
  · split
    · exact hp.beside (by simp)
    · next a _ => exact (hb a _ hp).beside (by simp)

theorem elapse (h : RingKept s t) {n : Nat} : RingKept s (elapse n t) := by
  have hb : RingKept s ((t.elapseArray n).elapseBlocks n) := fun hs => (ringSafe_congr rfl rfl).mpr (h hs)
  exact ((h.beside (by simp)).ite hb).ite h

end Operations

end RingKept

/-! #### Every command -/

/-- Each command that has no business with the current port leaves it alone. -/
theorem touches_besidePort {i : Instr} (h : Block.current ∉ blocksOf i) (s : State) :
    ∃ t, exec i s = .next t ∧ Touches Block.besidePort s t := by
  cases i with
  | getStatus | getStatusClear | readTable | setTrim | restart | readRound | releaseRound | readLimits | clearLimit
  | clearLimitAll | close | openCmd | fastOpen | clearTrip | readEvents | switchProfile | enterProfile | returnProfile
  | sleep | updErase | updWrite | updVerify =>
    exact ⟨_, rfl, touches_takeCommand (by simp) fun _ _ ht => by simp [ht]⟩
  | unknownCommandCode => exact ⟨_, rfl, touches_takeCommand (by simp) fun _ _ ht => ht⟩
  | rstNHigh => exact ⟨_, rfl, touches_ite (touches_ite (by simp) (by simp)) (by simp)⟩
  | startUpLoading | startUpLoadingEnd | chainWakeWaitExpiry | receiveIdleTimeout | northFrameSent
  | acquireWindowClose | triggerInstant | pullInTimerExpiry | openCoilIntervalExpiry | feedbackDebounceExpiry
  | deferTimerExpiry | entryStart | watchTimerExpiry | wakingEnd | verificationEnd | chainReplyStart =>
    exact ⟨_, rfl, touches_ite (by simp) (by simp)⟩
  | coilSenseChange | feedbackInputChange | tamperInputChange => exact ⟨_, rfl, by simp⟩
  | northFrameComplete | holdingPlaceReplyEnqueue | chainPortReplyEnqueue | windowClose | forwardHeadStart
  | currentRecordIdleTimeout | limitFastOpenRequest | limitEnterRequest | stepTimerExpiry | blockEraseComplete
  | rowProgramComplete | slotPointerWriteComplete | counterWriteComplete =>
    refine ⟨_, rfl, ?_⟩
    repeat' split
    all_goals simp
  | _ => simp [blocksOf, Block.allBlocks, Block.round, Block.opening, Block.commit] at h

/-- The command `i`, carried out in `s`, keeps the ring in order. -/
def RingKeptBy (i : Instr) (s : State) : Prop := ∃ t, exec i s = .next t ∧ RingKept s t

theorem ringKeptBy (i : Instr) (s : State) : RingKeptBy i s := by
  have h : RingKept s s := .refl s
  by_cases hb : Block.current ∈ blocksOf i
  case neg =>
    obtain ⟨t, ht, hbeside⟩ := touches_besidePort hb s
    exact ⟨t, ht, h.beside hbeside⟩
  cases i with
  | powerOnReset straps => exact ⟨_, rfl, .powerUp⟩
  | powerLoss => exact ⟨_, rfl, RingKept.losePower.ite h⟩
  | rstNLow => exact ⟨_, rfl, h.ite (RingKept.holdReset.ite (h.beside (by simp)))⟩
  | startDelimiter =>
    have hn (x : NorthPort) : RingKept s (s.truncateFrame.withNorth x) := h.beside (by simp)
    exact ⟨_, rfl, ((hn _).wakeCause.ite (hn _)).ite h⟩
  | restartBegin => exact ⟨_, rfl, RingKept.beginRestart.ite h⟩
  | updActivate => exact ⟨_, rfl, h.takeCommand fun _ _ hu => hu.doUpdActivate⟩
  | triggerSend =>
    refine ⟨_, rfl, ?_⟩
    split
    · exact h
    · split
      · exact h
      · exact h.sendTrigger
  | chainFrameSent =>
    refine ⟨_, rfl, ?_⟩
    split
    · next f _ _ => exact (h.frameSent (f := f)).beside (by simp)
    · exact h
  | chainFrameReceived frame => exact ⟨_, rfl, h.frameEnds.ite (h.beside (by simp))⟩
  | chainReplyTimeout =>
    refine ⟨_, rfl, ?_⟩
    split
    · next f _ _ => exact (h.transactionEnded (f := f) (o := .noReply)).beside (by simp)
    · exact h
  | currentRecordArrival record =>
    refine ⟨_, rfl, ?_⟩
    split
    · exact h
    · exact h.recordArrives
  | streamTimerExpiry =>
    have he : RingKept s (s.withCurrent { s.current with ring := [], stream := .absent, streamTimer := none }) :=
      .emptied
    exact ⟨_, rfl, (he.realign.beside (by simp)).ite h⟩
  | alignWaitExpiry =>
    refine ⟨_, rfl, ?_⟩
    split
    · split
      · exact h
      · exact h.finishAligning
    · exact h
  | entryCompletion =>
    refine ⟨_, rfl, ?_⟩
    split
    · split
      · exact h
      · split
        · exact h
        · exact .completeEntry
    · exact h
  | chainWakeTimerExpiry =>
    refine ⟨_, rfl, ?_⟩
    have h1 : RingKept s (s.withSleep { s.sleep with chainWakeTimer := none }) := h.beside (by simp)
    split
    · dsimp only
      split
      · exact h1.ite h1.watchPass
      all_goals exact h1
    · exact h
  | wakeInChange high =>
    refine ⟨_, rfl, ?_⟩
    have h1 : RingKept s (s.withSleep { s.sleep with wakeInHigh := high }) := h.beside (by simp)
    split
    · exact h
    · dsimp only
      split
      · exact h1.detectChange
      · exact h1
  | wakeInHoldExpiry =>
    have hi (x : SleepController) : RingKept s (s.withSleep x) := h.beside (by simp)
    exact ⟨_, rfl, (hi _).wakeCause.ite h⟩
  | reload =>
    refine ⟨_, rfl, ?_⟩
    split
    · split
      · exact h
      · exact .reload
    · exact h
  | tamperDebounceExpiry =>
    have hd (x : TableStore) : RingKept s (s.withTables x) := h.beside (by simp)
    exact ⟨_, rfl, ((hd _).tamperAssertion.ite (hd _)).ite h⟩
  | _ => simp [blocksOf, Block.opening, Block.commit] at hb

theorem ringSafe_step {s t : State} (h : RingSafe s) (ht : step s = .next t) : RingSafe t := by
  unfold step at ht
  split at ht
  · obtain rfl := Host.Outcome.next.inj ht
    exact (RingKept.refl s).elapse h
  · next c rest _ =>
    obtain ⟨u, hu, hk⟩ := ringKeptBy c (s.withPending rest)
    obtain rfl := Host.Outcome.next.inj (hu.symm.trans ht)
    exact hk h

/-- Settles O59: every operation keeps the ring in order, so every command and every microtick does. -/
theorem stepKeepsRingSafe : Obligations.StepKeepsRingSafe := fun _ _ => ringSafe_step

end Sys2Proof.Machine
end

section
/-! ### The precharge test (R76, R77) -/

namespace Sys2Proof.Machine

section Test
variable {s : State} {ref : PackReference} {newest : RingRecord} {ratio : Nat}

theorem precharge_stale (h : ∀ ref, s.current.reference = some ref → 1000 ≤ ref.elapsed / 1000) :
    s.precharge ratio = .noReference := by
  unfold State.precharge
  split
  · rfl
  · next ref hr => exact if_neg (Nat.not_lt.mpr (h ref hr))

theorem precharge_absent (hr : s.current.reference = some ref) (hage : ref.elapsed / 1000 < 1000)
    (hs : s.current.stream = .absent) : s.precharge ratio = .notReached := by
  simp only [State.precharge, hr, PackReference.age, if_pos hage, hs]

theorem precharge_present (hr : s.current.reference = some ref) (hage : ref.elapsed / 1000 < 1000)
    (hs : s.current.stream = .present) (hn : s.newestRecord = some newest) :
    s.precharge ratio = if ratio * (ref.sum / 100) ≤ newest.link * 256 then .reached else .notReached := by
  simp only [State.precharge, hr, PackReference.age, if_pos hage, hs, hn]

end Test

/-- Settles O34: the reference too old or missing, the stream ABSENT, and the comparison. -/
theorem prechargeTest : Obligations.PrechargeTest := fun _ _ =>
  ⟨precharge_stale, fun _ hr hage => ⟨precharge_absent hr hage, fun _ => precharge_present hr hage⟩⟩

end Sys2Proof.Machine
end

section
/-! ### Current records, and what they set off in ALIGNING and in the sequencer (R63 to R67, R71, R109, R114) -/

namespace Sys2Proof.Machine

/-! #### Sorting a record (R63, R64) -/

theorem fromLe_three (b0 b1 b2 : Byte) : fromLe [b0, b1, b2] = (b2 ++ b1 ++ b0 : BitVec 24).toNat := by
  simp only [fromLe, BitVec.toNat_append]
  rw [← Nat.shiftLeft_add_eq_or_of_lt b0.isLt, ← Nat.shiftLeft_add_eq_or_of_lt b1.isLt]
  simp only [Nat.shiftLeft_eq]
  omega

theorem signedFromLe_three (b0 b1 b2 : Byte) : signedFromLe [b0, b1, b2] = (b2 ++ b1 ++ b0 : BitVec 24).toInt := by
  simp only [signedFromLe, fromLe_three, BitVec.toInt_eq_toNat_cond, List.length_cons, List.length_nil]
  split <;> split <;> omega

section Sorting
variable {st c0 c1 c2 l0 l1 l2 check : Byte}

theorem sortRecord_fault (h : check ≠ crc8 [st, c0, c1, c2, l0, l1, l2] ∨ 2 ≤ st.toNat) :
    sortRecord [st, c0, c1, c2, l0, l1, l2, check] = none := by
  unfold sortRecord
  dsimp only
  split
  · next hc =>
    have hst := h.resolve_left fun h => h hc
    split
    · omega
    · omega
    · rfl
  · rfl

variable (hc : check = crc8 [st, c0, c1, c2, l0, l1, l2])
include hc

/-- R64: a current inside ±2,000,000 mA, of status OK, is taken as it is. -/
theorem sortRecord_inside (hst : st = 0) (hlo : -2000000 ≤ (c2 ++ c1 ++ c0 : BitVec 24).toInt)
    (hhi : (c2 ++ c1 ++ c0 : BitVec 24).toInt ≤ 2000000) :
    sortRecord [st, c0, c1, c2, l0, l1, l2, check] =
      some ⟨(c2 ++ c1 ++ c0 : BitVec 24).toInt, min (l2 ++ l1 ++ l0 : BitVec 24).toNat 100000, false⟩ := by
  subst hst
  rw [sortRecord, if_pos hc, signedFromLe_three, fromLe_three]
  exact if_pos ⟨hlo, hhi⟩

/-- R64: any other record of status OK or OVERRANGE is saturated by the sign of its current. -/
theorem sortRecord_saturated
    (h : st = 0 ∧ ¬(-2000000 ≤ (c2 ++ c1 ++ c0 : BitVec 24).toInt ∧ (c2 ++ c1 ++ c0 : BitVec 24).toInt ≤ 2000000) ∨
      st = 1) :
    sortRecord [st, c0, c1, c2, l0, l1, l2, check] =
      some ⟨saturate (c2 ++ c1 ++ c0 : BitVec 24).toInt, min (l2 ++ l1 ++ l0 : BitVec 24).toNat 100000, true⟩ := by
  rw [sortRecord, if_pos hc, signedFromLe_three, fromLe_three]
  obtain ⟨rfl, hout⟩ | rfl := h
  · exact if_neg hout
  · rfl

theorem sortRecord_above
    (h : st = 0 ∧ 2000000 < (c2 ++ c1 ++ c0 : BitVec 24).toInt ∨ st = 1 ∧ 0 ≤ (c2 ++ c1 ++ c0 : BitVec 24).toInt) :
    sortRecord [st, c0, c1, c2, l0, l1, l2, check] =
      some ⟨2000000, min (l2 ++ l1 ++ l0 : BitVec 24).toNat 100000, true⟩ := by
  rw [sortRecord_saturated hc (h.imp (fun ⟨hst, hgt⟩ => ⟨hst, by omega⟩) And.left), saturate, if_neg (by omega)]

theorem sortRecord_below
    (h : st = 0 ∧ (c2 ++ c1 ++ c0 : BitVec 24).toInt < -2000000 ∨ st = 1 ∧ (c2 ++ c1 ++ c0 : BitVec 24).toInt < 0) :
    sortRecord [st, c0, c1, c2, l0, l1, l2, check] =
      some ⟨-2000000, min (l2 ++ l1 ++ l0 : BitVec 24).toNat 100000, true⟩ := by
  rw [sortRecord_saturated hc (h.imp (fun ⟨hst, hlt⟩ => ⟨hst, by omega⟩) And.left), saturate, if_pos (by omega)]

end Sorting

/-! #### The record at the ring (R65, R66) -/

section Arrival
variable {s : State} {m : ModuleTable}

theorem recordTable_eq (hp : s.power = ⟨true, false⟩) (hon : s.current.portOn = true) : s.recordTable = s.moduleTable := by
  simp [State.recordTable, operating_of hp, hon]

theorem recordTable_none (h : s.current.portOn = false ∨ s.tablesLoaded = false) : s.recordTable = none := by
  obtain hon | hl := h
  · simp [State.recordTable, hon]
  · have hw : s.tables.working = none := by simpa [State.tablesLoaded] using hl
    simp [State.recordTable, State.moduleTable, hw]

theorem inOrder_eq (s : State) (stamp : Stamp) :
    s.inOrder stamp = s.current.ring.getLast?.all fun n => decide (0 < (stamp - n.stamp).toInt) := by
  rw [State.inOrder, State.newestRecord]
  cases s.current.ring.getLast? <;> rfl

theorem newest64_append (ring : List RingRecord) (r : RingRecord) :
    newest64 (ring ++ [r]) = (ring ++ [r]).drop (ring.length + 1 - 64) := by
  rw [newest64, List.length_append, List.length_singleton]

/-- The record `r` in front of the ring: it joins if its stamp is later than the newest one. -/
def State.recordAtRing (s : State) (m : ModuleTable) (r : RingRecord) : Host.Outcome State Fault Refusal :=
  if s.current.ring.getLast?.all (fun n => decide (0 < (r.stamp - n.stamp).toInt)) = true then
    .next (s.withCurrent
      { s.current with
        ring := (s.current.ring ++ [r]).drop (s.current.ring.length + 1 - 64)
        stream := .present
        streamTimer := some m.streamTimeout }).realign.sequencerRecord
  else .next s.setCurOrder

variable (hp : s.power = ⟨true, false⟩) (hon : s.current.portOn = true) (hm : s.moduleTable = some m)
  {bytes : List Byte}
include hp hon hm

theorem exec_arrival_fault (h : sortRecord bytes = none) :
    exec (.currentRecordArrival bytes) s = .next s.setCurFault := by
  show Host.Outcome.next (match s.recordTable with | none => s | some m => s.recordArrives m bytes) = _
  rw [recordTable_eq hp hon, hm]
  simp only [State.recordArrives, h]

theorem exec_arrival_sorted {r : SortedRecord} (h : sortRecord bytes = some r) :
    exec (.currentRecordArrival bytes) s =
      s.recordAtRing m ⟨s.now - BitVec.ofNat 32 m.converterLatency, r.current, r.link, r.saturated⟩ := by
  show Host.Outcome.next (match s.recordTable with | none => s | some m => s.recordArrives m bytes) = _
  rw [recordTable_eq hp hon, hm]
  simp only [State.recordArrives, h, stampAddInt_neg, inOrder_eq, State.recordAtRing, State.enterRecord,
    newest64_append]
  split <;> rfl

end Arrival

/-! #### The alignment unit at a record (R69, R71, R72) -/

theorem realign_rests {s : State} (h : ∀ r, s.sched.assembly = some r → r.phase ≠ .aligning) : s.realign = s := by
  unfold State.realign
  split
  · rfl
  · next r hr =>
    split
    · next hphase => exact absurd hphase (h r hr)
    all_goals rfl

section Aligning
variable {s : State} {r : Round} (hr : s.sched.assembly = some r) (hphase : r.phase = .aligning)
include hr hphase

theorem realign_waits (h : ∃ e ∈ s.settle r.entries, e.status = .ok ∧ e.aligned = none) :
    s.realign = s.withSched { s.sched with assembly := some { r with entries := s.settle r.entries } } := by
  simp only [State.realign, hr, hphase, if_pos (anyUnsettled_iff.mpr h), State.keepAligning]

theorem realign_finishes (h : ∀ e ∈ s.settle r.entries, e.status = .ok → e.aligned ≠ none) :
    s.realign = s.finishAligning r (s.settle r.entries) := by
  simp only [State.realign, hr, hphase]
  refine if_neg fun hu => ?_
  obtain ⟨e, he, hok, hwaits⟩ := anyUnsettled_iff.mp hu
  exact h e he hok hwaits

end Aligning

/-! #### The sequencer at a record, and at the loss of the stream (R67, R109, R114) -/

section Sequencer
variable {s : State}

theorem sequencer_rests (hc : s.seq.state ≠ .closing) (hd : s.seq.state ≠ .deferred) :
    s.sequencerRecord = s ∧ s.sequencerStreamAbsent = s := by
  unfold State.sequencerRecord State.sequencerStreamAbsent
  cases h : s.seq.state with
  | closing => exact absurd h hc
  | deferred => exact absurd h hd
  | opened | closed | opening | tripped => exact ⟨rfl, rfl⟩

theorem sequencer_deferred (h : s.seq.state = .deferred) :
    s.sequencerRecord = (if s.highCurrent = true then s else s.startOpen) ∧ s.sequencerStreamAbsent = s.startOpen := by
  simp only [State.sequencerRecord, State.sequencerStreamAbsent, h, true_and]

theorem sequencer_closing (h : s.seq.state = .closing) :
    s.sequencerRecord = s.retestPrecharge ∧ s.sequencerStreamAbsent = s.retestPrecharge := by
  simp only [State.sequencerRecord, State.sequencerStreamAbsent, h, true_and]

theorem retestPrecharge_rests (h : ∀ r ratio time, s.runningStep = some r → r.step ≠ .awaitPrecharge ratio time) :
    s.retestPrecharge = s := by
  unfold State.retestPrecharge
  split
  · next r _ hr =>
    split
    · next hstep => exact absurd hstep (h r _ _ hr)
    all_goals rfl
  · rfl

theorem retestPrecharge_awaits {r : Running} {ratio time : Nat} (h : s.seq.state = .closing)
    (hr : s.runningStep = some r) (hstep : r.step = .awaitPrecharge ratio time) :
    s.retestPrecharge =
      match s.precharge ratio with
      | .reached => s.stepDone r
      | .notReached => s
      | .noReference => s.closeFailed r.id r.index none .noReference := by
  cases htest : s.precharge ratio <;> simp only [State.retestPrecharge, h, hr, hstep, htest]

end Sequencer

/-- Settles O31: a record sorted and at the ring, the loss of the stream, and what the two set off. -/
theorem currentRecordsEnterTheRing : Obligations.CurrentRecordsEnterTheRing := by
  refine ⟨⟨?arrival, ?idle, ?dropped⟩, ?absent, ?aligning, ?sequencer⟩
  case arrival =>
    intro s m st c0 c1 c2 l0 l1 l2 check hp hon hm carried link stamp result entered
    refine ⟨fun h => exec_arrival_fault hp hon hm (sortRecord_fault h),
      fun hc hst hlo hhi => ?_, fun hc h => ?_, fun hc h => ?_⟩
    · exact exec_arrival_sorted (r := ⟨carried, link, false⟩) hp hon hm (sortRecord_inside hc hst hlo hhi)
    · exact exec_arrival_sorted (r := ⟨2000000, link, true⟩) hp hon hm (sortRecord_above hc h)
    · exact exec_arrival_sorted (r := ⟨-2000000, link, true⟩) hp hon hm (sortRecord_below hc h)
  case idle =>
    intro s hp hon hl
    obtain ⟨m, hm⟩ : ∃ m, s.moduleTable = some m := by
      simpa [State.tablesLoaded, State.moduleTable, Option.isSome_iff_exists] using hl
    show Host.Outcome.next (match s.recordTable with | none => s | some _ => s.setCurFault) = _
    rw [recordTable_eq hp hon, hm]
    rfl
  case dropped =>
    intro s record h
    have hnone := recordTable_none h
    constructor
    · show Host.Outcome.next (match s.recordTable with | none => s | some m => s.recordArrives m record) = _
      rw [hnone]
    · show Host.Outcome.next (match s.recordTable with | none => s | some _ => s.setCurFault) = _
      rw [hnone]
  case absent =>
    intro s hp ht
    have hdue : (s.operating && expired s.current.streamTimer) = true := by rw [operating_of hp, ht]; rfl
    exact congrArg Host.Outcome.next (if_pos hdue)
  case aligning =>
    intro s
    refine ⟨realign_rests, fun r hr hphase => ?_⟩
    intro entries
    have hentries : s.settle r.entries = entries := settleWith_eq _ _
    rw [← hentries]
    exact ⟨realign_waits hr hphase, realign_finishes hr hphase⟩
  case sequencer =>
    refine fun s => ⟨sequencer_rests, sequencer_deferred, fun h => ?_⟩
    obtain ⟨hrecord, habsent⟩ := sequencer_closing h
    rw [habsent, hrecord]
    exact ⟨rfl, retestPrecharge_rests, fun r ratio time hr hstep => retestPrecharge_awaits h hr hstep⟩

end Sys2Proof.Machine
end

section
/-! ### Rounding, interpolation and compensation (section 5 of the introduction, R70, R74) -/

namespace Sys2Proof.Machine

/-! #### "round" of the conventions -/

theorem roundDiv_natCast (a d : Nat) :
    roundDiv (a : Int) d = ((if d ≤ 2 * (a % d) then a / d + 1 else a / d : Nat) : Int) := by
  rw [roundDiv, if_neg (Int.not_lt.mpr (Int.natCast_nonneg a)), Int.natAbs_natCast]

theorem roundDiv_zero {d : Nat} (hd : 0 < d) : roundDiv 0 d = 0 := by
  rw [← Int.natCast_zero, roundDiv_natCast, Nat.zero_mod, Nat.zero_div, if_neg (by omega)]

theorem roundDiv_neg (n : Int) {d : Nat} (hd : 0 < d) : roundDiv (-n) d = -roundDiv n d := by
  rcases lt_trichotomy n 0 with hn | rfl | hn
  · simp only [roundDiv, Int.natAbs_neg, if_pos hn, if_neg (show ¬-n < 0 by omega), Int.neg_neg]
  · rw [Int.neg_zero, roundDiv_zero hd, Int.neg_zero]
  · simp only [roundDiv, Int.natAbs_neg, if_neg (show ¬n < 0 by omega), if_pos (show -n < 0 by omega)]

/-- The nearest integer, and of two equally near the one farther from zero, for a number that is not negative. -/
theorem roundDiv_nearest_nat (a : Nat) {d : Nat} (hd : 0 < d) :
    2 * ((a : Int) - roundDiv a d * d).natAbs ≤ d ∧
      (2 * ((a : Int) - roundDiv a d * d).natAbs = d → a ≤ (roundDiv a d).natAbs * d) := by
  have hmod : a % d < d := Nat.mod_lt a hd
  have hdown : a / d * d = a - a % d := by have := Nat.div_add_mod' a d; omega
  have hup : (a / d + 1) * d = a - a % d + d := by rw [Nat.succ_mul, hdown]
  have hle : a % d ≤ a := Nat.mod_le a d
  rw [roundDiv_natCast, Int.natAbs_natCast]
  rw [← Nat.cast_mul]
  split
  · rw [hup]
    omega
  · rw [hdown]
    omega

/-- "round" is to the nearest integer, and of two equally near to the one farther from zero. -/
theorem roundDiv_nearest (n : Int) {d : Nat} (hd : 0 < d) :
    2 * (n - roundDiv n d * d).natAbs ≤ d ∧
      (2 * (n - roundDiv n d * d).natAbs = d → n.natAbs ≤ (roundDiv n d).natAbs * d) := by
  obtain ⟨a, rfl | rfl⟩ := n.eq_nat_or_neg
  · exact roundDiv_nearest_nat a hd
  · rw [roundDiv_neg _ hd, Int.natAbs_neg, Int.natAbs_neg, Int.natAbs_natCast, Int.neg_mul,
      show -(a : Int) - -(roundDiv a d * d) = -(a - roundDiv a d * d) by omega, Int.natAbs_neg]
    exact roundDiv_nearest_nat a hd

/-- What lies between two whole multiples is rounded between them. -/
theorem roundDiv_between {n lo hi : Int} {d : Nat} (hd : 0 < d) (hlo : lo * d ≤ n) (hhi : n ≤ hi * d) :
    lo ≤ roundDiv n d ∧ roundDiv n d ≤ hi := by
  have hnear := (roundDiv_nearest n hd).1
  constructor
  · by_contra hlt
    have hstep : (roundDiv n d + 1) * d ≤ lo * d := Int.mul_le_mul_of_nonneg_right (by omega) (by omega)
    rw [add_mul] at hstep
    omega
  · by_contra hgt
    have hstep : (hi + 1) * d ≤ roundDiv n d * d := Int.mul_le_mul_of_nonneg_right (by omega) (by omega)
    rw [add_mul] at hstep
    omega

/-! #### Between two records (R70) -/

/-- A part `d` of a whole `g` moves a current by no more than the whole difference. -/
theorem interpolation_between (a b : Int) {d : Int} {g : Nat} (hg : 0 < g) (h0 : 0 ≤ d) (hd : d ≤ g) :
    min a b ≤ a + roundDiv ((b - a) * d) g ∧ a + roundDiv ((b - a) * d) g ≤ max a b := by
  rcases le_total a b with hab | hab
  · have h := roundDiv_between (lo := 0) (hi := b - a) hg
      (by rw [Int.zero_mul]; exact Int.mul_nonneg (by omega) h0) (Int.mul_le_mul_of_nonneg_left hd (by omega))
    omega
  · have h := roundDiv_between (lo := b - a) (hi := 0) hg
      (Int.mul_le_mul_of_nonpos_left (by omega) hd)
      (by rw [Int.zero_mul]; exact Int.mul_nonpos_of_nonpos_of_nonneg (by omega) h0)
    omega

section Bracketed
variable {gap : Nat} {r0 r1 : RingRecord} {t : Stamp}

theorem bracketed_inGap (h : (r1.stamp - r0.stamp).toInt ≤ gap) :
    bracketed gap r0 r1 t =
      ⟨r0.current + roundDiv ((r1.current - r0.current) * (t - r0.stamp).toInt) (r1.stamp - r0.stamp).toInt.toNat, .ok,
        r0.saturated || r1.saturated⟩ :=
  if_neg (Int.not_lt.mpr h)

theorem bracketed_acrossGap (h : (gap : Int) < (r1.stamp - r0.stamp).toInt) :
    bracketed gap r0 r1 t =
      if (t - r0.stamp).toInt ≤ (r1.stamp - t).toInt then ⟨r0.current, .gap, r0.saturated⟩
      else ⟨r1.current, .gap, r1.saturated⟩ :=
  if_pos h

end Bracketed

/-! #### Compensation (R74) -/

theorem compensate_eq (current : Int) (resistance v : Nat) :
    (compensate current resistance v : Int) =
      max 0 (min 65535 ((v : Int) + roundDiv (current * resistance) 100000)) := by
  rw [compensate, clampInt_eq (by decide), Int.toNat_of_nonneg (le_max_left _ _), min_comm]

theorem compensate_zero (current : Int) {v : Nat} (h : v ≤ 65535) : compensate current 0 v = v := by
  have heq := compensate_eq current 0 v
  rw [Int.natCast_zero, Int.mul_zero, roundDiv_zero (by decide)] at heq
  omega

/-- Settles O32: the nearest integer, the aligned current inside and across the gap limit, and the compensated
voltage. -/
theorem alignmentArithmetic : Obligations.AlignmentArithmetic := by
  refine ⟨fun n d hd => roundDiv_nearest n hd, fun gap r0 r1 t h0 h1 hsum => ?_, fun current resistance v => ?_⟩
  · intro a
    refine ⟨fun hgap => ?_, bracketed_acrossGap⟩
    have hlength : ((r1.stamp - r0.stamp).toInt.toNat : Int) = (r1.stamp - r0.stamp).toInt :=
      Int.toNat_of_nonneg (by omega)
    obtain ⟨hlo, hhi⟩ := interpolation_between r0.current r1.current (d := (t - r0.stamp).toInt)
      (g := (r1.stamp - r0.stamp).toInt.toNat) (by omega) h0 (by omega)
    rw [show a = _ from bracketed_inGap hgap]
    refine ⟨rfl, rfl, hlo, hhi, fun ht => ?_, rfl⟩
    rw [ht, BitVec.sub_self, BitVec.toInt_zero, Int.mul_zero, roundDiv_zero (by omega), Int.add_zero]
  · have heq := compensate_eq current resistance v
    refine ⟨heq, by omega, fun hr hv => ?_⟩
    rw [hr]
    exact compensate_zero current hv

end Sys2Proof.Machine
end

section
/-! ### The event queue, READ_EVENTS, the event records and the ALERT line (R78, R120, R126 to R133, section 11.4) -/

namespace Sys2Proof.Machine

/-! #### Handing a record to the queue (R127, R128) -/

section Queue
variable {q : EventQueue} {before after : List EventRecord} {old : EventRecord}

theorem removeOldestOther_eq (hbefore : ∀ x ∈ before, x.kind = .fastOpen) (hold : old.kind ≠ .fastOpen) :
    removeOldestOther (before ++ old :: after) = some (before ++ after) := by
  induction before with
  | nil => exact if_neg hold
  | cons x rest ih =>
    obtain ⟨hx, hrest⟩ := List.forall_mem_cons.mp hbefore
    rw [List.cons_append, removeOldestOther, if_pos hx, ih hrest]
    rfl

theorem removeOldestOther_none {records : List EventRecord} (h : ∀ x ∈ records, x.kind = .fastOpen) :
    removeOldestOther records = none := by
  induction records with
  | nil => rfl
  | cons x rest ih =>
    obtain ⟨hx, hrest⟩ := List.forall_mem_cons.mp h
    rw [removeOldestOther, if_pos hx, ih hrest]
    rfl

theorem hand_room (r : EventRecord) (h : q.records.length < 32) :
    q.hand r = { q with records := q.records ++ [r] } := if_pos h

theorem hand_costs (r : EventRecord) (h : 32 ≤ q.records.length) (hq : q.records = before ++ old :: after)
    (hbefore : ∀ x ∈ before, x.kind = .fastOpen) (hold : old.kind ≠ .fastOpen) :
    q.hand r = ⟨before ++ after ++ [r], true⟩ := by
  rw [EventQueue.hand, if_neg (Nat.not_lt.mpr h), hq, removeOldestOther_eq hbefore hold]

theorem hand_drops (r : EventRecord) (h : 32 ≤ q.records.length) (hall : ∀ x ∈ q.records, x.kind = .fastOpen) :
    q.hand r = ⟨q.records, true⟩ := by
  rw [EventQueue.hand, if_neg (Nat.not_lt.mpr h), removeOldestOther_none hall]

end Queue

/-! #### READ_EVENTS (R130) -/

theorem doReadEvents_empty {s : State} (k : Nat) (h : s.events.records = []) : s.doReadEvents k = answer s .empty := by
  simp only [State.doReadEvents, h]

theorem doReadEvents_eq {s : State} (k : Nat) (h : s.events.records ≠ []) :
    s.doReadEvents k =
      (s.withEvents ⟨s.events.records.drop (min (k + 1) s.events.records.length), false⟩,
        ⟨.ok, [BitVec.ofNat 8 (min (k + 1) s.events.records.length),
            BitVec.ofNat 8 (s.events.records.length - min (k + 1) s.events.records.length),
            if s.events.overflow then 1 else 0] ++
          (s.events.records.take (min (k + 1) s.events.records.length)).flatMap EventRecord.bytes⟩) := by
  rw [← List.length_drop]
  unfold State.doReadEvents
  split
  · next hnil => exact absurd hnil h
  · rfl

theorem exec_readEvents {s : State} {c : Command} {k : Nat} (h : s.takeable .readEvents = some c)
    (ha : argBelow8 c.payload.tail = some k) :
    exec .readEvents s = .next ((s.popCommand.doReadEvents k).1.reply c (s.popCommand.doReadEvents k).2) :=
  exec_body h ha rfl

/-! #### The record the sequencer makes, and the ALERT line (R78, R120, R132, R133) -/

section Recording
variable {s : State}

theorem packCurrent_absent (h : s.current.stream = .absent) : s.packCurrent = none := by
  simp only [State.packCurrent, h]

theorem packCurrent_present {newest : RingRecord} (h : s.current.stream = .present) (hn : s.newestRecord = some newest) :
    s.packCurrent = some ⟨newest.current, newest.saturated⟩ := by
  simp only [State.packCurrent, h, hn]

theorem alertLine_iff :
    s.alertLine = true ↔
      s.power = ⟨true, false⟩ ∧ (s.events.records ≠ [] ∨ s.events.overflow = true ∨ s.alertHeld = true) := by
  rw [State.alertLine, Bool.and_eq_true, operating_iff, Bool.or_eq_true, Bool.or_eq_true, Bool.not_eq_true',
    List.isEmpty_eq_false_iff, or_assoc]

end Recording

/-! #### The bytes of an event record (R185, section 11.4) -/

theorem eventRecord_bytes (r : EventRecord) :
    r.bytes =
      littleEndian 4 r.stamp.toNat ++ littleEndian 4 r.newestRound.toNat ++
      [listPlace [.closeCmd, .closeDone, .closeFailed, .openCmd, .openDeferred, .highCurrentBreak, .openDone, .fastOpen,
          .weldSuspect, .feedbackLost, .coilFault] r.kind,
        listPlace [some .mneg, some .mpos, some .pre, some .chg, none] r.contactor, causeByte r.cause,
        orAbsent (r.sequence.map (BitVec.ofNat 8)), orAbsent (r.step.map (BitVec.ofNat 8))] ++
      (match r.current with
       | some c => setByte [true, c.saturated] :: littleEndianSigned 3 c.current
       | none => [0, 0, 0, 0]) := by
  rw [EventRecord.bytes, le_eq_littleEndian, le_eq_littleEndian, EventKind.code_eq, contactorByte_eq, Cause.code_eq,
    optByte_eq_orAbsent, optByte_eq_orAbsent]
  congr 1
  cases r.current with
  | none => rfl
  | some c => exact congrArg₂ List.cons (setByte_two true c.saturated) (leInt_eq_littleEndianSigned 3 c.current)

/-- Settles O44: a record handed to the queue, READ_EVENTS, what a record holds and when ALERT is asserted, and the
bytes. -/
theorem eventQueueKeepsFastOpens : Obligations.EventQueueKeepsFastOpens := by
  refine ⟨fun q r => ⟨hand_room r, fun h => ⟨fun before after old => hand_costs r h, hand_drops r h⟩⟩,
    fun s c k h ha => ?_, fun s kind contactor cause sequence step =>
      ⟨rfl, packCurrent_absent, fun newest => packCurrent_present, alertLine_iff⟩, eventRecord_bytes⟩
  rw [exec_readEvents h ha]
  refine ⟨fun hnil => ?_, fun hne => ?_⟩
  · rw [doReadEvents_empty (s := s.popCommand) k hnil]
    rfl
  · rw [doReadEvents_eq (s := s.popCommand) k hne]
    rfl

end Sys2Proof.Machine
end

section
/-! ### OPEN, FAST_OPEN and CLEAR_TRIP (R89, R116 to R118) -/

namespace Sys2Proof.Machine

/-! #### OPEN (R116) -/

theorem doOpen_opens {s : State} (h : s.seq.state = .closing ∨ s.seq.state = .closed) :
    State.doOpen () s = (s.orderlyOpen .command, .plain .accepted) := by
  rcases h with h | h <;> simp only [State.doOpen, h]

theorem doOpen_rests {s : State} (hclosing : s.seq.state ≠ .closing) (hclosed : s.seq.state ≠ .closed) :
    State.doOpen () s = answer s .ok := by
  unfold State.doOpen
  split
  · next h => exact absurd h hclosing
  · next h => exact absurd h hclosed
  all_goals rfl

/-! #### A fast open (R117) -/

/-- R100, R117: what a release makes of a driver. -/
theorem CoilDriver.release_eq (d : CoilDriver) :
    d.release = if d.state = .off then d else ⟨.off, none, d.sense, none, false⟩ := by
  by_cases h : d.state = .off <;> simp [CoilDriver.release, CoilDriver.driven, CoilDriver.released, h]

theorem CoilDriver.release_not_driven (d : CoilDriver) : d.release.driven = false := by
  rw [CoilDriver.release]
  split
  · rfl
  · next h => exact Bool.eq_false_iff.mpr h

theorem releaseAll_noCoilDriven (s : State) : s.releaseAll.noCoilDriven = true := by
  simp [State.noCoilDriven, State.releaseAll, PerContactor.map, CoilDriver.release_not_driven]

section FastOpen
variable {s : State} (cause : Cause)

/-- R117: in TRIPPED a fast open records itself and keeps the cause of the first. -/
theorem takeFastOpen_tripped (h : s.seq.state = .tripped) :
    s.takeFastOpen cause = s.record .fastOpen none cause none none := by
  simp only [State.takeFastOpen, h]

/-- R117: in every other state it records itself, releases the coils and trips. -/
theorem takeFastOpen_trips (h : s.seq.state ≠ .tripped) :
    s.takeFastOpen cause =
      (s.record .fastOpen none cause none none).withSeq
        { s.seq with
          coils := s.seq.coils.map CoilDriver.release
          state := .tripped
          tripCause := some cause
          running := none
          step := none
          stepTimer := none
          openCause := none
          deferTimer := none } := by
  unfold State.takeFastOpen
  split
  · next ht => exact absurd ht h
  all_goals rfl

theorem takeFastOpen_state : (s.takeFastOpen cause).seq.state = .tripped := by
  by_cases h : s.seq.state = .tripped
  · rw [takeFastOpen_tripped cause h]
    exact h
  · rw [takeFastOpen_trips cause h]
    rfl

/-- R117, R120: tripped already or not, a fast open is recorded once, as of the state it finds. -/
theorem takeFastOpen_events :
    (s.takeFastOpen cause).events = s.events.hand (s.eventRecord .fastOpen none cause none none) := by
  by_cases h : s.seq.state = .tripped
  · rw [takeFastOpen_tripped cause h]
    rfl
  · rw [takeFastOpen_trips cause h]
    rfl

end FastOpen

/-- R89: the oldest request of the limit monitor is taken. -/
theorem exec_limitFastOpenRequest {s : State} {e : Nat} {rest : List Nat} (hp : s.power = ⟨true, false⟩)
    (hr : s.limits.fastOpenRequests = e :: rest) :
    exec .limitFastOpenRequest s =
      .next ((s.withLimits { s.limits with fastOpenRequests := rest }).takeFastOpen (.limit e)) := by
  simp only [exec, execLimitFastOpenRequest, operating_of hp, hr]

/-- R118: the checks see the state that the command finds. -/
theorem doClearTrip_popCommand (s : State) :
    State.doClearTrip () s.popCommand =
      if s.tables.engine = .activating then answer s.popCommand .busy
      else if s.seq.state ≠ .tripped then refuse s.popCommand .state
      else if s.tripHeld = true then refuse s.popCommand .blocked
      else (s.popCommand.withSeq { s.seq with state := .opened, tripCause := none }, .plain .ok) := rfl

/-- Settles O43: OPEN by the sequencer's state; a fast open by command and by the limit monitor, and what it leaves; the
checks of CLEAR_TRIP in order. -/
theorem openFastOpenAndClearTrip : Obligations.OpenFastOpenAndClearTrip := by
  refine ⟨fun s c h ha => ⟨fun hs => ?_, fun hclosing hclosed => ?_⟩, fun s c h ha => exec_body h ha rfl,
    fun s e rest => exec_limitFastOpenRequest, fun s cause => ?_, fun s c h ha => ?_⟩
  · rw [exec_body h ha rfl, doOpen_opens (s := s.popCommand) hs]
  · rw [exec_body h ha rfl, doOpen_rests (s := s.popCommand) hclosing hclosed]
    rfl
  · refine ⟨takeFastOpen_state cause, by simp, takeFastOpen_events cause, fun ht => ?_, fun hn => ?_⟩
    · rw [takeFastOpen_tripped cause ht]
      rfl
    · rw [takeFastOpen_trips cause hn, ← funext CoilDriver.release_eq]
      exact ⟨releaseAll_noCoilDriven s, rfl⟩
  · rw [exec_body h ha rfl, doClearTrip_popCommand]
    split_ifs <;> rfl

end Sys2Proof.Machine
end

section
/-! ### READ_LIMITS, CLEAR_LIMIT, the held conditions and the limits block (R92 to R95, R185, section 11.3) -/

namespace Sys2Proof.Machine

/-! #### The checks that come first (R93 to R95) -/

theorem working_eq_none_of_not_loaded {s : State} (h : s.tablesLoaded = false) : s.tables.working = none := by
  simpa [State.tablesLoaded] using h

theorem exists_working_of_loaded {s : State} (h : s.tablesLoaded = true) : ∃ w, s.tables.working = some w :=
  Option.isSome_iff_exists.mp h

theorem tablesGate_passes {s : State} (h : s.tablesLoaded = true) (he : s.tables.engine ≠ .activating) :
    s.tablesGate = none := by
  obtain ⟨w, hw⟩ := exists_working_of_loaded h
  exact tablesGate_open hw he

/-- R93 to R95: with no tables or during ACTIVATING the three commands are answered alike. -/
theorem exec_limitCommand_gated {row : Instr} {s : State} {c : Command} {st : ReplyStatus}
    (hrow : row = .readLimits ∨ row = .clearLimit ∨ row = .clearLimitAll) (h : s.takeable row = some c)
    (hform : formRight row c.payload.tail = true) (hgate : s.tablesGate = some st) : exec row s = s.answered c st := by
  have hgate' : s.popCommand.tablesGate = some st := hgate
  rcases hrow with rfl | rfl | rfl
  all_goals obtain ⟨a, ha⟩ := Option.isSome_iff_exists.mp hform
  · rw [exec_body h ha rfl, State.doReadLimits, hgate']
    rfl
  · rw [exec_body h ha rfl, State.doClearLimit, hgate']
    rfl
  · rw [exec_body h ha rfl, State.doClearAll, hgate']
    rfl

/-! #### CLEAR_LIMIT of one entry (R94) -/

section ClearLimit
variable {s : State} {i : Nat}

theorem doClearLimit_range (hgate : s.tablesGate = none) (hi : s.limitSet.length ≤ i) :
    s.doClearLimit i = refuse s .range := by
  simp only [State.doClearLimit, hgate, List.getElem?_eq_none hi]

section Entry
variable {e : LimitEntry} {r : RunState}

theorem doClearLimit_state (hgate : s.tablesGate = none) (he : s.limitSet[i]? = some e)
    (hr : s.limits.runStates[i]? = some r) (hlatch : e.latch = false) : s.doClearLimit i = refuse s .state := by
  simp only [State.doClearLimit, hgate, he, hr, hlatch, Bool.false_eq_true, if_false]

theorem doClearLimit_clears (hgate : s.tablesGate = none) (he : s.limitSet[i]? = some e)
    (hr : s.limits.runStates[i]? = some r) (hlatch : e.latch = true) :
    s.doClearLimit i =
      (s.withLimits { s.limits with runStates := s.limits.runStates.set i ⟨.clear, 0, r.last⟩ }, .plain .ok) := by
  simp only [State.doClearLimit, hgate, he, hr, hlatch, if_true, RunState.cleared]

end Entry
end ClearLimit

/-! #### CLEAR_LIMIT of ALL (R95) -/

/-- R95: what CLEAR_LIMIT(ALL) makes of one run state. -/
theorem clearAll_getElem? {es : List LimitEntry} :
    ∀ {rs : List RunState} {i : Nat} {e : LimitEntry} {r : RunState}, es[i]? = some e → rs[i]? = some r →
      (clearAll es rs)[i]? = some (if e.latch = true ∧ r.level = .tripped then ⟨.clear, 0, r.last⟩ else r) := by
  induction es with
  | nil => exact fun he _ => absurd he nofun
  | cons e es ih =>
    intro rs i e' r' he hr
    cases rs with
    | nil => exact absurd hr nofun
    | cons r rs =>
      cases i with
      | zero =>
        cases he
        cases hr
        simp [clearAll, RunState.cleared]
      | succ i => exact ih (rs := rs) he hr

theorem clearAll_length {es : List LimitEntry} : ∀ {rs : List RunState}, (clearAll es rs).length = rs.length := by
  induction es with
  | nil => exact rfl
  | cons e es ih =>
    intro rs
    cases rs with
    | nil => rfl
    | cons r rs => exact congrArg Nat.succ ih

/-- R95: the number answered is that of the TRIPPED LATCH entries. -/
theorem clearedCount_eq {es : List LimitEntry} : ∀ {rs : List RunState},
    clearedCount es rs = ((es.zip rs).filter fun x => x.1.latch && x.2.level == .tripped).length := by
  induction es with
  | nil => exact rfl
  | cons e es ih =>
    intro rs
    cases rs with
    | nil => rfl
    | cons r rs =>
      rw [clearedCount, ih, List.zip_cons_cons, List.filter_cons]
      split
      · rw [List.length_cons, Nat.add_comm]
      · rw [Nat.zero_add]

/-- Log 4: the row of ALL takes well-formed commands only. -/
theorem tail_of_clearLimitAll {payload : List Byte} (h : commandRow payload = .clearLimitAll) :
    payload.tail = [0xFF] := by
  cases payload with
  | nil => cases h
  | cons code args =>
    rcases commandRow_cases code args with rfl | rfl | hmem | hno
    · by_cases ha : args = [1]
      · cases (if_pos ha).symm.trans h
      · cases (if_neg ha).symm.trans h
    · by_cases ha : args = [0xFF]
      · exact ha
      · cases (if_neg ha).symm.trans h
    · rw [h] at hmem
      simp [commandCodes] at hmem
    · cases hno.symm.trans h

theorem exec_clearLimitAll {s : State} {c : Command} (h : s.takeable .clearLimitAll = some c)
    (hgate : s.tablesGate = none) :
    exec .clearLimitAll s =
      .next ((s.popCommand.withLimits { s.limits with runStates := clearAll s.limitSet s.limits.runStates }).reply c
        ⟨.ok, [BitVec.ofNat 8 (clearedCount s.limitSet s.limits.runStates)]⟩) := by
  obtain ⟨-, hrow, -⟩ := takeable_iff.mp h
  have ha : argAll c.payload.tail = some () := argAll_iff.mpr (tail_of_clearLimitAll hrow)
  have hgate' : s.popCommand.tablesGate = none := hgate
  rw [exec_body h ha rfl, State.doClearAll, hgate']
  rfl

/-! #### The bytes of the limits block (R185, section 11.3) -/

theorem RunState.bytes_eq (r : RunState) :
    r.bytes =
      [listPlace [.clear, .pending, .tripped] r.level, BitVec.ofNat 8 r.count] ++
        match r.last with
        | some o => [BitVec.ofNat 8 o.position, BitVec.ofNat 8 o.channel] ++ littleEndianSigned 4 o.value
        | none => [0, 0xFF, 0, 0, 0, 0] := by
  rw [RunState.bytes, RunLevel.code_eq]
  cases r.last with
  | none => rfl
  | some o => exact congrArg (fun value => _ :: _ :: _ :: _ :: value) (leInt_eq_littleEndianSigned 4 o.value)

theorem limitsBlock_eq {s : State} {p : ProfileRecord} (h : s.activeProfile = some p) :
    s.limitsBlock =
      [BitVec.ofNat 8 p.id, BitVec.ofNat 8 p.limitSetId, BitVec.ofNat 8 (s.limits.runStates.length - 1),
        setByte [s.alertHeld, s.closeBlocked, s.tripHeld]] ++ s.limits.runStates.flatMap RunState.bytes := by
  rw [State.limitsBlock, h, activeId_of_activeProfile h, setByte_three]
  rfl

/-- Settles O36: the checks that come first, the three commands past them, the held conditions, and the bytes of the
limits block. -/
theorem limitCommands : Obligations.LimitCommands := by
  refine ⟨fun row s c hrow h hform => ⟨fun hl => ?_, fun hl he => ?_⟩, fun s c h ha hl he => ?_,
    fun s c i h ha hl he => ⟨fun hi => ?_, fun e r hentry hr => ⟨fun hlatch => ?_, fun hlatch => ?_⟩⟩,
    fun s c h hl he _ => ?_, fun s => ⟨heldCondition_iff, heldCondition_iff, heldCondition_iff⟩, fun s p hp => ?_⟩
  · exact exec_limitCommand_gated hrow h hform (tablesGate_noTables (working_eq_none_of_not_loaded hl))
  · obtain ⟨w, hw⟩ := exists_working_of_loaded hl
    exact exec_limitCommand_gated hrow h hform (tablesGate_busy hw he)
  · have hgate : s.popCommand.tablesGate = none := tablesGate_passes hl he
    rw [exec_body h ha rfl, State.doReadLimits, hgate]
    rfl
  · rw [exec_body h ha rfl, doClearLimit_range (s := s.popCommand) (tablesGate_passes hl he) hi]
    rfl
  · rw [exec_body h ha rfl, doClearLimit_state (s := s.popCommand) (tablesGate_passes hl he) hentry hr hlatch]
    rfl
  · rw [exec_body h ha rfl, doClearLimit_clears (s := s.popCommand) (tablesGate_passes hl he) hentry hr hlatch]
    rfl
  · exact ⟨_, _, exec_clearLimitAll h (tablesGate_passes hl he), clearAll_length, clearedCount_eq,
      fun i e r => clearAll_getElem?⟩
  · rw [limitsBlock_eq hp]
    exact congrArg (_ ++ ·) (List.flatMap_congr fun r _ => RunState.bytes_eq r)

end Sys2Proof.Machine
end

section
/-! ### The checks of the profile commands and of limit entries (R90, R139, R144) -/

namespace Sys2Proof.Machine

/-! #### Checks 1 to 3 (R139) -/

section Gate
variable {s : State}

theorem profileGate_noTables (h : s.tablesLoaded = false) : s.profileGate = some (.refused .noTables) := by
  simp [State.profileGate, h]

theorem profileGate_busy (h : s.tablesLoaded = true) (he : s.tables.engine = .activating) :
    s.profileGate = some .busy := by
  simp [State.profileGate, h, he]

theorem profileGate_state (h : s.tablesLoaded = true) (he : s.tables.engine ≠ .activating)
    (hs : s.sleep.power ≠ .active) : s.profileGate = some (.refused .state) := by
  simp [State.profileGate, h, he, hs]

theorem profileGate_eq_none_iff :
    s.profileGate = none ↔ s.tablesLoaded = true ∧ s.tables.engine ≠ .activating ∧ s.sleep.power = .active := by
  unfold State.profileGate
  split_ifs with hl he hs
  · simp [(Bool.not_eq_true' _).mp hl]
  · simp [he]
  · simp [hs]
  · simpa using And.intro hl (And.intro he hs)

end Gate

/-! #### The checks on the target (R139) -/

section Check
variable {s : State} {p : Nat} {classCheck depthCheck : Bool}

theorem profileCheck_gated {st : ReplyStatus} (h : s.profileGate = some st) :
    s.profileCheck p classCheck depthCheck = some st := by
  simp only [State.profileCheck, h]

theorem profileCheck_range (hgate : s.profileGate = none) (hr : s.profileRecord p = none) :
    s.profileCheck p classCheck depthCheck = some (.refused .range) := by
  simp only [State.profileCheck, hgate, hr]

section Defined
variable {r : ProfileRecord}

theorem profileCheck_notAllowed (hgate : s.profileGate = none) (hr : s.profileRecord p = some r)
    (hw : r.watch = true) : s.profileCheck p true depthCheck = some (.refused .notAllowed) := by
  simp [State.profileCheck, hgate, hr, hw]

theorem profileCheck_busy (hgate : s.profileGate = none) (hr : s.profileRecord p = some r) (hw : r.watch = false)
    (hb : s.busy p = true) : s.profileCheck p classCheck depthCheck = some (.refused .profileBusy) := by
  simp [State.profileCheck, hgate, hr, hw, hb]

theorem profileCheck_depth (hgate : s.profileGate = none) (hr : s.profileRecord p = some r) (hw : r.watch = false)
    (hb : s.busy p = false) (hd : 4 ≤ s.depth) : s.profileCheck p classCheck true = some (.refused .depth) := by
  simp [State.profileCheck, hgate, hr, hw, hb, hd]

end Defined

/-- R144: a limit entry passes under every check but that of the class. -/
theorem profileCheck_limit_eq_none_iff :
    s.profileCheck p false true = none ↔
      s.tablesLoaded = true ∧ s.tables.engine ≠ .activating ∧ s.sleep.power = .active ∧
        (s.profileRecord p).isSome = true ∧ s.busy p = false ∧ s.depth < 4 := by
  have hgate := profileGate_eq_none_iff (s := s)
  unfold State.profileCheck
  cases hg : s.profileGate with
  | some st =>
    rw [hg] at hgate
    refine iff_of_false nofun ?_
    rintro ⟨hl, he, hs, -⟩
    exact absurd (hgate.mpr ⟨hl, he, hs⟩) nofun
  | none =>
    obtain ⟨hl, he, hs⟩ := hgate.mp hg
    cases s.profileRecord p with
    | none => simp
    | some r =>
      by_cases hb : s.busy p = true
      · simp [hb]
      · simp [hl, he, hs, hb]

end Check

/-! #### The three commands when a check fails -/

/-- R139: a check that is not passed is the command's whole answer. -/
theorem exec_profileCommand_gated {row : Instr} {s : State} {c : Command} {st : ReplyStatus}
    (hrow : row = .switchProfile ∨ row = .enterProfile ∨ row = .returnProfile) (h : s.takeable row = some c)
    (hform : formRight row c.payload.tail = true) (hgate : s.profileGate = some st) :
    exec row s = s.answered c st := by
  have hgate' : s.popCommand.profileGate = some st := hgate
  rcases hrow with rfl | rfl | rfl
  all_goals obtain ⟨a, ha⟩ := Option.isSome_iff_exists.mp hform
  · rw [exec_body h ha rfl, State.doSwitch, profileCheck_gated hgate']
    rfl
  · rw [exec_body h ha rfl, State.doEnter, profileCheck_gated hgate']
    rfl
  · rw [exec_body h ha rfl, State.doReturn, hgate']
    rfl

/-- R139: SWITCH and ENTER on a target that does not pass; ENTER alone tests the depth. -/
theorem exec_profileCommand_refused {row : Instr} {s : State} {c : Command} {p : Nat} {st : ReplyStatus}
    (hrow : row = .switchProfile ∨ row = .enterProfile) (h : s.takeable row = some c)
    (ha : argBelow8 c.payload.tail = some p) (hcheck : s.profileCheck p true (row == .enterProfile) = some st) :
    exec row s = s.answered c st := by
  have hcheck' : s.popCommand.profileCheck p true (row == .enterProfile) = some st := hcheck
  rcases hrow with rfl | rfl
  · rw [exec_body h ha rfl, State.doSwitch, show s.popCommand.profileCheck p true false = some st from hcheck']
    rfl
  · rw [exec_body h ha rfl, State.doEnter, show s.popCommand.profileCheck p true true = some st from hcheck']
    rfl

theorem exec_returnProfile_refused {s : State} {c : Command} (h : s.takeable .returnProfile = some c)
    (ha : argNone c.payload.tail = some ()) (hgate : s.profileGate = none) (hd : s.depth ≤ 1) :
    exec .returnProfile s = s.answered c (.refused .state) := by
  have hgate' : s.popCommand.profileGate = none := hgate
  have hd' : s.popCommand.depth ≤ 1 := hd
  simp only [exec_body h ha rfl, State.doReturn, hgate', if_pos hd']
  rfl

/-! #### The ENTER requests of the limit monitor (R90, R144) -/

theorem takeEnterRequest_eq (s : State) (r : EnterRequest) :
    s.takeEnterRequest r =
      if s.tablesLoaded = true ∧ s.tables.engine ≠ .activating ∧ s.sleep.power = .active ∧
          (s.profileRecord r.profile).isSome = true ∧ s.busy r.profile = false ∧ s.depth < 4 then
        s.enterCommit r.profile (.limit r.entry)
      else s.setEntryFailed := by
  simp only [← profileCheck_limit_eq_none_iff, State.takeEnterRequest]
  cases s.profileCheck r.profile false true <;> rfl

theorem exec_limitEnterRequest {s : State} {r : EnterRequest} {rest : List EnterRequest} (hp : s.power = ⟨true, false⟩)
    (hr : s.limits.enterRequests = r :: rest) :
    exec .limitEnterRequest s =
      .next ((s.withLimits { s.limits with enterRequests := rest }).takeEnterRequest r) := by
  simp only [exec, execLimitEnterRequest, operating_of hp, hr]

/-- Settles O45: the checks of the three commands in order, and those of a limit entry. -/
theorem profileChecks : Obligations.ProfileChecks := by
  refine ⟨⟨fun row s c hrow h hform => ⟨fun hl => ?_, fun hl he => ?_, fun hl he hs => ?_⟩,
    fun row s c p hrow h ha hl he hs => ?_, fun s c h ha hl he hs hd => ?_⟩, fun s r rest hp hr => ?_⟩
  · exact exec_profileCommand_gated hrow h hform (profileGate_noTables hl)
  · exact exec_profileCommand_gated hrow h hform (profileGate_busy hl he)
  · exact exec_profileCommand_gated hrow h hform (profileGate_state hl he hs)
  · have hgate := profileGate_eq_none_iff.mpr ⟨hl, he, hs⟩
    have refused {st} := exec_profileCommand_refused (st := st) hrow h ha
    refine ⟨fun hr => refused (profileCheck_range hgate hr), fun r hr => ⟨fun hw => ?_, fun hw hb => ?_,
      fun hw hb henter hd => ?_⟩⟩
    · exact refused (profileCheck_notAllowed hgate hr hw)
    · exact refused (profileCheck_busy hgate hr hw hb)
    · subst henter
      exact refused (profileCheck_depth hgate hr hw hb hd)
  · exact exec_returnProfile_refused h ha (profileGate_eq_none_iff.mpr ⟨hl, he, hs⟩) hd
  · rw [exec_limitEnterRequest hp hr, takeEnterRequest_eq]
    rfl

end Sys2Proof.Machine
end

section
/-! ### Wake causes, the WAKE_IN detector and the end of WAKING (R90, R159, R161 to R165) -/

namespace Sys2Proof.Machine

/-! #### Entering WAKING (R164) -/

section Waking
variable {s : State}

theorem claimLink_wake (h : s.linkFree = true) :
    s.claimLink .wake =
      s.withChain { s.chain with sleepClaim := none, transaction := some ⟨.chainWake false, .sending⟩ } :=
  arbitrate_wake (s := s.withChain { s.chain with sleepClaim := some .wake }) h rfl

/-- R68, R164: WAKING is entered, the current port is powered and the watch timer stops. -/
def State.wakingBegun (s : State) : State :=
  (s.withSleep { s.sleep with power := .waking, watchTimer := none }).powerPort

theorem enterWaking_chainAwake (h : s.sleep.chainSleep = .awake) : s.enterWaking = s.wakingBegun := by
  unfold State.enterWaking
  dsimp only
  split
  · next ha => cases h.symm.trans ha
  · rfl

theorem enterWaking_chainAsleep (h : s.sleep.chainSleep = .asleep) :
    s.enterWaking = s.wakingBegun.claimLink .wake := by
  unfold State.enterWaking
  dsimp only
  split
  · rfl
  · next ha => cases h.symm.trans ha

end Waking

/-! #### What a cause does in each power state (R161, R163) -/

section Causes
variable {s : State} (c : WakeCause)

theorem wakeCause_awake (h : s.sleep.power = .active ∨ s.sleep.power = .sleepPending) : s.wakeCause c = s := by
  rcases h with h | h <;> simp only [State.wakeCause, h]

theorem wakeCause_asleep (h : s.sleep.power = .asleep) : s.wakeCause c = (s.noteCause c true).enterWaking := by
  simp only [State.wakeCause, h]

theorem wakeCause_waking (h : s.sleep.power = .waking) : s.wakeCause c = s.noteCause c false := by
  simp only [State.wakeCause, h]

/-- R163: after the pass, and before it while CHAIN_WAKE is being sent (log 28), the wake waits. -/
theorem wakeCause_waits (h : s.sleep.power = .watchRound)
    (hw : s.sleep.passMade = true ∨ s.sleep.chainSleep = .asleep) :
    s.wakeCause c = (s.noteCause c (!s.sleep.wakePending)).setWakePending := by
  simp only [State.wakeCause, h]
  by_cases hpass : s.sleep.passMade = true
  · rw [if_pos hpass]
  · simp only [if_neg hpass, hw.resolve_left hpass]

theorem wakeCause_beforePass (h : s.sleep.power = .watchRound) (hpass : s.sleep.passMade = false)
    (hc : s.sleep.chainSleep = .awake) : s.wakeCause c = (s.noteCause c (!s.sleep.wakePending)).enterWaking := by
  simp only [State.wakeCause, h, hpass, hc, Bool.false_eq_true, if_false]

/-- R161: the first cause is kept while a wake is pending. -/
theorem noteCause_unlessPending :
    s.noteCause c (!s.sleep.wakePending) =
      s.withSleep
        { s.sleep with
          wakeCauses := s.sleep.wakeCauses.add c
          firstCause := if s.sleep.wakePending = true then s.sleep.firstCause else some c } := by
  rw [State.noteCause]
  cases s.sleep.wakePending <;> rfl

/-- R164: a cause in ASLEEP, with the chain asleep and its link free, wakes the part and sends CHAIN_WAKE. -/
theorem wakeCause_woken (h : s.sleep.power = .asleep) (hc : s.sleep.chainSleep = .asleep) (hf : s.linkFree = true) :
    s.wakeCause c = s.woken c := by
  rw [wakeCause_asleep c h, enterWaking_chainAsleep (by exact hc), claimLink_wake (by exact hf)]
  rfl

end Causes

/-! #### The start delimiter and the WAKE_IN detector (R161, R162) -/

section Detector
variable {s : State} {high : Bool} {m : ModuleTable}

theorem exec_startDelimiter_asleep (hp : s.power = ⟨true, false⟩) (hd : s.deepSleep = true) :
    exec .startDelimiter s =
      .next ((s.withNorth
        { s.north with
          receiver := .assembling s.now true
          sticky := { s.north.sticky with
            linkError := s.north.sticky.linkError || s.north.receiver.assemblingAwake } }).wakeCause .link) := by
  simp [exec, execStartDelimiter, operating_of hp, hd, truncateFrame_eq]

theorem exec_wakeInHoldExpiry (hp : s.power = ⟨true, false⟩) (ha : s.sleep.detectorArmed = true)
    (hh : s.sleep.holdInterval = some 0) :
    exec .wakeInHoldExpiry s = .next ((s.withSleep { s.sleep with holdInterval := none }).wakeCause .wakeIn) := by
  simp [exec, execWakeInHoldExpiry, operating_of hp, ha, hh, expired]

theorem exec_wakeInChange_disarmed (ha : s.sleep.detectorArmed = false) :
    exec (.wakeInChange high) s = .next (s.withSleep { s.sleep with wakeInHigh := high }) := by
  by_cases h : s.sleep.wakeInHigh = high
  · subst h
    exact congrArg Host.Outcome.next (if_pos rfl)
  · simp [exec, execWakeInChange, h, ha]

theorem exec_wakeInChange_armed (hp : s.power = ⟨true, false⟩) (ha : s.sleep.detectorArmed = true)
    (hm : s.moduleTable = some m) (hh : s.sleep.wakeInHigh = !high) :
    exec (.wakeInChange high) s = .next ((s.withSleep { s.sleep with wakeInHigh := high }).detectChange m high) := by
  simp [exec, execWakeInChange, operating_of hp, ha, hm, hh]

theorem detectChange_level (h : m.wakeInMode = .high ∨ m.wakeInMode = .low) :
    s.detectChange m high =
      s.withSleep
        { s.sleep with
          holdInterval := if (m.wakeInMode = .high ↔ high = true) then some (1000 * m.holdTime) else none } := by
  rcases h with h | h <;> cases high <;> simp [State.detectChange, WakeInMode.level, ms, h]

theorem detectChange_edge (h : m.wakeInMode = .rising ∧ high = true ∨ m.wakeInMode = .falling ∧ high = false) :
    s.detectChange m high = s.wakeCause .wakeIn := by
  rcases h with ⟨h, rfl⟩ | ⟨h, rfl⟩ <;> simp [State.detectChange, WakeInMode.level, WakeInMode.detects, h]

theorem detectChange_otherEdge (h : m.wakeInMode = .rising ∧ high = false ∨ m.wakeInMode = .falling ∧ high = true) :
    s.detectChange m high = s := by
  rcases h with ⟨h, rfl⟩ | ⟨h, rfl⟩ <;> simp [State.detectChange, WakeInMode.level, WakeInMode.detects, h]

end Detector

/-! #### The end of WAKING (R164, R165) -/

section WakingEnd
variable {s : State}

theorem wakingEndDue_iff :
    s.wakingEndDue = true ↔ s.power = ⟨true, false⟩ ∧ s.sleep.power = .waking ∧ s.chain.transaction = none ∧
      s.chain.sleepClaim = none ∧ s.sleep.chainWakeTimer = none := by
  simp [State.wakingEndDue, operating_iff, and_assoc]

/-- R90, R159: what the refusal of the ENTER requests leaves of the limit monitor. -/
theorem refuseEnters_limits (s : State) : s.refuseEnters.limits = { s.limits with enterRequests := [] } := by
  unfold State.refuseEnters
  split
  · next h => rw [← List.isEmpty_iff.mp h]
  · rfl

/-- R90: ENTRY_FAILED is set exactly when there is a request to refuse. -/
theorem refuseEnters_north (s : State) :
    s.refuseEnters.north =
      if s.limits.enterRequests = [] then s.north
      else { s.north with sticky := { s.north.sticky with entryFailed := true } } := by
  simp only [State.refuseEnters, List.isEmpty_iff]
  split <;> rfl

section Return
variable {a b : ChainElement} {below : List ChainElement} {context : SavedContext}

/-- R164: the end of WAKING is the refusal of the ENTER requests and the RETURN to the profile that slept, with the
clock and the sleep controller set behind it. -/
theorem endWaking_eq (hchain : s.profiles.chain = a :: b :: below) (hb : b.saved = some context) :
    s.endWaking =
      ((s.refuseEnters.commitTo ({ b with saved := none } :: below) context).withTimebase ⟨s.now, .main⟩).withSleep
        { s.sleep with
          detectorArmed := false, holdInterval := none, wakePending := false, wakeOut := true, power := .active } := by
  have hrefuse : Touches [.limits, .north] s s.refuseEnters := by simp
  have hprofiles : s.refuseEnters.profiles = s.profiles := hrefuse .profiles (by decide)
  have hcommit := touches_commitTo s.refuseEnters ({ b with saved := none } :: below) context
  have hsleep := (hcommit .sleep (by decide)).trans (hrefuse .sleep (by decide))
  have htimebase := (hcommit .timebase (by decide)).trans (hrefuse .timebase (by decide))
  rw [State.endWaking, returnCommit_eq (by rw [hprofiles, hchain]) hb]
  dsimp only
  rw [State.withTimebase_sleep, hsleep, htimebase]
  rfl

end Return
end WakingEnd

/-- Settles O50: what wakes the part, what a cause does in each power state, and the end of WAKING. -/
theorem wakeCausesAndWaking : Obligations.WakeCausesAndWaking := by
  refine ⟨⟨fun s hp hd => ?_, fun s hp ha hh => ?_, fun s high => exec_wakeInChange_disarmed,
    fun s high m hp ha hm hh => ?_⟩, ⟨fun s c => ?_, fun w => ⟨rfl, rfl, rfl, rfl, rfl⟩⟩,
    fun s a b below context hp hs ht hclaim htimer hchain hb => ?_⟩
  · rw [exec_startDelimiter_asleep hp hd]
    exact ⟨rfl, fun h hc hf => congrArg Host.Outcome.next (wakeCause_woken _ h hc hf)⟩
  · rw [exec_wakeInHoldExpiry hp ha hh]
    exact ⟨rfl, fun h hc hf => congrArg Host.Outcome.next (wakeCause_woken _ h hc hf)⟩
  · rw [exec_wakeInChange_armed hp ha hm hh]
    refine ⟨fun h => ?_, fun h => ?_, fun h => ?_⟩
    · rw [detectChange_level h]
      rfl
    · rw [detectChange_edge h]
      exact ⟨rfl, fun h hc hf => congrArg Host.Outcome.next (wakeCause_woken _ h hc hf)⟩
    · rw [detectChange_otherEdge h]
  · refine ⟨wakeCause_awake c, wakeCause_asleep c, wakeCause_waking c, fun h => ⟨fun hw => ?_, fun hpass hc => ?_⟩,
      enterWaking_chainAwake, enterWaking_chainAsleep⟩
    · rw [wakeCause_waits c h hw, noteCause_unlessPending]
      rfl
    · rw [wakeCause_beforePass c h hpass hc, noteCause_unlessPending]
  · have hdue := wakingEndDue_iff.mpr ⟨hp, hs, ht, hclaim, htimer⟩
    have htouches : Touches ([.north, .timebase, .sleep] ++ Block.commit) s s.endWaking :=
      (touches_endWaking (by decide)).mpr (touches_refl _ s)
    refine ⟨s.endWaking, congrArg Host.Outcome.next (if_pos hdue), ?_⟩
    rw [endWaking_eq hchain hb] at htouches ⊢
    refine ⟨congrArg ProfileController.chain (commitTo_profiles _ _ _), ?_,
      congrArg ScheduleEngine.counters (commitTo_sched _ _ _), ?_, rfl, rfl, htouches⟩
    · refine (commitTo_limits _ _ context).trans ?_
      rw [refuseEnters_limits]
    · exact (touches_commitTo s.refuseEnters _ context .north (by decide)).trans (refuseEnters_north s)

end Sys2Proof.Machine
end

section
/-! ### The evaluation of a round by the limit monitor (R81 to R91) -/

namespace Sys2Proof.Machine

/-! #### The most offending channel (R83) -/

/-- What the threshold classes compare: the greater it is, the more a channel offends. -/
def LimitEntry.rank (e : LimitEntry) (c : Offence) : Int := if e.below then -c.value else c.value

/-- One channel offends more than another. -/
def LimitEntry.offendsMore (e : LimitEntry) (a b : Offence) : Bool :=
  if e.below then decide (a.value < b.value) else decide (b.value < a.value)

theorem offendsMore_iff {e : LimitEntry} {a b : Offence} : e.offendsMore a b = true ↔ e.rank b < e.rank a := by
  cases h : e.below <;> simp [LimitEntry.offendsMore, LimitEntry.rank, h]

/-- The first of the best stands behind worse ones, and before none that is better. -/
theorem firstBest_splits {e : LimitEntry} {rest : List Offence} : ∀ best : Offence,
    ∃ before after, best :: rest = before ++ firstBest e.offendsMore best rest :: after ∧
      (∀ c ∈ before, e.rank c < e.rank (firstBest e.offendsMore best rest)) ∧
      ∀ c ∈ after, e.rank c ≤ e.rank (firstBest e.offendsMore best rest) := by
  induction rest with
  | nil => exact fun best => ⟨[], [], rfl, nofun, nofun⟩
  | cons c rest ih =>
    intro best
    rw [firstBest]
    by_cases hmore : e.offendsMore c best = true
    · rw [if_pos hmore]
      have hlt := offendsMore_iff.mp hmore
      obtain ⟨before, after, hsplit, hbefore, hafter⟩ := ih c
      refine ⟨best :: before, after, congrArg (best :: ·) hsplit, List.forall_mem_cons.mpr ⟨?_, hbefore⟩, hafter⟩
      cases before with
      | nil =>
        obtain ⟨hc, -⟩ := List.cons.inj hsplit
        rwa [← hc]
      | cons d before =>
        obtain ⟨rfl, -⟩ := List.cons.inj hsplit
        exact hlt.trans (hbefore c List.mem_cons_self)
    · rw [if_neg hmore]
      have hle := Int.not_lt.mp (mt offendsMore_iff.mpr hmore)
      obtain ⟨before, after, hsplit, hbefore, hafter⟩ := ih best
      cases before with
      | nil =>
        obtain ⟨hbest, hrest⟩ := List.cons.inj hsplit
        rw [← hbest] at hafter ⊢
        exact ⟨[], c :: after, congrArg (fun l => best :: c :: l) hrest, nofun, List.forall_mem_cons.mpr ⟨hle, hafter⟩⟩
      | cons d before =>
        obtain ⟨rfl, hrest⟩ := List.cons.inj hsplit
        obtain ⟨hlt, hbefore'⟩ := List.forall_mem_cons.mp hbefore
        refine ⟨best :: c :: before, after, congrArg (fun l => best :: c :: l) hrest, ?_, hafter⟩
        exact List.forall_mem_cons.mpr ⟨hlt, List.forall_mem_cons.mpr ⟨hle.trans_lt hlt, hbefore'⟩⟩

section Threshold
variable {e : LimitEntry}

theorem mostOffending_nil (hflag : e.cls ≠ .moduleFlag) (hmissing : e.cls ≠ .moduleMissing) :
    e.mostOffending [] = none := by
  cases h : e.cls with
  | moduleFlag => exact absurd h hflag
  | moduleMissing => exact absurd h hmissing
  | _ => simp only [LimitEntry.mostOffending, h]

theorem mostOffending_cons (hflag : e.cls ≠ .moduleFlag) (hmissing : e.cls ≠ .moduleMissing) (c : Offence)
    (rest : List Offence) : e.mostOffending (c :: rest) = some (firstBest e.offendsMore c rest) := by
  cases h : e.cls with
  | moduleFlag => exact absurd h hflag
  | moduleMissing => exact absurd h hmissing
  | _ =>
    simp only [LimitEntry.mostOffending, h]
    rfl

/-- R83: the most offending channel of a class with a threshold. -/
theorem mostOffending_splits {channels : List Offence} {o : Offence} (hflag : e.cls ≠ .moduleFlag)
    (hmissing : e.cls ≠ .moduleMissing) (h : e.mostOffending channels = some o) :
    ∃ before after, channels = before ++ o :: after ∧ (∀ c ∈ before, e.rank c < e.rank o) ∧
      ∀ c ∈ after, e.rank c ≤ e.rank o := by
  cases channels with
  | nil => cases (mostOffending_nil hflag hmissing).symm.trans h
  | cons c rest =>
    obtain rfl := Option.some.inj ((mostOffending_cons hflag hmissing c rest).symm.trans h)
    exact firstBest_splits c

end Threshold

/-- R83: the flags of the mask, read from a channel that holds a module's flags. -/
theorem maskedFlags_natCast (mask flags : Byte) : maskedFlags mask flags.toNat = flags &&& mask := by
  rw [maskedFlags, BitVec.ofInt_natCast, BitVec.ofNat_toNat, BitVec.setWidth_eq]

section FirstOffending
variable {e : LimitEntry} {before after : List Offence} {o : Offence}

theorem find_offends (hbefore : ∀ c ∈ before, e.offends c = false) (ho : e.offends o = true) :
    (before ++ o :: after).find? e.offends = some o :=
  List.find?_eq_some_iff_append.mpr ⟨ho, before, after, rfl, by simpa using hbefore⟩

theorem mostOffending_missing (h : e.cls = .moduleMissing) (hbefore : ∀ c ∈ before, e.offends c = false)
    (ho : e.offends o = true) : e.mostOffending (before ++ o :: after) = some o := by
  simp only [LimitEntry.mostOffending, h, find_offends hbefore ho]

theorem mostOffending_flags {flags : Byte} (h : e.cls = .moduleFlag) (hv : o.value = flags.toNat)
    (hbefore : ∀ c ∈ before, e.offends c = false) (ho : e.offends o = true) :
    e.mostOffending (before ++ o :: after) = some { o with value := (flags &&& e.flagMask).toNat } := by
  simp only [LimitEntry.mostOffending, h, find_offends hbefore ho, Option.map_some, hv, maskedFlags_natCast]

end FirstOffending

/-! #### Which channels offend, and which lie on the safe side (R83, R86) -/

section Conditions
variable {e : LimitEntry} {c : Offence}

theorem offends_threshold (hflag : e.cls ≠ .moduleFlag) (hmissing : e.cls ≠ .moduleMissing) :
    e.offends c = if e.below then decide (c.value < e.threshold) else decide (e.threshold < c.value) := by
  cases h : e.cls with
  | moduleFlag => exact absurd h hflag
  | moduleMissing => exact absurd h hmissing
  | _ => simp only [LimitEntry.offends, h]

theorem safe_threshold (hflag : e.cls ≠ .moduleFlag) (hmissing : e.cls ≠ .moduleMissing) :
    e.safe c =
      if e.below then decide (e.threshold + e.hysteresis < c.value)
      else decide (c.value < e.threshold - e.hysteresis) := by
  cases h : e.cls with
  | moduleFlag => exact absurd h hflag
  | moduleMissing => exact absurd h hmissing
  | _ => simp only [LimitEntry.safe, h]

theorem conditions_threshold_iff (hflag : e.cls ≠ .moduleFlag) (hmissing : e.cls ≠ .moduleMissing) :
    (e.below = false →
      (e.offends c = true ↔ e.threshold < c.value) ∧ (e.safe c = true ↔ c.value < e.threshold - e.hysteresis)) ∧
    (e.below = true →
      (e.offends c = true ↔ c.value < e.threshold) ∧ (e.safe c = true ↔ e.threshold + e.hysteresis < c.value)) := by
  rw [offends_threshold hflag hmissing, safe_threshold hflag hmissing]
  exact ⟨fun h => by simp [h], fun h => by simp [h]⟩

theorem offends_flags_iff {flags : Byte} (h : e.cls = .moduleFlag) (hv : c.value = flags.toNat) :
    e.offends c = true ↔ flags &&& e.flagMask ≠ 0 := by
  simp [LimitEntry.offends, h, hv, maskedFlags_natCast]

theorem offends_missing_iff (h : e.cls = .moduleMissing) : e.offends c = true ↔ c.value ≠ 0 := by
  simp [LimitEntry.offends, h]

theorem safe_iff_not_offends (h : e.cls = .moduleFlag ∨ e.cls = .moduleMissing) :
    e.safe c = true ↔ ¬ e.offends c = true := by
  rcases h with h | h <;> simp [LimitEntry.safe, h]

end Conditions

/-! #### The channels with data (R81, R82) -/

/-- The values numbered inside an entry's channel range, as channels of a position. -/
def LimitEntry.inRange (e : LimitEntry) (position : Nat) (values : List (Nat × Int)) : List Offence :=
  (values.filter fun x => decide (e.firstChannel ≤ x.1 ∧ x.1 ≤ e.lastChannel)).map fun x => ⟨position, x.1, x.2⟩

theorem channelsIn_eq {e : LimitEntry} {position : Nat} {channels : List Nat} : ∀ {values : List Int},
    channelsIn e position channels values = e.inRange position (channels.zip values) := by
  induction channels with
  | nil => exact rfl
  | cons c cs ih =>
    intro values
    cases values with
    | nil => rfl
    | cons v vs =>
      rw [channelsIn, ih, LimitEntry.inRange, LimitEntry.inRange, List.zip_cons_cons, List.filter_cons]
      by_cases h : e.firstChannel ≤ c ∧ c ≤ e.lastChannel
      · rw [if_pos h, if_pos (decide_eq_true h), List.map_cons]
      · rw [if_neg h, if_neg (by simpa using h)]

theorem channelsWithData_eq (s : State) (e : LimitEntry) (entries : List RoundEntry) :
    s.channelsWithData e entries =
      (entries.filter fun m => decide (e.firstPosition ≤ m.position ∧ m.position ≤ e.lastPosition)).flatMap
        (s.entryChannels e) := by
  simp only [State.channelsWithData, LimitEntry.covers, Bool.decide_and]

section EntryChannels
variable {s : State} {e : LimitEntry} {m : RoundEntry}

theorem entryChannels_missing (h : e.cls = .moduleMissing) :
    s.entryChannels e m = [⟨m.position, 0, m.status.code.toNat⟩] := by
  simp only [State.entryChannels, h]

/-- R81: but for MODULE_MISSING, an entry that is not OK has no channel with data. -/
theorem entryChannels_not_ok (h : e.cls ≠ .moduleMissing) (hm : m.status ≠ .ok) : s.entryChannels e m = [] := by
  cases hc : e.cls with
  | moduleMissing => exact absurd hc h
  | current =>
    simp only [State.entryChannels, hc]
    split
    · next hok _ => exact absurd hok hm
    · rfl
  | _ => simp only [State.entryChannels, hc, if_neg hm]

theorem populationAt_eq {position : Nat} {k : ModuleEntry} (h : s.moduleAt position = some k) :
    s.populationAt position = k.population := by
  simp only [State.populationAt, h]

theorem entryChannels_raw (h : e.cls = .cellRaw) (hm : m.status = .ok) :
    s.entryChannels e m =
      e.inRange m.position ((s.populationAt m.position).zip ((m.raw.getD []).map Int.ofNat)) := by
  simp only [State.entryChannels, h, if_pos hm, channelsIn_eq]

theorem entryChannels_comp (h : e.cls = .cellComp) (hm : m.status = .ok) :
    s.entryChannels e m =
      e.inRange m.position ((s.populationAt m.position).zip (m.compOrRaw.map Int.ofNat)) := by
  simp only [State.entryChannels, h, if_pos hm, channelsIn_eq]

theorem entryChannels_temp (h : e.cls = .temp) (hm : m.status = .ok) :
    s.entryChannels e m =
      e.inRange m.position
        ((List.range' 1 (m.temperatures.getD []).length).zip (m.temperatures.getD [])) := by
  simp only [State.entryChannels, h, if_pos hm, channelsIn_eq]

theorem entryChannels_current (h : e.cls = .current) (hm : m.status = .ok) :
    s.entryChannels e m =
      match m.aligned with
      | none => []
      | some a => if a.flag = .noCurrent then [] else [⟨m.position, 0, a.current⟩] := by
  simp only [State.entryChannels, h, hm]
  cases m.aligned with
  | none => rfl
  | some a => by_cases ha : a.flag = .noCurrent <;> simp [onePosition, ha]

theorem entryChannels_flags (h : e.cls = .moduleFlag) (hm : m.status = .ok) :
    s.entryChannels e m =
      match m.flags with
      | none => []
      | some f => [⟨m.position, 0, f.toNat⟩] := by
  simp only [State.entryChannels, h, if_pos hm]
  cases m.flags <;> rfl

/-- R82: without voltages there is no channel of a cell class. -/
theorem entryChannels_cells_nil (h : e.cls = .cellRaw ∨ e.cls = .cellComp) (hm : m.status = .ok)
    (hraw : m.raw = none) (hcomp : m.compensated = none) : s.entryChannels e m = [] := by
  rcases h with h | h
  · rw [entryChannels_raw h hm, hraw, Option.getD_none, List.map_nil, List.zip_nil_right]
    rfl
  · rw [entryChannels_comp h hm, RoundEntry.compOrRaw, hcomp, hraw]
    simp [LimitEntry.inRange]

end EntryChannels

/-! #### The run state of one entry (R85 to R87) -/

section Evaluate
variable {e : LimitEntry} {channels : List Offence} {r : RunState}

/-- The last offending record after a round. -/
def LimitEntry.lastAfter (e : LimitEntry) (channels : List Offence) (r : RunState) : Option Offence :=
  if channels.any e.offends then e.mostOffending channels else r.last

theorem evaluate_nil : e.evaluate [] r = r := rfl

theorem evaluate_offended (hl : r.level ≠ .tripped) (hc : channels.any e.offends = true) :
    e.evaluate channels r =
      if e.persistence ≤ r.count + 1 then ⟨.tripped, e.persistence, e.lastAfter channels r⟩
      else ⟨.pending, r.count + 1, e.lastAfter channels r⟩ := by
  cases channels with
  | nil => cases hc
  | cons c rest =>
    cases hr : r.level with
    | tripped => exact absurd hr hl
    | clear | pending => simp only [LimitEntry.evaluate, hr, hc, if_true, LimitEntry.lastAfter]

/-- R85: an offending round counts, and the n-th trips. -/
theorem evaluate_counts (hl : r.level ≠ .tripped) (hc : channels.any e.offends = true) :
    (e.evaluate channels r).count = min e.persistence (r.count + 1) ∧
      (e.persistence ≤ r.count + 1 → (e.evaluate channels r).level = .tripped) ∧
      (r.count + 1 < e.persistence → (e.evaluate channels r).level = .pending) := by
  rw [evaluate_offended hl hc]
  by_cases hp : e.persistence ≤ r.count + 1
  · rw [if_pos hp]
    exact ⟨(min_eq_left hp).symm, fun _ => rfl, fun h => absurd hp (Nat.not_le.mpr h)⟩
  · rw [if_neg hp]
    exact ⟨(min_eq_right (Nat.le_of_not_le hp)).symm, fun h => absurd h hp, fun _ => rfl⟩

theorem evaluate_quiet (hne : channels ≠ []) (hl : r.level ≠ .tripped) (hc : channels.any e.offends = false) :
    e.evaluate channels r = ⟨.clear, 0, e.lastAfter channels r⟩ := by
  cases channels with
  | nil => exact absurd rfl hne
  | cons c rest =>
    cases hr : r.level with
    | tripped => exact absurd hr hl
    | clear | pending => simp only [LimitEntry.evaluate, hr, hc, Bool.false_eq_true, if_false, LimitEntry.lastAfter]

theorem evaluate_tripped (hne : channels ≠ []) (hl : r.level = .tripped) :
    e.evaluate channels r =
      if (!e.latch && channels.all e.safe) = true then ⟨.clear, 0, e.lastAfter channels r⟩
      else { r with last := e.lastAfter channels r } := by
  cases channels with
  | nil => exact absurd rfl hne
  | cons c rest => simp only [LimitEntry.evaluate, hl, LimitEntry.lastAfter]

/-- R86: a TRIPPED entry stays while it latches, or while a channel is not on the safe side. -/
theorem evaluate_stays (hl : r.level = .tripped) (h : e.latch = true ∨ ∃ x ∈ channels, e.safe x = false) :
    (e.evaluate channels r).level = .tripped ∧ (e.evaluate channels r).count = r.count := by
  by_cases hne : channels = []
  · subst hne
    exact ⟨hl, rfl⟩
  · have hstays : ¬ (!e.latch && channels.all e.safe) = true := by
      rcases h with h | ⟨x, hx, hunsafe⟩
      · simp [h]
      · simp only [Bool.and_eq_true, List.all_eq_true, not_and, not_forall]
        exact fun _ => ⟨x, hx, by simp [hunsafe]⟩
    rw [evaluate_tripped hne hl, if_neg hstays]
    exact ⟨hl, rfl⟩

/-- R83: the last offending record after a round. -/
theorem evaluate_last : (e.evaluate channels r).last = e.lastAfter channels r := by
  by_cases hne : channels = []
  · subst hne
    rfl
  by_cases hl : r.level = .tripped
  · rw [evaluate_tripped hne hl]
    split <;> rfl
  cases hc : channels.any e.offends with
  | true =>
    rw [evaluate_offended hl hc]
    split <;> rfl
  | false => rw [evaluate_quiet hne hl hc]

/-- R85: no count exceeds the persistence, and TRIPPED goes with the full count. -/
theorem evaluate_bounded (hcount : r.count ≤ e.persistence) (hfull : r.level = .tripped → r.count = e.persistence) :
    (e.evaluate channels r).count ≤ e.persistence ∧
      ((e.evaluate channels r).level = .tripped → (e.evaluate channels r).count = e.persistence) := by
  by_cases hne : channels = []
  · subst hne
    exact ⟨hcount, hfull⟩
  by_cases hl : r.level = .tripped
  · rw [evaluate_tripped hne hl]
    split
    · exact ⟨Nat.zero_le _, nofun⟩
    · exact ⟨hcount, hfull⟩
  cases hc : channels.any e.offends with
  | true =>
    rw [evaluate_offended hl hc]
    split
    · exact ⟨le_rfl, fun _ => rfl⟩
    · next h => exact ⟨by dsimp only; omega, nofun⟩
  | false =>
    rw [evaluate_quiet hne hl hc]
    exact ⟨Nat.zero_le _, nofun⟩

end Evaluate

/-! #### What an evaluation hands out (R84, R88 to R91) -/

/-- The entries that trip, each under its index, in index order. -/
def State.trips (s : State) (entries : List RoundEntry) : List (Nat × LimitEntry) :=
  tripped 0 s.limitSet s.limits.runStates (s.evaluateAll entries s.limitSet s.limits.runStates)

section Trips
variable {s : State} {entries : List RoundEntry}

theorem evaluationActions_eq : s.evaluationActions entries = actionsOf (s.trips entries) := rfl

theorem mem_trips_iff (hlen : s.limits.runStates.length = s.limitSet.length) {i : Nat} {e : LimitEntry} :
    (i, e) ∈ s.trips entries ↔ s.tripsIn entries i e := by
  obtain ⟨hafter, -⟩ := evaluateAll_spec s entries hlen
  rw [State.trips, mem_tripped hlen hafter]
  constructor
  · rintro ⟨j, e', a, b, he, ha, hb, hbefore, htrips, hx⟩
    obtain ⟨hij, rfl⟩ := Prod.mk.inj hx
    obtain rfl : i = j := hij.trans (Nat.zero_add j)
    obtain rfl := Option.some.inj ((evaluateAll_getElem? he ha).symm.trans hb)
    exact ⟨a, he, ha, hbefore, htrips⟩
  · rintro ⟨a, he, ha, hbefore, htrips⟩
    exact ⟨i, e, a, _, he, ha, evaluateAll_getElem? he ha, hbefore, htrips, by rw [Nat.zero_add]⟩

theorem trips_ordered (hlen : s.limits.runStates.length = s.limitSet.length) :
    (s.trips entries).Pairwise fun x y => x.1 < y.1 :=
  tripped_ordered hlen (evaluateAll_spec s entries hlen).1

theorem evaluate_limits :
    (s.evaluate entries).limits =
      ⟨s.evaluateAll entries s.limitSet s.limits.runStates,
        s.limits.fastOpenRequests ++ (s.evaluationActions entries).fastOpens,
        s.limits.enterRequests ++ (s.evaluationActions entries).enters.take 1⟩ := by
  unfold State.evaluate
  dsimp only
  split <;> rfl

/-- R90: ENTRY_FAILED is set exactly when there is a second ENTER candidate. -/
theorem evaluate_north :
    (s.evaluate entries).north =
      if 1 < (s.evaluationActions entries).enters.length then
        { s.north with sticky := { s.north.sticky with entryFailed := true } }
      else s.north := by
  unfold State.evaluate
  dsimp only
  split <;> rfl

theorem mem_fastOpens_iff (hlen : s.limits.runStates.length = s.limitSet.length) {i : Nat} :
    i ∈ (s.evaluationActions entries).fastOpens ↔ ∃ e, s.tripsIn entries i e ∧ e.fastOpen = true := by
  simp [evaluationActions_eq, actionsOf, mem_trips_iff hlen]

theorem fastOpens_ordered (hlen : s.limits.runStates.length = s.limitSet.length) :
    (s.evaluationActions entries).fastOpens.Pairwise (· < ·) :=
  List.pairwise_map.mpr ((trips_ordered hlen).filter _)

theorem evaluationActions_wake_iff (hlen : s.limits.runStates.length = s.limitSet.length) :
    (s.evaluationActions entries).wake = true ↔ ∃ i e, s.tripsIn entries i e ∧ e.wake = true := by
  simp [evaluationActions_eq, actionsOf, mem_trips_iff hlen]

/-- The entries that trip with ENTER, in index order. -/
def State.enterTrips (s : State) (entries : List RoundEntry) : List (Nat × LimitEntry) :=
  (s.trips entries).filter fun t => t.2.enter

theorem evaluationActions_enters :
    (s.evaluationActions entries).enters = (s.enterTrips entries).map fun t => ⟨t.2.enterTarget, t.1⟩ := rfl

theorem mem_enterTrips_iff (hlen : s.limits.runStates.length = s.limitSet.length) {i : Nat} {e : LimitEntry} :
    (i, e) ∈ s.enterTrips entries ↔ s.tripsIn entries i e ∧ e.enter = true := by
  rw [State.enterTrips, List.mem_filter, mem_trips_iff hlen]

theorem enterTrips_eq_nil (hlen : s.limits.runStates.length = s.limitSet.length)
    (h : ∀ i e, s.tripsIn entries i e → e.enter = false) : s.enterTrips entries = [] := by
  refine List.eq_nil_iff_forall_not_mem.mpr fun t ht => ?_
  obtain ⟨htrips, henter⟩ := (mem_enterTrips_iff hlen).mp ht
  exact Bool.false_ne_true ((h _ _ htrips).symm.trans henter)

/-- R90: the entry of the lowest index that trips with ENTER comes first, and the others have higher indexes. -/
theorem enterTrips_eq_cons (hlen : s.limits.runStates.length = s.limitSet.length) {i : Nat} {e : LimitEntry}
    (htrips : s.tripsIn entries i e) (henter : e.enter = true)
    (hleast : ∀ j e', s.tripsIn entries j e' → e'.enter = true → i ≤ j) :
    ∃ rest, s.enterTrips entries = (i, e) :: rest ∧ ∀ t ∈ rest, i < t.1 := by
  have hmem : (i, e) ∈ s.enterTrips entries := (mem_enterTrips_iff hlen).mpr ⟨htrips, henter⟩
  have hordered : (s.enterTrips entries).Pairwise fun x y => x.1 < y.1 := (trips_ordered hlen).filter _
  cases hlist : s.enterTrips entries with
  | nil => rw [hlist] at hmem; cases hmem
  | cons t rest =>
    rw [hlist] at hmem hordered
    obtain ⟨hfirst, -⟩ := List.pairwise_cons.mp hordered
    rcases List.mem_cons.mp hmem with rfl | hin
    · exact ⟨rest, rfl, hfirst⟩
    · have ht : t ∈ s.enterTrips entries := hlist ▸ List.mem_cons_self
      obtain ⟨ht', henter'⟩ := (mem_enterTrips_iff hlen).mp ht
      exact absurd (hfirst _ hin) (Nat.not_lt.mpr (hleast _ _ ht' henter'))

/-- R90: without a trip with ENTER nothing is requested. -/
theorem evaluate_no_enter (hlen : s.limits.runStates.length = s.limitSet.length)
    (h : ∀ i e, s.tripsIn entries i e → e.enter = false) :
    (s.evaluate entries).limits.enterRequests = s.limits.enterRequests ∧ (s.evaluate entries).north = s.north := by
  rw [evaluate_limits, evaluate_north, evaluationActions_enters, enterTrips_eq_nil hlen h]
  exact ⟨List.append_nil _, rfl⟩

section Enter
variable {i : Nat} {e : LimitEntry}

theorem evaluate_enter (hlen : s.limits.runStates.length = s.limitSet.length) (htrips : s.tripsIn entries i e)
    (henter : e.enter = true) (hleast : ∀ j e', s.tripsIn entries j e' → e'.enter = true → i ≤ j) :
    (s.evaluate entries).limits.enterRequests = s.limits.enterRequests ++ [⟨e.enterTarget, i⟩] := by
  obtain ⟨rest, hlist, -⟩ := enterTrips_eq_cons hlen htrips henter hleast
  rw [evaluate_limits, evaluationActions_enters, hlist]
  rfl

theorem evaluate_only_enter (hlen : s.limits.runStates.length = s.limitSet.length) (htrips : s.tripsIn entries i e)
    (henter : e.enter = true) (honly : ∀ j e', s.tripsIn entries j e' → e'.enter = true → j = i) :
    (s.evaluate entries).north = s.north := by
  obtain ⟨rest, hlist, habove⟩ :=
    enterTrips_eq_cons hlen htrips henter fun j e' hj he' => (honly j e' hj he').ge
  have hrest : rest = [] := by
    refine List.eq_nil_iff_forall_not_mem.mpr fun t ht => ?_
    have htin : t ∈ s.enterTrips entries := hlist ▸ List.mem_cons_of_mem _ ht
    obtain ⟨ht', henter'⟩ := (mem_enterTrips_iff hlen).mp htin
    exact absurd (honly _ _ ht' henter') (habove t ht).ne'
  rw [evaluate_north, evaluationActions_enters, hlist, hrest]
  rfl

theorem evaluate_second_enter (hlen : s.limits.runStates.length = s.limitSet.length)
    (htrips : s.tripsIn entries i e) (henter : e.enter = true)
    (hleast : ∀ j e', s.tripsIn entries j e' → e'.enter = true → i ≤ j)
    (hsecond : ∃ j e', s.tripsIn entries j e' ∧ e'.enter = true ∧ j ≠ i) :
    (s.evaluate entries).north = { s.north with sticky := { s.north.sticky with entryFailed := true } } := by
  obtain ⟨rest, hlist, -⟩ := enterTrips_eq_cons hlen htrips henter hleast
  obtain ⟨j, e', hj, he', hne⟩ := hsecond
  have hmem : (j, e') ∈ s.enterTrips entries := (mem_enterTrips_iff hlen).mpr ⟨hj, he'⟩
  rw [hlist] at hmem
  have hrest : (j, e') ∈ rest :=
    (List.mem_cons.mp hmem).resolve_left fun h => hne (congrArg Prod.fst h)
  rw [evaluate_north, evaluationActions_enters, hlist, List.map_cons, List.length_cons, List.length_map]
  exact if_pos (Nat.succ_lt_succ (List.length_pos_of_mem hrest))

end Enter
end Trips

/-- Settles O35: the most offending channel and the two conditions, the channels with data, the run state of one entry,
and what an evaluation hands out. -/
theorem evaluationCountsAndReleases : Obligations.EvaluationCountsAndReleases := by
  refine ⟨⟨fun e channels o hflag hmissing h => ?_, fun e before after o hbefore ho => ?_, fun e c => ?_⟩,
    ⟨channelsWithData_eq, fun s e m => ?_⟩, fun e channels r _ => ?_, fun s entries hlen => ?_⟩
  · obtain ⟨before, after, hsplit, hless, hnotmore⟩ := mostOffending_splits hflag hmissing h
    refine ⟨before, after, hsplit, fun hb => ?_, fun hb => ?_⟩
    all_goals simp only [LimitEntry.rank, hb, Bool.false_eq_true, if_false, if_true, neg_lt_neg_iff, neg_le_neg_iff]
      at hless hnotmore
    · exact ⟨hless, hnotmore⟩
    · exact ⟨hless, hnotmore⟩
  · exact ⟨fun h => mostOffending_missing h hbefore ho, fun flags h hv => mostOffending_flags h hv hbefore ho⟩
  · refine ⟨conditions_threshold_iff, fun flags h hv => ⟨offends_flags_iff h hv, ?_⟩,
      fun h => ⟨offends_missing_iff h, ?_⟩⟩
    · rw [safe_iff_not_offends (.inl h), offends_flags_iff h hv, not_not]
    · rw [safe_iff_not_offends (.inr h), offends_missing_iff h, not_not]
  · refine ⟨fun h => ?_, entryChannels_not_ok, fun hok => ⟨fun k raw hk hraw => ?_, fun hraw hcomp h =>
      entryChannels_cells_nil h hok hraw hcomp, fun h => entryChannels_temp h hok,
      fun h => entryChannels_current h hok, fun h => entryChannels_flags h hok⟩⟩
    · rw [entryChannels_missing h]
      cases m.status <;> rfl
    · have hpop := populationAt_eq hk
      refine ⟨fun h => ?_, fun h => ⟨fun hcomp => ?_, fun comp hcomp => ?_⟩⟩
      · rw [entryChannels_raw h hok, hpop, hraw]
        rfl
      · rw [entryChannels_comp h hok, hpop, RoundEntry.compOrRaw, hcomp, hraw]
        rfl
      · rw [entryChannels_comp h hok, hpop, RoundEntry.compOrRaw, hcomp]
        rfl
  · have hany : channels.any e.offends = true ↔ ∃ x ∈ channels, e.offends x = true := List.any_eq_true
    have hnone (h : ¬ ∃ x ∈ channels, e.offends x = true) : channels.any e.offends = false :=
      Bool.eq_false_iff.mpr (mt hany.mp h)
    refine ⟨fun h => by rw [h, evaluate_nil], fun hne hl => ⟨fun hc => ?_, fun hc => ?_⟩,
      fun hne hl hlatch hsafe => ?_, evaluate_stays, fun hc => ?_, fun hc => ?_, evaluate_bounded⟩
    · exact evaluate_counts hl (hany.mpr hc)
    · rw [evaluate_quiet hne hl (hnone hc)]
      exact ⟨rfl, rfl⟩
    · have hreleases : (!e.latch && channels.all e.safe) = true := by simpa [hlatch] using hsafe
      rw [evaluate_tripped hne hl, if_pos hreleases]
      exact ⟨rfl, rfl⟩
    · exact evaluate_last.trans (if_pos (hany.mpr hc))
    · exact evaluate_last.trans (if_neg (mt hany.mp hc))
  · obtain ⟨hlength, hstates⟩ := evaluateAll_spec s entries hlen
    rw [← evaluate_runStates] at hlength hstates
    exact ⟨hlength, hstates,
      ⟨_, congrArg LimitMonitor.fastOpenRequests evaluate_limits, fastOpens_ordered hlen,
        fun i => mem_fastOpens_iff hlen⟩,
      evaluate_no_enter hlen,
      fun i e htrips henter hleast => ⟨evaluate_enter hlen htrips henter hleast,
        evaluate_only_enter hlen htrips henter, evaluate_second_enter hlen htrips henter hleast⟩,
      evaluationActions_wake_iff hlen, (touches_evaluated s entries).mono (by decide)⟩

end Sys2Proof.Machine
end

section
/-! ### Coils, interlocks and rest (R100, R105, R106) -/

namespace Sys2Proof.Machine

/-! #### The four drivers -/

theorem PerContactor.get_set {α : Type} (p : PerContactor α) (c d : Contactor) (x : α) :
    (p.set c x).get d = if d = c then x else p.get d := by
  cases c <;> cases d <;> rfl

theorem PerContactor.set_get {α : Type} (p : PerContactor α) (c : Contactor) : p.set c (p.get c) = p := by
  cases c <;> rfl

theorem expired_iff {t : Option Nat} : expired t = true ↔ t = some 0 := by simp [expired]

theorem forall_contactor_iff {f : Contactor → Prop} : (∀ c, f c) ↔ f .mneg ∧ f .mpos ∧ f .pre ∧ f .chg :=
  ⟨fun h => ⟨h .mneg, h .mpos, h .pre, h .chg⟩, fun ⟨hm, hp, hpre, hchg⟩ c => by cases c <;> assumption⟩

theorem CoilDriver.driven_iff {d : CoilDriver} : d.driven = true ↔ d.state ≠ .off := by
  simp [CoilDriver.driven]

theorem CoilDriver.not_driven_iff {d : CoilDriver} : d.driven = false ↔ d.state = .off := by
  simp [CoilDriver.driven]

theorem CoilDriver.drive_driven (d : CoilDriver) (time : Nat) : (d.drive time).driven = true := by
  unfold CoilDriver.drive
  split
  · assumption
  · rfl

theorem CoilDriver.release_pullInTimer {d : CoilDriver} (h : d.driven = false → d.pullInTimer = none) :
    d.release.pullInTimer = none := by
  unfold CoilDriver.release
  split
  · rfl
  · next hd => exact h (Bool.eq_false_iff.mpr hd)

theorem CoilDriver.senseChange_driven (d : CoilDriver) (current : Bool) :
    (d.senseChange current).driven = d.driven ∧ (d.senseChange current).pullInTimer = d.pullInTimer := by
  unfold CoilDriver.senseChange
  split_ifs <;> exact ⟨rfl, rfl⟩

theorem noCoilDriven_iff {s : State} : s.noCoilDriven = true ↔ ∀ c, (s.seq.coils.get c).driven = false := by
  simp [forall_contactor_iff, PerContactor.get, State.noCoilDriven, and_assoc]

/-- The drivers obey the interlock of MNEG (R105), and the pull-in timer of a driver that is OFF is stopped (R100). -/
structure PerContactor.Interlocked (p : PerContactor CoilDriver) : Prop where
  behindMneg : (p.get .mneg).driven = false → ∀ c, (p.get c).driven = false
  quiet : ∀ c, (p.get c).driven = false → (p.get c).pullInTimer = none

namespace PerContactor.Interlocked
variable {p : PerContactor CoilDriver}

/-- One driver may change if it is driven behind a driven MNEG only, and MNEG goes off with nothing behind it. -/
theorem set (h : p.Interlocked) {c : Contactor} {d : CoilDriver} (hq : d.driven = false → d.pullInTimer = none)
    (hon : d.driven = true → c = .mneg ∨ (p.get .mneg).driven = true)
    (hoff : c = .mneg → d.driven = false → (p.get .mneg).driven = false) : (p.set c d).Interlocked where
  behindMneg hm x := by
    rw [PerContactor.get_set] at hm ⊢
    have hmneg : (p.get .mneg).driven = false := by
      split at hm
      · next hc => exact hoff hc.symm hm
      · exact hm
    split
    · refine Bool.eq_false_iff.mpr fun hd => ?_
      rcases hon hd with rfl | hon
      · simp [hd] at hm
      · simp [hon] at hmneg
    · exact h.behindMneg hmneg x
  quiet x := by
    rw [PerContactor.get_set]
    split
    · exact hq
    · exact h.quiet x

/-- A driver that stays driven, or stays OFF, keeps the interlock. -/
theorem set_same (h : p.Interlocked) {c : Contactor} {d : CoilDriver} (hd : d.driven = (p.get c).driven)
    (hq : d.driven = false → d.pullInTimer = none) : (p.set c d).Interlocked := by
  refine h.set hq (fun hon => ?_) (fun hc hoff => by rwa [hd, hc] at hoff)
  refine .inr (Bool.not_eq_false _ ▸ fun hm => ?_)
  rw [hd, h.behindMneg hm c] at hon
  cases hon

theorem map_same (h : p.Interlocked) {f : CoilDriver → CoilDriver} (hd : ∀ d, (f d).driven = d.driven)
    (hq : ∀ d, d.pullInTimer = none → (f d).pullInTimer = none) : (p.map f).Interlocked := by
  constructor
  · intro hm c
    rw [PerContactor.get_map, hd] at hm ⊢
    exact h.behindMneg hm c
  · intro c hc
    rw [PerContactor.get_map, hd] at hc
    rw [PerContactor.get_map]
    exact hq _ (h.quiet c hc)

/-- R105: MNEG releases all four. -/
theorem releaseAll (h : p.Interlocked) : (p.map CoilDriver.release).Interlocked where
  behindMneg _ c := by rw [PerContactor.get_map, CoilDriver.release_not_driven]
  quiet c _ := by
    rw [PerContactor.get_map]
    exact CoilDriver.release_pullInTimer (h.quiet c)

theorem of_released (hoff : ∀ c, (p.get c).driven = false) (hq : ∀ c, (p.get c).pullInTimer = none) :
    p.Interlocked := ⟨fun _ => hoff, fun c _ => hq c⟩

end PerContactor.Interlocked

/-! #### The sequencer at rest, and what makes it rest -/

/-- No coil is driven, no sequence runs and no timer of the sequencer runs (R106). -/
structure Sequencer.AtRest (q : Sequencer) : Prop where
  undriven : ∀ c, (q.coils.get c).driven = false
  running : q.running = none
  stepTimer : q.stepTimer = none
  deferTimer : q.deferTimer = none

theorem coilsSafe_iff {s : State} : CoilsSafe s ↔
    s.seq.coils.Interlocked ∧ (s.seq.state.resting = true → s.seq.AtRest) ∧
      (s.mustRest = true → s.seq.state.resting = true) := by
  have hquiet : s.seq.coils.allCoils CoilDriver.quiet = true ↔
      ∀ c, (s.seq.coils.get c).driven = false → (s.seq.coils.get c).pullInTimer = none := by
    simp [forall_contactor_iff, PerContactor.get, PerContactor.allCoils, CoilDriver.quiet, and_assoc, imp_iff_not_or]
  have hrest : (s.noCoilDriven = true ∧ s.seq.running = none ∧ s.seq.stepTimer = none ∧ s.seq.deferTimer = none) ↔
      s.seq.AtRest := by
    rw [noCoilDriven_iff]
    exact ⟨fun ⟨ho, hr, ht, hd⟩ => ⟨ho, hr, ht, hd⟩, fun ⟨ho, hr, ht, hd⟩ => ⟨ho, hr, ht, hd⟩⟩
  rw [CoilsSafe, hrest, hquiet, noCoilDriven_iff]
  exact ⟨fun ⟨hm, hr, hf, hq⟩ => ⟨⟨hm, hq⟩, hr, hf⟩, fun ⟨⟨hm, hq⟩, hr, hf⟩ => ⟨hm, hr, hf, hq⟩⟩

theorem mustRest_iff {s : State} : s.mustRest = true ↔
    s.sleep.power ≠ .active ∨ s.tables.working = none ∨ s.tables.startUp ≠ .ended ∨ s.tables.engine = .activating ∨
      s.operating = false := by
  simp [State.mustRest, or_assoc]

/-- The drivers obey the interlock and nothing makes the sequencer rest: a sequence may run. -/
structure State.MayRun (s : State) : Prop where
  interlocked : s.seq.coils.Interlocked
  free : s.mustRest = false

theorem CoilsSafe.mayRun {s : State} (h : CoilsSafe s) (hs : s.seq.state.resting = false) : s.MayRun := by
  obtain ⟨hi, -, hf⟩ := coilsSafe_iff.mp h
  refine ⟨hi, Bool.eq_false_iff.mpr fun hm => ?_⟩
  rw [hf hm] at hs
  cases hs

theorem State.MayRun.coilsSafe {s : State} (h : s.MayRun) (hs : s.seq.state.resting = false) : CoilsSafe s :=
  coilsSafe_iff.mpr ⟨h.interlocked, fun hr => absurd hr (by simp [hs]), fun hm => absurd hm (by simp [h.free])⟩

theorem coilsSafe_of_atRest {s : State} (hi : s.seq.coils.Interlocked) (hs : s.seq.state.resting = true)
    (hr : s.seq.AtRest) : CoilsSafe s :=
  coilsSafe_iff.mpr ⟨hi, fun _ => hr, fun _ => hs⟩

namespace CoilsSafe
variable {s t : State}

/-- R102: what the drivers and the record of the sequencer keep, and what makes no new demand to rest, keeps the coils
safe; the feedback inputs may change. -/
theorem of_seq (h : CoilsSafe s) (hq : t.seq = { s.seq with feedback := t.seq.feedback })
    (hm : t.mustRest = true → s.mustRest = true ∨ s.seq.state.resting = true) : CoilsSafe t := by
  obtain ⟨hi, hr, hf⟩ := coilsSafe_iff.mp h
  have hstate : t.seq.state = s.seq.state := by rw [hq]
  have hcoils : t.seq.coils = s.seq.coils := by rw [hq]
  refine coilsSafe_iff.mpr ⟨hcoils ▸ hi, fun hs => ?_, fun ht => ?_⟩
  · obtain ⟨ho, h1, h2, h3⟩ := hr (hstate ▸ hs)
    rw [hq]
    exact ⟨ho, h1, h2, h3⟩
  · rw [hstate]
    exact (hm ht).elim hf id

theorem ite {p : Prop} [Decidable p] (ht : CoilsSafe s) (hu : CoilsSafe t) : CoilsSafe (if p then s else t) := by
  split <;> assumption

theorem atRest (h : CoilsSafe s) (hs : s.seq.state.resting = true) : s.seq.AtRest := (coilsSafe_iff.mp h).2.1 hs

/-- A sequencer at rest stays safe whatever the other blocks do. -/
theorem resting (h : CoilsSafe s) (hs : s.seq.state.resting = true) (hq : t.seq = s.seq) : CoilsSafe t :=
  h.of_seq (by rw [hq]) fun _ => .inr hs

/-- R121, R122: what makes the sequencer rest lets the other blocks change. -/
theorem resting_of (h : CoilsSafe s) (hm : s.sleep.power ≠ .active ∨ s.tables.working = none ∨
    s.tables.startUp ≠ .ended ∨ s.tables.engine = .activating ∨ s.operating = false) : s.seq.state.resting = true :=
  (coilsSafe_iff.mp h).2.2 (mustRest_iff.mpr hm)

end CoilsSafe

end Sys2Proof.Machine
end

section
/-! ### The safety of the coils: what the operations keep (R105, R106, R121, R122) -/

namespace Sys2Proof.Machine

/-! #### A sequence that runs (R107 to R111, R115) -/

namespace State.MayRun
variable {s : State}

theorem record (h : s.MayRun) {k : EventKind} {c : Option Contactor} {w : Cause} {q i : Option Nat} :
    (s.record k c w q i).MayRun := ⟨h.interlocked, h.free⟩

theorem withSeq (h : s.MayRun) {x : Sequencer} (hc : x.coils = s.seq.coils := by rfl) : (s.withSeq x).MayRun :=
  ⟨hc ▸ h.interlocked, h.free⟩

theorem releaseCoil (h : s.MayRun) (c : Contactor) : (s.releaseCoil c).MayRun := by
  have hone (hc : c ≠ .mneg) : (s.seq.coils.set c (s.seq.coils.get c).release).Interlocked :=
    h.interlocked.set (fun _ => CoilDriver.release_pullInTimer (h.interlocked.quiet c))
      (fun hd => absurd hd (by simp [CoilDriver.release_not_driven])) fun hm => absurd hm hc
  cases c with
  | mneg => exact ⟨h.interlocked.releaseAll, h.free⟩
  | mpos | pre | chg => exact ⟨hone (by decide), h.free⟩

/-- R105: a DRIVE that no interlock stops. -/
theorem driveCoil (h : s.MayRun) {cls : SeqClass} {c : Contactor} (hc : s.interlocked cls c = false) :
    (s.driveCoil c).MayRun := by
  refine ⟨h.interlocked.set (fun hd => ?_) (fun _ => ?_) (fun _ hd => ?_), h.free⟩
  · simp [CoilDriver.drive_driven] at hd
  · simp only [State.interlocked, Bool.or_eq_false_iff, Bool.and_eq_false_iff, Bool.not_eq_false',
      beq_iff_eq] at hc
    exact hc.1
  · simp [CoilDriver.drive_driven] at hd

/-- R115: END leaves the sequencer at rest with every coil released. -/
theorem openEnd (h : s.MayRun) (i : Nat) : CoilsSafe (s.openEnd i) := by
  have hoff (c : Contactor) : ((s.seq.coils.map CoilDriver.release).get c).driven = false := by
    rw [PerContactor.get_map, CoilDriver.release_not_driven]
  have hi := h.interlocked.releaseAll
  unfold State.openEnd
  dsimp only
  split <;> exact coilsSafe_of_atRest hi rfl ⟨hoff, rfl, rfl, rfl⟩

theorem waitAt (h : s.MayRun) (hs : s.seq.state.resting = false) (i timer : Nat) : CoilsSafe (s.waitAt i timer) :=
  h.withSeq.coilsSafe hs

theorem releaseCoil_state (s : State) (c : Contactor) : (s.releaseCoil c).seq.state = s.seq.state := by
  cases c <;> rfl

theorem runOpening (h : s.MayRun) (hs : s.seq.state = .opening) (steps : List SeqStep) (i : Nat) :
    CoilsSafe (runOpening steps i s) := by
  have hr : s.seq.state.resting = false := congrArg SeqState.resting hs
  induction steps generalizing i s with
  | nil => exact h.openEnd i
  | cons st rest ih =>
    cases st with
    | drive c => exact ih h hs _ hr
    | release c =>
      have hs' := (releaseCoil_state s c).trans hs
      exact ih (h.releaseCoil c) hs' _ (congrArg SeqState.resting hs')
    | wait n => exact h.waitAt hr _ _
    | awaitFb c closed n => exact (ih h hs _ hr).ite (h.waitAt hr _ _)
    | awaitPrecharge ratio n => exact ih h hs _ hr
    | endStep => exact h.openEnd i

theorem startOpen (h : s.MayRun) : CoilsSafe s.startOpen := h.withSeq.runOpening rfl _ _

theorem closeFailed (h : s.MayRun) (id i : Nat) (c : Option Contactor) (w : Cause) :
    CoilsSafe (s.closeFailed id i c w) := h.record.withSeq.startOpen

theorem closeDone (h : s.MayRun) (id i : Nat) : CoilsSafe (s.closeDone id i) := h.record.withSeq.coilsSafe rfl

theorem runClosing (h : s.MayRun) (hs : s.seq.state = .closing) (id : Nat) (cls : SeqClass) (steps : List SeqStep)
    (i : Nat) : CoilsSafe (runClosing id cls steps i s) := by
  have hr : s.seq.state.resting = false := congrArg SeqState.resting hs
  induction steps generalizing i s with
  | nil => exact h.closeDone id i
  | cons st rest ih =>
    cases st with
    | drive c =>
      rw [Machine.runClosing]
      split
      · exact h.closeFailed _ _ _ _
      · next hc => exact ih (h.driveCoil (Bool.eq_false_iff.mpr hc)) hs _ hr
    | release c =>
      have hs' := (releaseCoil_state s c).trans hs
      exact ih (h.releaseCoil c) hs' _ (congrArg SeqState.resting hs')
    | wait n => exact h.waitAt hr _ _
    | awaitFb c closed n => exact (ih h hs _ hr).ite (h.waitAt hr _ _)
    | awaitPrecharge ratio n =>
      rw [Machine.runClosing]
      split
      · exact ih h hs _ hr
      · exact h.waitAt hr _ _
      · exact h.closeFailed _ _ _ _
    | endStep => exact h.closeDone id i

theorem startClose (h : s.MayRun) (id : Nat) (q : Sequence) : CoilsSafe (s.startClose id q) :=
  h.record.withSeq.runClosing rfl _ _ _ _

theorem deferExpired (h : s.MayRun) : CoilsSafe s.deferExpired := h.record.startOpen

theorem deferralTest (h : s.MayRun) : CoilsSafe s.deferralTest :=
  (h.record.withSeq.deferExpired.ite (h.record.withSeq.coilsSafe rfl)).ite h.startOpen

end State.MayRun

/-! #### What reaches the sequencer (R101, R102, R112 to R117, R124) -/

theorem Sequencer.AtRest.runningStep {s : State} (h : s.seq.AtRest) : s.runningStep = none := by
  rw [State.runningStep, h.running]

theorem afterWork_activating {e : EngineState} (h : e.afterWork = .activating) : e = .activating := by
  cases e with
  | activating => rfl
  | _ => cases h

/-- R122, R178: the reload restarts the debounces that run, and changes nothing else of the sequencer. -/
theorem reload_seq (s : State) (w : WorkingTables) :
    (s.reload w).seq =
      { s.seq with feedback := s.seq.feedback.map fun d => d.restart (1000 * w.sequence.debounceTime) } := by
  unfold State.reload
  extract_lets s1 store s2 port s3 seq s4 tables s5
  have ht : Touches [.tables, .chain] s5 s5.kickTamper.sendEnumerate := by simp
  exact ht .seq (by decide)

/-- Every block that has no part in the safety of the coils. -/
abbrev Block.besideCoils : List Block :=
  [.north, .chain, .timebase, .lock, .sched, .store, .current, .limits, .events, .profiles, .freeIndex, .pending]

/-- Every block but the sequencer. -/
abbrev Block.besideSeq : List Block := .power :: .sleep :: .tables :: Block.besideCoils

namespace CoilsSafe
variable {s t : State}

/-- What leaves the sequencer, the power state, the tables and the power alone keeps the coils safe. -/
theorem beside (h : CoilsSafe s) (ht : Touches Block.besideCoils s t) : CoilsSafe t := by
  have hpower : t.power = s.power := ht .power (by decide)
  have hseq : t.seq = s.seq := ht .seq (by decide)
  have hsleep : t.sleep = s.sleep := ht .sleep (by decide)
  have htables : t.tables = s.tables := ht .tables (by decide)
  refine h.of_seq (by rw [hseq]) fun hm => .inl ?_
  rwa [State.mustRest, State.operating, hpower, hsleep, htables] at hm

/-- R106, R121, R122: what makes the sequencer rest lets every other block change. -/
theorem demanded (h : CoilsSafe s) (hm : s.sleep.power ≠ .active ∨ s.tables.working = none ∨
    s.tables.startUp ≠ .ended ∨ s.tables.engine = .activating ∨ s.operating = false)
    (ht : Touches Block.besideSeq s t) : CoilsSafe t :=
  h.resting (h.resting_of hm) (ht .seq (by decide))

theorem record (h : CoilsSafe s) {k : EventKind} {c : Option Contactor} {w : Cause} {q i : Option Nat} :
    CoilsSafe (s.record k c w q i) := h.beside (by simp)

theorem orderlyOpen (h : CoilsSafe s) {c : Cause} : CoilsSafe (s.orderlyOpen c) := by
  unfold State.orderlyOpen
  split
  iterate 2
    next hs =>
      exact (h.mayRun (congrArg SeqState.resting hs)).record.withSeq.deferralTest
  all_goals exact h

theorem takeFastOpen (h : CoilsSafe s) {c : Cause} : CoilsSafe (s.takeFastOpen c) := by
  by_cases hs : s.seq.state = .tripped
  · rw [takeFastOpen_tripped c hs]
    exact h.record
  · obtain ⟨hi, -, -⟩ := coilsSafe_iff.mp h
    rw [takeFastOpen_trips c hs]
    refine coilsSafe_of_atRest hi.releaseAll rfl ⟨fun c => ?_, rfl, rfl, rfl⟩
    exact (congrArg CoilDriver.driven (PerContactor.get_map _ _ c)).trans (CoilDriver.release_not_driven _)

theorem stepDone (h : CoilsSafe s) {r : Running} : CoilsSafe (s.stepDone r) := by
  unfold State.stepDone
  dsimp only
  split
  · next hs =>
    have hr := (h.mayRun (congrArg SeqState.resting hs)).withSeq (x := { s.seq with stepTimer := none })
    exact hr.runClosing hs _ _ _ _
  · next hs =>
    have hr := (h.mayRun (congrArg SeqState.resting hs)).withSeq (x := { s.seq with stepTimer := none })
    exact hr.runOpening hs _ _
  all_goals exact h

/-- A sequencer that carries out a step is not at rest. -/
theorem mayRun_of_runningStep (h : CoilsSafe s) {r : Running} (hr : s.runningStep = some r) : s.MayRun := by
  refine h.mayRun (Bool.eq_false_iff.mpr fun hs => ?_)
  rw [(h.atRest hs).runningStep] at hr
  cases hr

/-- A sequencer whose defer timer runs is not at rest. -/
theorem mayRun_of_deferTimer (h : CoilsSafe s) (ht : s.seq.deferTimer ≠ none) : s.MayRun :=
  h.mayRun (Bool.eq_false_iff.mpr fun hs => ht (h.atRest hs).deferTimer)

theorem driven_of_pullInTimer (h : CoilsSafe s) {c : Contactor} (ht : (s.seq.coils.get c).pullInTimer ≠ none) :
    (s.seq.coils.get c).driven = true :=
  Bool.not_eq_false _ ▸ fun hoff => ht ((coilsSafe_iff.mp h).1.quiet c hoff)

theorem retestPrecharge (h : CoilsSafe s) : CoilsSafe s.retestPrecharge := by
  unfold State.retestPrecharge
  split
  · next hr =>
    split
    · split
      · exact h.stepDone
      · exact h
      · exact (h.mayRun_of_runningStep hr).closeFailed _ _ _ _
    all_goals exact h
  · exact h

theorem sequencerRecord (h : CoilsSafe s) : CoilsSafe s.sequencerRecord := by
  unfold State.sequencerRecord
  split
  · exact h.retestPrecharge
  · next hs => exact h.ite (h.mayRun (congrArg SeqState.resting hs)).startOpen
  all_goals exact h

theorem sequencerStreamAbsent (h : CoilsSafe s) : CoilsSafe s.sequencerStreamAbsent := by
  unfold State.sequencerStreamAbsent
  split
  · exact h.retestPrecharge
  · next hs => exact (h.mayRun (congrArg SeqState.resting hs)).startOpen
  all_goals exact h

theorem sequencerFeedback (h : CoilsSafe s) {c : Contactor} {v : Bool} : CoilsSafe (s.sequencerFeedback c v) := by
  unfold State.sequencerFeedback
  split
  iterate 2
    split
    · exact h.stepDone.ite h
    · exact h
  · exact h.record.orderlyOpen.ite h
  all_goals exact h

theorem stepTimerExpired (h : CoilsSafe s) {r : Running} (hr : s.runningStep = some r) :
    CoilsSafe (s.stepTimerExpired r) := by
  have hrun := h.mayRun_of_runningStep hr
  unfold State.stepTimerExpired
  split
  · exact h.stepDone
  · next c _ _ _ =>
    split
    · next hs =>
      have hw := hrun.withSeq (x := { s.seq with weldSuspects := s.seq.weldSuspects.set c true })
      exact (hw.coilsSafe (congrArg SeqState.resting hs)).record.stepDone
    · exact hrun.closeFailed _ _ _ _
    all_goals exact h
  · split
    · exact h.stepDone
    all_goals exact hrun.closeFailed _ _ _ _
  all_goals exact h

theorem coilFault (h : CoilsSafe s) {c : Contactor} : CoilsSafe (s.coilFault c) := by
  unfold State.coilFault
  dsimp only
  split
  · exact h.record.orderlyOpen
  all_goals exact h.record

/-- R100, R101: one driver changes that stays driven or stays OFF. -/
theorem withCoil (h : CoilsSafe s) {c : Contactor} {d : CoilDriver} (hd : d.driven = (s.seq.coils.get c).driven)
    (hq : (s.seq.coils.get c).pullInTimer = none → d.pullInTimer = none) : CoilsSafe (s.withCoil c d) := by
  obtain ⟨hi, hr, hf⟩ := coilsSafe_iff.mp h
  refine coilsSafe_iff.mpr ⟨hi.set_same hd fun hoff => hq (hi.quiet c (hd ▸ hoff)), fun hs => ?_, hf⟩
  obtain ⟨ho, h1, h2, h3⟩ := hr hs
  refine ⟨fun x => ?_, h1, h2, h3⟩
  refine (congrArg CoilDriver.driven (PerContactor.get_set _ c x d)).trans ?_
  split
  · exact hd.trans (ho c)
  · exact ho x

theorem withFeedback (h : CoilsSafe s) {c : Contactor} {d : DebouncedInput} : CoilsSafe (s.withFeedback c d) :=
  h.of_seq rfl .inl

/-! The lock and the commits (R25 to R37, R140 to R149). -/

theorem lockLoss (h : CoilsSafe s) : CoilsSafe s.lockLoss := (h.beside (by simp)).orderlyOpen

theorem closeWindow (h : CoilsSafe s) {a : Stamp} : CoilsSafe (s.closeWindow a) := by
  unfold State.closeWindow
  split
  · exact h.beside (by simp)
  · exact (h.beside (by simp)).ite h.lockLoss
  all_goals exact h

theorem judgeSync (h : CoilsSafe s) {n : Nat} {a : Stamp} : CoilsSafe (judgeSync n a s) := by
  induction n generalizing s with
  | zero =>
    unfold Machine.judgeSync
    dsimp only
    repeat' split
    all_goals first | exact h | exact h.beside (by simp)
  | succ n ih =>
    unfold Machine.judgeSync
    dsimp only
    repeat' split
    all_goals first | exact ih h.closeWindow | exact h.beside (by simp)

theorem syncArrival (h : CoilsSafe s) {a : Stamp} : CoilsSafe (s.syncArrival a) := h.judgeSync.ite h

theorem lockCommit (h : CoilsSafe s) {old : LockParams} : CoilsSafe (s.lockCommit old) := by
  have hre : CoilsSafe s.reacquiring := h.beside (by simp [State.reacquiring])
  rcases lockCommit_cases s old with hc | hc | hc | hc <;> rw [hc]
  · exact h
  · exact h.lockLoss
  · exact hre
  · exact hre.lockLoss

theorem postCommitOpen (h : CoilsSafe s) : CoilsSafe s.postCommitOpen := by
  unfold State.postCommitOpen
  split
  · exact h
  · exact h.orderlyOpen.ite h

theorem applyCommit (h : CoilsSafe s) {old : LockParams} {c : SavedContext} : CoilsSafe (s.applyCommit old c) :=
  (h.beside (by simp)).lockCommit.postCommitOpen

theorem switchCommit (h : CoilsSafe s) {p : Nat} : CoilsSafe (s.switchCommit p) := (h.beside (by simp)).applyCommit

theorem enterCommit (h : CoilsSafe s) {p : Nat} {c : Cause} : CoilsSafe (s.enterCommit p c) :=
  (h.beside (by simp)).applyCommit

theorem returnCommit (h : CoilsSafe s) : CoilsSafe s.returnCommit := by
  unfold State.returnCommit
  split
  · exact (h.beside (by simp)).applyCommit
  · exact h

theorem takeEnterRequest (h : CoilsSafe s) {r : EnterRequest} : CoilsSafe (s.takeEnterRequest r) := by
  unfold State.takeEnterRequest
  split
  · exact h.beside (by simp)
  · exact h.enterCommit

/-! Sleep and waking (R152 to R165). -/

theorem withSleep (h : CoilsSafe s) {x : SleepController} (hp : x.power = s.sleep.power := by rfl) :
    CoilsSafe (s.withSleep x) := by
  refine h.of_seq rfl fun hm => .inl ?_
  rw [mustRest_iff] at hm ⊢
  exact hp ▸ hm

/-- R164: becoming ACTIVE asks nobody to rest. -/
theorem wakened (h : CoilsSafe s) {x : SleepController} (hp : x.power = .active := by rfl) :
    CoilsSafe (s.withSleep x) := by
  refine h.of_seq rfl fun hm => .inl ?_
  rw [mustRest_iff] at hm ⊢
  exact hm.imp_left fun hne => absurd hp hne

theorem wakeCause (h : CoilsSafe s) {c : WakeCause} : CoilsSafe (s.wakeCause c) := by
  by_cases hp : s.sleep.power = .active
  · rwa [wakeCause_awake c (.inl hp)]
  · exact h.demanded (.inl hp) (by simp)

theorem detectChange (h : CoilsSafe s) {m : ModuleTable} {b : Bool} : CoilsSafe (s.detectChange m b) := by
  unfold State.detectChange
  split
  · exact h.withSleep
  · exact h.wakeCause.ite h

theorem completeEntry (h : CoilsSafe s) {w : Nat} (hp : s.sleep.power ≠ .active) : CoilsSafe (s.completeEntry w) := by
  have hsleep : (s.enterCommit w .sleep).sleep = s.sleep :=
    (by simp [Block.commit] : Touches Block.commit s (s.enterCommit w .sleep)) .sleep (by decide)
  exact (h.enterCommit (p := w) (c := .sleep)).demanded (.inl (by rwa [hsleep])) (by simp [State.completeEntry])

theorem endWaking (h : CoilsSafe s) : CoilsSafe s.endWaking := by
  have hr : CoilsSafe s.refuseEnters.returnCommit := (h.beside (by simp)).returnCommit
  exact (hr.beside (t := s.refuseEnters.returnCommit.withTimebase _) (by simp)).wakened

theorem wakeSent (h : CoilsSafe s) {b : Bool} : CoilsSafe (s.wakeSent b) := by
  by_cases hp : s.sleep.power = .active
  · have h1 : CoilsSafe (s.setChainSleep .awake) := h.withSleep
    refine (h1.beside (by simp)).ite ?_
    dsimp only
    rw [if_neg (by simp [State.setChainSleep, hp])]
    exact h1.withSleep
  · exact h.demanded (.inl hp) (by simp)

theorem sleepSent (h : CoilsSafe s) : CoilsSafe s.sleepSent := by
  by_cases hp : s.sleep.power = .active
  · simp only [State.sleepSent, State.setChainSleep, State.withSleep_sleep, hp]
    exact h.withSleep hp.symm
  · exact h.demanded (.inl hp) (by simp)

/-! Rounds and current records (R47 to R57, R63 to R76). -/

theorem leaveAssembly (h : CoilsSafe s) {r : Round} {w : Bool} : CoilsSafe (s.leaveAssembly r w) := by
  by_cases hp : s.sleep.power = .watchRound
  · exact h.demanded (.inl (by simp [hp])) (by simp)
  · rw [leaveAssembly_takeHeld r w hp]
    exact h.beside (by simp [State.offered])

theorem finishAligning (h : CoilsSafe s) {r : Round} {es : List RoundEntry} : CoilsSafe (s.finishAligning r es) := by
  unfold State.finishAligning
  extract_lets done sum port s1
  have h1 : CoilsSafe s1 := h.beside (by simp [s1, port])
  exact h1.leaveAssembly.ite (h1.beside (t := s1.evaluate done) (by simp)).leaveAssembly

theorem enterAligning (h : CoilsSafe s) {r : Round} : CoilsSafe (s.enterAligning r) :=
  (h.finishAligning.ite (h.beside (by simp))).ite h.finishAligning

theorem realign (h : CoilsSafe s) : CoilsSafe s.realign := by
  unfold State.realign
  split
  · exact h
  · split
    · exact (h.beside (by simp)).ite h.finishAligning
    all_goals exact h

theorem continueCollecting (h : CoilsSafe s) : CoilsSafe s.continueCollecting := by
  unfold State.continueCollecting
  split
  · exact h
  · split
    · split
      · exact h.beside (by simp)
      · exact h.enterAligning
    all_goals exact h

theorem readEnded (h : CoilsSafe s) {p : Nat} {o : ReadOutcome} : CoilsSafe (s.readEnded p o) := by
  unfold State.readEnded
  split
  · exact h
  · split
    · exact (h.beside (by simp)).continueCollecting
    all_goals exact h

theorem sendTrigger (h : CoilsSafe s) {w : TakenTrigger} {e : ScheduleEntry} : CoilsSafe (s.sendTrigger w e) := by
  unfold State.sendTrigger
  dsimp only
  split
  · exact h.beside (by simp)
  · exact (h.beside (by simp)).enterAligning

theorem recordArrives (h : CoilsSafe s) {m : ModuleTable} {b : List Byte} : CoilsSafe (s.recordArrives m b) := by
  unfold State.recordArrives
  split
  · exact h.beside (by simp)
  · exact (h.beside (by simp)).realign.sequencerRecord.ite (h.beside (by simp))

/-! The chain link and the north link (R2 to R6, R15). -/

theorem frameSent (h : CoilsSafe s) {f : ChainFrame} : CoilsSafe (s.frameSent f) := by
  have he : CoilsSafe s.endTransaction := h.beside (by simp)
  unfold State.frameSent
  split
  · exact he.wakeSent
  · exact he.sleepSent
  · exact he.continueCollecting
  iterate 2 exact h.beside (by simp)
  · exact (he.beside (by simp)).ite (h.beside (by simp))

theorem transactionEnded (h : CoilsSafe s) {f : ChainFrame} {o : TxnOutcome} : CoilsSafe (s.transactionEnded f o) := by
  have he : CoilsSafe s.endTransaction := h.beside (by simp)
  unfold State.transactionEnded
  split
  · exact he.beside (by simp)
  · exact he.readEnded
  · exact he.beside (by simp)
  all_goals exact h

theorem frameEnds (h : CoilsSafe s) {rx : ChainRx} : CoilsSafe (s.frameEnds rx) := by
  have hended (f : ChainFrame) : CoilsSafe (s.transactionEnded f (replyOutcome f rx)).arbitrate :=
    (h.transactionEnded (f := f) (o := replyOutcome f rx)).beside (by simp)
  unfold State.frameEnds
  split
  · exact hended _
  · exact (h.beside (by simp)).ite (hended _)
  all_goals exact h.beside (by simp)

theorem frameComplete (h : CoilsSafe s) {a : Stamp} {b : List Byte} : CoilsSafe (s.frameComplete a b) := by
  unfold State.frameComplete
  split
  · exact h.beside (by simp)
  · unfold State.routeFrame
    split
    · exact h.syncArrival
    · have hr : CoilsSafe s.reportCommand := h.withSleep.ite h
      exact (hr.beside (by simp)).ite (hr.beside (by simp))
    · exact h.beside (by simp)
    all_goals exact h

/-! The table store (R167 to R181). -/

/-- R121, R122: tables stay loaded, loading stays ended and no activation begins. -/
theorem withTables (h : CoilsSafe s) {x : TableStore}
    (hw : x.working = none → s.tables.working = none := by exact id)
    (hs : x.startUp ≠ .ended → s.tables.startUp ≠ .ended := by exact id)
    (he : x.engine = .activating → s.tables.engine = .activating := by exact id) : CoilsSafe (s.withTables x) := by
  refine h.of_seq rfl fun hm => .inl ?_
  rw [mustRest_iff] at hm ⊢
  exact hm.imp_right (.imp hw (.imp hs (.imp he id)))

theorem kickTamper (h : CoilsSafe s) : CoilsSafe s.kickTamper := by
  unfold State.kickTamper
  split
  · exact h.withTables.ite h
  · exact h

theorem tamperEngine (h : CoilsSafe s) : CoilsSafe s.tamperEngine := by
  have hlock (t : State) (ht : CoilsSafe t) : CoilsSafe t.lockTamper := (ht.withTables (he := by simp)).kickTamper
  unfold State.tamperEngine
  split
  iterate 2 exact h.withTables (he := by simp)
  iterate 3 exact hlock s h
  · exact hlock _ h.withTables
  all_goals exact h

theorem tamperAssertion (h : CoilsSafe s) : CoilsSafe s.tamperAssertion := h.withTables.tamperEngine.wakeCause

theorem eraseDone (h : CoilsSafe s) {b : Nat} {w : Bool} : CoilsSafe (s.eraseDone b w) :=
  (h.withTables (he := afterWork_activating)).kickTamper

theorem programDone (h : CoilsSafe s) {a : Nat} {b : List Byte} : CoilsSafe (s.programDone a b) :=
  (h.withTables (he := afterWork_activating)).kickTamper

theorem verified (h : CoilsSafe s) {o : Except VerifyReason WorkingTables} : CoilsSafe (s.verified o) := by
  unfold State.verified
  split
  · exact h.withTables (he := by simp)
  · exact h.withTables (he := by dsimp only; split <;> simp)

theorem pointerDone (h : CoilsSafe s) {x : Slot} : CoilsSafe (s.pointerDone x) := h.withTables.withTables.ite h.withTables

theorem setTrim (h : CoilsSafe s) {w : WorkingTables} {p : Nat} {v : Int} : CoilsSafe (s.setTrim w p v) :=
  (h.beside (by simp)).withTables (hw := nofun)


/-- R178: the reload finds the sequencer at rest. -/
theorem reload (h : CoilsSafe s) (he : s.tables.engine = .activating) {w : WorkingTables} : CoilsSafe (s.reload w) :=
  h.of_seq (by rw [reload_seq]) fun _ => .inr (h.resting_of (.inr (.inr (.inr (.inl he)))))

/-! Resets, power and time (R21, R22, R123, R167). -/

/-- R123: a reset leaves the sequencer at rest. -/
theorem of_reset {q : Sequencer} {i : Option Nat} (hq : s.seq = { q.afterReset i with feedback := s.seq.feedback }) :
    CoilsSafe s := by
  have hcoils (c : Contactor) : s.seq.coils.get c = .released (q.coils.get c).sense := by
    rw [hq]
    exact afterReset_coils q i c
  have hoff (c : Contactor) : (s.seq.coils.get c).driven = false := by rw [hcoils]; rfl
  refine coilsSafe_of_atRest (.of_released hoff fun c => by rw [hcoils]; rfl) (by rw [hq]; rfl) ⟨hoff, ?_, ?_, ?_⟩
  all_goals
    rw [hq]
    rfl

theorem losePower : CoilsSafe s.losePower := of_reset (q := s.stopOp.seq) (i := none) rfl

theorem powerUp {straps : Straps} : CoilsSafe (s.powerUp straps) := by
  unfold State.powerUp
  dsimp only
  split <;> exact of_reset (q := s.stopOp.seq) (i := none) rfl

theorem holdReset : CoilsSafe s.holdReset := of_reset (q := s.seq) (i := none) rfl

theorem beginRestart : CoilsSafe s.beginRestart := of_reset (q := s.seq) (i := some startUpDebounce) rfl

/-- R22: time runs the timers down, and drives and releases no coil. -/
theorem elapse (h : CoilsSafe s) {n : Nat} : CoilsSafe (elapse n s) := by
  have ha : CoilsSafe (s.elapseArray n) := h.withTables
  obtain ⟨hi, hr, hf⟩ := coilsSafe_iff.mp ha
  have hb : CoilsSafe ((s.elapseArray n).elapseBlocks n) := by
    refine coilsSafe_iff.mpr ⟨hi.map_same (fun _ => rfl) fun d hd => ?_, fun hs => ?_, hf⟩
    · rw [CoilDriver.elapse, hd]
      rfl
    · obtain ⟨ho, h1, h2, h3⟩ := hr hs
      refine ⟨fun c => ?_, h1, congrArg (runDown n) h2, congrArg (runDown n) h3⟩
      exact (congrArg CoilDriver.driven (PerContactor.get_map _ _ c)).trans (ho c)
  exact (ha.ite hb).ite h

/-! The commands (R6, R110, R116 to R118, R153, R176). -/

/-- R6: a command is taken only in operation and with loading ended. -/
theorem takeCommand (h : CoilsSafe s) {α : Type} {row : Instr} {args : List Byte → Option α}
    {body : α → State → State × Reply}
    (hb : ∀ a u, CoilsSafe u → u.operating = true → u.tables.startUp = .ended → CoilsSafe (body a u).1) :
    CoilsSafe (takeCommand row args body s) := by
  have hp : CoilsSafe s.popCommand := h.beside (by simp)
  unfold Machine.takeCommand
  split
  · exact h
  · next htake =>
    obtain ⟨hready, -⟩ := takeable_iff.mp htake
    obtain ⟨hop, hstart, -⟩ := decoderReady_iff.mp hready
    split
    · exact hp.beside (by simp)
    · next a _ => exact (hb a _ hp (operating_of hop) hstart).beside (by simp)

theorem doClose (h : CoilsSafe s) (hop : s.operating = true) (hstart : s.tables.startUp = .ended) {a : Nat} :
    CoilsSafe (State.doClose a s).1 := by
  unfold State.doClose
  repeat' split
  any_goals exact h
  next hloaded hengine hpower _ _ _ _ _ _ _ =>
  have hfree : s.mustRest = false := by
    have hworking : s.tables.working ≠ none := by
      simpa [State.tablesLoaded, Option.isSome_iff_ne_none] using hloaded
    rw [Bool.eq_false_iff, Ne, mustRest_iff]
    simp_all
  exact State.MayRun.startClose ⟨(coilsSafe_iff.mp h).1, hfree⟩ _ _

theorem doOpen (h : CoilsSafe s) {a : Unit} : CoilsSafe (State.doOpen a s).1 := by
  unfold State.doOpen
  split
  iterate 2 exact h.orderlyOpen
  all_goals exact h

theorem doClearTrip (h : CoilsSafe s) {a : Unit} : CoilsSafe (State.doClearTrip a s).1 := by
  unfold State.doClearTrip
  repeat' split
  any_goals exact h
  next htripped _ =>
  have hs : s.seq.state.resting = true := congrArg SeqState.resting (not_not.mp htripped)
  obtain ⟨hi, -, -⟩ := coilsSafe_iff.mp h
  obtain ⟨ho, h1, h2, h3⟩ := h.atRest hs
  exact coilsSafe_of_atRest hi rfl ⟨ho, h1, h2, h3⟩

theorem doSwitch (h : CoilsSafe s) {a : Nat} : CoilsSafe (State.doSwitch a s).1 := by
  unfold State.doSwitch
  split
  · exact h
  · exact h.switchCommit

theorem doEnter (h : CoilsSafe s) {a : Nat} : CoilsSafe (State.doEnter a s).1 := by
  unfold State.doEnter
  split
  · exact h
  · exact h.enterCommit

theorem doReturn (h : CoilsSafe s) {a : Unit} : CoilsSafe (State.doReturn a s).1 := by
  unfold State.doReturn
  split
  · exact h
  · split
    · exact h
    · exact h.returnCommit

/-- R153: SLEEP finds the sequencer OPEN. -/
theorem doSleep (h : CoilsSafe s) {a : Unit} : CoilsSafe (State.doSleep a s).1 := by
  unfold State.doSleep
  repeat' split
  any_goals exact h
  next hopened _ => exact h.resting (congrArg SeqState.resting (not_not.mp hopened)) rfl

/-- R176: UPD_ACTIVATE finds the sequencer OPEN or TRIPPED. -/
theorem doUpdActivate (h : CoilsSafe s) {a : Unit} : CoilsSafe (State.doUpdActivate a s).1 := by
  have ht : Touches Block.besideSeq s s.beginActivation := by simp
  unfold State.doUpdActivate
  repeat' split
  any_goals exact h
  next hopened _ =>
  refine h.resting ?_ (ht .seq (by decide))
  rcases not_and_or.mp hopened with hs | hs <;> rw [not_not.mp hs] <;> rfl

theorem doSetTrim (h : CoilsSafe s) {a : SetTrimArgs} : CoilsSafe (State.doSetTrim a s).1 := by
  unfold State.doSetTrim
  repeat' split
  any_goals exact h
  exact h.setTrim

theorem doUpdErase (h : CoilsSafe s) {a : Nat} : CoilsSafe (State.doUpdErase a s).1 := by
  unfold State.doUpdErase
  repeat' split
  any_goals exact h
  exact (h.withTables (x := { s.tables with engine := .erasing }) (he := by simp)).withTables

theorem doUpdWrite (h : CoilsSafe s) {a : UpdWriteArgs} : CoilsSafe (State.doUpdWrite a s).1 := by
  unfold State.doUpdWrite
  dsimp only
  split
  · exact h
  · split_ifs
    iterate 2 exact h
    all_goals exact (h.withTables (he := by simp)).withTables

theorem doUpdVerify (h : CoilsSafe s) {a : Unit} : CoilsSafe (State.doUpdVerify a s).1 := by
  unfold State.doUpdVerify
  split
  · exact h.withTables (he := by simp)
  all_goals exact h

end CoilsSafe

end Sys2Proof.Machine
end

section
/-! ### Every command touches its own blocks, and every step keeps the coils safe -/

namespace Sys2Proof.Machine

/-- Every command answers a next state, and changes only its own blocks. -/
theorem exec_touches (i : Instr) (s : State) : ∃ t, exec i s = .next t ∧ Touches (blocksOf i) s t := by
  cases i with
  | getStatus | getStatusClear | readTable | setTrim | restart | readRound | releaseRound | readLimits | clearLimit
  | clearLimitAll | close | openCmd | fastOpen | clearTrip | readEvents | switchProfile | enterProfile | returnProfile
  | sleep | updErase | updWrite | updVerify | updActivate =>
    exact ⟨_, rfl, touches_takeCommand (by simp [blocksOf]) fun _ _ ht => by simpa [blocksOf, Block.commit] using ht⟩
  | unknownCommandCode => exact ⟨_, rfl, touches_takeCommand (by simp [blocksOf]) fun _ _ ht => ht⟩
  | powerOnReset | coilSenseChange | feedbackInputChange | tamperInputChange =>
    exact ⟨_, rfl, by simp [blocksOf, Block.allBlocks]⟩
  | powerLoss | startUpLoading | startUpLoadingEnd | chainWakeWaitExpiry | receiveIdleTimeout | northFrameSent
  | restartBegin | acquireWindowClose | triggerInstant | chainFrameReceived | streamTimerExpiry | pullInTimerExpiry
  | openCoilIntervalExpiry | feedbackDebounceExpiry | deferTimerExpiry | entryStart | watchTimerExpiry
  | wakeInHoldExpiry | wakingEnd | verificationEnd | chainReplyStart =>
    exact ⟨_, rfl, touches_ite
      (by simp [blocksOf, Block.allBlocks, Block.round, Block.opening, Block.commit])
      (by simp [blocksOf, Block.round])⟩
  | rstNLow | rstNHigh | startDelimiter | northFrameComplete | holdingPlaceReplyEnqueue | chainPortReplyEnqueue
  | windowClose | triggerSend | forwardHeadStart | chainFrameSent | chainReplyTimeout | currentRecordArrival
  | currentRecordIdleTimeout | alignWaitExpiry | limitFastOpenRequest | limitEnterRequest | stepTimerExpiry
  | entryCompletion | blockEraseComplete | rowProgramComplete | slotPointerWriteComplete | counterWriteComplete
  | reload | tamperDebounceExpiry =>
    refine ⟨_, rfl, ?_⟩
    repeat' split
    all_goals simp [blocksOf, Block.round, Block.opening, Block.commit]
  | chainWakeTimerExpiry =>
    refine ⟨_, rfl, ?_⟩
    split
    · dsimp only
      repeat' split
      all_goals simp [blocksOf]
    · simp
  | wakeInChange =>
    refine ⟨_, rfl, ?_⟩
    split
    · simp
    · dsimp only
      split
      all_goals simp [blocksOf]

/-- The command `i`, carried out in `s`, leaves the coils safe. -/
def CoilsSafeBy (i : Instr) (s : State) : Prop := ∃ t, exec i s = .next t ∧ CoilsSafe t

theorem coilsSafeBy_of_row {row : Instr} (hr : row ∈ decoderRows) {s : State} (h : CoilsSafe s) : CoilsSafeBy row s := by
  by_cases hb : blocksOf row ⊆ Block.besideCoils
  case pos =>
    obtain ⟨t, ht, htouches⟩ := exec_touches row s
    exact ⟨t, ht, h.beside (htouches.mono hb)⟩
  cases row with
  | getStatusClear =>
    exact ⟨_, rfl, h.takeCommand fun _ u hu _ _ => (hu.beside (t := (u.setSticky _).withStore _) (by simp)).withSleep⟩
  | setTrim => exact ⟨_, rfl, h.takeCommand fun _ _ hu _ _ => hu.doSetTrim⟩
  | close => exact ⟨_, rfl, h.takeCommand fun _ _ hu hop hstart => hu.doClose hop hstart⟩
  | openCmd => exact ⟨_, rfl, h.takeCommand fun _ _ hu _ _ => hu.doOpen⟩
  | fastOpen => exact ⟨_, rfl, h.takeCommand fun _ _ hu _ _ => hu.takeFastOpen⟩
  | clearTrip => exact ⟨_, rfl, h.takeCommand fun _ _ hu _ _ => hu.doClearTrip⟩
  | switchProfile => exact ⟨_, rfl, h.takeCommand fun _ _ hu _ _ => hu.doSwitch⟩
  | enterProfile => exact ⟨_, rfl, h.takeCommand fun _ _ hu _ _ => hu.doEnter⟩
  | returnProfile => exact ⟨_, rfl, h.takeCommand fun _ _ hu _ _ => hu.doReturn⟩
  | sleep => exact ⟨_, rfl, h.takeCommand fun _ _ hu _ _ => hu.doSleep⟩
  | updErase => exact ⟨_, rfl, h.takeCommand fun _ _ hu _ _ => hu.doUpdErase⟩
  | updWrite => exact ⟨_, rfl, h.takeCommand fun _ _ hu _ _ => hu.doUpdWrite⟩
  | updVerify => exact ⟨_, rfl, h.takeCommand fun _ _ hu _ _ => hu.doUpdVerify⟩
  | updActivate => exact ⟨_, rfl, h.takeCommand fun _ _ hu _ _ => hu.doUpdActivate⟩
  | getStatus | readTable | restart | readRound | releaseRound | readLimits | clearLimit | clearLimitAll | readEvents
  | unknownCommandCode => exact absurd (by decide) hb
  | _ => simp [decoderRows] at hr

theorem coilsSafeBy (i : Instr) {s : State} (h : CoilsSafe s) : CoilsSafeBy i s := by
  by_cases hb : blocksOf i ⊆ Block.besideCoils
  case pos =>
    obtain ⟨t, ht, htouches⟩ := exec_touches i s
    exact ⟨t, ht, h.beside (htouches.mono hb)⟩
  cases i with
  | powerOnReset straps => exact ⟨_, rfl, .powerUp⟩
  | powerLoss => exact ⟨_, rfl, CoilsSafe.losePower.ite h⟩
  | rstNLow =>
    refine ⟨_, rfl, h.ite ?_⟩
    split
    · exact .holdReset
    · next hp => exact h.demanded (.inr (.inr (.inr (.inr (by simp [State.operating, hp]))))) (by simp)
  | rstNHigh straps =>
    refine ⟨_, rfl, ?_⟩
    split
    · next hlow =>
      have hrest := h.resting_of (.inr (.inr (.inr (.inr (by simp [State.operating, hlow])))))
      dsimp only
      split <;> exact h.of_seq rfl fun _ => .inr hrest
    · exact h
  | startUpLoading =>
    refine ⟨_, rfl, ?_⟩
    split
    · next hdue =>
      simp only [State.loadingDue, Bool.and_eq_true, beq_iff_eq] at hdue
      exact h.demanded (.inr (.inr (.inl (by simp [hdue])))) (by simp)
    · exact h
  | startUpLoadingEnd =>
    refine ⟨_, rfl, ?_⟩
    split
    · next hdue =>
      simp only [State.loadingEndDue, Bool.and_eq_true, beq_iff_eq] at hdue
      exact h.demanded (.inr (.inr (.inl (by simp [hdue])))) (by simp)
    · exact h
  | startDelimiter =>
    have hn (x : NorthPort) : CoilsSafe (s.truncateFrame.withNorth x) := h.beside (by simp)
    exact ⟨_, rfl, ((hn _).wakeCause.ite (hn _)).ite h⟩
  | northFrameComplete bytes =>
    refine ⟨_, rfl, ?_⟩
    have hn : CoilsSafe (s.withNorth { s.north with receiver := .idle }) := h.beside (by simp)
    split
    · exact hn.ite hn.frameComplete
    · exact h
  | restartBegin => exact ⟨_, rfl, CoilsSafe.beginRestart.ite h⟩
  | windowClose =>
    refine ⟨_, rfl, ?_⟩
    split
    · exact h.closeWindow
    · exact h
  | acquireWindowClose => exact ⟨_, rfl, h.lockLoss.ite h⟩
  | triggerSend =>
    refine ⟨_, rfl, ?_⟩
    split
    · exact h
    · split
      · exact h
      · exact h.sendTrigger
  | chainFrameSent =>
    refine ⟨_, rfl, ?_⟩
    split
    · next f _ _ => exact (h.frameSent (f := f)).beside (by simp)
    · exact h
  | chainFrameReceived frame => exact ⟨_, rfl, h.frameEnds.ite (h.beside (by simp))⟩
  | chainReplyTimeout =>
    refine ⟨_, rfl, ?_⟩
    split
    · next f _ _ => exact (h.transactionEnded (f := f) (o := .noReply)).beside (by simp)
    · exact h
  | currentRecordArrival record =>
    refine ⟨_, rfl, ?_⟩
    split
    · exact h
    · exact h.recordArrives
  | streamTimerExpiry => exact ⟨_, rfl, (h.beside (by simp)).realign.sequencerStreamAbsent.ite h⟩
  | alignWaitExpiry =>
    refine ⟨_, rfl, ?_⟩
    split
    · split
      · exact h
      · exact h.finishAligning
    · exact h
  | limitFastOpenRequest =>
    refine ⟨_, rfl, ?_⟩
    split
    · exact (h.beside (by simp)).takeFastOpen
    · exact h
  | limitEnterRequest =>
    refine ⟨_, rfl, ?_⟩
    split
    · exact (h.beside (by simp)).takeEnterRequest
    · exact h
  | pullInTimerExpiry coil =>
    refine ⟨_, rfl, ?_⟩
    split
    · next hdue =>
      have htimer := (expired_iff.mp ((Bool.and_eq_true _ _).mp hdue).2)
      exact h.withCoil (h.driven_of_pullInTimer (by simp [htimer])).symm fun _ => rfl
    · exact h
  | coilSenseChange coil current =>
    obtain ⟨hd, ht⟩ := CoilDriver.senseChange_driven (s.seq.coils.get coil) current
    exact ⟨_, rfl, h.withCoil hd fun hn => ht.trans hn⟩
  | openCoilIntervalExpiry coil =>
    have hw : CoilsSafe (s.withCoil coil { s.seq.coils.get coil with noCurrent := none, reported := true }) :=
      h.withCoil rfl id
    exact ⟨_, rfl, hw.coilFault.ite h⟩
  | feedbackInputChange contactor closed => exact ⟨_, rfl, h.withFeedback⟩
  | feedbackDebounceExpiry contactor => exact ⟨_, rfl, h.withFeedback.sequencerFeedback.ite h⟩
  | stepTimerExpiry =>
    refine ⟨_, rfl, ?_⟩
    split
    · split
      · exact h
      · next hr => exact h.stepTimerExpired hr
    · exact h
  | deferTimerExpiry =>
    refine ⟨_, rfl, ?_⟩
    split
    · next hdue =>
      have htimer := (expired_iff.mp ((Bool.and_eq_true _ _).mp hdue).2)
      exact (h.mayRun_of_deferTimer (by simp [htimer])).deferExpired
    · exact h
  | entryStart =>
    refine ⟨_, rfl, ?_⟩
    split
    · next hdue => exact h.demanded (.inl (by simp [(entryStartDue_iff.mp hdue).2.1])) (by simp)
    · exact h
  | entryCompletion =>
    refine ⟨_, rfl, ?_⟩
    split
    · next hdue =>
      split
      · exact h
      · split
        · exact h
        · exact h.completeEntry (by simp [(entryCompletionDue_iff.mp hdue).2.1])
    · exact h
  | watchTimerExpiry =>
    refine ⟨_, rfl, ?_⟩
    split
    · next hdue =>
      simp only [Bool.and_eq_true, beq_iff_eq] at hdue
      exact h.demanded (.inl (by simp [hdue])) (by simp)
    · exact h
  | chainWakeTimerExpiry =>
    refine ⟨_, rfl, ?_⟩
    have h1 : CoilsSafe (s.withSleep { s.sleep with chainWakeTimer := none }) := h.withSleep
    split
    · dsimp only
      split
      · next hp => exact h1.ite (h.demanded (.inl (by simp [hp])) (by simp))
      all_goals exact h1
    · exact h
  | wakeInChange high =>
    refine ⟨_, rfl, ?_⟩
    have h1 : CoilsSafe (s.withSleep { s.sleep with wakeInHigh := high }) := h.withSleep
    split
    · exact h
    · dsimp only
      split
      · exact h1.detectChange
      · exact h1
  | wakeInHoldExpiry => exact ⟨_, rfl, h.withSleep.wakeCause.ite h⟩
  | wakingEnd => exact ⟨_, rfl, h.endWaking.ite h⟩
  | blockEraseComplete =>
    refine ⟨_, rfl, ?_⟩
    split
    · exact h.eraseDone
    all_goals exact h
  | rowProgramComplete =>
    refine ⟨_, rfl, ?_⟩
    split
    · exact h.programDone
    all_goals exact h
  | verificationEnd => exact ⟨_, rfl, h.verified.ite h⟩
  | slotPointerWriteComplete =>
    refine ⟨_, rfl, ?_⟩
    split
    · exact h.pointerDone
    all_goals exact h
  | counterWriteComplete =>
    refine ⟨_, rfl, ?_⟩
    split
    · exact h.withTables
    all_goals exact h
  | reload =>
    refine ⟨_, rfl, ?_⟩
    split
    · next hdue =>
      simp only [State.reloadDue, Bool.and_eq_true, beq_iff_eq] at hdue
      obtain ⟨⟨⟨-, he⟩, -⟩, -⟩ := hdue
      split
      · exact h
      · exact h.reload he
    · exact h
  | tamperInputChange active => exact ⟨_, rfl, h.withTables⟩
  | tamperDebounceExpiry => exact ⟨_, rfl, (h.withTables.tamperAssertion.ite h.withTables).ite h⟩
  | getStatusClear | setTrim | close | openCmd | fastOpen | clearTrip | switchProfile | enterProfile | returnProfile
  | sleep | updErase | updWrite | updVerify | updActivate => exact coilsSafeBy_of_row (by decide) h
  | _ => exact absurd (by decide) hb

theorem coilsSafe_step {s t : State} (h : CoilsSafe s) (ht : step s = .next t) : CoilsSafe t := by
  unfold step at ht
  split at ht
  · obtain rfl := Host.Outcome.next.inj ht
    exact h.elapse
  · next c rest _ =>
    obtain ⟨u, hu, hsafe⟩ := coilsSafeBy c (h.beside (t := s.withPending rest) (by simp))
    obtain rfl := Host.Outcome.next.inj (hu.symm.trans ht)
    exact hsafe

/-- Settles O56: every operation keeps the coils safe, so every command and every microtick does. -/
theorem stepKeepsCoilsSafe : Obligations.StepKeepsCoilsSafe := fun _ _ => coilsSafe_step

end Sys2Proof.Machine
end

section
/-! ### Coil drivers, feedback inputs and the checks of CLOSE (R100 to R102, R108, R110, R115, R119) -/

namespace Sys2Proof.Machine

/-! #### Coil drivers and the open-coil monitor (R100, R101) -/

theorem exec_pullInTimerExpiry {s : State} (hp : s.power = ⟨true, false⟩) (c : Contactor) :
    exec (.pullInTimerExpiry c) s =
      .next (if (s.seq.coils.get c).pullInTimer = some 0 then
          s.withCoil c { s.seq.coils.get c with state := .hold, pullInTimer := none }
        else s) := by
  simp only [exec, execPullInTimerExpiry, operating_of hp, Bool.true_and, expired_iff]

section Sense
variable {d : CoilDriver}

theorem CoilDriver.senseChange_comes (h : d.sense = false) :
    d.senseChange true = { d with sense := true, noCurrent := none } := by
  simp [CoilDriver.senseChange, h]

theorem CoilDriver.senseChange_goes (h : d.sense = true) :
    d.senseChange false =
      { d with sense := false, noCurrent := if d.state ≠ .off ∧ d.reported = false then some 5000 else none } := by
  simp [CoilDriver.senseChange, h, CoilDriver.driven, noCurrentInterval, ms]

end Sense

/-- R119: an open coil is recorded, and in CLOSED opens. -/
theorem coilFault_eq (s : State) (c : Contactor) :
    s.coilFault c =
      let s1 := s.record .coilFault (some c) .feedback s.seq.running s.seq.step
      if s.seq.state = .closed then s1.orderlyOpen .feedback else s1 := by
  unfold State.coilFault
  cases h : s.seq.state <;> rfl

theorem exec_openCoilIntervalExpiry {s : State} {c : Contactor} (hp : s.power = ⟨true, false⟩)
    (h : (s.seq.coils.get c).noCurrent = some 0) :
    exec (.openCoilIntervalExpiry c) s =
      .next ((s.withCoil c { s.seq.coils.get c with noCurrent := none, reported := true }).coilFault c) := by
  simp only [exec, execOpenCoilIntervalExpiry, operating_of hp, Bool.true_and, expired_iff, h, if_true]

/-- Settles O37: the pull-in timer's expiry, the two changes of the sense, and the end of the no-current interval. -/
theorem coilDriverEvents : Obligations.CoilDriverEvents := by
  refine ⟨fun s c hp => exec_pullInTimerExpiry hp c, fun s c d hd => ?_, fun s c hp h => ?_⟩
  · have hexec (current : Bool) : exec (.coilSenseChange c current) s = .next (s.withCoil c (d.senseChange current)) :=
      hd ▸ rfl
    constructor <;> intro hs <;> rw [hexec]
    · rw [CoilDriver.senseChange_comes hs]
      rfl
    · rw [CoilDriver.senseChange_goes hs]
      rfl
  · rw [exec_openCoilIntervalExpiry hp h, coilFault_eq]
    rfl

/-! #### Feedback inputs (R102, R108, R115, R119) -/

theorem exec_feedbackInputChange {s : State} (hp : s.power = ⟨true, false⟩) {c : Contactor} {closed : Bool}
    (h : (s.seq.feedback.get c).raw = !closed) :
    exec (.feedbackInputChange c closed) s =
      .next (s.withFeedback c ⟨closed, (s.seq.feedback.get c).debounced,
        if closed = (s.seq.feedback.get c).debounced then none else some s.debounceTime⟩) := by
  simp [exec, execFeedbackInputChange, DebouncedInput.change, h, operating_of hp]

theorem exec_feedbackInputChange_same {s : State} {c : Contactor} {closed : Bool}
    (h : (s.seq.feedback.get c).raw = closed) : exec (.feedbackInputChange c closed) s = .next s := by
  have hset : s.withFeedback c (s.seq.feedback.get c) = s := by
    rw [State.withFeedback, PerContactor.set_get]
    rfl
  simp only [exec, execFeedbackInputChange, DebouncedInput.change, h, if_true, hset]

theorem exec_feedbackDebounceExpiry {s : State} {c : Contactor} (hp : s.power = ⟨true, false⟩)
    (h : (s.seq.feedback.get c).interval = some 0) :
    exec (.feedbackDebounceExpiry c) s =
      .next ((s.withFeedback c (s.seq.feedback.get c).settled).sequencerFeedback c (s.seq.feedback.get c).raw) := by
  simp only [exec, execFeedbackDebounceExpiry, operating_of hp, Bool.true_and, expired_iff, h, if_true]

section Feedback
variable {s : State} {c : Contactor} {closed : Bool}

theorem SeqStep.awaits_iff {st : SeqStep} : st.awaits c closed = true ↔ ∃ time, st = .awaitFb c closed time := by
  cases st <;> simp [SeqStep.awaits]

theorem feedbackLost_iff : s.feedbackLost c closed = true ↔
    (c = .mneg ∨ c = .mpos) ∧ closed = false ∧ (s.seq.coils.get c).state ≠ .off := by
  simp [State.feedbackLost, CoilDriver.driven, and_assoc]

theorem sequencerFeedback_rests (h : s.seq.state = .opened ∨ s.seq.state = .deferred ∨ s.seq.state = .tripped) :
    s.sequencerFeedback c closed = s := by
  rcases h with h | h | h <;> simp only [State.sequencerFeedback, h]

theorem sequencerFeedback_closed (h : s.seq.state = .closed) :
    s.sequencerFeedback c closed =
      if s.feedbackLost c closed = true then
        (s.record .feedbackLost (some c) .feedback s.seq.running none).orderlyOpen .feedback
      else s := by
  simp only [State.sequencerFeedback, h]

/-- R108, R115: the change a step waits for completes it. -/
theorem sequencerFeedback_awaited {r : Running} {time : Nat} (h : s.seq.state = .closing ∨ s.seq.state = .opening)
    (hr : s.runningStep = some r) (hstep : r.step = .awaitFb c closed time) :
    s.sequencerFeedback c closed = s.stepDone r := by
  have ha : r.step.awaits c closed = true := SeqStep.awaits_iff.mpr ⟨time, hstep⟩
  rcases h with h | h <;> simp only [State.sequencerFeedback, h, hr, ha, if_true]

theorem sequencerFeedback_unawaited (h : s.seq.state = .closing ∨ s.seq.state = .opening)
    (hr : ∀ r time, s.runningStep = some r → r.step ≠ .awaitFb c closed time) : s.sequencerFeedback c closed = s := by
  cases hrun : s.runningStep with
  | none => rcases h with h | h <;> simp only [State.sequencerFeedback, h, hrun]
  | some r =>
    have ha : ¬ r.step.awaits c closed = true := fun ha =>
      (SeqStep.awaits_iff.mp ha).elim fun time hstep => hr r time hrun hstep
    rcases h with h | h <;> simp only [State.sequencerFeedback, h, hrun, if_neg ha]

end Feedback

/-- Settles O38: a reading that changes and one that does not, the debounce time, and the end of the debounce in each
state of the sequencer. -/
theorem feedbackIsDebounced : Obligations.FeedbackIsDebounced := by
  refine ⟨fun s c closed hp h => exec_feedbackInputChange hp h, fun s c closed => exec_feedbackInputChange_same,
    fun s => ⟨fun w hw => ?_, fun hw => ?_⟩, fun s c hp h => ?_⟩
  iterate 2
    rw [State.debounceTime, hw]
    rfl
  intro raw s1
  rw [exec_feedbackDebounceExpiry hp h]
  refine ⟨fun hs => congrArg _ (sequencerFeedback_rests (s := s1) hs), fun hs => ?_, fun hs => ⟨?_, ?_⟩⟩
  · refine congrArg _ ((sequencerFeedback_closed (s := s1) hs).trans ?_)
    simp only [feedbackLost_iff]
    rfl
  · exact fun r time hr hstep => congrArg _ (sequencerFeedback_awaited (s := s1) hs hr hstep)
  · exact fun hr => congrArg _ (sequencerFeedback_unawaited (s := s1) hs hr)

/-! #### CLOSE (R110) -/

/-- R110: the checks see the state that the command finds. -/
theorem doClose_popCommand (s : State) (id : Nat) :
    State.doClose id s.popCommand =
      if s.tablesLoaded = false then refuse s.popCommand .noTables
      else if s.tables.engine = .activating then answer s.popCommand .busy
      else if s.sleep.power ≠ .active then refuse s.popCommand .state
      else if s.seq.state = .tripped then (s.popCommand, ⟨.refused .state, [s.tripCauseByte]⟩)
      else if s.seq.state ≠ .opened then answer s.popCommand .busy
      else
        match s.closeSequence id with
        | none => refuse s.popCommand .notAllowed
        | some q =>
          if s.lock.state = .unlocked ∨ s.lock.state = .acquiring then refuse s.popCommand .notLocked
          else if s.closeBlocked = true then refuse s.popCommand .blocked
          else (s.popCommand.startClose id q, .plain .accepted) := by
  unfold State.doClose
  simp only [Bool.not_eq_true']
  rfl

theorem closeSequence_none {s : State} {id : Nat} (h : s.sequence id = none ∨ s.activeProfile = none) :
    s.closeSequence id = none := by
  unfold State.closeSequence
  split
  · next hq hp => simp [hq, hp] at h
  · rfl

/-- R110: the sixth check. -/
theorem closeSequence_some {s : State} {id : Nat} {q : Sequence} {p : ProfileRecord} (hq : s.sequence id = some q)
    (hp : s.activeProfile = some p) :
    s.closeSequence id = if q.cls = .openSeq ∨ p.allowedClose.getLsbD id = false then none else some q := by
  simp only [State.closeSequence, hq, hp]
  by_cases hc : q.cls = .openSeq <;> by_cases ha : p.allowedClose.getLsbD id = true <;> simp [hc, ha]

/-- Settles O39: the checks of CLOSE in order, and the start of the sequence. -/
theorem closeChecks : Obligations.CloseChecks := by
  refine ⟨fun s c id h ha => ?_, fun s id q => rfl⟩
  rw [exec_body h ha rfl, doClose_popCommand]
  cases hq : s.sequence id with
  | none =>
    rw [closeSequence_none (.inl hq)]
    split_ifs <;> rfl
  | some q =>
    cases hp : s.activeProfile with
    | none =>
      rw [closeSequence_none (.inr hp)]
      split_ifs <;> rfl
    | some p =>
      rw [closeSequence_some hq hp]
      by_cases hcls : q.cls = .openSeq ∨ p.allowedClose.getLsbD id = false
      · simp only [if_pos hcls]
        split_ifs <;> rfl
      · simp only [if_neg hcls]
        split_ifs <;> rfl

end Sys2Proof.Machine
end

section
/-! ### The steps of a sequence, the step timer and the orderly open (R105, R107 to R109, R111 to R115) -/

namespace Sys2Proof.Machine

/-! #### Drives and releases (R100, R105) -/

theorem CoilDriver.release_state (d : CoilDriver) : d.release.state = .off :=
  CoilDriver.not_driven_iff.mp d.release_not_driven

theorem CoilDriver.release_of_driven {d : CoilDriver} (h : d.state ≠ .off) : d.release = .released d.sense :=
  if_pos (CoilDriver.driven_iff.mpr h)

theorem CoilDriver.release_of_off {d : CoilDriver} (h : d.state = .off) : d.release = d :=
  if_neg (by simp [CoilDriver.driven_iff, h])

theorem CoilDriver.drive_of_driven {d : CoilDriver} (h : d.state ≠ .off) (time : Nat) : d.drive time = d :=
  if_pos (CoilDriver.driven_iff.mpr h)

theorem CoilDriver.drive_of_off {d : CoilDriver} (h : d.state = .off) (time : Nat) :
    d.drive time = ⟨.pullIn, some (1000 * time), d.sense, if d.sense then none else some 5000, false⟩ := by
  simp [CoilDriver.drive, CoilDriver.driven_iff, h, ms, noCurrentInterval]

section Coils
variable {s : State}

theorem withSeq_coils_set_get (c : Contactor) :
    s.withSeq { s.seq with coils := s.seq.coils.set c (s.seq.coils.get c) } = s := by
  rw [PerContactor.set_get]
  rfl

theorem releaseCoil_of_ne_mneg {c : Contactor} (h : c ≠ .mneg) :
    s.releaseCoil c = s.withSeq { s.seq with coils := s.seq.coils.set c (s.seq.coils.get c).release } := by
  cases c with
  | mneg => exact absurd rfl h
  | mpos | pre | chg => rfl

theorem releaseCoil_get_same (c : Contactor) :
    (s.releaseCoil c).seq.coils.get c = (s.seq.coils.get c).release := by
  by_cases h : c = .mneg
  · subst h
    exact PerContactor.get_map ..
  · rw [releaseCoil_of_ne_mneg h]
    exact (PerContactor.get_set ..).trans (if_pos rfl)

theorem releaseCoil_get_other {c d : Contactor} (h : c ≠ .mneg) (hd : d ≠ c) :
    (s.releaseCoil c).seq.coils.get d = s.seq.coils.get d := by
  rw [releaseCoil_of_ne_mneg h]
  exact (PerContactor.get_set ..).trans (if_neg hd)

theorem releaseCoil_of_off {c : Contactor} (h : c ≠ .mneg) (hoff : (s.seq.coils.get c).state = .off) :
    s.releaseCoil c = s := by
  rw [releaseCoil_of_ne_mneg h, CoilDriver.release_of_off hoff, withSeq_coils_set_get]

theorem pullInTime_of_working {w : WorkingTables} (h : s.tables.working = some w) (c : Contactor) :
    s.pullInTime c = w.sequence.pullInTime.get c := by
  simp only [State.pullInTime, h]

theorem driveCoil_get_same (c : Contactor) :
    (s.driveCoil c).seq.coils.get c = (s.seq.coils.get c).drive (s.pullInTime c) :=
  (PerContactor.get_set ..).trans (if_pos rfl)

theorem driveCoil_of_driven {c : Contactor} (h : (s.seq.coils.get c).state ≠ .off) : s.driveCoil c = s := by
  rw [State.driveCoil, CoilDriver.drive_of_driven h, withSeq_coils_set_get]

theorem interlocked_iff {cls : SeqClass} {c : Contactor} : s.interlocked cls c = true ↔
    c ≠ .mneg ∧ s.seq.coils.mneg.state = .off ∨ c = .chg ∧ cls = .closeDrive := by
  simp [State.interlocked, State.mnegDriven, CoilDriver.not_driven_iff]

end Coils

/-! #### Running a close sequence (R107 to R109, R111) -/

section Closing
variable {s : State} {id i : Nat} {cls : SeqClass} {rest : List SeqStep}

theorem runClosing_drive_interlocked {c : Contactor} (h : s.interlocked cls c = true) :
    runClosing id cls (.drive c :: rest) i s = s.closeFailed id i (some c) .interlock := by
  rw [runClosing, if_pos h]

theorem runClosing_drive {c : Contactor} (h : ¬ s.interlocked cls c = true) :
    runClosing id cls (.drive c :: rest) i s = runClosing id cls rest (i + 1) (s.driveCoil c) := by
  rw [runClosing, if_neg h]

end Closing

/-- Settles O40: each step of a close sequence, and what a release and a drive do to the four coils. -/
theorem closeSequenceSteps : Obligations.CloseSequenceSteps := by
  refine ⟨fun s id i cls rest => ⟨fun c h => ?_, fun c hm hchg => ?_, fun c => rfl, fun time => rfl,
    fun c closed time => rfl, fun ratio time => rfl, rfl, fun c reason => rfl⟩, fun s => ⟨releaseAll_noCoilDriven s,
    fun c => ⟨?_, ?_⟩, fun c d hc hd => releaseCoil_get_other hc hd, fun c w hw hoff => ?_,
    fun c => driveCoil_of_driven, fun c => releaseCoil_of_off⟩⟩
  · exact runClosing_drive_interlocked (interlocked_iff.mpr h)
  · refine runClosing_drive fun hi => ?_
    rcases interlocked_iff.mp hi with ⟨hc, hoff⟩ | hc
    · exact hm.elim hc fun hdriven => hdriven hoff
    · exact hchg hc
  · rw [releaseCoil_get_same, CoilDriver.release_state]
  · rw [releaseCoil_get_same]
    by_cases hoff : (s.seq.coils.get c).state = .off
    · rw [if_pos hoff, CoilDriver.release_of_off hoff]
    · rw [if_neg hoff, CoilDriver.release_of_driven hoff]
      rfl
  · rw [driveCoil_get_same, CoilDriver.drive_of_off hoff, pullInTime_of_working hw]

/-! #### The current step and its timer (R107, R109, R111, R115) -/

section StepTimer
variable {s : State} {r : Running}

theorem runningStep_iff : s.runningStep = some r ↔
    s.seq.running = some r.id ∧ s.seq.step = some r.index ∧ s.sequence r.id = some r.seq ∧
      r.seq.steps[r.index]? = some r.step := by
  obtain ⟨id, q, i, st⟩ := r
  constructor
  · intro h
    unfold State.runningStep at h
    split at h
    · next id' i' hid hi =>
      split at h
      · exact nomatch h
      · next q' hq =>
        split at h
        · exact nomatch h
        · next st' hst =>
          obtain ⟨rfl, rfl, rfl, rfl⟩ := Running.mk.inj (Option.some.inj h)
          exact ⟨hid, hi, hq, hst⟩
    · exact nomatch h
  · rintro ⟨hid, hi, hq, hst⟩
    dsimp only at hid hi hq hst
    simp only [State.runningStep, hid, hi, hq, hst]

theorem exec_stepTimerExpiry (hp : s.power = ⟨true, false⟩) (ht : s.seq.stepTimer = some 0)
    (hr : s.runningStep = some r) : exec .stepTimerExpiry s = .next (s.stepTimerExpired r) := by
  simp only [exec, execStepTimerExpiry, operating_of hp, Bool.true_and, expired_iff, ht, if_true, hr]

theorem stepDone_closing (h : s.seq.state = .closing) :
    s.stepDone r = runClosing r.id r.seq.cls (r.seq.steps.drop (r.index + 1)) (r.index + 1)
      (s.withSeq { s.seq with stepTimer := none }) := by
  simp only [State.stepDone, h]

theorem stepDone_opening (h : s.seq.state = .opening) :
    s.stepDone r = runOpening (r.seq.steps.drop (r.index + 1)) (r.index + 1)
      (s.withSeq { s.seq with stepTimer := none }) := by
  simp only [State.stepDone, h]

/-- R115: an AWAIT_FB that times out in OPENING makes its contactor suspected of a weld. -/
theorem stepTimerExpired_weldSuspect {c : Contactor} {closed : Bool} {time : Nat}
    (hstep : r.step = .awaitFb c closed time) (h : s.seq.state = .opening) :
    s.stepTimerExpired r =
      ((s.record .weldSuspect (some c) .timeout (some 0) (some r.index)).withSeq
        { s.seq with weldSuspects := s.seq.weldSuspects.set c true }).stepDone r := by
  have hrec : (s.record .weldSuspect (some c) .timeout (some 0) (some r.index)).seq = s.seq := rfl
  simp only [State.stepTimerExpired, hstep, h, hrec]

end StepTimer

/-- Settles O41: the expiry at a step of each kind, how a completed step goes on, and which step is the current one. -/
theorem stepTimerExpires : Obligations.StepTimerExpires := by
  refine ⟨fun s r hp ht hr => ?_, fun s r => ⟨stepDone_closing, stepDone_opening, runningStep_iff⟩⟩
  rw [exec_stepTimerExpiry hp ht hr]
  refine ⟨fun t hstep => ?_, fun c closed t hstep => ⟨fun hs => ?_, fun hs => ?_⟩, fun ratio t hstep => ?_⟩
  · simp only [State.stepTimerExpired, hstep]
  · simp only [State.stepTimerExpired, hstep, hs]
  · rw [stepTimerExpired_weldSuspect hstep hs]
  · cases htest : s.precharge ratio <;> simp only [State.stepTimerExpired, hstep, htest]

/-! #### The orderly open and its deferral (R112 to R114) -/

section OrderlyOpen
variable {s : State} {cause : Cause}

theorem deferTimeout_of_working {w : WorkingTables} (h : s.tables.working = some w) :
    s.deferTimeout = w.sequence.deferTimeout := by
  simp only [State.deferTimeout, h]

theorem breakLimit_of_working {w : WorkingTables} (h : s.tables.working = some w) :
    s.breakLimit = w.sequence.breakLimit := by
  simp only [State.breakLimit, h]

theorem endStepIndex_of_running {id : Nat} {q : Sequence} (hr : s.seq.running = some id)
    (hq : s.sequence id = some q) : s.endStepIndex = some (q.steps.length - 1) := by
  simp only [State.endStepIndex, hr, hq, Option.map_some]

theorem orderlyOpen_rests (h : s.seq.state = .opened ∨ s.seq.state = .deferred ∨ s.seq.state = .opening ∨
    s.seq.state = .tripped) : s.orderlyOpen cause = s := by
  rcases h with h | h | h | h <;> simp only [State.orderlyOpen, h]

theorem exec_deferTimerExpiry (hp : s.power = ⟨true, false⟩) (ht : s.seq.deferTimer = some 0) :
    exec .deferTimerExpiry s = .next s.deferExpired := by
  simp only [exec, execDeferTimerExpiry, operating_of hp, Bool.true_and, expired_iff, ht, if_true]

/-- R113: the pack current is that of the newest record of a stream that is PRESENT. -/
theorem highCurrent_iff : s.highCurrent = true ↔
    s.current.stream = .present ∧
      ∃ newest, s.current.ring.getLast? = some newest ∧ s.breakLimit < newest.current.natAbs := by
  unfold State.highCurrent
  cases hstream : s.current.stream with
  | absent => simp [packCurrent_absent hstream]
  | present =>
    cases hnewest : s.current.ring.getLast? with
    | none => simp [State.packCurrent, State.newestRecord, hstream, hnewest]
    | some newest => simp [packCurrent_present hstream hnewest]

theorem deferralTest_starts (h : s.highCurrent = false) : s.deferralTest = s.startOpen :=
  if_neg (ne_true_of_eq_false h)

/-- R113, R114: above the break limit DEFERRED is entered, and left at the same event when the timeout is 0. -/
theorem deferralTest_defers (h : s.highCurrent = true) (hc : s.seq.openCause = some cause) :
    s.deferralTest =
      let deferred := (s.record .openDeferred none cause none none).withSeq
        { s.seq with
          state := .deferred, running := none, step := none, stepTimer := none
          deferTimer := some (1000 * s.deferTimeout) }
      if s.deferTimeout = 0 then deferred.deferExpired else deferred := by
  have hcause : s.openCauseOr = cause := by rw [State.openCauseOr, hc, Option.getD_some]
  rw [State.deferralTest, if_pos h, hcause]
  rfl

theorem orderlyOpen_eq (h : s.seq.state = .closing ∨ s.seq.state = .closed) :
    s.orderlyOpen cause =
      ((s.record .openCmd none cause s.seq.running
        (if s.seq.state = .closing then s.seq.step else s.endStepIndex)).withSeq
          { s.seq with stepTimer := none, openCause := some cause }).deferralTest := by
  have hrec (at' : Option Nat) : (s.record .openCmd none cause s.seq.running at').seq = s.seq := rfl
  rcases h with h | h <;> simp only [State.orderlyOpen, h, hrec, if_true, reduceCtorEq, if_false]

end OrderlyOpen

/-! #### The default open sequence (R111, R115) -/

section Opening
variable {s : State} {i : Nat} {rest : List SeqStep}

theorem startOpen_of_sequence {q : Sequence} (h : s.sequence 0 = some q) :
    s.startOpen =
      runOpening q.steps 0
        (s.withSeq
          { s.seq with
            state := .opening, running := some 0, step := some 0, stepTimer := none, deferTimer := none
            weldSuspects := noSuspects }) := by
  simp only [State.startOpen, State.openSteps, h]

theorem openEnd_noCoilDriven : (s.openEnd i).noCoilDriven = true := by
  unfold State.openEnd
  split <;> exact releaseAll_noCoilDriven s

theorem openEnd_unsuspected {cause : Cause} (hc : s.seq.openCause = some cause)
    (h : s.seq.weldSuspects = noSuspects) :
    s.openEnd i =
      (s.record .openDone none cause (some 0) (some i)).withSeq
        { s.seq with
          coils := s.seq.coils.map CoilDriver.release
          state := .opened, running := none, step := none, stepTimer := none, openCause := none
          deferTimer := none } := by
  have hcause : s.openCauseOr = cause := by rw [State.openCauseOr, hc, Option.getD_some]
  rw [State.openEnd, if_pos h, hcause]
  rfl

theorem openEnd_suspected (h : s.seq.weldSuspects ≠ noSuspects) :
    s.openEnd i =
      s.withSeq
        { s.seq with
          coils := s.seq.coils.map CoilDriver.release
          state := .tripped, tripCause := some .weld
          running := none, step := none, stepTimer := none, openCause := none, deferTimer := none } := by
  rw [State.openEnd, if_neg h]
  rfl

end Opening

/-- Settles O42: the orderly open in each state of the sequencer, the deferral, and the steps of the default open
sequence. -/
theorem orderlyOpenDefersUnderCurrent : Obligations.OrderlyOpenDefersUnderCurrent := by
  refine ⟨⟨fun s cause h => ?requested, fun s => exec_deferTimerExpiry, fun s h cause => orderlyOpen_rests h,
    fun s id q => endStepIndex_of_running, fun s w hw => ⟨deferTimeout_of_working hw, ?highCurrent⟩⟩,
    fun s q => startOpen_of_sequence, fun s i rest => ⟨fun c => rfl, fun time => rfl,
    fun c closed time => rfl, openEnd_noCoilDriven, fun cause => openEnd_unsuspected, openEnd_suspected⟩⟩
  case requested =>
    intro stepAt s1 s2
    have hopen : s.orderlyOpen cause = s1.deferralTest := orderlyOpen_eq h
    rw [hopen]
    refine ⟨fun hlow => deferralTest_starts (s := s1) hlow, fun hhigh htime => ?_, fun hhigh htime => ?_⟩
    · exact (deferralTest_defers (s := s1) hhigh rfl).trans (if_neg htime)
    · exact (deferralTest_defers (s := s1) hhigh rfl).trans (if_pos htime)
  case highCurrent => rw [highCurrent_iff, breakLimit_of_working hw]

end Sys2Proof.Machine
end

section
/-! ### UPD_ACTIVATE, its two writes and the reload (R176 to R179) -/

namespace Sys2Proof.Machine

section Activation
variable {s : State}

/-! #### The checks and the taking (R176, R177) -/

/-- R176: the checks see the state that the command finds. -/
theorem doUpdActivate_popCommand (s : State) :
    State.doUpdActivate () s.popCommand =
      match s.tables.engine with
      | .erasing | .programming | .verifying | .activating => answer s.popCommand .busy
      | .locked _ => refuse s.popCommand .locked
      | .idle => refuse s.popCommand (if s.tables.tamperLatch = true then .locked else .state)
      | .verified =>
        if s.tables.tamperLatch = true then refuse s.popCommand .locked
        else if s.sleep.power ≠ .active then refuse s.popCommand .state
        else if s.seq.state ≠ .opened ∧ s.seq.state ≠ .tripped then refuse s.popCommand .state
        else if s.activateForbidden = true then refuse s.popCommand .notAllowed
        else (s.popCommand.beginActivation, .plain .accepted) := by
  have hengine : s.popCommand.tables.engine = s.tables.engine := rfl
  unfold State.doUpdActivate
  rw [hengine]
  cases s.tables.engine with
  | idle => exact (apply_ite (refuse s.popCommand) ..).symm
  | _ => rfl

/-- R176: UPD_ACTIVATE is not allowed under an active profile that is not ACTIVATE_OK. -/
theorem activateForbidden_iff : s.activateForbidden = true ↔ ∃ p, s.activeProfile = some p ∧ p.activateOk = false := by
  cases hp : s.activeProfile <;> simp [State.activateForbidden, hp]

/-- The taking of UPD_ACTIVATE up to the ENTER requests, which it refuses, and the pointer write, which it begins. -/
def State.activationCancels (s : State) : State :=
  let s1 := (s.setEngine .activating).cancelDue
  let s2 := (s1.withSched { s1.sched with assembly := none }).withCurrent { s1.current with alignWait := none }
  s2.withChain { s2.chain with trims := List.replicate 20 none }

theorem beginActivation_eq :
    s.beginActivation =
      s.activationCancels.refuseEnters.withTables
        { s.activationCancels.refuseEnters.tables with operation := some ⟨.pointerWrite s.stagingSlot, 5000⟩ } := rfl

theorem refuseEnters_touches : Touches [.limits, .north] s s.refuseEnters := by simp

theorem beginActivation_tables :
    s.beginActivation.tables =
      { s.tables with engine := .activating, operation := some ⟨.pointerWrite s.stagingSlot, 5000⟩ } := by
  have htables : s.activationCancels.refuseEnters.tables = s.activationCancels.tables :=
    refuseEnters_touches .tables (by decide)
  rw [beginActivation_eq, htables]
  rfl

theorem beginActivation_sched :
    s.beginActivation.sched = { s.sched with due := [], held := [], waiting := none, assembly := none } :=
  refuseEnters_touches (s := s.activationCancels) .sched (by decide)

theorem beginActivation_alignWait : s.beginActivation.current.alignWait = none :=
  congrArg CurrentPort.alignWait (refuseEnters_touches (s := s.activationCancels) .current (by decide))

theorem beginActivation_chain :
    s.beginActivation.chain = { s.chain with trims := List.replicate 20 none } :=
  refuseEnters_touches (s := s.activationCancels) .chain (by decide)

/-- R144: the ENTER requests that are not yet taken are dropped. -/
theorem beginActivation_enterRequests : s.beginActivation.limits.enterRequests = [] :=
  congrArg LimitMonitor.enterRequests (refuseEnters_limits s.activationCancels)

theorem refuseEnters_entryFailed :
    s.refuseEnters.north.sticky.entryFailed =
      (s.north.sticky.entryFailed || !s.limits.enterRequests.isEmpty) := by
  rw [refuseEnters_north]
  cases s.limits.enterRequests <;> simp

theorem beginActivation_entryFailed :
    s.beginActivation.north.sticky.entryFailed =
      (s.north.sticky.entryFailed || !s.limits.enterRequests.isEmpty) :=
  refuseEnters_entryFailed (s := s.activationCancels)

/-! #### The two writes (R177, R179) -/

theorem finishedOp_of {op : ArrayOp} (hp : s.power.powered = true) (ho : s.tables.operation = some ⟨op, 0⟩) :
    s.finishedOp = some op := by
  simp only [State.finishedOp, hp, ho]

theorem exec_slotPointerWriteComplete {slot : Slot} (hp : s.power.powered = true)
    (ho : s.tables.operation = some ⟨.pointerWrite slot, 0⟩) :
    exec .slotPointerWriteComplete s = .next (s.pointerDone slot) := by
  simp only [exec, execSlotPointerWriteComplete, finishedOp_of hp ho]

theorem exec_counterWriteComplete {v : BitVec 32} {loading : Bool} (hp : s.power.powered = true)
    (ho : s.tables.operation = some ⟨.counterWrite v loading, 0⟩) :
    exec .counterWriteComplete s = .next (s.withTables { s.tables with counter := v, operation := none }) := by
  simp only [exec, execCounterWriteComplete, finishedOp_of hp ho]

/-- R177: in ACTIVATING the counter write follows, with the version of the image that the pointer now selects. -/
theorem pointerDone_activating {slot : Slot} (he : s.tables.engine = .activating) :
    s.pointerDone slot =
      s.withTables
        { s.tables with
          slotPointer := slot
          operation := some ⟨.counterWrite (readHeader s.tables.array slot).version false, 5000⟩ } :=
  if_pos he

/-- R179: outside ACTIVATING, no counter write follows. -/
theorem pointerDone_other {slot : Slot} (he : s.tables.engine ≠ .activating) :
    s.pointerDone slot = s.withTables { s.tables with slotPointer := slot, operation := none } :=
  if_neg he

/-! #### The reload (R178) -/

theorem exec_reload {w : WorkingTables} (hp : s.power = ⟨true, false⟩) (he : s.tables.engine = .activating)
    (ho : s.tables.operation = none) (ht : s.chain.transaction = none) (hw : s.activeTables = some w) :
    exec .reload s = .next (s.reload w) := by
  simp [exec, execReload, State.reloadDue, operating_of hp, he, ho, ht, hw]

/-- The reload up to what it begins: the tamper erase and the enumeration. -/
def State.reloaded (s : State) (w : WorkingTables) : State :=
  let s1 := s.loadTables w
  let s2 := s1.withStore { s1.store with records := [], openMark := false }
  let s3 := s2.withCurrent
    { s2.current with ring := [], stream := .absent, streamTimer := none, reference := none, alignWait := none }
  let s4 := s3.withSeq { s3.seq with feedback := s3.seq.feedback.map fun d => d.restart s3.debounceTime }
  s4.withTables
    { s4.tables with
      marks := allMarks
      lastVerification := .none
      engine := if s.tables.tamperLatch then .locked .tamper else .idle
      tamperErase := if s.tables.tamperLatch then some 0 else s.tables.tamperErase }

/-- The operation of the array that the reload leaves: the first block erase of the tamper erase, or none. -/
def State.reloadOperation (s : State) : Option ArrayOperation :=
  if s.tables.tamperLatch = true ∧ s.tables.startUp ≠ .waiting then
    some ⟨.erase s.stagingSlot.firstBlock true, 20000⟩
  else none

/-- R181: what the tamper erase does to an array that is free. -/
theorem kickTamper_free {block : Nat} (ho : s.tables.operation = none)
    (hb : s.tables.engine = .locked .tamper → s.tables.tamperErase = some block) :
    s.kickTamper =
      s.withTables
        { s.tables with
          operation :=
            if s.tables.engine = .locked .tamper ∧ s.tables.startUp ≠ .waiting then
              some ⟨.erase (s.stagingSlot.firstBlock + block) true, 20000⟩
            else none } := by
  split
  · next h => exact kickTamper_begins h.1 h.2 ho (hb h.1)
  · next h =>
    have hrests : s.tables.engine ≠ .locked .tamper ∨ s.tables.startUp = .waiting := by
      rwa [not_and_or, not_not] at h
    rw [withOperation_self ho.symm]
    exact kickTamper_rests (hrests.imp_right .inl)

theorem reloaded_engine_iff {w : WorkingTables} :
    (s.reloaded w).tables.engine = .locked .tamper ↔ s.tables.tamperLatch = true := by
  have hengine : (s.reloaded w).tables.engine = if s.tables.tamperLatch then .locked .tamper else .idle := rfl
  rw [hengine]
  cases s.tables.tamperLatch <;> simp

theorem reloaded_tamperErase {w : WorkingTables} (h : s.tables.tamperLatch = true) :
    (s.reloaded w).tables.tamperErase = some 0 :=
  if_pos h

theorem reloaded_startUp {w : WorkingTables} : (s.reloaded w).tables.startUp = s.tables.startUp := rfl

theorem reloaded_stagingSlot {w : WorkingTables} : (s.reloaded w).stagingSlot = s.stagingSlot := by
  have hpointer : (s.reloaded w).tables.slotPointer = s.tables.slotPointer := rfl
  rw [State.stagingSlot, hpointer, State.stagingSlot]

theorem reloaded_operation {w : WorkingTables} : (s.reloaded w).tables.operation = s.tables.operation := rfl

/-- R180, R181: with the tamper latch set the tamper erase begins at block 0. -/
theorem reloaded_kickTamper (w : WorkingTables) (ho : s.tables.operation = none) :
    (s.reloaded w).kickTamper =
      (s.reloaded w).withTables { (s.reloaded w).tables with operation := s.reloadOperation } := by
  rw [kickTamper_free (block := 0) (reloaded_operation.trans ho) fun h => reloaded_tamperErase (reloaded_engine_iff.mp h)]
  simp only [reloaded_engine_iff, reloaded_startUp, reloaded_stagingSlot, Nat.add_zero, State.reloadOperation]

/-- R178: the tables of the new active slot in force, the tamper erase begun or not, and ENUMERATE sent. -/
theorem reload_eq (w : WorkingTables) (ho : s.tables.operation = none) :
    s.reload w =
      ((s.reloaded w).withTables { (s.reloaded w).tables with operation := s.reloadOperation }).withChain
        { s.chain with enumeration := .running none, transaction := some ⟨.enumerate, .sending⟩ } := by
  have h : s.reload w = (s.reloaded w).kickTamper.sendEnumerate := rfl
  rw [h, reloaded_kickTamper w ho]
  rfl

theorem activeProfile_of_working {t : State} (hw : t.tables.working = s.tables.working)
    (hp : t.profiles = s.profiles) : t.activeProfile = s.activeProfile := by
  simp only [State.activeProfile, State.activeId, State.profileRecord, hw, hp]

theorem limitSet_of_working {t : State} (hw : t.tables.working = s.tables.working)
    (hp : t.profiles = s.profiles) : t.limitSet = s.limitSet := by
  rw [State.limitSet, hw, activeProfile_of_working hw hp, State.limitSet]

theorem activeSchedule_of_working {t : State} (hw : t.tables.working = s.tables.working)
    (hp : t.profiles = s.profiles) : t.activeSchedule = s.activeSchedule := by
  rw [State.activeSchedule, hw, activeProfile_of_working hw hp, State.activeSchedule]

section Loaded
variable {w : WorkingTables} (ho : s.tables.operation = none)
include ho

theorem reload_working : (s.reload w).tables.working = (s.loadTables w).tables.working := by
  rw [reload_eq w ho]
  rfl

theorem reload_profiles : (s.reload w).profiles = (s.loadTables w).profiles := by
  rw [reload_eq w ho]
  rfl

theorem reload_lock : (s.reload w).lock = (s.loadTables w).lock := by
  rw [reload_eq w ho]
  rfl

theorem reload_limits :
    (s.reload w).limits = { s.limits with runStates := (s.reload w).limitSet.map fun _ => ⟨.clear, 0, none⟩ } := by
  have hlimits : (s.reload w).limits = (s.loadTables w).limits := by
    rw [reload_eq w ho]
    rfl
  rw [limitSet_of_working (reload_working ho) (reload_profiles ho), hlimits, loadTables_limits]
  rfl

theorem reload_sched :
    (s.reload w).sched = { s.sched with counters := (s.reload w).activeSchedule.map fun _ => 0 } := by
  have hsched : (s.reload w).sched = (s.loadTables w).sched := by
    rw [reload_eq w ho]
    rfl
  rw [activeSchedule_of_working (reload_working ho) (reload_profiles ho), hsched, loadTables_sched]
  rfl

theorem reload_tables :
    (s.reload w).tables =
      { s.tables with
        working := some w
        loadResult := .loaded
        lastVerification := .none
        marks := allMarks
        engine := if s.tables.tamperLatch then .locked .tamper else .idle
        tamperErase := if s.tables.tamperLatch then some 0 else s.tables.tamperErase
        operation := s.reloadOperation } := by
  rw [reload_eq w ho]
  rfl

theorem reload_store : (s.reload w).store = { s.store with records := [], openMark := false } := by
  rw [reload_eq w ho]
  rfl

theorem reload_current :
    (s.reload w).current =
      { s.current with
        ring := [], stream := .absent, streamTimer := none, reference := none, alignWait := none } := by
  rw [reload_eq w ho]
  rfl

theorem reload_chain :
    (s.reload w).chain =
      { s.chain with enumeration := .running none, transaction := some ⟨.enumerate, .sending⟩ } := by
  rw [reload_eq w ho]
  rfl

end Loaded

end Activation

/-- Settles O54: the checks of UPD_ACTIVATE, what its taking begins, the two writes, and the reload. -/
theorem activation : Obligations.Activation := by
  refine ⟨fun s c h ha => ?checks, fun s => activateForbidden_iff,
    fun s => ⟨beginActivation_tables, beginActivation_sched, beginActivation_alignWait, beginActivation_chain,
      beginActivation_enterRequests, beginActivation_entryFailed, by simp⟩,
    fun s slot hp he ho => ?pointer, fun s slot hp he ho => ?pointerAfterReset,
    fun s v loading => exec_counterWriteComplete, fun s w p hp he ho ht hw hbase => ?reload⟩
  case checks =>
    rw [exec_body h ha rfl, doUpdActivate_popCommand]
    cases s.tables.engine with
    | verified => dsimp only; split_ifs <;> rfl
    | _ => rfl
  case pointer =>
    rw [exec_slotPointerWriteComplete hp ho, pointerDone_activating he]
  case pointerAfterReset =>
    rw [exec_slotPointerWriteComplete hp ho, pointerDone_other he]
  case reload =>
    obtain ⟨hchain, hlock⟩ := loadTables_base (s := s) hbase
    have hseq := reload_seq s w
    refine ⟨s.reload w, exec_reload hp he ho ht hw, reload_tables ho, ?profiles, ?lock, reload_store ho,
      reload_current ho, reload_limits ho, reload_sched ho, fun c => ?feedback, ?seq, reload_chain ho, by simp⟩
    case profiles => rw [reload_profiles ho, hchain]
    case lock => rw [reload_lock ho, hlock]
    case feedback =>
      rw [hseq]
      exact PerContactor.get_map ..
    case seq => rw [hseq]

end Sys2Proof.Machine
end

section
/-! ### The profile chain: what the working tables give, and the parts of the invariant (R135, R138, R142, R145) -/

namespace Sys2Proof.Machine

/-! #### Tables that may be loaded (R135, R174) -/

/-- The tables pass the reference checks, and their base profile is of class NORMAL. -/
structure WorkingTables.Loadable (w : WorkingTables) : Prop where
  resolve : w.resolve = true
  base : ∃ p, w.baseProfile = some p ∧ p.watch = false

theorem WorkingTables.resolve_iff {w : WorkingTables} :
    w.resolve = true ↔
      (∀ l ∈ w.limitSets, ∀ e ∈ l, e.enter = true → definedAs w.profiles e.enterTarget false = true) ∧
      (∀ p ∈ w.profiles, p.resolves w = true) ∧ (w.profiles.map (·.id)).Nodup ∧
      (w.profiles.filter (·.base)).length = 1 := by
  simp [WorkingTables.resolve, distinctIds_iff, and_assoc, imp_iff_not_or]

theorem readTables_resolve {version : BitVec 32} {image : List Byte} {dir : List DirEntry} {w : WorkingTables}
    (h : readTables version image dir = some w) : w.resolve = true := by
  unfold readTables at h
  dsimp only at h
  repeat' split at h
  any_goals cases h
  assumption

/-- R135: what reads may be loaded. -/
theorem readTables_loadable {version : BitVec 32} {image : List Byte} {dir : List DirEntry} {w : WorkingTables}
    (h : readTables version image dir = some w) : w.Loadable := by
  obtain ⟨⟨-, -, -, -, -, -, hbase, hprofiles⟩, -⟩ := readTables_sound h
  refine ⟨readTables_resolve h, ?_⟩
  obtain ⟨p, hp⟩ := List.exists_mem_of_length_pos (Nat.lt_of_lt_of_eq Nat.one_pos hbase.symm)
  obtain ⟨hmem, hmark⟩ := List.mem_filter.mp hp
  obtain ⟨b, hb⟩ := Option.isSome_iff_exists.mp (List.find?_isSome.mpr ⟨p, hmem, hmark⟩)
  obtain ⟨-, -, -, -, -, -, -, -, hnormal, -⟩ := hprofiles b (List.mem_of_find?_eq_some hb)
  exact ⟨b, hb, hnormal (List.find?_some hb)⟩

theorem checkImage_loadable {secret : List Byte} {mem : List Host.Cell} {slot : Slot} {versionOk : BitVec 32 → Bool}
    {w : WorkingTables} (h : checkImage secret mem slot versionOk = .ok w) : w.Loadable := by
  unfold checkImage at h
  dsimp only at h
  repeat' split at h
  any_goals cases h
  next hread => exact readTables_loadable hread

theorem activeTables_loadable {s : State} {w : WorkingTables} (h : s.activeTables = some w) : w.Loadable := by
  unfold State.activeTables at h
  dsimp only at h
  split at h
  · cases h
  · exact readTables_loadable h

/-- R12: the fine adjusts have no part in the references between the tables. -/
theorem WorkingTables.Loadable.withModules {w : WorkingTables} (h : w.Loadable) (modules : List ModuleEntry) :
    (w.withModules modules).Loadable := ⟨h.resolve, h.base⟩

/-! #### What the working tables define (R135) -/

section Records
variable {s t : State} {w : WorkingTables}

theorem profileRecord_of_mem (hw : s.tables.working = some w) (hr : w.resolve = true) {p : ProfileRecord}
    (hp : p ∈ w.profiles) : s.profileRecord p.id = some p := by
  obtain ⟨-, -, hids, -⟩ := WorkingTables.resolve_iff.mp hr
  simp only [State.profileRecord, hw]
  refine List.find?_eq_some_iff_append.mpr ⟨beq_self_eq_true _, ?_⟩
  obtain ⟨before, after, hsplit⟩ := List.append_of_mem hp
  refine ⟨before, after, hsplit, fun q hq => ?_⟩
  rw [hsplit, List.map_append, List.map_cons] at hids
  have hne := (List.nodup_append.mp hids).2.2 q.id (List.mem_map_of_mem hq) p.id List.mem_cons_self
  simpa using hne

theorem profileRecord_of_definedAs (hw : s.tables.working = some w) (hr : w.resolve = true) {id : Nat} {watch : Bool}
    (hd : definedAs w.profiles id watch = true) : ∃ r, s.profileRecord id = some r ∧ r.watch = watch := by
  obtain ⟨p, hp, rfl, hwatch⟩ := (definedAs_iff _ _ _).mp hd
  exact ⟨p, profileRecord_of_mem hw hr hp, hwatch⟩

theorem mem_profiles_of_profileRecord {id : Nat} {p : ProfileRecord} (h : s.profileRecord id = some p) :
    ∃ w, s.tables.working = some w ∧ p ∈ w.profiles := by
  unfold State.profileRecord at h
  split at h
  · cases h
  · next w hw => exact ⟨w, hw, List.mem_of_find?_eq_some h⟩

theorem profileRecord_of_working (h : t.tables.working = s.tables.working) (id : Nat) :
    t.profileRecord id = s.profileRecord id := by
  simp only [State.profileRecord, h]

theorem normal_of_working (h : t.tables.working = s.tables.working) (id : Nat) : t.normal id ↔ s.normal id := by
  simp only [State.normal, profileRecord_of_working h]

/-- A profile of class WATCH is none of class NORMAL. -/
theorem State.normal.ne_of_watching {p q : Nat} (hp : s.normal p) (hq : s.watching q) : p ≠ q := by
  rintro rfl
  obtain ⟨r, hr, hnormal⟩ := hp
  obtain ⟨r', hr', hwatch⟩ := hq
  obtain rfl := Option.some.inj (hr.symm.trans hr')
  exact Bool.false_ne_true (hnormal.symm.trans hwatch)

theorem State.normal.working_ne_none {p : Nat} (h : s.normal p) : s.tables.working ≠ none := by
  obtain ⟨r, hr, -⟩ := h
  obtain ⟨w, hw, -⟩ := mem_profiles_of_profileRecord hr
  simp [hw]

theorem tablesLoaded_iff : s.tablesLoaded = true ↔ s.tables.working ≠ none := by
  simp [State.tablesLoaded, Option.isSome_iff_ne_none]

/-- R135: the watch profile that an active profile names is of class WATCH. -/
theorem watching_of_watchProfile (hr : ∀ w, s.tables.working = some w → w.resolve = true) {p : ProfileRecord}
    (hp : s.activeProfile = some p) {id : Nat} (hid : p.watchProfile = some id) : s.watching id := by
  unfold State.activeProfile at hp
  split at hp
  · cases hp
  obtain ⟨w, hw, hmem⟩ := mem_profiles_of_profileRecord hp
  obtain ⟨-, hprofiles, -⟩ := WorkingTables.resolve_iff.mp (hr w hw)
  have hres := hprofiles p hmem
  simp only [ProfileRecord.resolves, hid, Bool.and_eq_true] at hres
  exact profileRecord_of_definedAs hw (hr w hw) hres.2

end Records

/-! #### The ENTER requests of an evaluation (R88, R90) -/

theorem mem_of_mem_tripped {es : List LimitEntry} {x : Nat × LimitEntry} :
    ∀ {k : Nat} {as bs : List RunState}, x ∈ tripped k es as bs → x.2 ∈ es := by
  induction es with
  | nil => simp [tripped]
  | cons e es ih =>
    intro k as bs h
    match as, bs with
    | [], _ => simp [tripped] at h
    | _ :: _, [] => simp [tripped] at h
    | a :: as, b :: bs =>
      rw [tripped] at h
      split at h
      · rcases List.mem_cons.mp h with rfl | h
        · exact List.mem_cons_self
        · exact List.mem_cons_of_mem _ (ih h)
      · exact List.mem_cons_of_mem _ (ih h)

theorem mem_limitSet {s : State} {e : LimitEntry} (h : e ∈ s.limitSet) :
    ∃ w, s.tables.working = some w ∧ ∃ l ∈ w.limitSets, e ∈ l := by
  unfold State.limitSet at h
  split at h
  · next w p hw _ =>
    rw [List.getD_eq_getElem?_getD] at h
    cases hl : w.limitSets[p.limitSetId]? with
    | none => simp [hl] at h
    | some l =>
      rw [hl] at h
      exact ⟨w, hw, l, List.mem_of_getElem? hl, h⟩
  · cases h

/-- R90: an evaluation asks for NORMAL profiles only. -/
theorem evaluationActions_normal {s : State} (hr : ∀ w, s.tables.working = some w → w.resolve = true)
    {entries : List RoundEntry} {r : EnterRequest} (h : r ∈ (s.evaluationActions entries).enters) :
    s.normal r.profile := by
  rw [evaluationActions_enters] at h
  obtain ⟨⟨i, e⟩, hx, rfl⟩ := List.mem_map.mp h
  obtain ⟨htrip, henter⟩ := List.mem_filter.mp hx
  obtain ⟨w, hw, l, hl, he⟩ := mem_limitSet (mem_of_mem_tripped htrip)
  obtain ⟨hentries, -⟩ := WorkingTables.resolve_iff.mp (hr w hw)
  exact profileRecord_of_definedAs hw (hr w hw) (hentries l hl e he henter)

/-! #### The parts of the invariant (R138, R142, R145) -/

/-- The power states of deep sleep (R152). -/
def PowerState.deep : PowerState → Bool
  | .asleep | .watchRound | .waking => true
  | .active | .sleepPending => false

theorem deepSleep_eq (s : State) : s.deepSleep = s.sleep.power.deep := by
  unfold State.deepSleep
  cases s.sleep.power <;> rfl

/-- Nothing is sampled: nothing is due, held, waiting or in assembly. -/
structure ScheduleEngine.Quiet (q : ScheduleEngine) : Prop where
  due : q.due = []
  held : q.held = []
  waiting : q.waiting = none
  assembly : q.assembly = none

/-- What the commands rely on, part by part. -/
structure Steady (s : State) : Prop where
  resolves : ∀ w, s.tables.working = some w → w.resolve = true
  requests : ∀ r ∈ s.limits.enterRequests, s.normal r.profile
  unloaded : s.tables.working = none → s.profiles.chain = []
  loading : s.tables.startUp ≠ .ended →
    s.tables.working = none ∧ s.sleep.power = .active ∧ s.tables.engine ≠ .activating
  activating : s.tables.engine = .activating →
    s.sleep.power = .active ∧ s.limits.enterRequests = [] ∧ s.sched.Quiet

/-- Without tables no profile can be asked for. -/
theorem enterRequests_unloaded {s : State} (hr : ∀ r ∈ s.limits.enterRequests, s.normal r.profile)
    (hw : s.tables.working = none) : s.limits.enterRequests = [] :=
  List.eq_nil_iff_forall_not_mem.mpr fun r hmem => (hr r hmem).working_ne_none hw

theorem tablesSteady_iff {s : State} : TablesSteady s ↔ Steady s := by
  constructor
  · rintro ⟨hres, hreq, hun, hload, hact⟩
    refine ⟨hres, hreq, fun hw => (hun hw).1, hload, fun he => ?_⟩
    obtain ⟨hp, hr, hd, hh, hw, ha⟩ := hact he
    exact ⟨hp, hr, hd, hh, hw, ha⟩
  · rintro ⟨hres, hreq, hun, hload, hact⟩
    refine ⟨hres, hreq, fun hw => ⟨hun hw, enterRequests_unloaded hreq hw⟩, hload, fun he => ?_⟩
    obtain ⟨hp, hr, hd, hh, hw, ha⟩ := hact he
    exact ⟨hp, hr, hd, hh, hw, ha⟩

/-- The profiles below the active one: distinct, NORMAL, and with a saved context each (R142). -/
structure Waiting (s : State) (below : List ChainElement) : Prop where
  distinct : (below.map (·.profile)).Nodup
  normal : ∀ e ∈ below, s.normal e.profile
  saved : ∀ e ∈ below, e.saved.isSome = true

/-- A profile that is active, in a power state, over those below it (R138, R145). -/
structure ActiveOver (s : State) (power : PowerState) (a : ChainElement) (below : List ChainElement) : Prop where
  depth : below.length ≤ 3
  pending : power = .sleepPending → below.length ≤ 2
  asleep : power.deep = true → below ≠ [] ∧ s.watching a.profile
  awake : power.deep = false → s.normal a.profile
  fresh : a.saved = none
  apart : ∀ e ∈ below, e.profile ≠ a.profile
  waiting : Waiting s below

/-- The invariant for a chain with an active profile. -/
theorem chainSafe_cons_iff {s : State} {a : ChainElement} {below : List ChainElement}
    (hc : s.profiles.chain = a :: below) : ChainSafe s ↔ ActiveOver s s.sleep.power a below ∧ Steady s := by
  rw [ChainSafe, tablesSteady_iff, State.dayChain, State.depth, deepSleep_eq, hc]
  constructor
  · rintro ⟨hd, hpend, hdeep, -, hnd, hday, hhead, hbelow, hsteady⟩
    rw [List.map_cons, List.nodup_cons] at hnd
    refine ⟨⟨Nat.le_of_succ_le_succ hd, fun hp => Nat.le_of_succ_le_succ (hpend hp), fun hp => ?_, fun hp => ?_,
      hhead a rfl, fun e he heq => hnd.1 (List.mem_map.mpr ⟨e, he, heq⟩), hnd.2, fun e he => ?_, hbelow⟩, hsteady⟩
    · obtain ⟨hlen, hwatch⟩ := hdeep hp
      exact ⟨fun hnil => by simp [hnil] at hlen, hwatch a rfl⟩
    · exact hday a (by simp [hp])
    · refine hday e ?_
      split
      · exact he
      · exact List.mem_cons_of_mem a he
  · rintro ⟨⟨hd, hpend, hdeep, hawake, hfresh, hapart, hnd, hnormal, hsaved⟩, hsteady⟩
    refine ⟨Nat.succ_le_succ hd, fun hp => Nat.succ_le_succ (hpend hp), fun hp => ?_, fun _ => Nat.succ_pos _,
      ?_, ?_, ?_, hsaved, hsteady⟩
    · obtain ⟨hne, hwatch⟩ := hdeep hp
      refine ⟨Nat.succ_le_succ (List.length_pos_iff.mpr hne), fun e he => ?_⟩
      obtain rfl := Option.some.inj he
      exact hwatch
    · rw [List.map_cons, List.nodup_cons]
      refine ⟨fun hm => ?_, hnd⟩
      obtain ⟨e, he, heq⟩ := List.mem_map.mp hm
      exact hapart e he heq
    · split
      · exact hnormal
      · next hp => exact List.forall_mem_cons.mpr ⟨hawake (Bool.not_eq_true _ ▸ hp), hnormal⟩
    · rintro e he
      obtain rfl := Option.some.inj he
      exact hfresh

/-- The invariant for an empty chain. -/
theorem chainSafe_nil {s : State} (hc : s.profiles.chain = []) (hw : s.tables.working = none)
    (hp : s.sleep.power = .active) (hs : Steady s) : ChainSafe s := by
  have hl : ¬ s.tablesLoaded = true := fun h => tablesLoaded_iff.mp h hw
  have hdeep : ¬ s.deepSleep = true := by simp [deepSleep_eq, hp, PowerState.deep]
  refine ⟨?_, fun _ => ?_, fun h => absurd h hdeep, fun h => absurd h hl, ?_, ?_, ?_, ?_, tablesSteady_iff.mpr hs⟩
  all_goals simp [State.depth, State.dayChain, hc]

theorem ChainSafe.steady {s : State} (h : ChainSafe s) : Steady s := by
  obtain ⟨-, -, -, -, -, -, -, -, hs⟩ := h
  exact tablesSteady_iff.mp hs

theorem ChainSafe.activeOver {s : State} (h : ChainSafe s) {a : ChainElement} {below : List ChainElement}
    (hc : s.profiles.chain = a :: below) : ActiveOver s s.sleep.power a below := ((chainSafe_cons_iff hc).mp h).1

end Sys2Proof.Machine
end

section
/-! ### The profile chain: what leaves it alone, and the commits (R137 to R148) -/

namespace Sys2Proof.Machine

/-- The power state stays, or moves inside deep sleep. -/
def PowerKept (s t : State) : Prop := t.sleep.power = s.sleep.power ∨ s.deepSleep = true ∧ t.deepSleep = true

/-- Every block that has no part in the safety of the chain. -/
abbrev Block.besideProfiles : List Block :=
  [.power, .north, .chain, .timebase, .lock, .store, .current, .seq, .events, .freeIndex, .pending]

section PowerKept
variable {s t : State}

theorem PowerKept.deepSleep (h : PowerKept s t) : t.deepSleep = s.deepSleep := by
  rcases h with h | ⟨hs, ht⟩
  · rw [deepSleep_eq, deepSleep_eq, h]
  · rw [hs, ht]

/-- Outside deep sleep the power state stays. -/
theorem PowerKept.eq_of_awake (h : PowerKept s t) (ht : t.deepSleep = false ∨ s.deepSleep = false) :
    t.sleep.power = s.sleep.power := by
  rcases h with h | ⟨hs, ht'⟩
  · exact h
  · simp [hs, ht'] at ht

theorem deepSleep_eq_false_iff :
    s.deepSleep = false ↔ s.sleep.power = .active ∨ s.sleep.power = .sleepPending := by
  rw [deepSleep_eq]
  cases s.sleep.power <;> simp [PowerState.deep]

end PowerKept

namespace ChainSafe
variable {s t : State}

theorem ite {p : Prop} [Decidable p] (ht : ChainSafe s) (hu : ChainSafe t) : ChainSafe (if p then s else t) := by
  split <;> assumption

/-- R152: nothing is activated in deep sleep. -/
theorem engine_of_deepSleep (h : ChainSafe s) (hd : s.deepSleep = true) : s.tables.engine ≠ .activating := fun he => by
  obtain ⟨hp, -, -⟩ := h.steady.activating he
  rw [deepSleep_eq_false_iff.mpr (.inl hp)] at hd
  cases hd

/-- R177: during ACTIVATING nothing is sampled. -/
theorem quiet (h : ChainSafe s) (he : s.tables.engine = .activating) : s.sched.Quiet := (h.steady.activating he).2.2

theorem engine_of_assembly (h : ChainSafe s) {r : Round} (hr : s.sched.assembly = some r) :
    s.tables.engine ≠ .activating := fun he => by
  rw [(h.quiet he).assembly] at hr
  cases hr

theorem engine_of_waiting (h : ChainSafe s) {w : TakenTrigger} (hw : s.sched.waiting = some w) :
    s.tables.engine ≠ .activating := fun he => by
  rw [(h.quiet he).waiting] at hw
  cases hw

/-- R182: nothing sleeps before loading has ended. -/
theorem working_of_cons (h : ChainSafe s) {a : ChainElement} {below : List ChainElement}
    (hc : s.profiles.chain = a :: below) : s.tables.working ≠ none := fun hw => by
  rw [h.steady.unloaded hw] at hc
  cases hc

/-- The invariant stays where the chain, the records and the power state stay and the tables are steady. -/
theorem of_steady (h : ChainSafe s) (hp : t.profiles = s.profiles) (hr : ∀ id, t.profileRecord id = s.profileRecord id)
    (hl : t.tablesLoaded = s.tablesLoaded) (hk : PowerKept s t) (ht : Steady t) : ChainSafe t := by
  have hnormal (id : Nat) : t.normal id ↔ s.normal id := by simp only [State.normal, hr]
  have hwatching (id : Nat) : t.watching id ↔ s.watching id := by simp only [State.watching, hr]
  obtain ⟨hdepth, hpend, hdeep, hloaded, hnd, hday, hhead, hbelow, -⟩ := h
  have hpending (hs : t.sleep.power = .sleepPending) : s.sleep.power = .sleepPending :=
    hk.eq_of_awake (.inl (deepSleep_eq_false_iff.mpr (.inr hs))) ▸ hs
  rw [ChainSafe, tablesSteady_iff, State.depth, State.dayChain, hp, hk.deepSleep, hl]
  simp only [hnormal, hwatching]
  exact ⟨hdepth, fun hs => hpend (hpending hs), hdeep, hloaded, hnd, hday, hhead, hbelow, ht⟩

/-- What may change about the tables, the power state, the requests and the schedule. -/
theorem carry (h : ChainSafe s) (hp : t.profiles = s.profiles) (hw : t.tables.working = s.tables.working)
    (hs : t.tables.startUp ≠ .ended → s.tables.startUp ≠ .ended) (hk : PowerKept s t)
    (he : t.tables.engine = .activating → s.tables.engine = .activating)
    (hr : ∀ r ∈ t.limits.enterRequests, s.normal r.profile)
    (hq : t.tables.engine = .activating → t.limits.enterRequests = [] ∧ t.sched.Quiet) : ChainSafe t := by
  obtain ⟨hres, -, hun, hload, hact⟩ := h.steady
  have hactive (ha : s.sleep.power = .active) : t.sleep.power = .active :=
    (hk.eq_of_awake (.inr (deepSleep_eq_false_iff.mpr (.inl ha)))).trans ha
  refine h.of_steady hp (profileRecord_of_working hw) (by rw [State.tablesLoaded, hw, State.tablesLoaded]) hk
    ⟨hw ▸ hres, fun r hm => (normal_of_working hw _).mpr (hr r hm), fun hn => ?_, fun hn => ?_, fun ha => ?_⟩
  · rw [hp]
    exact hun (hw ▸ hn)
  · obtain ⟨hnone, ha, hne⟩ := hload (hs hn)
    exact ⟨hw.trans hnone, hactive ha, fun ht => hne (he ht)⟩
  · exact ⟨hactive (hact (he ha)).1, hq ha⟩

/-! #### What each block may do -/

/-- What leaves the chain, the tables, the requests, the power state and the schedule alone keeps the chain safe. -/
theorem beside (h : ChainSafe s) (ht : Touches Block.besideProfiles s t) : ChainSafe t := by
  have htables : t.tables = s.tables := ht .tables (by decide)
  have hlimits : t.limits = s.limits := ht .limits (by decide)
  have hsched : t.sched = s.sched := ht .sched (by decide)
  have hsleep : t.sleep = s.sleep := ht .sleep (by decide)
  refine h.carry (ht .profiles (by decide)) (by rw [htables]) (by rw [htables]; exact id) (.inl (by rw [hsleep]))
    (by rw [htables]; exact id) (by rw [hlimits]; exact h.steady.requests) fun ha => ?_
  rw [hlimits, hsched]
  exact (h.steady.activating (htables ▸ ha)).2

/-- R41, R48: the schedule may change outside ACTIVATING. -/
theorem sampling (h : ChainSafe s) (he : s.tables.engine ≠ .activating)
    (ht : Touches (.sched :: Block.besideProfiles) s t) : ChainSafe t := by
  have htables : t.tables = s.tables := ht .tables (by decide)
  have hlimits : t.limits = s.limits := ht .limits (by decide)
  have hsleep : t.sleep = s.sleep := ht .sleep (by decide)
  exact h.carry (ht .profiles (by decide)) (by rw [htables]) (by rw [htables]; exact id) (.inl (by rw [hsleep]))
    (by rw [htables]; exact id) (by rw [hlimits]; exact h.steady.requests) fun ha => absurd (htables ▸ ha) he

/-- R152: in deep sleep the power state may move, and the schedule change. -/
theorem sleeping (h : ChainSafe s) (hd : s.deepSleep = true)
    (ht : Touches (.sleep :: .sched :: Block.besideProfiles) s t) (hd' : t.deepSleep = true) : ChainSafe t := by
  have htables : t.tables = s.tables := ht .tables (by decide)
  have hlimits : t.limits = s.limits := ht .limits (by decide)
  exact h.carry (ht .profiles (by decide)) (by rw [htables]) (by rw [htables]; exact id) (.inr ⟨hd, hd'⟩)
    (by rw [htables]; exact id) (by rw [hlimits]; exact h.steady.requests)
    fun ha => absurd (htables ▸ ha) (h.engine_of_deepSleep hd)

/-- R48: nothing more can become due by a cancelling. -/
theorem cancelDue (h : ChainSafe s) : ChainSafe s.cancelDue :=
  h.carry rfl rfl id (.inl rfl) id h.steady.requests fun ha =>
    ⟨(h.steady.activating ha).2.1, rfl, rfl, rfl, (h.quiet ha).assembly⟩

theorem withSleep (h : ChainSafe s) {x : SleepController} (hp : x.power = s.sleep.power := by rfl) :
    ChainSafe (s.withSleep x) :=
  h.carry rfl rfl id (.inl hp) id h.steady.requests fun ha => (h.steady.activating ha).2

/-- R88, R90: the requests may become fewer. -/
theorem withLimits (h : ChainSafe s) {x : LimitMonitor}
    (hr : x.enterRequests ⊆ s.limits.enterRequests := by exact List.Subset.refl _) : ChainSafe (s.withLimits x) :=
  h.carry rfl rfl id (.inl rfl) id (fun r hm => h.steady.requests r (hr hm)) fun ha =>
    ⟨List.subset_nil.mp ((h.steady.activating ha).2.1 ▸ hr), h.quiet ha⟩

/-- R177, R182: the tables stay, loading stays ended and no activation begins. -/
theorem withTables (h : ChainSafe s) {x : TableStore} (hw : x.working = s.tables.working := by rfl)
    (hs : x.startUp ≠ .ended → s.tables.startUp ≠ .ended := by exact id)
    (he : x.engine = .activating → s.tables.engine = .activating := by exact id) : ChainSafe (s.withTables x) :=
  h.carry rfl hw hs (.inl rfl) he h.steady.requests fun ha => (h.steady.activating (he ha)).2

/-- R90: an evaluation outside ACTIVATING asks for NORMAL profiles. -/
theorem evaluate (h : ChainSafe s) (he : s.tables.engine ≠ .activating) {entries : List RoundEntry} :
    ChainSafe (s.evaluate entries) := by
  have ht := touches_evaluated s entries
  have htables : (s.evaluate entries).tables = s.tables := ht .tables (by decide)
  have hsleep : (s.evaluate entries).sleep = s.sleep := ht .sleep (by decide)
  refine h.carry (ht .profiles (by decide)) (by rw [htables]) (by rw [htables]; exact id) (.inl (by rw [hsleep]))
    (by rw [htables]; exact id) (fun r hm => ?_) fun ha => absurd (htables ▸ ha) he
  rw [evaluate_limits] at hm
  rcases List.mem_append.mp hm with hm | hm
  · exact h.steady.requests r hm
  · exact evaluationActions_normal h.steady.resolves (List.mem_of_mem_take hm)

/-! #### A chain that changes at its head (R140 to R145) -/

/-- The invariant of a changed chain, with tables loaded and outside ACTIVATING. -/
theorem rechain (h : ChainSafe s) (hw : s.tables.working ≠ none) (he : s.tables.engine ≠ .activating)
    (ht : t.tables = s.tables) (hr : t.limits.enterRequests ⊆ s.limits.enterRequests) {a : ChainElement}
    {below : List ChainElement} (hc : t.profiles.chain = a :: below) (ha : ActiveOver s t.sleep.power a below) :
    ChainSafe t := by
  have hrecord := profileRecord_of_working (s := s) (t := t) (by rw [ht])
  have hnormal (id : Nat) : t.normal id ↔ s.normal id := by simp only [State.normal, hrecord]
  have hwatching (id : Nat) : t.watching id ↔ s.watching id := by simp only [State.watching, hrecord]
  obtain ⟨hdepth, hpend, hdeep, hawake, hfresh, hapart, hdistinct, hbelow, hsaved⟩ := ha
  refine (chainSafe_cons_iff hc).mpr ⟨⟨hdepth, hpend, fun hp => ?_, fun hp => (hnormal _).mpr (hawake hp),
    hfresh, hapart, hdistinct, fun e hm => (hnormal _).mpr (hbelow e hm), hsaved⟩, by rw [ht]; exact h.steady.resolves,
    fun r hm => (hnormal _).mpr (h.steady.requests r (hr hm)), fun hn => absurd (ht ▸ hn) hw,
    fun hn => absurd (h.steady.loading (ht ▸ hn)).1 hw, fun hn => absurd (ht ▸ hn) he⟩
  exact ⟨(hdeep hp).1, (hwatching _).mpr (hdeep hp).2⟩

end ChainSafe

/-! #### The active profile and those below it, before and after a commit -/

namespace ActiveOver
variable {s : State} {power : PowerState} {a b : ChainElement} {below : List ChainElement}

/-- R140: another profile takes the place of the active one. -/
theorem switched (h : ActiveOver s .active b below) {p : Nat} (hp : s.normal p) (ha : ∀ e ∈ below, e.profile ≠ p)
    (cause : Cause) : ActiveOver s .active ⟨p, cause, none⟩ below :=
  ⟨h.depth, nofun, nofun, fun _ => hp, rfl, ha, h.waiting⟩

/-- R142: the active profile, its context saved, joins those below. -/
theorem saved (h : ActiveOver s power b below) (hd : power.deep = false) (context : SavedContext) :
    Waiting s ({ b with saved := some context } :: below) := by
  refine ⟨?_, List.forall_mem_cons.mpr ⟨h.awake hd, h.waiting.normal⟩, List.forall_mem_cons.mpr ⟨rfl, h.waiting.saved⟩⟩
  rw [List.map_cons, List.nodup_cons]
  refine ⟨fun hm => ?_, h.waiting.distinct⟩
  obtain ⟨e, he, heq⟩ := List.mem_map.mp hm
  exact h.apart e he heq

/-- R141: a NORMAL profile that is not busy is placed above the active one. -/
theorem entered (h : ActiveOver s .active b below) {p : Nat} (hp : s.normal p) (hb : b.profile ≠ p)
    (ha : ∀ e ∈ below, e.profile ≠ p) (hd : below.length ≤ 2) (cause : Cause) (context : SavedContext) :
    ActiveOver s .active ⟨p, cause, none⟩ ({ b with saved := some context } :: below) :=
  ⟨Nat.succ_le_succ hd, nofun, nofun, fun _ => hp, rfl, List.forall_mem_cons.mpr ⟨hb, ha⟩, h.saved rfl context⟩

/-- R145, R156: a watch profile is placed above the active one; being of class WATCH it is not busy. -/
theorem asleepUnder (h : ActiveOver s .sleepPending b below) {w : Nat} (hw : s.watching w) (context : SavedContext) :
    ActiveOver s .asleep ⟨w, .sleep, none⟩ ({ b with saved := some context } :: below) := by
  have hwait := h.saved rfl context
  exact ⟨Nat.succ_le_succ (h.pending rfl), nofun, fun _ => ⟨nofun, hw⟩, nofun, rfl,
    fun e he => (hwait.normal e he).ne_of_watching hw, hwait⟩

/-- R143, R164: the profile below the active one becomes active again, its context consumed. -/
theorem returned (h : ActiveOver s power a (b :: below)) : ActiveOver s .active { b with saved := none } below := by
  obtain ⟨hdistinct, hnormal, hsaved⟩ := h.waiting
  rw [List.map_cons, List.nodup_cons] at hdistinct
  refine ⟨Nat.le_of_succ_le h.depth, nofun, nofun, fun _ => hnormal b List.mem_cons_self, rfl, fun e he heq => ?_,
    hdistinct.2, fun e he => hnormal e (List.mem_cons_of_mem _ he), fun e he => hsaved e (List.mem_cons_of_mem _ he)⟩
  exact hdistinct.1 (List.mem_map.mpr ⟨e, he, heq⟩)

end ActiveOver

/-- R139: what the checks of a SWITCH or of an ENTER of any cause have found. -/
theorem of_profileCheck {s : State} {p : Nat} {classCheck depthCheck : Bool}
    (h : s.profileCheck p classCheck depthCheck = none) :
    s.tablesLoaded = true ∧ s.tables.engine ≠ .activating ∧ s.sleep.power = .active ∧
      (∃ r, s.profileRecord p = some r ∧ (classCheck = true → r.watch = false)) ∧ s.busy p = false ∧
      (depthCheck = true → s.depth < 4) := by
  unfold State.profileCheck at h
  split at h
  · cases h
  next hgate =>
  obtain ⟨hl, he, hp⟩ := profileGate_eq_none_iff.mp hgate
  split at h
  · cases h
  next r hr =>
  split_ifs at h with hclass hbusy hdepth
  refine ⟨hl, he, hp, ⟨r, hr, fun hc => ?_⟩, by simpa using hbusy, fun hd => ?_⟩
  · simpa [hc] using hclass
  · simpa [hd] using hdepth

theorem busy_eq_false_iff {s : State} {p : Nat} :
    s.busy p = false ↔ ∀ e ∈ s.profiles.chain, e.profile ≠ p := by
  simp [State.busy]

namespace ChainSafe
variable {s t : State}

theorem exists_cons (h : ChainSafe s) (hl : s.tablesLoaded = true) : ∃ a below, s.profiles.chain = a :: below := by
  obtain ⟨-, -, -, hloaded, -⟩ := h
  exact List.exists_cons_of_length_pos (hloaded hl)

/-- A commit outside ACTIVATING that leaves a fitting chain keeps the chain safe. -/
theorem commitTo (h : ChainSafe s) (hw : s.tables.working ≠ none) (he : s.tables.engine ≠ .activating)
    {a : ChainElement} {below : List ChainElement} (ha : ActiveOver s s.sleep.power a below) (context : SavedContext) :
    ChainSafe (s.commitTo (a :: below) context) := by
  have hsleep : (s.commitTo (a :: below) context).sleep = s.sleep := touches_commitTo s _ _ .sleep (by decide)
  exact h.rechain hw he (commitTo_tables s _ _) (by rw [commitTo_limits]; exact List.Subset.refl _)
    (congrArg ProfileController.chain (commitTo_profiles s _ _)) (hsleep ▸ ha)

/-- R140: a SWITCH that passes its checks. -/
theorem switchCommit (h : ChainSafe s) {p : Nat} (hc : s.profileCheck p true false = none) :
    ChainSafe (s.switchCommit p) := by
  obtain ⟨hl, he, hp, ⟨r, hr, hclass⟩, hbusy, -⟩ := of_profileCheck hc
  obtain ⟨b, below, hchain⟩ := h.exists_cons hl
  have hover := h.activeOver hchain
  rw [busy_eq_false_iff, hchain, List.forall_mem_cons] at hbusy
  rw [switchCommit_eq, hchain]
  refine h.commitTo (tablesLoaded_iff.mp hl) he ?_ _
  rw [hp] at hover ⊢
  exact hover.switched ⟨r, hr, hclass rfl⟩ hbusy.2 _

/-- R141, R144: an ENTER of a NORMAL profile that passes its checks. -/
theorem enterCommit (h : ChainSafe s) {p : Nat} {classCheck : Bool} (hc : s.profileCheck p classCheck true = none)
    (hn : s.normal p) (cause : Cause) : ChainSafe (s.enterCommit p cause) := by
  obtain ⟨hl, he, hp, -, hbusy, hdepth⟩ := of_profileCheck hc
  obtain ⟨b, below, hchain⟩ := h.exists_cons hl
  have hover := h.activeOver hchain
  have hlen := hdepth rfl
  rw [State.depth, hchain, List.length_cons] at hlen
  rw [busy_eq_false_iff, hchain, List.forall_mem_cons] at hbusy
  rw [enterCommit_eq, savedChain_cons hchain]
  refine h.commitTo (tablesLoaded_iff.mp hl) he ?_ _
  rw [hp] at hover ⊢
  exact hover.entered hn hbusy.1 hbusy.2 (by omega) _ _

/-- R143: a RETURN in ACTIVE, outside ACTIVATING. -/
theorem returnCommit (h : ChainSafe s) (he : s.tables.engine ≠ .activating) (hp : s.sleep.power = .active) :
    ChainSafe s.returnCommit := by
  rcases hchain : s.profiles.chain with _ | ⟨a, _ | ⟨b, below⟩⟩
  case cons.cons =>
    have hover := h.activeOver hchain
    obtain ⟨context, hb⟩ := Option.isSome_iff_exists.mp (hover.waiting.saved b List.mem_cons_self)
    rw [returnCommit_eq hchain hb]
    exact h.commitTo (h.working_of_cons hchain) he (hp ▸ hover.returned) _
  all_goals
    simp only [State.returnCommit, hchain]
    exact h

/-- R144: a limit entry is taken, or refused. -/
theorem takeEnterRequest (h : ChainSafe s) {r : EnterRequest} (hn : s.normal r.profile) :
    ChainSafe (s.takeEnterRequest r) := by
  unfold State.takeEnterRequest
  split
  · exact h.beside (by simp)
  · next hc => exact h.enterCommit hc hn _

/-- R90, R144: the requests are refused. -/
theorem refuseEnters (h : ChainSafe s) : ChainSafe s.refuseEnters :=
  h.ite ((h.withLimits (x := { s.limits with enterRequests := [] }) (List.nil_subset _)).beside (by simp))

/-! #### Sleep entry and the end of WAKING (R145, R153, R156, R164) -/

/-- R156: the watch profile is entered, and the part is ASLEEP. -/
theorem completeEntry (h : ChainSafe s) (hp : s.sleep.power = .sleepPending) {a : ProfileRecord}
    (ha : s.activeProfile = some a) {w : Nat} (hw : a.watchProfile = some w) : ChainSafe (s.completeEntry w) := by
  have hwatch := watching_of_watchProfile h.steady.resolves ha hw
  have ht : Touches [.lock, .current, .timebase, .sleep] (s.enterCommit w .sleep) (s.completeEntry w) := by
    simp [State.completeEntry]
  have htables : (s.completeEntry w).tables = s.tables :=
    (ht .tables (by decide)).trans (enterCommit_tables s w .sleep)
  have hlimits : (s.completeEntry w).limits = (s.enterCommit w .sleep).limits := ht .limits (by decide)
  have hprofiles := (ht .profiles (by decide)).trans (enterCommit_profiles s w .sleep)
  have hworking : s.tables.working ≠ none := by
    obtain ⟨r, hr, -⟩ := hwatch
    obtain ⟨t, ht, -⟩ := mem_profiles_of_profileRecord hr
    simp [ht]
  obtain ⟨b, below, hchain⟩ := h.exists_cons (tablesLoaded_iff.mpr hworking)
  have hover := h.activeOver hchain
  rw [savedChain_cons hchain] at hprofiles
  refine h.rechain hworking (fun he => ?_) htables ?_ (congrArg ProfileController.chain hprofiles)
    ((hp ▸ hover).asleepUnder hwatch _)
  · exact absurd (hp.symm.trans (h.steady.activating he).1) nofun
  · rw [hlimits, enterCommit_limits]
    exact List.Subset.refl _

/-- R164: the profile that slept is active again. -/
theorem endWaking (h : ChainSafe s) (hp : s.sleep.power = .waking) : ChainSafe s.endWaking := by
  have hd : s.deepSleep = true := by rw [deepSleep_eq, hp]; rfl
  obtain ⟨a, below, hchain⟩ : ∃ a below, s.profiles.chain = a :: below := by
    obtain ⟨-, -, hdeep, -⟩ := h
    exact List.exists_cons_of_length_pos (Nat.lt_of_lt_of_le Nat.zero_lt_two (hdeep hd).1)
  have hover := h.activeOver hchain
  obtain ⟨hne, -⟩ := hover.asleep (by rw [hp]; rfl)
  obtain ⟨b, below, rfl⟩ := List.exists_cons_of_ne_nil hne
  obtain ⟨context, hb⟩ := Option.isSome_iff_exists.mp (hover.waiting.saved b List.mem_cons_self)
  rw [endWaking_eq hchain hb]
  have htables : (s.refuseEnters.commitTo ({ b with saved := none } :: below) context).tables = s.tables :=
    (commitTo_tables _ _ _).trans (refuseEnters_touches .tables (by decide))
  have hrequests : (s.refuseEnters.commitTo ({ b with saved := none } :: below) context).limits.enterRequests = [] := by
    rw [commitTo_limits, refuseEnters_limits]
  have hprofiles := commitTo_profiles s.refuseEnters ({ b with saved := none } :: below) context
  exact h.rechain (h.working_of_cons hchain) (h.engine_of_deepSleep hd) htables
    (List.Subset.trans (List.subset_nil.mpr hrequests) (List.nil_subset _)) (congrArg ProfileController.chain hprofiles)
    hover.returned

/-- R153, R154: SLEEP is taken with a place left in the chain for the watch profile. -/
theorem doSleep (h : ChainSafe s) {a : Unit} : ChainSafe (State.doSleep a s).1 := by
  unfold State.doSleep
  split
  · exact h
  next hactive =>
  split_ifs with hengine hpower _ _ hdepth
  iterate 5 exact h
  have hne : s.tables.engine ≠ .activating := by
    simp only [Bool.or_eq_true, beq_iff_eq, not_or] at hengine
    exact hengine.2
  rcases hchain : s.profiles.chain with _ | ⟨b, below⟩
  · simp [State.activeProfile, State.activeId, hchain] at hactive
  rw [State.depth, hchain, List.length_cons] at hdepth
  have hover := h.activeOver hchain
  rw [not_not.mp hpower] at hover
  refine h.rechain (h.working_of_cons hchain) hne rfl (List.Subset.refl _) hchain ?_
  exact ⟨hover.depth, fun _ => by omega, nofun, fun _ => hover.awake rfl, hover.fresh, hover.apart, hover.waiting⟩

end ChainSafe

end Sys2Proof.Machine
end

section
/-! ### The profile chain: what the operations keep (R138, R142, R145) -/

namespace Sys2Proof.Machine

/-- The chain is safe, and the part is in deep sleep, where nothing is activated. -/
structure SlumberSafe (s : State) : Prop where
  safe : ChainSafe s
  deep : s.deepSleep = true

/-! #### Waking and watch passes (R155 to R164) -/

namespace SlumberSafe
variable {s : State}

theorem beside {t : State} (h : SlumberSafe s) (ht : Touches (.sched :: Block.besideProfiles) s t) : SlumberSafe t := by
  have hsleep : t.sleep = s.sleep := ht .sleep (by decide)
  have hdeep : t.deepSleep = true := by rw [deepSleep_eq, hsleep, ← deepSleep_eq, h.deep]
  exact ⟨h.safe.sleeping h.deep (ht.mono (by simp)) hdeep, hdeep⟩

theorem withSleep (h : SlumberSafe s) {x : SleepController} (hx : x.power.deep = true) : SlumberSafe (s.withSleep x) :=
  ⟨h.safe.sleeping h.deep (by simp) ((deepSleep_eq _).trans hx), (deepSleep_eq _).trans hx⟩

theorem withSleep_same (h : SlumberSafe s) {x : SleepController} (hx : x.power = s.sleep.power := by rfl) :
    SlumberSafe (s.withSleep x) := h.withSleep (by rw [hx, ← deepSleep_eq, h.deep])

theorem ite {t : State} {p : Prop} [Decidable p] (ht : SlumberSafe s) (hu : SlumberSafe t) :
    SlumberSafe (if p then s else t) := by
  split <;> assumption

theorem claimLink (h : SlumberSafe s) {f : SleepFrame} : SlumberSafe (s.claimLink f) := h.beside (by simp)

theorem enterWaking (h : SlumberSafe s) : SlumberSafe s.enterWaking := by
  have hw : SlumberSafe s.wakingBegun :=
    (h.withSleep (x := { s.sleep with power := .waking, watchTimer := none }) rfl).beside (by simp [State.wakingBegun])
  cases hc : s.sleep.chainSleep with
  | awake => rwa [enterWaking_chainAwake hc]
  | asleep =>
    rw [enterWaking_chainAsleep hc]
    exact hw.claimLink

theorem noteCause (h : SlumberSafe s) {c : WakeCause} {b : Bool} : SlumberSafe (s.noteCause c b) := h.withSleep_same

theorem setWakePending (h : SlumberSafe s) : SlumberSafe s.setWakePending := h.withSleep_same

theorem wakeCause (h : SlumberSafe s) {c : WakeCause} : SlumberSafe (s.wakeCause c) := by
  unfold State.wakeCause
  split
  iterate 2 exact h
  · exact h.noteCause.enterWaking
  · exact h.noteCause
  · dsimp only
    split
    · exact h.noteCause.setWakePending
    · split
      · exact h.noteCause.enterWaking
      · exact h.noteCause.setWakePending

theorem countPass (h : SlumberSafe s) : SlumberSafe s.countPass :=
  h.ite (h.withSleep_same.wakeCause.ite h.withSleep_same)

theorem completePass (h : SlumberSafe s) : SlumberSafe s.completePass :=
  h.countPass.enterWaking.ite h.countPass.claimLink

theorem watchPass (h : SlumberSafe s) : SlumberSafe s.watchPass := by
  have hmade : SlumberSafe (s.withSleep { s.sleep with passMade := true }) := h.withSleep_same
  unfold State.watchPass
  dsimp only
  split
  · exact (hmade.beside (by simp)).completePass
  · exact hmade.beside (by simp)

theorem watchRoundOffered (h : SlumberSafe s) {wake : Bool} : SlumberSafe (s.watchRoundOffered wake) := by
  unfold State.watchRoundOffered
  extract_lets s1
  have h1 : SlumberSafe s1 := h.wakeCause.ite h
  split
  · exact (h1.beside (t := s1.cancelDue) (by simp)).completePass
  · split
    · exact h1.completePass
    · exact h1.beside (t := s1.takeHeld) (by simp)

end SlumberSafe

namespace ChainSafe
variable {s : State}

theorem slumber (h : ChainSafe s) (hp : s.sleep.power.deep = true) : SlumberSafe s := ⟨h, (deepSleep_eq s).trans hp⟩

/-- R161: a cause acts in deep sleep only. -/
theorem wakeCause (h : ChainSafe s) {c : WakeCause} : ChainSafe (s.wakeCause c) := by
  cases hd : s.deepSleep with
  | true => exact (SlumberSafe.wakeCause ⟨h, hd⟩).safe
  | false => rwa [wakeCause_awake c (deepSleep_eq_false_iff.mp hd)]

theorem detectChange (h : ChainSafe s) {m : ModuleTable} {high : Bool} : ChainSafe (s.detectChange m high) := by
  unfold State.detectChange
  split
  · exact h.withSleep
  · exact h.wakeCause.ite h

theorem claimLink (h : ChainSafe s) {f : SleepFrame} : ChainSafe (s.claimLink f) := h.beside (by simp)

theorem wakeSent (h : ChainSafe s) {forEnumeration : Bool} : ChainSafe (s.wakeSent forEnumeration) := by
  have h1 : ChainSafe (s.setChainSleep .awake) := h.withSleep
  refine (h1.beside (by simp)).ite ?_
  dsimp only
  split
  · next hwakes =>
    obtain ⟨hp, -⟩ := (Bool.and_eq_true _ _).mp hwakes
    exact (h1.withSleep.slumber (by rw [eq_of_beq hp]; rfl)).enterWaking.safe
  · exact h1.withSleep

theorem sleepSent (h : ChainSafe s) : ChainSafe s.sleepSent := by
  unfold State.sleepSent
  extract_lets s1
  have h1 : ChainSafe s1 := h.withSleep
  split
  · next hp =>
    have hs := h1.slumber (by rw [hp]; rfl)
    exact hs.enterWaking.safe.ite (hs.withSleep rfl).safe
  all_goals exact h1

/-! #### Rounds and current records (R45 to R57, R63 to R76) -/

/-- R55, R160: the round in assembly leaves it. -/
theorem leaveAssembly (h : ChainSafe s) (he : s.tables.engine ≠ .activating) {r : Round} {wake : Bool} :
    ChainSafe (s.leaveAssembly r wake) := by
  by_cases hp : s.sleep.power = .watchRound
  · rw [leaveAssembly_watchRound r wake hp]
    exact ((h.slumber (by rw [hp]; rfl)).beside ((touches_offered s r).mono (by simp))).watchRoundOffered.safe
  · rw [leaveAssembly_takeHeld r wake hp]
    exact h.sampling he (by simp [State.offered])

theorem finishAligning (h : ChainSafe s) (he : s.tables.engine ≠ .activating) {r : Round} {entries : List RoundEntry} :
    ChainSafe (s.finishAligning r entries) := by
  rw [finishAligning_eq]
  generalize entries.map s.compensateEntry = done
  have h1 : ChainSafe (s.alignmentEnded r done) := h.beside ((touches_alignmentEnded s r done).mono (by simp))
  have htables : ((s.alignmentEnded r done).evaluate done).tables = s.tables :=
    touches_evaluated _ _ .tables (by decide)
  exact (h1.leaveAssembly he).ite ((h1.evaluate he).leaveAssembly (by rwa [htables]))

theorem enterAligning (h : ChainSafe s) (he : s.tables.engine ≠ .activating) {r : Round} :
    ChainSafe (s.enterAligning r) :=
  ((h.finishAligning he).ite (h.sampling he (by simp))).ite (h.finishAligning he)

theorem realign (h : ChainSafe s) : ChainSafe s.realign := by
  unfold State.realign
  split
  · exact h
  · next hr =>
    have he := h.engine_of_assembly hr
    split
    · exact (h.sampling he (by simp)).ite (h.finishAligning he)
    all_goals exact h

theorem continueCollecting (h : ChainSafe s) : ChainSafe s.continueCollecting := by
  unfold State.continueCollecting
  split
  · exact h
  · next hr =>
    split
    · split
      · exact h.beside (by simp)
      · exact h.enterAligning (h.engine_of_assembly hr)
    all_goals exact h

theorem readEnded (h : ChainSafe s) {p : Nat} {o : ReadOutcome} : ChainSafe (s.readEnded p o) := by
  unfold State.readEnded
  split
  · exact h
  · next hr =>
    split
    · exact (h.sampling (h.engine_of_assembly hr) (by simp)).continueCollecting
    all_goals exact h

theorem sendTrigger (h : ChainSafe s) (he : s.tables.engine ≠ .activating) {w : TakenTrigger} {e : ScheduleEntry} :
    ChainSafe (s.sendTrigger w e) := by
  unfold State.sendTrigger
  dsimp only
  split
  · exact h.sampling he (by simp)
  · exact (h.sampling he (by simp)).enterAligning (by exact he)

theorem sequencerStreamAbsent (h : ChainSafe s) : ChainSafe s.sequencerStreamAbsent := h.beside (by simp)

theorem sequencerRecord (h : ChainSafe s) : ChainSafe s.sequencerRecord := h.beside (by simp)

theorem recordArrives (h : ChainSafe s) {m : ModuleTable} {bytes : List Byte} : ChainSafe (s.recordArrives m bytes) := by
  unfold State.recordArrives
  split
  · exact h.beside (by simp)
  · exact (h.beside (by simp)).realign.sequencerRecord.ite (h.beside (by simp))

/-! #### The chain link (R14 to R17, R19) -/

theorem frameSent (h : ChainSafe s) {f : ChainFrame} : ChainSafe (s.frameSent f) := by
  have he : ChainSafe s.endTransaction := h.beside (by simp)
  unfold State.frameSent
  split
  · exact he.wakeSent
  · exact he.sleepSent
  · exact he.continueCollecting
  iterate 2 exact h.beside (by simp)
  · exact (he.beside (by simp)).ite (h.beside (by simp))

theorem transactionEnded (h : ChainSafe s) {f : ChainFrame} {o : TxnOutcome} : ChainSafe (s.transactionEnded f o) := by
  have he : ChainSafe s.endTransaction := h.beside (by simp)
  unfold State.transactionEnded
  split
  · exact he.beside (by simp)
  · exact he.readEnded
  · exact he.beside (by simp)
  all_goals exact h

theorem frameEnds (h : ChainSafe s) {rx : ChainRx} : ChainSafe (s.frameEnds rx) := by
  have hended (f : ChainFrame) : ChainSafe (s.transactionEnded f (replyOutcome f rx)).arbitrate :=
    (h.transactionEnded (f := f) (o := replyOutcome f rx)).beside (by simp)
  unfold State.frameEnds
  split
  · exact hended _
  · exact (h.beside (by simp)).ite (hended _)
  all_goals exact h.beside (by simp)

/-! #### The sync lock and the north link (R25 to R36, R42) -/

/-- R41: no frame starts during ACTIVATING. -/
theorem frameStart (h : ChainSafe s) {a : Stamp} {l : Nat} : ChainSafe (s.frameStart a l) := by
  by_cases he : s.tables.engine = .activating
  · have hrests : s.actsOnFrames = false := by simp [State.actsOnFrames, he]
    rwa [State.frameStart, if_neg (by simp [hrests])]
  · exact h.sampling he (by simp)

theorem withLock (h : ChainSafe s) {x : SyncLock} : ChainSafe (s.withLock x) := h.beside (by simp)

theorem orderlyOpen (h : ChainSafe s) {c : Cause} : ChainSafe (s.orderlyOpen c) := h.beside (by simp)

theorem lockLoss (h : ChainSafe s) : ChainSafe s.lockLoss := h.withLock.cancelDue.orderlyOpen

theorem closeWindow (h : ChainSafe s) {a : Stamp} : ChainSafe (s.closeWindow a) := by
  unfold State.closeWindow
  split
  · exact h.withLock.frameStart
  · exact h.withLock.frameStart.ite h.lockLoss
  all_goals exact h

theorem acquire (h : ChainSafe s) {a b : Stamp} : ChainSafe (s.acquire a b) :=
  (h.withLock.frameStart.ite h.withLock).ite h.withLock

/-- R32, R34: a SYNC is early, accepted, or behind the window. -/
theorem judged (h : ChainSafe s) {a b : Stamp} {late : State} (hl : ChainSafe late) {early within : Prop}
    [Decidable early] [Decidable within] :
    ChainSafe (if early then s.setStraySync else if within then s.acceptSync a b else late) :=
  (h.beside (by simp)).ite (h.withLock.frameStart.ite hl)

theorem judgeSync (h : ChainSafe s) {n : Nat} {a : Stamp} : ChainSafe (judgeSync n a s) := by
  induction n generalizing s with
  | zero =>
    unfold Machine.judgeSync
    dsimp only
    split
    · exact h.withLock
    · exact h.acquire
    iterate 3 exact h.withLock
    all_goals exact h.judged h
  | succ n ih =>
    unfold Machine.judgeSync
    dsimp only
    split
    · exact h.withLock
    · exact h.acquire
    iterate 3 exact h.withLock
    all_goals exact h.judged (ih h.closeWindow)

theorem frameComplete (h : ChainSafe s) {a : Stamp} {bytes : List Byte} : ChainSafe (s.frameComplete a bytes) := by
  unfold State.frameComplete
  split
  · exact h.beside (by simp)
  · unfold State.routeFrame
    split
    · exact h.judgeSync.ite h
    · have hr : ChainSafe s.reportCommand := h.withSleep.ite h
      exact (hr.beside (by simp)).ite (hr.beside (by simp))
    · exact h.beside (by simp)
    all_goals exact h

/-! #### The table store (R167 to R181) -/

theorem kickTamper (h : ChainSafe s) : ChainSafe s.kickTamper := by
  unfold State.kickTamper
  split
  · exact h.withTables.ite h
  · exact h

theorem lockTamper (h : ChainSafe s) : ChainSafe s.lockTamper := (h.withTables (he := by simp)).kickTamper

theorem tamperAssertion (h : ChainSafe s) : ChainSafe s.tamperAssertion := by
  have hlatch : ChainSafe (s.withTables { s.tables with tamperLatch := true }) := h.withTables
  refine ChainSafe.wakeCause ?_
  unfold State.tamperEngine
  split
  iterate 2 exact hlatch.withTables (he := nofun)
  iterate 3 exact hlatch.lockTamper
  · exact hlatch.withTables.lockTamper
  all_goals exact hlatch

theorem eraseDone (h : ChainSafe s) {block : Nat} {tamper : Bool} : ChainSafe (s.eraseDone block tamper) :=
  (h.withTables (he := afterWork_activating)).kickTamper

theorem programDone (h : ChainSafe s) {address : Nat} {bytes : List Byte} : ChainSafe (s.programDone address bytes) :=
  (h.withTables (he := afterWork_activating)).kickTamper

theorem verified (h : ChainSafe s) {o : Except VerifyReason WorkingTables} : ChainSafe (s.verified o) := by
  unfold State.verified
  split
  · exact h.withTables (he := nofun)
  · exact h.withTables (he := by dsimp only; split <;> nofun)

theorem pointerDone (h : ChainSafe s) {slot : Slot} : ChainSafe (s.pointerDone slot) :=
  h.withTables.withTables.ite h.withTables

/-- R12: a trim changes no profile and no reference between the tables. -/
theorem setTrim (h : ChainSafe s) {w : WorkingTables} (hw : s.tables.working = some w) {place : Nat} {v : Int} :
    ChainSafe (s.setTrim w place v) := by
  have hrecord (id : Nat) : (s.setTrim w place v).profileRecord id = s.profileRecord id := by
    simp only [State.profileRecord, hw]
    rfl
  have hne : s.tables.working ≠ none := by simp [hw]
  obtain ⟨hres, hreq, -, hload, hact⟩ := h.steady
  refine h.of_steady rfl hrecord (congrArg Option.isSome hw).symm (.inl rfl)
    ⟨fun u hu => ?_, fun r hr => ?_, nofun, fun hs => absurd (hload hs).1 hne, hact⟩
  · obtain rfl := Option.some.inj hu
    exact hres w hw
  · rw [State.normal, hrecord]
    exact hreq r hr

/-- R176, R177: the taking of UPD_ACTIVATE stops the sampling and drops the requests. -/
theorem beginActivation (h : ChainSafe s) (hs : s.tables.startUp = .ended) (hp : s.sleep.power = .active) :
    ChainSafe s.beginActivation := by
  have ht : Touches [.north, .chain, .sched, .current, .limits, .tables] s s.beginActivation := by simp
  have hsleep : s.beginActivation.sleep = s.sleep := ht .sleep (by decide)
  have hprofiles : s.beginActivation.profiles = s.profiles := ht .profiles (by decide)
  have htables := beginActivation_tables (s := s)
  have hworking : s.beginActivation.tables.working = s.tables.working := by rw [htables]
  refine h.of_steady hprofiles (profileRecord_of_working hworking) (by rw [State.tablesLoaded, hworking]; rfl)
    (.inl (by rw [hsleep])) ⟨hworking ▸ h.steady.resolves, ?_, fun hn => ?_, fun hn => ?_, fun _ => ⟨?_, ?_, ?_⟩⟩
  · simp [beginActivation_enterRequests]
  · rw [hprofiles]
    exact h.steady.unloaded (hworking ▸ hn)
  · rw [htables] at hn
    exact absurd hs hn
  · rw [hsleep, hp]
  · exact beginActivation_enterRequests
  · rw [beginActivation_sched]
    exact ⟨rfl, rfl, rfl, rfl⟩

end ChainSafe

/-! #### Loading, resets, power and time (R21, R22, R151, R167, R177, R182) -/

/-- R151: without tables the chain is empty. -/
theorem chainSafe_unloaded {s : State} (hc : s.profiles.chain = []) (hw : s.tables.working = none)
    (hp : s.sleep.power = .active) (hr : s.limits.enterRequests = []) (he : s.tables.engine ≠ .activating) :
    ChainSafe s :=
  chainSafe_nil hc hw hp
    ⟨by simp [hw], by simp [hr], fun _ => hc, fun _ => ⟨hw, hp, he⟩, fun ha => absurd ha he⟩

/-- R151: a load leaves the base profile alone in the chain. -/
theorem chainSafe_loaded {s : State} {w : WorkingTables} (hl : w.Loadable) (hw : s.tables.working = some w)
    (hc : s.profiles.chain = w.baseChain) (hp : s.sleep.power = .active) (hs : s.tables.startUp = .ended)
    (hr : s.limits.enterRequests = []) (he : s.tables.engine ≠ .activating) : ChainSafe s := by
  obtain ⟨p, hbase, hnormal⟩ := hl.base
  have hmem : p ∈ w.profiles := List.mem_of_find?_eq_some hbase
  have hchain : s.profiles.chain = [⟨p.id, .start, none⟩] := by rw [hc, WorkingTables.baseChain, hbase]
  refine (chainSafe_cons_iff hchain).mpr ⟨?_, fun u hu => ?_, by simp [hr], by simp [hw], fun hn => absurd hs hn,
    fun ha => absurd ha he⟩
  · rw [hp]
    exact ⟨Nat.zero_le 3, nofun, nofun, fun _ => ⟨p, profileRecord_of_mem hw hl.resolve hmem, hnormal⟩, rfl, nofun,
      List.nodup_nil, nofun, nofun⟩
  · obtain rfl := Option.some.inj (hw.symm.trans hu)
    exact hl.resolve

theorem engineAfterReset_ne (t : TableStore) : t.engineAfterReset ≠ .activating := by
  unfold TableStore.engineAfterReset
  split
  · nofun
  · split <;> nofun
  all_goals nofun

namespace ChainSafe
variable {s : State}

theorem losePower : ChainSafe s.losePower := chainSafe_unloaded rfl rfl rfl rfl nofun

theorem holdReset : ChainSafe s.holdReset := chainSafe_unloaded rfl rfl rfl rfl (engineAfterReset_ne _)

theorem beginRestart : ChainSafe s.beginRestart := chainSafe_unloaded rfl rfl rfl rfl (engineAfterReset_ne _)

theorem startDebounces (h : ChainSafe s) : ChainSafe s.startDebounces :=
  (h.beside (t := s.withSeq _) (by simp)).withTables

theorem powerUp {straps : Straps} : ChainSafe (s.powerUp straps) := by
  have hup (x : Power) (y : NorthPort) : ChainSafe ((s.losePower.withPower x).withNorth y) :=
    (losePower (s := s)).beside (by simp)
  unfold State.powerUp
  dsimp only
  split
  · exact (hup _ _).startDebounces
  · exact hup _ _

theorem beginLoading (h : ChainSafe s) (hs : s.tables.startUp = .waiting) : ChainSafe s.beginLoading := by
  have hchecks : ChainSafe s.checksBegun := h.withTables (hs := fun _ => by rw [hs]; nofun)
  cases hc : s.checkActive with
  | error r => rwa [beginLoading_error hc]
  | ok w =>
    rw [beginLoading_ok hc]
    exact (hchecks.beside (t := s.checksBegun.withChain _) (by simp)).withTables.ite hchecks

/-- R182: loading ends with the tables of an image that passed its checks, or with none. -/
theorem endLoading (h : ChainSafe s) (hs : s.tables.startUp = .checking) : ChainSafe s.endLoading := by
  obtain ⟨-, hreq, hun, hload, -⟩ := h.steady
  obtain ⟨hw, hp, he⟩ := hload (by rw [hs]; nofun)
  rw [endLoading_eq]
  cases hc : s.checkActive with
  | error r => exact chainSafe_unloaded (hun hw) rfl hp (enterRequests_unloaded (s := s) hreq hw) he
  | ok w =>
    exact chainSafe_loaded ((checkImage_loadable hc).withModules _) rfl rfl hp rfl
      (enterRequests_unloaded (s := s) hreq hw) he

/-- R178: the reload puts the new base profile alone in the chain. -/
theorem reload (h : ChainSafe s) (he : s.tables.engine = .activating) (ho : s.tables.operation = none)
    {w : WorkingTables} (hw : s.activeTables = some w) : ChainSafe (s.reload w) := by
  obtain ⟨hp, hreq, -⟩ := h.steady.activating he
  have hs : s.tables.startUp = .ended := not_not.mp fun hn => (h.steady.loading hn).2.2 he
  have ht : Touches [.chain, .lock, .sched, .store, .current, .limits, .seq, .profiles, .tables] s (s.reload w) := by
    simp
  have hsleep : (s.reload w).sleep = s.sleep := ht .sleep (by decide)
  have htables := reload_tables (w := w) ho
  refine chainSafe_loaded (activeTables_loadable hw) (by rw [htables]) (by rw [reload_profiles ho]; rfl)
    (by rw [hsleep, hp]) (by rw [htables, hs]) (by rw [reload_limits ho, hreq]) ?_
  rw [htables]
  dsimp only
  split <;> nofun

/-- R22: time changes no profile, no table and no power state. -/
theorem elapse (h : ChainSafe s) {n : Nat} : ChainSafe (elapse n s) := by
  have ha : ChainSafe (s.elapseArray n) := h.withTables
  have hblocks : ChainSafe (((((s.elapseArray n).withTimebase
      { s.timebase with microtick := stampAdd s.timebase.microtick n }).withChain (s.chain.elapse n)).withCurrent
      (s.current.elapse n)).withSeq (s.seq.elapse n)) := ha.beside (by simp)
  exact (ha.ite (hblocks.withSleep (x := s.sleep.elapse n)).withTables).ite h

/-! #### The commands (R6, R7, R139, R176) -/

/-- R6, R182: a command is taken only with loading ended. -/
theorem takeCommand (h : ChainSafe s) {α : Type} {row : Instr} {args : List Byte → Option α}
    {body : α → State → State × Reply}
    (hb : ∀ a u, ChainSafe u → u.tables.startUp = .ended → ChainSafe (body a u).1) :
    ChainSafe (takeCommand row args body s) := by
  have hp : ChainSafe s.popCommand := h.beside (by simp)
  unfold Machine.takeCommand
  split
  · exact h
  · next htake =>
    obtain ⟨hready, -⟩ := takeable_iff.mp htake
    obtain ⟨-, hstart, -⟩ := decoderReady_iff.mp hready
    split
    · exact hp.beside (by simp)
    · next a _ => exact (hb a _ hp hstart).beside (by simp)

theorem clearStatus (h : ChainSafe s) : ChainSafe s.clearStatus :=
  (h.beside (t := (s.setSticky .clear).withStore _) (by simp)).withSleep

theorem doSetTrim (h : ChainSafe s) {a : SetTrimArgs} : ChainSafe (State.doSetTrim a s).1 := by
  unfold State.doSetTrim
  split
  · exact h
  · next hw =>
    split_ifs
    · exact h
    · exact h.setTrim hw
    · exact h

theorem doClearLimit (h : ChainSafe s) {entry : Nat} : ChainSafe (State.doClearLimit entry s).1 := by
  unfold State.doClearLimit
  split
  · exact h
  · split
    · split
      · exact h.withLimits
      · exact h
    · exact h

theorem doClearAll (h : ChainSafe s) {a : Unit} : ChainSafe (State.doClearAll a s).1 := by
  unfold State.doClearAll
  split
  · exact h
  · exact h.withLimits

theorem doSwitch (h : ChainSafe s) {p : Nat} : ChainSafe (State.doSwitch p s).1 := by
  unfold State.doSwitch
  split
  · exact h
  · next hc => exact h.switchCommit hc

theorem doEnter (h : ChainSafe s) {p : Nat} : ChainSafe (State.doEnter p s).1 := by
  unfold State.doEnter
  split
  · exact h
  · next hc =>
    obtain ⟨-, -, -, ⟨r, hr, hclass⟩, -⟩ := of_profileCheck hc
    exact h.enterCommit hc ⟨r, hr, hclass rfl⟩ _

theorem doReturn (h : ChainSafe s) {a : Unit} : ChainSafe (State.doReturn a s).1 := by
  unfold State.doReturn
  split
  · exact h
  · next hgate =>
    obtain ⟨-, he, hp⟩ := profileGate_eq_none_iff.mp hgate
    split
    · exact h
    · exact h.returnCommit he hp

theorem doUpdErase (h : ChainSafe s) {block : Nat} : ChainSafe (State.doUpdErase block s).1 := by
  unfold State.doUpdErase
  split
  · exact h
  · split
    · exact h
    · exact (h.withTables (x := { s.tables with engine := .erasing }) (he := nofun)).withTables

theorem doUpdWrite (h : ChainSafe s) {a : UpdWriteArgs} : ChainSafe (State.doUpdWrite a s).1 := by
  unfold State.doUpdWrite
  dsimp only
  split
  · exact h
  · split_ifs
    iterate 2 exact h
    all_goals exact (h.withTables (he := by simp)).withTables

theorem doUpdVerify (h : ChainSafe s) {a : Unit} : ChainSafe (State.doUpdVerify a s).1 := by
  unfold State.doUpdVerify
  split
  · exact h.withTables (he := nofun)
  all_goals exact h

theorem doUpdActivate (h : ChainSafe s) (hs : s.tables.startUp = .ended) {a : Unit} :
    ChainSafe (State.doUpdActivate a s).1 := by
  unfold State.doUpdActivate
  split
  iterate 5 exact h
  · split <;> exact h
  · split_ifs with _ hp
    iterate 4 exact h
    exact h.beginActivation hs (not_not.mp hp)

end ChainSafe

end Sys2Proof.Machine
end

section
/-! ### Every step keeps the profile chain well formed (R138, R142, R145) -/

namespace Sys2Proof.Machine

/-- The command `i`, carried out in `s`, leaves the chain safe. -/
def ChainSafeBy (i : Instr) (s : State) : Prop := ∃ t, exec i s = .next t ∧ ChainSafe t

section Commands
variable {s : State}

/-- What a command that has no business with the chain, the tables, the requests, the power state and the schedule
does. -/
theorem chainSafeBy_of_beside {i : Instr} (h : ChainSafe s) (hb : blocksOf i ⊆ Block.besideProfiles) :
    ChainSafeBy i s := by
  obtain ⟨t, ht, htouches⟩ := exec_touches i s
  exact ⟨t, ht, h.beside (htouches.mono hb)⟩

theorem chainSafeBy_of_row {row : Instr} (hr : row ∈ decoderRows) (h : ChainSafe s) : ChainSafeBy row s := by
  by_cases hb : blocksOf row ⊆ Block.besideProfiles
  case pos => exact chainSafeBy_of_beside h hb
  cases row with
  | getStatusClear => exact ⟨_, rfl, h.takeCommand fun _ _ hu _ => hu.clearStatus⟩
  | setTrim => exact ⟨_, rfl, h.takeCommand fun _ _ hu _ => hu.doSetTrim⟩
  | restart => exact ⟨_, rfl, h.takeCommand fun _ u hu _ => (hu.beside (t := u.withNorth _) (by simp)).cancelDue⟩
  | clearLimit => exact ⟨_, rfl, h.takeCommand fun _ _ hu _ => hu.doClearLimit⟩
  | clearLimitAll => exact ⟨_, rfl, h.takeCommand fun _ _ hu _ => hu.doClearAll⟩
  | switchProfile => exact ⟨_, rfl, h.takeCommand fun _ _ hu _ => hu.doSwitch⟩
  | enterProfile => exact ⟨_, rfl, h.takeCommand fun _ _ hu _ => hu.doEnter⟩
  | returnProfile => exact ⟨_, rfl, h.takeCommand fun _ _ hu _ => hu.doReturn⟩
  | sleep => exact ⟨_, rfl, h.takeCommand fun _ _ hu _ => hu.doSleep⟩
  | updErase => exact ⟨_, rfl, h.takeCommand fun _ _ hu _ => hu.doUpdErase⟩
  | updWrite => exact ⟨_, rfl, h.takeCommand fun _ _ hu _ => hu.doUpdWrite⟩
  | updVerify => exact ⟨_, rfl, h.takeCommand fun _ _ hu _ => hu.doUpdVerify⟩
  | updActivate => exact ⟨_, rfl, h.takeCommand fun _ _ hu hs => hu.doUpdActivate hs⟩
  | getStatus | readTable | readRound | releaseRound | readLimits | close | openCmd | fastOpen | clearTrip | readEvents
  | unknownCommandCode => exact absurd (by decide) hb
  | _ => simp [decoderRows] at hr

/-- R45: a trigger instant that comes finds something due. -/
theorem ChainSafe.triggerInstant (h : ChainSafe s) : ChainSafeBy .triggerInstant s := by
  refine ⟨_, rfl, ?_⟩
  split
  · next hdue =>
    obtain ⟨-, hcome⟩ := (Bool.and_eq_true _ _).mp hdue
    refine h.sampling (fun he => ?_) (by simp)
    simp [State.instantCome, (h.quiet he).due] at hcome
  · exact h

/-- R47: a trigger that is sent has waited. -/
theorem ChainSafe.triggerSend (h : ChainSafe s) : ChainSafeBy .triggerSend s := by
  refine ⟨_, rfl, ?_⟩
  split
  · exact h
  · next w hw =>
    have hwaits : s.sched.waiting = some w := by
      unfold State.sendableTrigger at hw
      split at hw
      · exact hw
      · cases hw
    split
    · exact h
    · exact h.sendTrigger (h.engine_of_waiting hwaits)

/-- R71: the align wait ends for a round in assembly. -/
theorem ChainSafe.alignWaitExpiry (h : ChainSafe s) : ChainSafeBy .alignWaitExpiry s := by
  refine ⟨_, rfl, ?_⟩
  split
  · split
    · exact h
    · next hr => exact h.finishAligning (h.engine_of_assembly hr)
  · exact h

/-- R144: the oldest request is taken. -/
theorem ChainSafe.limitEnterRequest (h : ChainSafe s) : ChainSafeBy .limitEnterRequest s := by
  refine ⟨_, rfl, ?_⟩
  split
  · next r rest _ hr =>
    have hsub : rest ⊆ s.limits.enterRequests := hr ▸ List.subset_cons_self r rest
    have hnormal : s.normal r.profile := h.steady.requests r (hr ▸ List.mem_cons_self)
    exact (h.withLimits (x := { s.limits with enterRequests := rest }) hsub).takeEnterRequest hnormal
  · exact h

/-- R156: entry completion comes out of SLEEP_PENDING. -/
theorem ChainSafe.entryCompletion (h : ChainSafe s) : ChainSafeBy .entryCompletion s := by
  refine ⟨_, rfl, ?_⟩
  split
  · next hdue =>
    obtain ⟨-, hp, -⟩ := entryCompletionDue_iff.mp hdue
    split
    · exact h
    · next ha =>
      split
      · exact h
      · next hw => exact h.completeEntry hp ha hw
  · exact h

/-- R158: the watch pass is made in a watch round. -/
theorem ChainSafe.chainWakeTimerExpiry (h : ChainSafe s) : ChainSafeBy .chainWakeTimerExpiry s := by
  refine ⟨_, rfl, ?_⟩
  have h1 : ChainSafe (s.withSleep { s.sleep with chainWakeTimer := none }) := h.withSleep
  split
  · dsimp only
    split
    · next hp => exact h1.ite (h1.slumber (by exact congrArg PowerState.deep hp)).watchPass.safe
    all_goals exact h1
  · exact h

/-- R157: a watch round comes out of ASLEEP. -/
theorem ChainSafe.watchTimerExpiry (h : ChainSafe s) : ChainSafeBy .watchTimerExpiry s := by
  refine ⟨_, rfl, ?_⟩
  split
  · next hdue =>
    simp only [Bool.and_eq_true, beq_iff_eq] at hdue
    obtain ⟨⟨-, hp⟩, -⟩ := hdue
    exact ((h.slumber (congrArg PowerState.deep hp)).withSleep rfl).claimLink.safe
  · exact h

end Commands

theorem chainSafeBy (i : Instr) {s : State} (h : ChainSafe s) : ChainSafeBy i s := by
  by_cases hb : blocksOf i ⊆ Block.besideProfiles
  case pos => exact chainSafeBy_of_beside h hb
  cases i with
  | powerOnReset straps => exact ⟨_, rfl, .powerUp⟩
  | powerLoss => exact ⟨_, rfl, ChainSafe.losePower.ite h⟩
  | rstNLow => exact ⟨_, rfl, h.ite (ChainSafe.holdReset.ite (h.beside (by simp)))⟩
  | rstNHigh straps =>
    refine ⟨_, rfl, ?_⟩
    split
    · dsimp only
      split
      · have hrate (x : Power) (y : NorthPort) : ChainSafe ((s.withPower x).withNorth y) := h.beside (by simp)
        exact (hrate _ _).startDebounces
      · exact h.beside (by simp)
    · exact h
  | startUpLoading =>
    refine ⟨_, rfl, ?_⟩
    split
    · next hdue =>
      simp only [State.loadingDue, Bool.and_eq_true, beq_iff_eq] at hdue
      obtain ⟨⟨-, hs⟩, -⟩ := hdue
      exact h.beginLoading hs
    · exact h
  | startUpLoadingEnd =>
    refine ⟨_, rfl, ?_⟩
    split
    · next hdue =>
      simp only [State.loadingEndDue, Bool.and_eq_true, beq_iff_eq] at hdue
      obtain ⟨⟨-, hs⟩, -⟩ := hdue
      exact h.endLoading hs
    · exact h
  | startDelimiter =>
    have hn (x : NorthPort) : ChainSafe (s.truncateFrame.withNorth x) := h.beside (by simp)
    exact ⟨_, rfl, ((hn _).wakeCause.ite (hn _)).ite h⟩
  | northFrameComplete bytes =>
    refine ⟨_, rfl, ?_⟩
    have hn : ChainSafe (s.withNorth { s.north with receiver := .idle }) := h.beside (by simp)
    split
    · exact hn.ite hn.frameComplete
    · exact h
  | restartBegin => exact ⟨_, rfl, ChainSafe.beginRestart.ite h⟩
  | windowClose =>
    refine ⟨_, rfl, ?_⟩
    split
    · exact h.closeWindow
    · exact h
  | acquireWindowClose => exact ⟨_, rfl, h.lockLoss.ite h⟩
  | triggerInstant => exact h.triggerInstant
  | triggerSend => exact h.triggerSend
  | alignWaitExpiry => exact h.alignWaitExpiry
  | chainFrameSent =>
    refine ⟨_, rfl, ?_⟩
    split
    · next f _ _ => exact (h.frameSent (f := f)).beside (by simp)
    · exact h
  | chainFrameReceived frame => exact ⟨_, rfl, h.frameEnds.ite (h.beside (by simp))⟩
  | chainReplyTimeout =>
    refine ⟨_, rfl, ?_⟩
    split
    · next f _ _ => exact (h.transactionEnded (f := f) (o := .noReply)).beside (by simp)
    · exact h
  | currentRecordArrival record =>
    refine ⟨_, rfl, ?_⟩
    split
    · exact h
    · exact h.recordArrives
  | streamTimerExpiry =>
    have he (x : CurrentPort) : ChainSafe (s.withCurrent x) := h.beside (by simp)
    exact ⟨_, rfl, (he _).realign.sequencerStreamAbsent.ite h⟩
  | limitFastOpenRequest =>
    refine ⟨_, rfl, ?_⟩
    split
    · next rest _ _ =>
      exact (h.withLimits (x := { s.limits with fastOpenRequests := rest })).beside (by simp)
    · exact h
  | limitEnterRequest => exact h.limitEnterRequest
  | entryStart =>
    have hq : ChainSafe ((s.withChain { s.chain with forwardQueue := [] }).answerQueueBusy s.chain.forwardQueue) :=
      h.beside (by simp)
    exact ⟨_, rfl, hq.withSleep.claimLink.ite h⟩
  | entryCompletion => exact h.entryCompletion
  | watchTimerExpiry => exact h.watchTimerExpiry
  | chainWakeTimerExpiry => exact h.chainWakeTimerExpiry
  | wakeInChange high =>
    refine ⟨_, rfl, ?_⟩
    have h1 : ChainSafe (s.withSleep { s.sleep with wakeInHigh := high }) := h.withSleep
    split
    · exact h
    · dsimp only
      split
      · exact h1.detectChange
      · exact h1
  | wakeInHoldExpiry => exact ⟨_, rfl, h.withSleep.wakeCause.ite h⟩
  | wakingEnd =>
    refine ⟨_, rfl, ?_⟩
    split
    · next hdue =>
      obtain ⟨-, hp, -⟩ := wakingEndDue_iff.mp hdue
      exact h.endWaking hp
    · exact h
  | blockEraseComplete =>
    refine ⟨_, rfl, ?_⟩
    split
    · exact h.eraseDone
    all_goals exact h
  | rowProgramComplete =>
    refine ⟨_, rfl, ?_⟩
    split
    · exact h.programDone
    all_goals exact h
  | verificationEnd => exact ⟨_, rfl, h.verified.ite h⟩
  | slotPointerWriteComplete =>
    refine ⟨_, rfl, ?_⟩
    split
    · exact h.pointerDone
    all_goals exact h
  | counterWriteComplete =>
    refine ⟨_, rfl, ?_⟩
    split
    · exact h.withTables
    all_goals exact h
  | reload =>
    refine ⟨_, rfl, ?_⟩
    split
    · next hdue =>
      simp only [State.reloadDue, Bool.and_eq_true, beq_iff_eq, Option.isNone_iff_eq_none] at hdue
      obtain ⟨⟨⟨-, he⟩, ho⟩, -⟩ := hdue
      split
      · exact h
      · next hw => exact h.reload he ho hw
    · exact h
  | tamperInputChange active => exact ⟨_, rfl, h.withTables⟩
  | tamperDebounceExpiry => exact ⟨_, rfl, (h.withTables.tamperAssertion.ite h.withTables).ite h⟩
  | getStatusClear | setTrim | restart | clearLimit | clearLimitAll | switchProfile | enterProfile | returnProfile
  | sleep | updErase | updWrite | updVerify | updActivate => exact chainSafeBy_of_row (by decide) h
  | _ => exact absurd (by simp [blocksOf, Block.opening]) hb

theorem chainSafe_step {s t : State} (h : ChainSafe s) (ht : step s = .next t) : ChainSafe t := by
  unfold step at ht
  split at ht
  · obtain rfl := Host.Outcome.next.inj ht
    exact h.elapse
  · next c rest _ =>
    obtain ⟨u, hu, hsafe⟩ := chainSafeBy c (h.beside (t := s.withPending rest) (by simp))
    obtain rfl := Host.Outcome.next.inj (hu.symm.trans ht)
    exact hsafe

/-- Settles O60: every operation keeps the chain safe, so every command and every microtick does. -/
theorem stepKeepsChainSafe : Obligations.StepKeepsChainSafe := fun _ _ => chainSafe_step

end Sys2Proof.Machine
end

section
/-! ### The checks of SLEEP (R153, R154) -/

namespace Sys2Proof.Machine

/-- R153: the engine states in which SLEEP is answered BUSY. -/
theorem sleepBusy_iff {e : EngineState} :
    (e.working || e == .activating) = true ↔ e = .erasing ∨ e = .programming ∨ e = .verifying ∨ e = .activating := by
  cases e <;> simp [EngineState.working]

theorem doSleep_noTables {s : State} (h : s.activeProfile = none) : State.doSleep () s = refuse s .noTables := by
  simp only [State.doSleep, h]

/-- R153: the checks behind the first see the state that the command finds. -/
theorem doSleep_popCommand {s : State} {p : ProfileRecord} (h : s.activeProfile = some p) :
    State.doSleep () s.popCommand =
      if s.tables.engine = .erasing ∨ s.tables.engine = .programming ∨ s.tables.engine = .verifying ∨
          s.tables.engine = .activating then answer s.popCommand .busy
      else if s.sleep.power ≠ .active then refuse s.popCommand .state
      else if p.sleepOk = false then refuse s.popCommand .notAllowed
      else if s.seq.state ≠ .opened then refuse s.popCommand .state
      else if 4 ≤ s.depth then refuse s.popCommand .depth
      else
        ((s.popCommand.withSleep { s.sleep with power := .sleepPending, entryStarted := false }).cancelDue,
          .plain .ok) := by
  have hpop : s.popCommand.activeProfile = some p := h
  simp only [State.doSleep, hpop, sleepBusy_iff, Bool.not_eq_true']
  rfl

/-- Settles O47: the check for tables, the checks behind it in order, and what SLEEP does when they pass. -/
theorem sleepChecks : Obligations.SleepChecks := by
  intro s c h ha
  rw [exec_body h ha rfl]
  cases hp : s.activeProfile with
  | none =>
    rw [doSleep_noTables (s := s.popCommand) hp]
    rfl
  | some p =>
    rw [doSleep_popCommand hp]
    dsimp only
    split_ifs <;> rfl

end Sys2Proof.Machine
end

section
/-! ### Watch cycles (R157 to R160, R163) -/

namespace Sys2Proof.Machine

/-! #### The link, free and taken (R20, log 32) -/

theorem claimLink_busy {s : State} (h : s.linkFree = false) (f : SleepFrame) :
    s.claimLink f = s.withChain { s.chain with sleepClaim := some f } :=
  arbitrate_busy (s := s.withChain { s.chain with sleepClaim := some f }) h

/-! #### Taking a held entry (R46, R158, R160) -/

theorem takeHeld_takes {s : State} {d : DueEntry} {rest : List DueEntry} (h : s.sched.held = d :: rest) :
    s.takeHeld =
      (s.withStore { s.store with roundCounter := s.store.roundCounter + 1 }).withSched
        { s.sched with held := rest, waiting := some ⟨d.index, d.instant, s.store.roundCounter + 1⟩ } := by
  rw [State.takeHeld, h]
  rfl

/-! #### The start of a cycle, and its pass (R157, R158) -/

section Pass
variable {s : State}

theorem exec_watchTimerExpiry (hp : s.power = ⟨true, false⟩) (hs : s.sleep.power = .asleep)
    (ht : s.sleep.watchTimer = some 0) :
    exec .watchTimerExpiry s =
      .next ((s.withSleep
        { s.sleep with power := .watchRound, watchTimer := none, passMade := false }).claimLink .wake) := by
  simp [exec, execWatchTimerExpiry, operating_of hp, hs, ht, expired]

/-- R158, R164: in WAKING, and after the pass, only the timer stops. -/
theorem exec_chainWakeTimerExpiry_noPass (hp : s.power = ⟨true, false⟩) (ht : s.sleep.chainWakeTimer = some 0)
    (h : s.sleep.power ≠ .watchRound ∨ s.sleep.passMade = true) :
    exec .chainWakeTimerExpiry s = .next (s.withSleep { s.sleep with chainWakeTimer := none }) := by
  simp only [exec, execChainWakeTimerExpiry, operating_of hp, ht, expired, BEq.rfl, Bool.and_self, if_true]
  split
  · next hw => rw [if_pos (h.resolve_left fun hn => hn hw)]
  all_goals rfl

theorem exec_chainWakeTimerExpiry_pass (hp : s.power = ⟨true, false⟩) (ht : s.sleep.chainWakeTimer = some 0)
    (hs : s.sleep.power = .watchRound) (hm : s.sleep.passMade = false) :
    exec .chainWakeTimerExpiry s = .next (s.withSleep { s.sleep with chainWakeTimer := none }).watchPass := by
  simp [exec, execChainWakeTimerExpiry, operating_of hp, ht, hs, hm, expired]

/-- The pass has been made: its counters have advanced and the due entries `held` are held. -/
def State.passBegun (s : State) (held : List DueEntry) : State :=
  (s.withSleep { s.sleep with passMade := true }).withSched
    { s.sched with counters := advanceCounters s.activeSchedule s.sched.counters, held := held }

/-- R158: a pass with nothing due is complete at once. -/
theorem watchPass_nothingDue (h : dueEntries (fun _ => s.now) 0 s.activeSchedule s.sched.counters [] = []) :
    s.watchPass = (s.passBegun []).completePass := by
  simp only [State.watchPass, h]
  rfl

/-- R158: the first due entry is taken, and the others are held. -/
theorem watchPass_due {d : DueEntry} {rest : List DueEntry}
    (h : dueEntries (fun _ => s.now) 0 s.activeSchedule s.sched.counters [] = d :: rest) :
    s.watchPass = (s.passBegun (d :: rest)).takeHeld := by
  simp only [State.watchPass, h]
  rfl

end Pass

/-! #### The rounds of a pass, and its completion (R159, R160, R163) -/

section Completion
variable {s : State}

theorem completePass_uncounted (h : s.reportEvery = 0) (hw : s.sleep.wakePending = false) :
    s.completePass = s.claimLink .sleep := by
  simp [State.completePass, State.countPass, h, hw]

/-- R160, R163: how the pass goes on behind a round, once the wake the round asked for is recorded. -/
def State.passGoesOn (s : State) : State :=
  if s.sleep.wakePending then s.cancelDue.completePass
  else
    match s.sched.held with
    | [] => s.completePass
    | _ :: _ => s.takeHeld

theorem watchRoundOffered_eq (wake : Bool) :
    s.watchRoundOffered wake = (if wake = true then s.wakeCause .limit else s).passGoesOn := rfl

theorem passGoesOn_pending (h : s.sleep.wakePending = true) : s.passGoesOn = s.cancelDue.completePass := if_pos h

theorem passGoesOn_done (h : s.sleep.wakePending = false) (hh : s.sched.held = []) :
    s.passGoesOn = s.completePass := by
  rw [State.passGoesOn, if_neg (Bool.eq_false_iff.mp h), hh]

theorem passGoesOn_takes {d : DueEntry} {rest : List DueEntry} (h : s.sleep.wakePending = false)
    (hh : s.sched.held = d :: rest) :
    s.passGoesOn =
      (s.withStore { s.store with roundCounter := s.store.roundCounter + 1 }).withSched
        { s.sched with held := rest, waiting := some ⟨d.index, d.instant, s.store.roundCounter + 1⟩ } := by
  rw [← takeHeld_takes hh, State.passGoesOn, if_neg (Bool.eq_false_iff.mp h), hh]

end Completion

/-! #### CHAIN_SLEEP and CHAIN_WAKE sent in WATCH_ROUND (R160, R163, log 28) -/

section Sent
variable {s : State}

/-- R160, R163: CHAIN_SLEEP at the end of a watch cycle, with and without a wake pending. -/
theorem frameSent_sleep_watchRound (h : s.sleep.power = .watchRound) :
    s.frameSent .chainSleep =
      if s.sleep.wakePending = true then (s.endTransaction.setChainSleep .asleep).enterWaking
      else
        (s.withChain { s.chain with transaction := none }).withSleep
          { s.sleep with chainSleep := .asleep, power := .asleep, watchTimer := some s.watchInterval } := by
  have hs : (s.endTransaction.setChainSleep .asleep).sleep.power = .watchRound := h
  simp only [State.frameSent, State.sleepSent, hs]
  rfl

/-- R163: the part is WAKING, and CHAIN_WAKE is sent to the chain just put to sleep. -/
theorem enterWaking_sleepSent (hn : s.enumerating = false) :
    (s.endTransaction.setChainSleep .asleep).enterWaking =
      ((s.endTransaction.setChainSleep .asleep).wakingBegun).withChain
        { s.chain with sleepClaim := none, transaction := some ⟨.chainWake false, .sending⟩ } := by
  have hf : (s.endTransaction.setChainSleep .asleep).wakingBegun.linkFree = true := linkFree_iff.mpr ⟨rfl, hn⟩
  rw [enterWaking_chainAsleep rfl, claimLink_wake hf]
  rfl

/-- Log 28: a wake that waited for CHAIN_WAKE acts when it has been sent. -/
theorem frameSent_wake_pending (h : s.sleep.power = .watchRound) (hw : s.sleep.wakePending = true) :
    s.frameSent (.chainWake false) =
      (s.endTransaction.withSleep
        { s.sleep with chainSleep := .awake, chainWakeTimer := some (1000 * s.chainWakeTime) }).wakingBegun := by
  refine (if_pos ?_).trans (enterWaking_chainAwake rfl)
  simp [State.setChainSleep, State.endTransaction, h, hw]

end Sent

/-- Settles O49: the start of a cycle and its pass, the rounds of the pass and its completion, the frames sent in
WATCH_ROUND, and the settings of the watch profile. -/
theorem watchCycle : Obligations.WatchCycle := by
  refine ⟨⟨?start, fun s => exec_chainWakeTimerExpiry_noPass, ?due, ?nothingDue⟩, ?offered, ?completed, ?sent,
    ?settings⟩
  case start =>
    intro s hp hs ht hf
    rw [exec_watchTimerExpiry hp hs ht, claimLink_wake (by exact hf)]
    rfl
  case due =>
    intro s d rest hp ht hs hm hd
    rw [exec_chainWakeTimerExpiry_pass hp ht hs hm, watchPass_due (by exact hd), takeHeld_takes rfl]
    rfl
  case nothingDue =>
    intro s hp ht hs hm hd
    have hpass := exec_chainWakeTimerExpiry_pass hp ht hs hm
    rw [watchPass_nothingDue (by exact hd)] at hpass
    refine ⟨hpass, fun hw hr hf => hpass.trans ?_⟩
    rw [completePass_uncounted (by exact hr) (by exact hw), claimLink_sleep (by exact hf)]
    rfl
  case offered =>
    intro s wake
    rw [watchRoundOffered_eq]
    exact ⟨passGoesOn_pending, fun h => ⟨passGoesOn_done h, fun d rest => passGoesOn_takes h⟩⟩
  case completed =>
    intro s
    exact ⟨rfl, fun hf => ⟨claimLink_sleep hf, claimLink_wake hf⟩, claimLink_busy⟩
  case sent =>
    intro s hp hs hclaim hn
    refine ⟨fun ht hw => ?_, fun ht hw => ?_, fun ht hw => ?_⟩
    · refine exec_chainFrameSent_ended hp ht ((frameSent_sleep_watchRound hs).trans (if_neg ?_)) hclaim
      exact Bool.eq_false_iff.mp hw
    · have hsent := ((frameSent_sleep_watchRound hs).trans (if_pos hw)).trans (enterWaking_sleepSent hn)
      rw [exec_chainFrameSent_ended hp ht hsent rfl, ← hclaim]
      rfl
    · exact exec_chainFrameSent_ended hp ht (frameSent_wake_pending hs hw) hclaim
  case settings =>
    intro s w h
    refine ⟨watchInterval_eq h, ?_, ?_⟩
    · rw [State.chainWakeTime, h]
    · rw [State.reportEvery, h]

end Sys2Proof.Machine
end

section
/-! ### The array: what every step keeps (R167, R168) -/

namespace Sys2Proof.Machine

set_option Elab.async false

/-! #### Addresses inside the slots -/

/-- R167: a block of the staging slot is a block of the array. -/
theorem stagingBlock_inSlots (s : State) {block : Nat} (hb : block < 28) (tamper : Bool) :
    (ArrayOp.erase (s.stagingSlot.firstBlock + block) tamper).inSlots = true := by
  refine decide_eq_true ?_
  cases s.stagingSlot <;> simp only [Slot.firstBlock] <;> omega

/-- R173: the bytes from an offset of the staging slot up to the end of their row are bytes of the array. -/
theorem rowBytes_inSlots (s : State) {offset : Nat} (ho : offset < slotSize) (data : List Byte) :
    (ArrayOp.program (s.stagingSlot.base + offset) (data.take (rowRemainder offset))).inSlots = true := by
  have hlen : (data.take (rowRemainder offset)).length ≤ 64 - offset % 64 := List.length_take_le _ _
  rw [slotSize] at ho
  refine decide_eq_true ?_
  cases s.stagingSlot <;> simp only [Slot.base, slotSize, arraySize] <;> omega

/-- R181: a tamper erase that begins again at block 0, or goes on, is at a block of the staging slot. -/
theorem tamperErase_lt {p : Prop} [Decidable p] {o : Option Nat} (ho : ∀ b, o = some b → b < 28) (b : Nat)
    (hb : (if p then some 0 else o) = some b) : b < 28 := by
  split at hb
  · cases hb
    decide
  · exact ho b hb

/-- R181: the block behind a block of the staging slot, if there is one. -/
theorem tamperNext_lt {o : Option Nat} {b : Nat} (h : tamperNext o = some b) : b < 28 := by
  unfold tamperNext at h
  split at h
  · split at h
    · cases h
      omega
    · cases h
  · cases h

/-! #### What the operations keep -/

namespace ArraySafe

section Operations
variable {s : State}

theorem array_wf (h : ArraySafe s) : Memory.wf s.tables.array = true := h.1

theorem operation_inSlots (h : ArraySafe s) {o : ArrayOperation} (ho : s.tables.operation = some o) :
    o.op.inSlots = true := h.2.1 o ho

theorem tamperBlock_lt (h : ArraySafe s) (block : Nat) (hb : s.tables.tamperErase = some block) : block < 28 :=
  h.2.2 block hb

/-- What leaves the table store alone keeps the array. -/
theorem beside {t : State} (h : ArraySafe s) (ht : t.tables = s.tables) : ArraySafe t := by
  rw [ArraySafe, ht]
  exact h

theorem untouched {bs : List Block} {t : State} (h : ArraySafe s) (ht : Touches bs s t)
    (hb : Block.tables ∉ bs := by decide) : ArraySafe t := h.beside (ht .tables hb)

theorem ite {t u : State} {p : Prop} [Decidable p] (ht : ArraySafe t) (hu : ArraySafe u) :
    ArraySafe (if p then t else u) := by
  split <;> assumption

/-- The table store may change if the array keeps its form, and the operation and the tamper erase stay inside. -/
theorem withTables (h : ArraySafe s) {x : TableStore}
    (ha : Memory.wf s.tables.array = true → Memory.wf x.array = true := by exact id)
    (ho : (∀ o, s.tables.operation = some o → o.op.inSlots = true) →
      ∀ o, x.operation = some o → o.op.inSlots = true := by exact id)
    (hb : (∀ b, s.tables.tamperErase = some b → b < 28) → ∀ b, x.tamperErase = some b → b < 28 := by exact id) :
    ArraySafe (s.withTables x) := by
  obtain ⟨harray, hoperation, htamper⟩ := h
  exact ⟨ha harray, ho hoperation, hb htamper⟩

theorem beginOp (h : ArraySafe s) {op : ArrayOp} {time : Nat} (hop : op.inSlots = true) :
    ArraySafe (s.beginOp op time) :=
  h.withTables (ho := fun _ o he => Option.some.inj he ▸ hop)

theorem kickTamper (h : ArraySafe s) : ArraySafe s.kickTamper := by
  unfold State.kickTamper
  split
  · next b hb _ => exact (h.beginOp (stagingBlock_inSlots s (h.tamperBlock_lt b hb) true)).ite h
  · exact h

theorem lockTamper (h : ArraySafe s) : ArraySafe s.lockTamper :=
  (h.withTables (hb := fun _ b he => by cases he; decide)).kickTamper

theorem tamperEngine (h : ArraySafe s) : ArraySafe s.tamperEngine := by
  unfold State.tamperEngine
  split
  iterate 2 exact h.withTables
  iterate 3 exact h.lockTamper
  · exact h.withTables.lockTamper
  all_goals exact h

theorem tamperAssertion (h : ArraySafe s) : ArraySafe s.tamperAssertion := by
  have hlatch : ArraySafe (s.withTables { s.tables with tamperLatch := true }) := h.withTables
  unfold State.tamperAssertion
  exact hlatch.tamperEngine.untouched (bs := [.sleep, .current, .chain]) (by simp)

theorem eraseDone (h : ArraySafe s) {block : Nat} {tamper : Bool} : ArraySafe (s.eraseDone block tamper) := by
  refine (h.withTables (ha := Memory.erase_wf _ _) (ho := by nofun) (hb := fun _ b he => ?_)).kickTamper
  dsimp only at he
  split at he
  · exact tamperNext_lt he
  · exact tamperErase_lt h.tamperBlock_lt b he

theorem programDone (h : ArraySafe s) {address : Nat} {bytes : List Byte}
    (hin : (ArrayOp.program address bytes).inSlots = true) : ArraySafe (s.programDone address bytes) :=
  (h.withTables (ha := Memory.writeBytes_wf (of_decide_eq_true hin)) (ho := by nofun)
    (hb := tamperErase_lt)).kickTamper

theorem verified (h : ArraySafe s) {o : Except VerifyReason WorkingTables} : ArraySafe (s.verified o) := by
  unfold State.verified
  split <;> exact h.withTables

theorem pointerDone (h : ArraySafe s) {slot : Slot} : ArraySafe (s.pointerDone slot) := by
  have hpointer : ArraySafe (s.withTables { s.tables with slotPointer := slot, operation := none }) :=
    h.withTables (ho := by nofun)
  exact (hpointer.beginOp rfl).ite hpointer

theorem reload (h : ArraySafe s) {w : WorkingTables} : ArraySafe (s.reload w) := by
  have hreloaded : ArraySafe (s.reloaded w) := by
    obtain ⟨hwf, hoperation, htamper⟩ := h
    exact ⟨hwf, hoperation, tamperErase_lt (p := s.tables.tamperLatch = true) htamper⟩
  have hr : s.reload w = (s.reloaded w).kickTamper.sendEnumerate := rfl
  rw [hr]
  exact hreloaded.kickTamper.untouched (bs := [.chain]) (by simp)

/-! Resets, power and loading (R21, R167, R182, R184). -/

/-- R167: the bytes that a power loss leaves free are those of the operation. -/
theorem stopOp_wf (h : ArraySafe s) : Memory.wf s.stopOp.tables.array = true := by
  have hwf := h.array_wf
  cases ho : s.tables.operation with
  | none => rwa [stopOp_idle ho]
  | some o =>
    obtain ⟨op, left⟩ := o
    have hin := h.operation_inSlots ho
    cases op with
    | erase block tamper =>
      have hblock : block < 56 := of_decide_eq_true hin
      simp only [State.stopOp, ho, State.withFreeIndex_tables, State.withTables_tables]
      refine Memory.writeBytes_wf ?_ hwf
      simp only [freeBytes_length, blockSize, arraySize]
      omega
    | program address bytes =>
      simp only [State.stopOp, ho, State.withFreeIndex_tables, State.withTables_tables]
      exact Memory.writeBytes_wf (by rw [freeBytes_length]; exact of_decide_eq_true hin) hwf
    | pointerWrite slot => simpa [State.stopOp, ho] using hwf
    | counterWrite v loading => cases loading <;> simpa [State.stopOp, ho] using hwf

theorem losePower (h : ArraySafe s) : ArraySafe s.losePower := ⟨h.stopOp_wf, nofun, nofun⟩

theorem startDebounces (h : ArraySafe s) : ArraySafe s.startDebounces := h.withTables.beside rfl

theorem powerUp (h : ArraySafe s) {straps : Straps} : ArraySafe (s.powerUp straps) := by
  have hup : ArraySafe ((s.losePower.withPower { s.power with powered := true }).withNorth
      { s.losePower.north with rate := strapRate straps }) := h.losePower.beside rfl
  exact hup.startDebounces.ite hup

theorem afterReset (h : ArraySafe s) : ArraySafe (s.withTables s.tables.afterReset) :=
  h.withTables (hb := tamperErase_lt (p := s.tables.latchedActivating = true))

theorem holdReset (h : ArraySafe s) : ArraySafe s.holdReset := by
  have hstopped : ArraySafe (s.withTables
      { s.tables.afterReset with tamper := { s.tables.tamper with interval := none } }) := h.afterReset.withTables
  exact hstopped.beside rfl

theorem beginRestart (h : ArraySafe s) : ArraySafe s.beginRestart := by
  have ht : s.beginRestart.tables = s.tables.afterReset := State.withTables_tables _ _
  exact h.afterReset.beside ht

theorem beginLoading (h : ArraySafe s) : ArraySafe s.beginLoading := by
  have hbegun : ArraySafe s.checksBegun := h.withTables
  cases hc : s.checkActive with
  | error r => rwa [beginLoading_error hc]
  | ok w =>
    rw [beginLoading_ok hc]
    have htrims : ArraySafe (s.checksBegun.withChain { s.chain with trims := List.replicate 20 none }) :=
      hbegun.beside rfl
    exact (htrims.beginOp rfl).ite hbegun

theorem endLoading (h : ArraySafe s) : ArraySafe s.endLoading := by
  unfold State.endLoading
  have houtcome : ArraySafe (s.loadOutcome s.checkActive) := by
    unfold State.loadOutcome
    split
    · next w _ => exact h.withTables (x := { s.tables with working := some _, loadResult := .loaded })
    · exact h.withTables
  have hended : ArraySafe ((s.loadOutcome s.checkActive).withTables
      { (s.loadOutcome s.checkActive).tables with startUp := .ended }) := houtcome.withTables
  exact hended.kickTamper.untouched (bs := [.chain]) (by simp)

theorem elapse (h : ArraySafe s) {n : Nat} : ArraySafe (elapse n s) := by
  have harray : ArraySafe (s.elapseArray n) := by
    refine h.withTables (ho := fun hoperation o he => ?_)
    obtain ⟨o', ho', rfl⟩ := Option.map_eq_some_iff.mp he
    exact hoperation o' ho'
  have hblocks : ArraySafe ((s.elapseArray n).elapseBlocks n) := harray.withTables.beside rfl
  exact (harray.ite hblocks).ite h

/-! The commands of the update engine and SET_TRIM (R12, R170 to R177). -/

theorem takeCommand (h : ArraySafe s) {α : Type} {row : Instr} {args : List Byte → Option α}
    {body : α → State → State × Reply} (hb : ∀ a u, ArraySafe u → ArraySafe (body a u).1) :
    ArraySafe (takeCommand row args body s) := by
  have hp : ArraySafe s.popCommand := h.beside rfl
  unfold Machine.takeCommand
  split
  · exact h
  · split
    · exact hp.beside rfl
    · next a _ => exact (hb a _ hp).beside rfl

theorem setTrim (h : ArraySafe s) {w : WorkingTables} {place : Nat} {v : Int} : ArraySafe (s.setTrim w place v) :=
  (h.untouched (t := s.withChain _) (bs := [.chain]) (by simp)).withTables

theorem doSetTrim (h : ArraySafe s) {a : SetTrimArgs} : ArraySafe (State.doSetTrim a s).1 := by
  unfold State.doSetTrim
  split
  · exact h
  · split
    · exact h
    · split
      · exact h.setTrim
      · exact h

theorem doUpdErase (h : ArraySafe s) {block : Nat} : ArraySafe (State.doUpdErase block s).1 := by
  unfold State.doUpdErase
  split
  · exact h
  · split
    · exact h
    · next hb =>
      have hengine : ArraySafe (s.setEngine .erasing) := h.withTables
      exact hengine.beginOp (stagingBlock_inSlots s (by omega) false)

theorem doUpdWrite (h : ArraySafe s) {a : UpdWriteArgs} : ArraySafe (State.doUpdWrite a s).1 := by
  unfold State.doUpdWrite
  split
  · exact h
  · split
    · exact h
    · next ho =>
      split
      · exact h
      · have hmarked : ArraySafe (s.withTables
            { s.tables with marks := s.tables.marks.set (a.offset / 64) true, engine := .programming }) := h.withTables
        exact hmarked.beginOp (rowBytes_inSlots s (Nat.lt_of_not_le ho) a.data)

theorem doUpdVerify (h : ArraySafe s) {a : Unit} : ArraySafe (State.doUpdVerify a s).1 := by
  unfold State.doUpdVerify
  split
  · exact h.withTables
  all_goals exact h

theorem doUpdActivate (h : ArraySafe s) {a : Unit} : ArraySafe (State.doUpdActivate a s).1 := by
  have hactivation : ArraySafe s.beginActivation := by
    have hpointer : ArraySafe ((s.setEngine .activating).beginOp (.pointerWrite s.stagingSlot) 5000) :=
      (h.withTables (x := { s.tables with engine := .activating })).beginOp rfl
    exact hpointer.beside beginActivation_tables
  unfold State.doUpdActivate
  repeat' split
  any_goals exact h
  exact hactivation

end Operations

end ArraySafe

/-! #### Every command -/

theorem finishedOp_eq_some {s : State} {op : ArrayOp} (h : s.finishedOp = some op) :
    s.power.powered = true ∧ s.tables.operation = some ⟨op, 0⟩ := by
  unfold State.finishedOp at h
  split at h
  · next hp ho => exact ⟨hp, Option.some.inj h ▸ ho⟩
  · cases h

/-- The command `i`, carried out in `s`, keeps the array safe. -/
def ArraySafeBy (i : Instr) (s : State) : Prop := ∃ t, exec i s = .next t ∧ ArraySafe t

theorem arraySafeBy (i : Instr) {s : State} (h : ArraySafe s) : ArraySafeBy i s := by
  by_cases hb : Block.tables ∈ blocksOf i
  case neg =>
    obtain ⟨t, ht, htouches⟩ := exec_touches i s
    exact ⟨t, ht, h.beside (htouches .tables hb)⟩
  cases i with
  | powerOnReset straps => exact ⟨_, rfl, h.powerUp⟩
  | powerLoss => exact ⟨_, rfl, h.losePower.ite h⟩
  | rstNLow => exact ⟨_, rfl, h.ite (h.holdReset.ite (h.beside rfl))⟩
  | rstNHigh straps =>
    have hlow : ArraySafe (s.withPower { s.power with rstNLow := false }) := h.beside rfl
    have hrate : ArraySafe ((s.withPower { s.power with rstNLow := false }).withNorth
        { s.north with rate := strapRate straps }) := h.beside rfl
    exact ⟨_, rfl, (hrate.startDebounces.ite hlow).ite h⟩
  | restartBegin => exact ⟨_, rfl, h.beginRestart.ite h⟩
  | startUpLoading => exact ⟨_, rfl, h.beginLoading.ite h⟩
  | startUpLoadingEnd => exact ⟨_, rfl, h.endLoading.ite h⟩
  | setTrim => exact ⟨_, rfl, h.takeCommand fun _ _ hu => hu.doSetTrim⟩
  | updErase => exact ⟨_, rfl, h.takeCommand fun _ _ hu => hu.doUpdErase⟩
  | updWrite => exact ⟨_, rfl, h.takeCommand fun _ _ hu => hu.doUpdWrite⟩
  | updVerify => exact ⟨_, rfl, h.takeCommand fun _ _ hu => hu.doUpdVerify⟩
  | updActivate => exact ⟨_, rfl, h.takeCommand fun _ _ hu => hu.doUpdActivate⟩
  | blockEraseComplete =>
    refine ⟨_, rfl, ?_⟩
    split
    · exact h.eraseDone
    all_goals exact h
  | rowProgramComplete =>
    refine ⟨_, rfl, ?_⟩
    split
    · next hf =>
      obtain ⟨-, ho⟩ := finishedOp_eq_some hf
      exact h.programDone (h.operation_inSlots ho)
    all_goals exact h
  | verificationEnd => exact ⟨_, rfl, h.verified.ite h⟩
  | slotPointerWriteComplete =>
    refine ⟨_, rfl, ?_⟩
    split
    · exact h.pointerDone
    all_goals exact h
  | counterWriteComplete =>
    refine ⟨_, rfl, ?_⟩
    split
    · exact h.withTables (ho := by nofun)
    all_goals exact h
  | reload =>
    refine ⟨_, rfl, ?_⟩
    split
    · split
      · exact h
      · exact h.reload
    · exact h
  | tamperInputChange active => exact ⟨_, rfl, h.withTables⟩
  | tamperDebounceExpiry => exact ⟨_, rfl, (h.withTables.tamperAssertion.ite h.withTables).ite h⟩
  | _ => simp [blocksOf, Block.round, Block.opening, Block.commit] at hb

theorem arraySafe_step {s t : State} (h : ArraySafe s) (ht : step s = .next t) : ArraySafe t := by
  unfold step at ht
  split at ht
  · obtain rfl := Host.Outcome.next.inj ht
    exact h.elapse
  · next c rest _ =>
    obtain ⟨u, hu, hsafe⟩ := arraySafeBy c (h.beside (t := s.withPending rest) rfl)
    obtain rfl := Host.Outcome.next.inj (hu.symm.trans ht)
    exact hsafe

/-- Settles O57: every operation keeps the array safe, so every command and every microtick does. -/
theorem stepKeepsArraySafe : Obligations.StepKeepsArraySafe := fun _ _ => arraySafe_step

end Sys2Proof.Machine
end

section
/-! ### UPD_ERASE, UPD_WRITE and UPD_VERIFY (R170 to R174) -/

namespace Sys2Proof.Machine

set_option Elab.async false

section Commands
variable {s : State} {c : Command}

/-! #### The engine states in which an image is built (R170) -/

theorem writeGate_busy {e : EngineState} (h : e = .erasing ∨ e = .programming ∨ e = .verifying ∨ e = .activating) :
    e.writeGate = some .busy := by
  rcases h with rfl | rfl | rfl | rfl <;> rfl

theorem writeGate_open {e : EngineState} (h : e = .idle ∨ e = .verified) : e.writeGate = none := by
  rcases h with rfl | rfl <;> rfl

/-- R170: outside IDLE and VERIFIED both commands are answered by the engine state alone. -/
theorem exec_gated {row : Instr} (hrow : row = .updErase ∨ row = .updWrite) (h : s.takeable row = some c)
    (hform : formRight row c.payload.tail = true) {status : ReplyStatus}
    (hgate : s.tables.engine.writeGate = some status) : exec row s = s.answered c status := by
  have hpop : s.popCommand.tables.engine.writeGate = some status := hgate
  rcases hrow with rfl | rfl
  · obtain ⟨block, hblock⟩ := Option.isSome_iff_exists.mp hform
    have hbody : State.doUpdErase block s.popCommand = answer s.popCommand status := by
      simp only [State.doUpdErase, hpop]
    rw [exec_body h hblock rfl, hbody]
    rfl
  · obtain ⟨a, ha⟩ := Option.isSome_iff_exists.mp hform
    have hbody : State.doUpdWrite a s.popCommand = answer s.popCommand status := by
      simp only [State.doUpdWrite, hpop]
    rw [exec_body h ha rfl, hbody]
    rfl

/-! #### What UPD_ERASE and UPD_WRITE begin (R172, R173) -/

/-- R172: the erase of a block of the staging slot. -/
def State.eraseBegun (s : State) (block : Nat) : State :=
  s.withTables
    { s.tables with
      engine := .erasing
      operation := some ⟨.erase (s.stagingSlot.firstBlock + block) false, 20000⟩ }

theorem doUpdErase_open {block : Nat} (hgate : s.tables.engine.writeGate = none) :
    State.doUpdErase block s =
      if 27 < block then refuse s .range else (s.eraseBegun block, .plain .accepted) := by
  simp only [State.doUpdErase, hgate]
  rfl

/-- R173: the program of bytes of one row of the staging slot, whose mark is set. -/
def State.programBegun (s : State) (offset : Nat) (data : List Byte) : State :=
  s.withTables
    { s.tables with
      marks := s.tables.marks.set (offset / 64) true
      engine := .programming
      operation := some ⟨.program (s.stagingSlot.base + offset) data, 1000⟩ }

theorem doUpdWrite_open {a : UpdWriteArgs} (hgate : s.tables.engine.writeGate = none) :
    State.doUpdWrite a s =
      if 57344 ≤ a.offset then refuse s .range
      else if s.tables.marks.getD (a.offset / 64) true = true then refuse s .notErased
      else
        let data := a.data.take (64 - a.offset % 64)
        (s.programBegun a.offset data,
          ⟨if data.length = a.data.length then .accepted else .isPartial, [BitVec.ofNat 8 data.length]⟩) := by
  have hfits : (a.data.take (64 - a.offset % 64)).length = a.data.length ↔ a.data.length ≤ 64 - a.offset % 64 := by
    rw [List.length_take, min_eq_right_iff]
  simp only [State.doUpdWrite, hgate, hfits]
  rfl

/-! #### UPD_VERIFY (R170, R174) -/

theorem doUpdVerify_popCommand (s : State) :
    State.doUpdVerify () s.popCommand =
      match s.tables.engine with
      | .idle => (s.popCommand.withTables { s.tables with engine := .verifying }, .plain .accepted)
      | .erasing | .programming | .verifying | .activating => answer s.popCommand .busy
      | .verified => refuse s.popCommand .state
      | .locked _ => refuse s.popCommand .locked := by
  have hengine : s.popCommand.tables.engine = s.tables.engine := rfl
  unfold State.doUpdVerify
  rw [hengine]
  cases s.tables.engine <;> rfl

end Commands

/-- Settles O51: both commands outside IDLE and VERIFIED, UPD_ERASE and UPD_WRITE inside, and UPD_VERIFY. -/
theorem updateCommands : Obligations.UpdateCommands := by
  refine ⟨fun row s c hrow h hform => ⟨fun he => exec_gated hrow h hform (writeGate_busy he), fun cause he =>
    exec_gated hrow h hform (by rw [he]; rfl)⟩, ?erase, ?write, ?verify⟩
  case erase =>
    intro s c block h hblock he
    have hgate : s.popCommand.tables.engine.writeGate = none := writeGate_open he
    rw [exec_body h hblock rfl, doUpdErase_open hgate]
    split <;> rfl
  case write =>
    intro s c a h ha he
    have hgate : s.popCommand.tables.engine.writeGate = none := writeGate_open he
    have hmarks : s.popCommand.tables.marks = s.tables.marks := rfl
    rw [exec_body h ha rfl, doUpdWrite_open hgate, hmarks]
    dsimp only
    split
    · rfl
    · split <;> rfl
  case verify =>
    intro s c h ha
    rw [exec_body h ha rfl, doUpdVerify_popCommand]
    cases s.tables.engine <;> rfl

end Sys2Proof.Machine
end

section
/-! ### The end of a block erase and of a row program (R167, R171 to R173, R181, R184) -/

namespace Sys2Proof.Machine

set_option Elab.async false

/-- R167: each byte after bytes are stored. -/
theorem Memory.read_writeBytes {a : Nat} {bytes : List Byte} (h : a + bytes.length ≤ arraySize)
    {mem : List Host.Cell} (w : Memory.wf mem = true) (b : Nat) :
    Memory.read (Memory.writeBytes mem a bytes) b =
      if a ≤ b ∧ b < a + bytes.length then bytes.getD (b - a) 0xFF else Memory.read mem b := by
  split
  · next hb =>
    obtain ⟨i, rfl⟩ := Nat.exists_eq_add_of_le hb.1
    have hi : i < bytes.length := by omega
    rw [Memory.read_writeBytes_inside h w hi, Nat.add_sub_cancel_left, List.getD_eq_getElem _ _ hi]
  · exact Memory.read_writeBytes_outside h w (by omega)

section Ends
variable {s : State}

theorem stagingBlock_of {block : Nat} (hb : block < 28) :
    s.stagingBlock (s.stagingSlot.firstBlock + block) = some block := by
  rw [State.stagingBlock, if_pos ⟨Nat.le_add_right _ _, Nat.add_lt_add_left hb _⟩, Nat.add_sub_cancel_left]

/-- R181: a block erase of the tamper erase begins, and nothing else changes. -/
theorem kickTamper_tables (s : State) :
    s.kickTamper.tables = { s.tables with operation := s.kickTamper.tables.operation } := by
  unfold State.kickTamper
  split
  · split <;> rfl
  · rfl

/-! #### The end of an erase (R167, R172, R181) -/

/-- The end of a block erase, up to the block erase of the tamper erase that may follow it. -/
def State.blockErased (s : State) (block : Nat) (tamper : Bool) : State :=
  s.withTables
    { s.tables with
      array := Memory.erase s.tables.array (block * 2048) 2048
      operation := none
      marks := (s.stagingBlock block).elim s.tables.marks (clearMarks s.tables.marks)
      engine := s.tables.engine.afterWork
      tamperErase := if tamper then tamperNext s.tables.tamperErase else s.tables.tamperBegins }

theorem eraseDone_eq (s : State) (block : Nat) (tamper : Bool) :
    s.eraseDone block tamper = (s.blockErased block tamper).kickTamper := by
  unfold State.eraseDone State.blockErased
  cases s.stagingBlock block <;> rfl

theorem exec_blockEraseComplete {block : Nat} {tamper : Bool} (hp : s.power.powered = true)
    (ho : s.tables.operation = some ⟨.erase block tamper, 0⟩) :
    exec .blockEraseComplete s = .next (s.blockErased block tamper).kickTamper := by
  simp only [exec, execBlockEraseComplete, finishedOp_of hp ho, eraseDone_eq]

/-- R167: the bytes of the block are blank, and every other byte is as before. -/
theorem blockErased_read (s : State) (block : Nat) (tamper : Bool) (a : Nat) :
    Memory.read (s.blockErased block tamper).kickTamper.tables.array a =
      if block * 2048 ≤ a ∧ a < (block + 1) * 2048 then 0xFF else Memory.read s.tables.array a := by
  rw [kickTamper_tables, Nat.succ_mul]
  exact Memory.read_erase _ _ _ _

/-- R171: the marks of the block's rows are clear, and every other mark is as before. -/
theorem blockErased_mark {block : Nat} (tamper : Bool) (hm : s.tables.marks.length = 896) (hb : block < 28)
    (row : Nat) :
    (s.blockErased (s.stagingSlot.firstBlock + block) tamper).kickTamper.tables.marks.getD row true =
      if row / 32 = block then false else s.tables.marks.getD row true := by
  rw [kickTamper_tables, State.blockErased, stagingBlock_of hb]
  exact clearMarks_getD hm hb

/-- R172, R184: an engine that was ERASING, or that a reset made IDLE, is IDLE, and no tamper erase follows. -/
theorem blockErased_idle {block : Nat} {tamper : Bool} (he : s.tables.engine = .erasing ∨ s.tables.engine = .idle) :
    (s.blockErased block tamper).tables.engine = .idle ∧
      (s.blockErased block tamper).kickTamper = s.blockErased block tamper := by
  have hengine : (s.blockErased block tamper).tables.engine = .idle := by
    rw [State.blockErased, State.withTables_tables]
    rcases he with he | he <;> rw [he] <;> rfl
  exact ⟨hengine, kickTamper_rests (.inl (by rw [hengine]; nofun))⟩

/-! #### The end of a program (R167, R173, R180) -/

/-- The end of a row program, up to the block erase of the tamper erase that may follow it. -/
def State.rowProgrammed (s : State) (address : Nat) (bytes : List Byte) : State :=
  s.withTables
    { s.tables with
      array := Memory.writeBytes s.tables.array address bytes
      operation := none
      engine := s.tables.engine.afterWork
      tamperErase := s.tables.tamperBegins }

theorem exec_rowProgramComplete {address : Nat} {bytes : List Byte} (hp : s.power.powered = true)
    (ho : s.tables.operation = some ⟨.program address bytes, 0⟩) :
    exec .rowProgramComplete s = .next (s.rowProgrammed address bytes).kickTamper := by
  simp only [exec, execRowProgramComplete, finishedOp_of hp ho]
  rfl

/-- R167: the bytes of the program have their values, and every other byte is as before. -/
theorem rowProgrammed_read {address : Nat} {bytes : List Byte} (h : ArraySafe s)
    (ho : s.tables.operation = some ⟨.program address bytes, 0⟩) (a : Nat) :
    Memory.read (s.rowProgrammed address bytes).kickTamper.tables.array a =
      if address ≤ a ∧ a < address + bytes.length then bytes.getD (a - address) 0xFF
      else Memory.read s.tables.array a := by
  rw [kickTamper_tables]
  exact Memory.read_writeBytes (of_decide_eq_true (h.operation_inSlots ho)) h.array_wf a

/-- R173, R184: an engine that was PROGRAMMING, or that a reset made IDLE, is IDLE, and no tamper erase follows. -/
theorem rowProgrammed_idle {address : Nat} {bytes : List Byte}
    (he : s.tables.engine = .programming ∨ s.tables.engine = .idle) :
    (s.rowProgrammed address bytes).tables.engine = .idle ∧
      (s.rowProgrammed address bytes).kickTamper = s.rowProgrammed address bytes := by
  have hengine : (s.rowProgrammed address bytes).tables.engine = .idle := by
    rw [State.rowProgrammed, State.withTables_tables]
    rcases he with he | he <;> rw [he] <;> rfl
  exact ⟨hengine, kickTamper_rests (.inl (by rw [hengine]; nofun))⟩

end Ends

/-- Settles O52: the end of an erase and the end of a program, of an engine at work or made IDLE by a reset. -/
theorem arrayOperationsEnd : Obligations.ArrayOperationsEnd := by
  refine ⟨fun s block hp _ he ho hb hm => ⟨_, exec_blockEraseComplete hp ho, ?_⟩,
    fun s address bytes hp h he ho => ⟨_, exec_rowProgramComplete hp ho, ?_⟩⟩
  · have hread := blockErased_read s (s.stagingSlot.firstBlock + block) false
    have hmark := blockErased_mark false hm hb
    obtain ⟨hidle, hrests⟩ := blockErased_idle (block := s.stagingSlot.firstBlock + block) (tamper := false) he
    rw [hrests] at hread hmark ⊢
    exact ⟨hidle, rfl, hread, fun row _ => hmark row, rfl, rfl, by simp [State.blockErased]⟩
  · have hread := rowProgrammed_read h ho
    obtain ⟨hidle, hrests⟩ := rowProgrammed_idle (address := address) (bytes := bytes) he
    rw [hrests] at hread ⊢
    exact ⟨hidle, rfl, hread, rfl, rfl, rfl, by simp [State.rowProgrammed]⟩

end Sys2Proof.Machine
end

section
/-! ### Verification and the five checks of an image (R169, R174, R175, R182) -/

namespace Sys2Proof.Machine

set_option Elab.async false

/-! #### The header (R169) -/

section Images
variable (mem : List Host.Cell) (slot : Slot)

/-- A field of bytes taken from a slot. -/
theorem imageField_slot (start : Nat) {n k m : Nat} (h : k + m ≤ n) :
    imageField ((List.range n).map fun i => Memory.read mem (start + i)) k m =
      fromLe (Memory.slice mem (start + k) m) := by
  have hslice : ((Memory.slice mem start n).drop k).take m = Memory.slice mem (start + k) m := by
    refine List.ext_getElem? fun i => ?_
    rcases Nat.lt_or_ge i m with hi | hi
    · rw [List.getElem?_take_of_lt hi, List.getElem?_drop, Memory.slice_getElem? _ _ _ _ (by omega),
        Memory.slice_getElem? _ _ _ _ hi, Nat.add_assoc]
    · rw [List.getElem?_eq_none ((List.length_take_le _ _).trans hi),
        List.getElem?_eq_none (by rw [Memory.slice_length]; exact hi)]
  rw [← slice_eq_map, ← field_eq_imageField, field, hslice]

/-- The header fields stand at their offsets. -/
theorem readHeader_eq :
    readHeader mem slot =
      let header := (List.range 16).map fun i => Memory.read mem (slot.base + i)
      ⟨imageField header 0 4, BitVec.ofNat 32 (imageField header 4 4), imageField header 8 4,
        imageField header 12 1 + 1⟩ := by
  have hone : fromLe (Memory.slice mem (slot.base + 12) 1) = (Memory.read mem (slot.base + 12)).toNat := rfl
  dsimp only
  rw [imageField_slot _ _ (by decide), imageField_slot _ _ (by decide), imageField_slot _ _ (by decide),
    imageField_slot _ _ (by decide), hone]
  rfl

theorem formatOk_iff (h : ImageHeader) :
    h.formatOk = true ↔ h.format = 0x7C20D1A5 ∧ 16 + 6 * h.entries + 16 ≤ h.length ∧ h.length ≤ 57344 := by
  simp only [ImageHeader.formatOk, Bool.and_eq_true, beq_iff_eq, decide_eq_true_eq, and_assoc]
  rfl

/-! #### The checks in their order (R174) -/

variable (secret : List Byte) (versionOk : BitVec 32 → Bool)

/-- The image whose length a header gives. -/
def slotImage (length : Nat) : List Byte := Memory.slice mem slot.base length

theorem slotImage_length (length : Nat) : (slotImage mem slot length).length = length := Memory.slice_length _ _ _

variable {mem slot secret versionOk} {h : ImageHeader} (hh : readHeader mem slot = h)

include hh in
theorem checkImage_format (hf : ¬ h.formatOk = true) : checkImage secret mem slot versionOk = .error .format := by
  subst hh
  simp only [checkImage, if_neg hf]

include hh in
/-- Past FORMAT the directory can be read. -/
theorem checkImage_formatOk (hf : h.formatOk = true) :
    checkImage secret mem slot versionOk =
      let image := slotImage mem slot h.length
      let dir := imageDirectory image h.entries
      if directoryOk h.entries image dir = true then
        match readTables h.version image dir with
        | none => .error .fields
        | some w =>
          if versionOk h.version = true then
            if authentic secret image = true then .ok w else .error .tag
          else .error .version
      else .error .directory := by
  subst hh
  obtain ⟨-, hroom, -⟩ := (formatOk_iff _).mp hf
  have hdir := parseDirectory (slotImage mem slot (readHeader mem slot).length) (readHeader mem slot).entries
    (by rw [slotImage_length]; omega)
  rw [slotImage] at hdir
  simp only [checkImage, if_pos hf, hdir]
  rfl

section FormatOk
variable (hf : h.formatOk = true)
include hf

/-- Past FORMAT the image holds its header. -/
theorem directoryOk_slotImage_iff :
    directoryOk h.entries (slotImage mem slot h.length)
        (imageDirectory (slotImage mem slot h.length) h.entries) = true ↔
      DirectorySound h.entries (slotImage mem slot h.length)
        (imageDirectory (slotImage mem slot h.length) h.entries) := by
  obtain ⟨-, hroom, -⟩ := (formatOk_iff _).mp hf
  exact directoryOk_iff _ _ _ (by rw [slotImage_length]; omega)

include hh

theorem checkImage_directory
    (hd : ¬ DirectorySound h.entries (slotImage mem slot h.length)
      (imageDirectory (slotImage mem slot h.length) h.entries)) :
    checkImage secret mem slot versionOk = .error .directory := by
  rw [checkImage_formatOk hh hf]
  exact if_neg (mt (directoryOk_slotImage_iff hf).mp hd)

section DirectorySound
variable
  (hd : DirectorySound h.entries (slotImage mem slot h.length) (imageDirectory (slotImage mem slot h.length) h.entries))
include hd

theorem checkImage_fields
    (hr : readTables h.version (slotImage mem slot h.length)
      (imageDirectory (slotImage mem slot h.length) h.entries) = none) :
    checkImage secret mem slot versionOk = .error .fields := by
  rw [checkImage_formatOk hh hf]
  dsimp only
  rw [if_pos ((directoryOk_slotImage_iff hf).mpr hd), hr]

theorem checkImage_tables {w : WorkingTables}
    (hr : readTables h.version (slotImage mem slot h.length)
      (imageDirectory (slotImage mem slot h.length) h.entries) = some w) :
    checkImage secret mem slot versionOk =
      if versionOk h.version = true then
        if authentic secret (slotImage mem slot h.length) = true then .ok w else .error .tag
      else .error .version := by
  rw [checkImage_formatOk hh hf]
  dsimp only
  rw [if_pos ((directoryOk_slotImage_iff hf).mpr hd), hr]

end DirectorySound

end FormatOk

/-- R175: tables that pass carry the version of their image, which passed the version check. -/
theorem checkImage_ok_version {w : WorkingTables} (hok : checkImage secret mem slot versionOk = .ok w) :
    versionOk w.version = true := by
  by_cases hf : (readHeader mem slot).formatOk = true
  case neg => cases hok.symm.trans (checkImage_format rfl hf)
  rw [checkImage_formatOk rfl hf] at hok
  dsimp only at hok
  split at hok
  · split at hok
    · cases hok
    · next w' hr =>
      obtain ⟨-, hversion⟩ := readTables_sound hr
      split at hok
      · next hv =>
        split at hok
        · cases hok
          rwa [hversion]
        · cases hok
      · cases hok
  · cases hok

end Images

/-- R169: the tag of an image of known length. -/
theorem authentic_iff {secret image : List Byte} {length : Nat} (hl : image.length = length) :
    authentic secret image = true ↔
      image.drop (length - 16) = (Config.computedTag secret (image.take (length - 16))).toList := by
  rw [authentic, hl, beq_iff_eq]

/-! #### The end of verification (R175) -/

theorem exec_verificationEnd {s : State} (hp : s.power = ⟨true, false⟩) (he : s.tables.engine = .verifying) :
    exec .verificationEnd s = .next (s.verified s.verifyStaging) := by
  simp [exec, execVerificationEnd, operating_of hp, he]

/-- R175: an image that passes verification has a version above the counter. -/
theorem verifyStaging_ok_version {s : State} {w : WorkingTables} (h : s.verifyStaging = .ok w) :
    s.tables.counter < w.version :=
  of_decide_eq_true (checkImage_ok_version (versionOk := fun v => decide (s.tables.counter < v)) h)

/-- Settles O53: the two ends of verification, the image it checks, and the five checks in their order. -/
theorem verificationEnds : Obligations.VerificationEnds := by
  refine ⟨fun s hp he => ⟨fun w hw => ⟨verifyStaging_ok_version hw, ?_⟩, fun r hr => ?_⟩, fun s => rfl, ?checks⟩
  · rw [exec_verificationEnd hp he, hw]
    rfl
  · rw [exec_verificationEnd hp he, hr]
    rfl
  case checks =>
    intro secret mem slot versionOk start header version length n image tagged result format
    have hstart : start = slot.base := by cases slot <;> rfl
    have hh : readHeader mem slot = ⟨imageField header 0 4, version, length, n⟩ := by
      rw [readHeader_eq, ← hstart]
    have himage : slotImage mem slot length = image := by
      rw [slotImage, slice_eq_map, ← hstart]
    have hlength : image.length = length := himage ▸ slotImage_length mem slot length
    have hformat := formatOk_iff ⟨imageField header 0 4, version, length, n⟩
    refine ⟨fun hf => checkImage_format hh (mt hformat.mp hf), fun hf => ?_⟩
    have hok := hformat.mpr hf
    refine ⟨fun hd => checkImage_directory hh hok (by rwa [himage]), fun hd => ?_⟩
    rw [← himage] at hd ⊢
    refine ⟨fun hr => checkImage_fields hh hok hd hr, fun w hr => ?_⟩
    obtain ⟨hsound, hversion⟩ := readTables_sound hr
    have htables := checkImage_tables (secret := secret) (versionOk := versionOk) hh hok hd hr
    have htag : authentic secret (slotImage mem slot length) = true ↔ tagged := by
      rw [himage]
      exact authentic_iff hlength
    refine ⟨hsound, hversion, readTables_laidOut hr, fun hv => ?_, fun hv ht => ?_, fun hv ht => ?_⟩
    · exact htables.trans (if_neg (Bool.eq_false_iff.mp hv))
    · exact htables.trans ((if_pos hv).trans (if_neg (mt htag.mp ht)))
    · exact htables.trans ((if_pos hv).trans (if_pos (htag.mpr ht)))

end Sys2Proof.Machine
end

section
/-! ### The tamper response (R167, R171, R180, R181) -/

namespace Sys2Proof.Machine

set_option Elab.async false

section Tamper
variable {s : State}

/-! #### The TAMPER input (R180) -/

theorem exec_tamperInputChange_same {active : Bool} (h : s.tables.tamper.raw = active) :
    exec (.tamperInputChange active) s = .next s := by
  have hc : s.tables.tamper.change active s.operating tamperDebounce = s.tables.tamper := if_pos h
  simp only [exec, execTamperInputChange, hc]
  rfl

/-- R180: a change of the level starts the debounce, or stops it where the level is the debounced one again. -/
theorem exec_tamperInputChange {active : Bool} (h : s.tables.tamper.raw = !active) :
    exec (.tamperInputChange active) s =
      .next (s.withTables
        { s.tables with
          tamper := ⟨active, s.tables.tamper.debounced,
            if s.power ≠ ⟨true, false⟩ ∨ active = s.tables.tamper.debounced then none else some 10000⟩ }) := by
  have hstops : ¬ (s.operating && !(active == s.tables.tamper.debounced)) = true ↔
      s.power ≠ ⟨true, false⟩ ∨ active = s.tables.tamper.debounced := by
    rw [Bool.and_eq_true, not_and_or, operating_iff, Bool.not_eq_true, Bool.not_eq_false', beq_iff_eq]
  have hc : s.tables.tamper.change active s.operating tamperDebounce =
      ⟨active, s.tables.tamper.debounced,
        if s.power ≠ ⟨true, false⟩ ∨ active = s.tables.tamper.debounced then none else some 10000⟩ := by
    rw [DebouncedInput.change, if_neg (by simp [h]), ← ite_not, if_congr hstops rfl rfl]
    rfl
  simp only [exec, execTamperInputChange, hc]

theorem exec_tamperDebounceExpiry_notDue (h : s.power ≠ ⟨true, false⟩ ∨ s.tables.tamper.interval ≠ some 0) :
    exec .tamperDebounceExpiry s = .next s := by
  have hdue : ¬ (s.operating && expired s.tables.tamper.interval) = true := by
    rwa [Bool.and_eq_true, not_and_or, operating_iff, expired_iff]
  simp only [exec, execTamperDebounceExpiry, if_neg hdue]

/-- The TAMPER input takes its level, and an assertion sets the latch. -/
def State.tamperSettled (s : State) (latch : Bool) : State :=
  s.withTables { s.tables with tamper := s.tables.tamper.settled, tamperLatch := latch || s.tables.tamperLatch }

section Due
variable (hp : s.power = ⟨true, false⟩) (hi : s.tables.tamper.interval = some 0)
include hp hi

theorem exec_tamperDebounceExpiry_inactive (hr : s.tables.tamper.raw = false) :
    exec .tamperDebounceExpiry s = .next (s.tamperSettled false) := by
  simp [exec, execTamperDebounceExpiry, operating_of hp, expired_iff.mpr hi, hr, State.tamperSettled]

theorem exec_tamperDebounceExpiry_active (hr : s.tables.tamper.raw = true) :
    exec .tamperDebounceExpiry s = .next ((s.tamperSettled true).tamperEngine.wakeCause .tamper) := by
  simp [exec, execTamperDebounceExpiry, operating_of hp, expired_iff.mpr hi, hr, State.tamperSettled,
    State.tamperAssertion]

end Due

/-! #### What an assertion does to the engine (R180) -/

theorem tamperEngine_rests (h : s.tables.engine = .activating ∨ s.tables.engine = .locked .tamper) :
    s.tamperEngine = s := by
  rcases h with h | h <;> simp only [State.tamperEngine, h]

theorem tamperEngine_working (h : s.tables.engine = .erasing ∨ s.tables.engine = .programming) :
    s.tamperEngine = s.withTables { s.tables with engine := .locked .tamper } := by
  rcases h with h | h <;> simp only [State.tamperEngine, h] <;> rfl

/-- The engine locked for a tamper assertion, and the tamper erase still to begin. -/
def State.tamperLocked (s : State) : State :=
  s.withTables { s.tables with engine := .locked .tamper, tamperErase := some 0 }

theorem lockTamper_kick (s : State) : s.lockTamper = s.tamperLocked.kickTamper := rfl

/-- R180, R181, log 19: the first block erase of the tamper erase begins at once, unless the array is at work or
start-up loading waits for it. -/
theorem lockTamper_eq (s : State) :
    s.lockTamper =
      s.withTables
        { s.tables with
          engine := .locked .tamper
          tamperErase := some 0
          operation := match s.tables.operation with
            | none =>
              if s.tables.startUp = .waiting then none else some ⟨.erase s.stagingSlot.firstBlock true, 20000⟩
            | some o => some o } := by
  cases ho : s.tables.operation with
  | some o =>
    rw [lockTamper_kick, kickTamper_rests (.inr (.inr (.inl (ho ▸ nofun))))]
    simp only [State.tamperLocked, ho]
  | none =>
    rw [lockTamper_kick, kickTamper_free (s := s.tamperLocked) (block := 0) ho fun _ => rfl]
    simp [State.tamperLocked, State.stagingSlot]

/-- R180: an assertion abandons verification. -/
theorem tamperEngine_locks (ha : s.tables.engine ≠ .activating) (hl : s.tables.engine ≠ .locked .tamper)
    (he : s.tables.engine ≠ .erasing) (hp : s.tables.engine ≠ .programming) :
    s.tamperEngine =
      (s.withTables
        { s.tables with
          lastVerification :=
            if s.tables.engine = .verifying then .abandoned else s.tables.lastVerification }).lockTamper := by
  unfold State.tamperEngine
  cases h : s.tables.engine with
  | activating => exact absurd h ha
  | erasing => exact absurd h he
  | programming => exact absurd h hp
  | locked cause =>
    cases cause with
    | tamper => exact absurd h hl
    | fails => rfl
  | _ => rfl

/-! #### The block erases of the tamper erase (R181) -/

/-- R181: an erase that the next block erase of the tamper erase follows. -/
theorem kickTamper_next {block : Nat} (he : s.tables.engine = .locked .tamper) (hs : s.tables.startUp ≠ .waiting)
    (ho : s.tables.operation = none) (hb : s.tables.tamperErase = some block) :
    s.kickTamper.tables.tamperErase = some block ∧
      s.kickTamper.tables.operation = some ⟨.erase (s.stagingSlot.firstBlock + block) true, 20000⟩ := by
  rw [kickTamper_begins he hs ho hb]
  exact ⟨hb, rfl⟩

/-- R181: an erase that no other follows. -/
theorem kickTamper_last (ho : s.tables.operation = none) (hb : s.tables.tamperErase = none) :
    s.kickTamper.tables.tamperErase = none ∧ s.kickTamper.tables.operation = none := by
  rw [kickTamper_rests (.inr (.inr (.inr hb)))]
  exact ⟨hb, ho⟩

theorem kickTamper_engine (s : State) : s.kickTamper.tables.engine = s.tables.engine := by rw [kickTamper_tables]

theorem afterWork_locked {e : EngineState} {cause : LockCause} (h : e = .locked cause) :
    e.afterWork = .locked cause := by
  rw [h]
  rfl

/-- R180: behind an erase or a program of the engine the tamper erase begins at block 0. -/
theorem tamperBegins_locked (h : s.tables.engine = .locked .tamper) : s.tables.tamperBegins = some 0 := if_pos h

end Tamper

/-- Settles O55: the TAMPER input and its debounce, what an assertion does by engine state, and the ends of an erase and
of a program under LOCKED(TAMPER). -/
theorem tamperLocksAndErases : Obligations.TamperLocksAndErases := by
  refine ⟨⟨fun s active => ⟨exec_tamperInputChange_same, exec_tamperInputChange⟩,
    fun s => exec_tamperDebounceExpiry_notDue, ?assertion⟩, ?erase, ?program⟩
  case assertion =>
    intro s hp hi settled
    refine ⟨fun hr => exec_tamperDebounceExpiry_inactive hp hi hr, fun hr he => ?_, fun hr he => ?_,
      fun hr ha hl he hg => ?_⟩ <;> rw [exec_tamperDebounceExpiry_active hp hi hr]
    · rw [tamperEngine_rests (by exact he)]
      rfl
    · rw [tamperEngine_working (by exact he)]
      rfl
    · rw [tamperEngine_locks (by exact ha) (by exact hl) (by exact he) (by exact hg), lockTamper_eq]
      rfl
  case erase =>
    intro s block tamper hp _ he hs hm ho hb
    have hengine : (s.blockErased (s.stagingSlot.firstBlock + block) tamper).tables.engine = .locked .tamper :=
      afterWork_locked he
    have hnext {n : Nat}
        (h : (s.blockErased (s.stagingSlot.firstBlock + block) tamper).tables.tamperErase = some n) :=
      kickTamper_next hengine hs rfl h
    refine ⟨_, exec_blockEraseComplete hp ho, (kickTamper_engine _).trans hengine, blockErased_read s _ tamper,
      fun row _ => blockErased_mark tamper hm hb row, fun ht => ?_, fun ht hn hlt => ?_, fun ht hn hlast => ?_,
      by simp [State.blockErased]⟩
    · subst ht
      exact hnext (tamperBegins_locked he)
    · subst ht
      refine hnext ?_
      show tamperNext s.tables.tamperErase = some (block + 1)
      rw [hn]
      exact if_pos hlt
    · subst ht
      refine kickTamper_last rfl ?_
      show tamperNext s.tables.tamperErase = none
      rw [hn]
      exact if_neg (by omega)
  case program =>
    intro s address bytes hp h he hs ho
    have hengine : (s.rowProgrammed address bytes).tables.engine = .locked .tamper := afterWork_locked he
    obtain ⟨herase, hop⟩ := kickTamper_next hengine hs rfl (tamperBegins_locked he)
    exact ⟨_, exec_rowProgramComplete hp ho, (kickTamper_engine _).trans hengine, rowProgrammed_read h ho,
      by rw [kickTamper_tables]; rfl, herase, hop, by simp [State.rowProgrammed]⟩

end Sys2Proof.Machine
end

section
/-! ### A step with a command in front, and the blocks of every command -/

namespace Sys2Proof.Machine

/-! #### The queue of commands (log 1) -/

/-- A step takes the front command off the queue and carries it out on the rest. -/
theorem step_front {c : Instr} {rest : List Instr} {s : State} (h : s.pending = c :: rest) :
    step s = exec c (s.withPending rest) := by
  rw [step, h]

/-- Settles O1: the queue that taking the front command leaves is the queue of `s`. -/
theorem stepTakesFrontCommand : Obligations.StepTakesFrontCommand := by
  intro c s
  calc step (s.withPending (c :: s.pending))
    _ = exec c ((s.withPending (c :: s.pending)).withPending s.pending) := step_front (s.withPending_pending _)
    _ = exec c s := by rw [State.withPending_withPending, State.withPending_self]

/-! #### Every command -/

/-- The queue of commands is no command's block. -/
theorem pending_not_mem_blocksOf (i : Instr) : Block.pending ∉ blocksOf i := by
  cases i <;> simp [blocksOf, Block.allBlocks, Block.round, Block.opening, Block.commit]

/-- Settles O3: every command keeps to its blocks, and the queue of commands is none of them. -/
theorem everyCommandCompletesInItsBlocks : Obligations.EveryCommandCompletesInItsBlocks := by
  intro i s
  obtain ⟨t, ht, htouches⟩ := exec_touches i s
  have hpending : sameBlock .pending s t := htouches .pending (pending_not_mem_blocksOf i)
  exact ⟨t, ht, htouches, hpending⟩

end Sys2Proof.Machine
end
